-- ==== Sys2Proof/Word.lean ====
section
/-! DEFINITION. The byte, the bay number, the register word and the time unit of the Zelwar ZW1610. -/

namespace Sys2Proof

/-- One byte of the Shared Window, of a link frame or of an SPI transaction. -/
abbrev Byte := BitVec 8

/-- A bay number, 0 to 15 (00, Numbering). -/
abbrev BayId := Fin 16

/-- One of the five 16-bit registers of the Manager Port (10, section 10.2). -/
abbrev RegWord := BitVec 16

/-- A 3-bit Sequence of a link frame (R82). -/
abbrev Sequence := BitVec 3

/-- A time in ms as the µs that the timers of the part are kept in (log entry 1). -/
def ms (n : Nat) : Nat := n * 1000

end Sys2Proof
end

