-- ==== Sys2Proof/Config.lean ====
section
/-! DEFINITION. The figures the manual fixes for the part. The manual leaves no value of a command's result open, so no
free value stands here. -/

namespace Sys2Proof.Config

/-- The size of the Shared Window in bytes (00; 10, section 10.4). -/
def windowSize : Nat := 8192

/-- The size of the journal ring in bytes (R147). -/
def ringSize : Nat := 4096

/-- The window address of ring offset 0 (07, section 7.2). -/
def ringBase : Nat := 4096

/-- Half a ring: the unread bytes at which JOURNAL is set at once (R158). -/
def journalHalf : Nat := 2048

/-- The stable period of the PRES and LATCH filters, in ms (R61). -/
def presencePeriod : Nat := 20

/-- The stable period of the SUPPLY_LOW filter, in ms (R61, R73). -/
def supplyPeriod : Nat := 10

/-- The rest period of a full reset, in ms (R30). -/
def resetRest : Nat := 400

/-- The InitTimer of an INIT that clears the whole window, in µs (R162). -/
def initWhole : Nat := 2000

/-- The InitTimer of an INIT that clears the part-owned areas, in µs (R162). -/
def initPartOwned : Nat := 1000

/-- The half-period of the blink timer while no shelf commit has been accepted, in ms (R76). -/
def blinkDefault : Nat := 500

/-- The turnaround of a bay link, in µs (R81). -/
def turnaround : Nat := 150

/-- The wait for an acknowledgement and the resend deadline, in µs (R93, R94). -/
def ackWait : Nat := 3000

/-- The probe period of a LOST link, in ms (R101). -/
def probePeriod : Nat := 1000

/-- Three bit times, in µs: the line high for longer ends Discarding (R84, R85). -/
def threeBitTimes : Nat := 24

/-- The quality counter value that calls for a QUALITY record (R103). -/
def qualityThreshold : Nat := 128

/-- The ID register (10, section 10.2). -/
def idValue : RegWord := 0x1610#16

/-- The time one step on an empty queue lets pass, in µs. DESIGN CHOICE, log entry 1: the greatest time that divides
every period the model counts. -/
def tick : Nat := 50

end Sys2Proof.Config
end

