-- ==== Sys2Proof/Syntax.lean ====
section
/-! DEFINITION. The commands of the block: one constructor of `Instr` for each row of spec/opcode_table.json. -/

namespace Sys2Proof

/-- The stable-level filters (R61): PRES and LATCH of each bay and SUPPLY_LOW of the shelf. -/
inductive FilterInput where
  | pres (b : BayId)
  | latch (b : BayId)
  | supplyLow
  deriving DecidableEq, Repr

/-- What has followed the command byte of an SPI transaction so far (R185): the full bytes shifted in, how many bits of
one more byte, and whether CSn has risen. A whole transaction is one command; one that other events fall into is several,
each with all the bytes up to its moment (log entry 10). -/
structure SpiBytes where
  bytes : List Byte
  extraBits : Nat
  ended : Bool
  deriving DecidableEq, Repr

/-- A command: an event that the part takes whole (R1). Names and order are those of the table's rows. -/
inductive Instr where
  /-- Power-on reset or RESETn (R164). -/
  | fullReset
  /-- The end of a transaction with command byte 00h (R131, R186). -/
  | windowWrite (tx : SpiBytes)
  /-- A transaction with command byte 80h (R187). -/
  | windowRead (tx : SpiBytes)
  /-- A transaction with command byte C0h (R188). -/
  | registerRead (tx : SpiBytes)
  /-- A transaction with any other command byte, or with CSn low and its command byte not yet complete: none (R185; log entry
  48). -/
  | unknownCommand (command : Option Byte) (tx : SpiBytes)
  /-- A register write transaction that writes 1 to SOFT_RESET (R190). -/
  | softReset (tx : SpiBytes)
  /-- A register write transaction that writes 1 to OVERFLOW of ATTN_PENDING (R189). -/
  | clearOverflow (tx : SpiBytes)
  /-- A register write transaction that writes 1 to FAULT of ATTN_PENDING (R189). -/
  | clearFault (tx : SpiBytes)
  /-- A register write transaction that writes 1 to WAKE of ATTN_PENDING (R189). -/
  | clearWake (tx : SpiBytes)
  /-- A register write transaction that writes ATTN_ENABLE (R189). -/
  | attnEnableWrite (tx : SpiBytes)
  /-- A register write transaction of which every bit is dropped (R188). -/
  | droppedRegisterWrite (tx : SpiBytes)
  /-- The InitTimer expires (R165). -/
  | initTimerExpiry
  /-- An edge of a filtered input; `level` is the level after it (present, closed, active) (R61). -/
  | stableFilterEdge (i : FilterInput) (level : Bool)
  /-- The PRES filter of the bay expires with a changed level (R62). -/
  | presConfirmed (b : BayId)
  /-- The LATCH filter of the bay expires with a changed level (R63). -/
  | latchConfirmed (b : BayId)
  /-- The SUPPLY_LOW filter expires with a changed level (R73). -/
  | supplyLowConfirmed
  /-- The synchronized FLT level of the bay changes (R65). -/
  | fltEdge (b : BayId) (asserted : Bool)
  /-- A 100 µs tick brings FltTicks to the threshold (R65). -/
  | faultConfirmed (b : BayId)
  /-- The synchronized PG level rises (R69). -/
  | pgBecomesActive (b : BayId)
  /-- The synchronized PG level falls (R69). -/
  | pgBecomesInactive (b : BayId)
  /-- The phase timer expires in RAMP (R11). -/
  | rampExpiry (b : BayId)
  /-- The phase timer expires in SETTLE (R12). -/
  | settleExpiry (b : BayId)
  /-- The phase timer expires in DRAIN (R16). -/
  | drainExpiry (b : BayId)
  /-- The phase timer expires in CUTOFF (R18). -/
  | dischargeExpiry (b : BayId)
  /-- The rest timer expires (R20). -/
  | restExpiry (b : BayId)
  /-- The DeadlineTimer expires (R171). -/
  | quiesceDeadlineExpiry
  /-- The HoldoffTimer expires (R157). -/
  | holdoffTimerExpiry
  /-- The blink timer ends a half-period (R76). -/
  | blinkHalfPeriodEnd
  /-- The midpoint of a half-period (R77). -/
  | flashMidpoint
  /-- The LinkTimer expires while LOST (R101). -/
  | linkTimerExpiry (b : BayId)
  /-- The AckTimer of the in-flight message expires (R94). -/
  | ackTimerExpiry (b : BayId)
  /-- The line is found low while the part releases it (R95). -/
  | collision (b : BayId)
  /-- The front entry of the transmit list begins to be sent (R93). -/
  | sendingStart (b : BayId)
  /-- A message in AwaitingResend begins to be sent again (R94). -/
  | resendStart (b : BayId)
  /-- The pending ACK begins to be sent (R89). -/
  | ackSendStart (b : BayId)
  /-- The part's message frame ends (R93). -/
  | messageFrameEnd (b : BayId)
  /-- The part's ACK frame ends (R89). -/
  | ackFrameEnd (b : BayId)
  /-- A valid ACK frame from the module completes (R93). -/
  | ack (b : BayId) (seq : Sequence)
  /-- A HELLO frame with a good check completes (R107). -/
  | hello (b : BayId) (seq : Sequence) (payload : List Byte)
  /-- A DEMAND frame with a good check completes (R111). -/
  | demand (b : BayId) (seq : Sequence) (payload : List Byte)
  /-- A RELEASE frame with a good check completes (R115). -/
  | release (b : BayId) (seq : Sequence) (payload : List Byte)
  /-- A TROUBLE frame with a good check completes (R116). -/
  | trouble (b : BayId) (seq : Sequence) (payload : List Byte)
  /-- A NOTE frame with a good check completes (R117). -/
  | note (b : BayId) (seq : Sequence) (payload : List Byte)
  /-- A frame completes with the header, payload and check received, and the check is not good (R87, test 1). -/
  | badCheckFrame (b : BayId) (header : BitVec 16) (payload : List Byte) (check : BitVec 16)
  /-- A frame with a good check completes and fails test 2 of R87. -/
  | invalidFrame (b : BayId) (header : BitVec 16) (payload : List Byte)
  /-- A received header gives a Length above 32 (R85). -/
  | oversizeFrame (b : BayId) (header : BitVec 16)
  /-- A frame ends abnormally; `lineHigh` is the line's level then, `sinceEdge` the µs since its last edge (R86). -/
  | abnormalEnd (b : BayId) (lineHigh : Bool) (sinceEdge : Nat)
  /-- A reception ends before a start delimiter (R84). -/
  | preambleFailed (b : BayId) (lineHigh : Bool) (sinceEdge : Nat)
  /-- The line has been high for more than three bit times while Discarding (R85). -/
  | discardingEnd (b : BayId) (sinceEdge : Nat)
  /-- A falling edge on an idle LINK line (R84). -/
  | receptionBegins (b : BayId)
  /-- A stable-level timer expires with the input back at its confirmed level (R61). -/
  | stablePeriodExpiryUnchanged (i : FilterInput)
  /-- The line rises after the part stopped for a collision (R95), or on any link whose line was held low (log entry 26). -/
  | lineHighAfterCollision (b : BayId)
  deriving DecidableEq, Repr

end Sys2Proof
end

