-- ==== Sys2Proof/Machine/State.lean ====
section
/-! DEFINITION. The state of the ZW1610: every field the manual gives a block, as plain data, and its value right
after a full reset. -/

namespace Sys2Proof.Machine

/-! ## Bay Sequencer (R2) -/

/-- The ten bay states (R2). -/
inductive BayState where
  | empty | off | rest | queued | ramp | settle | on | drain | cutoff | faulted
  deriving DecidableEq, Repr

/-- The committed target of a bay (R2). -/
inductive Target where
  | off | on | cut
  deriving DecidableEq, Repr

/-- The committed Lamp field (R2, R75). -/
inductive LampMode where
  | auto | off | on | blink
  deriving DecidableEq, Repr

/-- The source of the figures of the current start (R2, R8). -/
inductive Basis where
  | demand | blind
  deriving DecidableEq, Repr

/-- The committed intent of a bay (R2, R130). Figures in power units; times in the units of R130. -/
structure Intent where
  target : Target
  lamp : LampMode
  priority : Nat
  cap : Nat
  blind : Bool
  latchSensed : Bool
  rampWindow : Nat
  settleDelay : Nat
  drainWait : Nat
  dischargeWindow : Nat
  restInterval : Nat
  faultFilter : Nat
  retryLimit : Nat
  deriving DecidableEq, Repr

/-- A known demand of a module, after normalising (R2, R110). -/
structure Demand where
  ramp : Nat
  hold : Nat
  clipped : Bool
  deriving DecidableEq, Repr

/-- The bay context (R2). -/
structure BayContext where
  state : BayState
  /-- The time left, in µs; running exactly in a timed state outside INIT, 0 when stopped (R3; log entry 1). -/
  phaseTimer : Nat
  intent : Intent
  demand : Option Demand
  pending : Bool
  basis : Basis
  admissionStamp : BitVec 32
  troubleHold : Bool
  clearRequested : Bool
  deriving DecidableEq, Repr

/-! ## Input Conditioner (R60) -/

/-- The per-bay Input Conditioner (R60), with the synchronized pin levels it looks at. -/
structure BayInputs where
  /-- The synchronized PRES pin: module present. -/
  presPin : Bool
  presTimer : Option Nat
  presConfirmed : Bool
  /-- The synchronized LATCH pin: latch closed. -/
  latchPin : Bool
  latchTimer : Option Nat
  latchConfirmed : Bool
  /-- The synchronized FLT pin: fault asserted. -/
  fltPin : Bool
  fltTicks : Nat
  fltLevel : Bool
  /-- A tick of the 100 µs base has come that FltTicks has still to count, since it brings it to the threshold: the model's
  own, taken by FAULT_CONFIRMED (R65; log entry 31). -/
  fltTickDue : Bool
  pgLevel : Bool
  faultCount : Nat
  deriving DecidableEq, Repr

/-- The shelf instance of the Input Conditioner, for SUPPLY_LOW (R60, R73). -/
structure SupplyInput where
  pin : Bool
  timer : Option Nat
  confirmed : Bool
  deriving DecidableEq, Repr

/-! ## Link Engine (R79) -/

/-- The link states (R79). -/
inductive LinkState where
  | detached | unbound | bound | lost
  deriving DecidableEq, Repr

/-- What the engine is doing with the line (R79). -/
inductive LineState where
  | idle | receiving | discarding | transmitting
  deriving DecidableEq, Repr

/-- The reasons a PREPARE can carry (R120). -/
inductive DrainReason where
  | target | trouble | latchOpen | shed | quiesce
  deriving DecidableEq, Repr

/-- A message of the part, as an entry of the transmit list or in flight (R91; payloads of 10, section 10.6). -/
inductive TxEntry where
  | limit (cap : Nat)
  | grant (ramp hold : Nat)
  | wait (position : Nat)
  | prepare (drainWait : Nat) (reason : DrainReason)
  | parcel (payload : List Byte)
  | probe
  deriving DecidableEq, Repr

/-- The phase of the in-flight message (R79). -/
inductive TxPhase where
  | sending | awaitingAck | awaitingResend
  deriving DecidableEq, Repr

/-- The in-flight message (R79). `ackTimer` counts µs and is stopped while the message is being sent (R94). -/
structure InFlight where
  entry : TxEntry
  sequence : Sequence
  attempts : Nat
  phase : TxPhase
  ackTimer : Option Nat
  deriving DecidableEq, Repr

/-- A frame as the part drives it on the line (R82). -/
structure Frame where
  header : BitVec 16
  payload : List Byte
  check : BitVec 16
  deriving DecidableEq, Repr

/-- The four quality counters (R103). -/
structure QualityCounters where
  badCheck : Nat
  dropped : Nat
  duplicates : Nat
  retries : Nat
  deriving DecidableEq, Repr

/-- The Reported flag of each quality counter (R79, R103). -/
structure ReportedFlags where
  badCheck : Bool
  dropped : Bool
  duplicates : Bool
  retries : Bool
  deriving DecidableEq, Repr

/-- The Link Engine of a bay (R79). `txFrame` is the frame being transmitted; it is absent while LineState is
Transmitting only after a collision, until the line is high again (R95). -/
structure LinkEngine where
  linkState : LinkState
  lineState : LineState
  /-- The level the line has while the part releases it, true for high, as the last edge told it (R81; log entries 6, 26
  and 47). -/
  lineHigh : Bool
  /-- µs (R81). -/
  idleTime : Nat
  rxBuffer : List Byte
  pendingAck : Option Sequence
  txList : List TxEntry
  inFlight : Option InFlight
  nextSequence : Sequence
  lastSequence : Sequence
  filterValid : Bool
  linkTimer : Option Nat
  counters : QualityCounters
  reported : ReportedFlags
  txFrame : Option Frame
  deriving DecidableEq, Repr

/-! ## Dialogue Unit (R105) -/

/-- The outbox slot statuses (R105). -/
inductive SlotStatus where
  | free | posted | sending | sent | failed | abandoned
  deriving DecidableEq, Repr

/-- The Dialogue Unit of a bay (R105), with the fields of the module directory entry it alone holds (R109). -/
structure DialogueUnit where
  parcelCopy : Option (List Byte)
  slotStatus : SlotStatus
  malformed : Nat
  moduleClass : Byte
  linkRevision : Byte
  /-- The eight Identity bytes, first byte first. -/
  identity : List Byte
  deriving DecidableEq, Repr

/-- How a bay came through a quiesce (R162, R170). -/
inductive QuiesceOutcome where
  | none | released | expired | cut | faulted | absent | wasOff
  deriving DecidableEq, Repr

/-- A PARCEL record with cause Reset that is owed at HELD entry (R127). -/
structure OwedParcel where
  length : Nat
  attempts : Nat
  deriving DecidableEq, Repr

/-- Everything the part holds once for each bay. `charge` and `grantedHold` are the pool's (R32), `applied` is the
Applied byte of the bay's intent record (R130), `quiesceOutcome` the Shelf Controller's (R162). -/
structure Bay where
  ctx : BayContext
  inputs : BayInputs
  link : LinkEngine
  dialogue : DialogueUnit
  charge : Nat
  grantedHold : Nat
  /-- The model's own: the charge held in SETTLE, by a bay that has reached ON since time last passed (R112; DESIGN CHOICE,
  log entry 44). -/
  settledFrom : Option Nat
  applied : Byte
  quiesceOutcome : QuiesceOutcome
  /-- The old state that the STATE record of the end of INIT carries (R30, R31). -/
  resetOldState : BayState
  owedParcel : Option OwedParcel
  deriving DecidableEq, Repr

/-! ## Admission Controller (R32, R36) -/

/-- The Budget Pool but for the per-bay charges (R32). -/
structure Pool where
  budget : Nat
  reserve : Nat
  lowBudget : Nat
  supplyLow : Bool
  effectiveBudget : Nat
  committed : Nat
  arrivalCounter : BitVec 32
  deriving DecidableEq, Repr

/-- What a queue entry asks for (R36). -/
inductive EntryKind where
  | start | raise
  deriving DecidableEq, Repr

/-- An entry of the Admission Queue (R36). -/
structure QueueEntry where
  bay : BayId
  kind : EntryKind
  amount : Nat
  priority : Nat
  arrival : BitVec 32
  clipped : Bool
  deriving DecidableEq, Repr

/-! ## Snapshot and Journal Writer (R146, R180) -/

/-- One latched entry of a snapshot (R180). -/
structure SnapEntry where
  bay : BayId
  state : BayState
  linkState : LinkState
  target : Target
  charge : Nat
  phaseRemaining : Nat
  position : Nat
  raiseAmount : Nat
  counters : QualityCounters
  faultCount : Nat
  pres : Bool
  latch : Bool
  flt : Bool
  pg : Bool
  en : Bool
  deriving DecidableEq, Repr

/-- A SNAPSHOT record that was latched (R182): the Shelf Time of the latch, SnapMask and the entries. -/
structure Snapshot where
  time : BitVec 32
  mask : BitVec 16
  entries : List SnapEntry
  deriving DecidableEq, Repr

/-- The Journal Writer (R146) and BadTail, which stands in the same area (R142). -/
structure Journal where
  head : Nat
  headWrap : Bool
  tail : Nat
  tailWrap : Bool
  lost : Nat
  overflow : Bool
  badTail : Bool
  stamp : Byte
  shelfTime : BitVec 32
  holdoffTimer : Option Nat
  waitingSnapshot : Option Snapshot
  deriving DecidableEq, Repr

/-! ## Shelf Controller (R162) -/

/-- The shelf states (R162). -/
inductive ShelfState where
  | init | held | run | quiescing | standby
  deriving DecidableEq, Repr

/-- The committed Mode (R128). -/
inductive Mode where
  | hold | run | quiesce
  deriving DecidableEq, Repr

/-- What INIT clears in the window (R162, R164). -/
inductive ClearScope where
  | whole | partOwned
  deriving DecidableEq, Repr

/-- Whether a waiting snapshot stands (R129). -/
inductive SnapStatus where
  | idle | pending
  deriving DecidableEq, Repr

/-- The shelf context: the committed fields of the last accepted shelf commit (R128). -/
structure ShelfContext where
  mode : Mode
  budget : Nat
  reserve : Nat
  lowBudget : Nat
  quiesceDeadline : Nat
  holdoff : Nat
  blinkHalfPeriod : Nat
  wakeEnable : Bool
  deriving DecidableEq, Repr

/-- The shelf blink timer (R76): its length in ms, what remains in µs. `remaining` is absent while it is stopped; `pastMidpoint` says that half the
half-period has passed (R77). -/
structure BlinkTimer where
  lit : Bool
  length : Nat
  remaining : Option Nat
  pastMidpoint : Bool
  deriving DecidableEq, Repr

/-- The Shelf Controller (R162), the snapshot status (R182) and the shelf record's Applied byte (R129). -/
structure Shelf where
  state : ShelfState
  /-- µs (R162). -/
  initTimer : Option Nat
  clearScope : ClearScope
  context : ShelfContext
  deadlineTimer : Option Nat
  wakeBits : BitVec 16
  snapStatus : SnapStatus
  snapCount : BitVec 16
  blink : BlinkTimer
  applied : Byte
  deriving DecidableEq, Repr

/-! ## Manager Port (R185, R189) -/

/-- What a command byte makes of a transaction (R185). -/
inductive SpiKind where
  | windowWrite | windowRead | registerWrite | registerRead | unknown
  deriving DecidableEq, Repr

/-- The aligned group of window bytes, or the register, that the port has taken last in a read transaction, by its place
in a row of such groups (R187, R188). -/
structure HeldGroup where
  index : Nat
  bytes : List Byte
  deriving DecidableEq, Repr

/-- The transaction in progress on the port: the bytes shifted in after its command byte, the data a read has returned,
and the group it reads from (R185 to R188). -/
structure Transfer where
  kind : SpiKind
  bytes : List Byte
  data : List Byte
  held : Option HeldGroup
  deriving DecidableEq, Repr

/-- The SPI port (R185): free with CSn high; with CSn low and the command byte not yet complete; in a transaction; or, with
CSn low since before a full reset, taking nothing until CSn rises. -/
inductive SpiPort where
  | idle
  | selected
  | active (t : Transfer)
  | ignoring
  deriving DecidableEq, Repr

/-- The four attention causes, as ATTN_PENDING and as ATTN_ENABLE hold them (R189). The reserved bits of both
registers read 0 and are not stored. -/
structure Causes where
  journal : Bool
  overflow : Bool
  fault : Bool
  wake : Bool
  deriving DecidableEq, Repr

/-- The stored bytes of the Shared Window, canonical: addresses strictly rising, no byte 0; an unlisted address reads
0, as INIT leaves it (R164). -/
abbrev Memory := List Host.Cell

/-- The state of the part. `pending` and `timeBase` are the model's own (log entries 1 and 5). -/
structure State where
  bays : Vector Bay 16
  pool : Pool
  queue : List QueueEntry
  journal : Journal
  shelf : Shelf
  supply : SupplyInput
  attnPending : Causes
  attnEnable : Causes
  window : Memory
  port : SpiPort
  /-- The bytes the part has shifted out during the SPI transaction in progress, or during the last one, first byte first
  (R185). -/
  miso : List Byte
  /-- µs elapsed within the present millisecond of the time bases. -/
  timeBase : Nat
  /-- The commands that wait, first in, first out. -/
  pending : List Instr
  deriving DecidableEq, Repr

/-- Why the machine stops with a fault. The manual gives the part no such stop (INVENTORY.md, Faults), so there is no
constructor: that no command faults is safe, since every command has the effect the manual gives it. -/
inductive Fault
  deriving DecidableEq, Repr

/-- Why a command is refused. -/
inductive Refusal where
  /-- Raised by an arm of `exec` for a command that has no meaning yet. Safe: nothing can be proved of the command. -/
  | notModelled (mnemonic : String)
  deriving DecidableEq, Repr

/-- What a command answers. -/
abbrev Result := Host.Outcome State Fault Refusal

/-! ## Reset values -/

/-- The zero intent (R30). -/
def Intent.zero : Intent where
  target := .off
  lamp := .auto
  priority := 0
  cap := 0
  blind := false
  latchSensed := false
  rampWindow := 0
  settleDelay := 0
  drainWait := 0
  dischargeWindow := 0
  restInterval := 0
  faultFilter := 0
  retryLimit := 0

/-- The bay context cleared to the values of R30, holding a state and a rest period in µs. Basis is not in R30's list:
DESIGN CHOICE Demand, log entry 7. -/
def BayContext.cleared (rest : Nat) : BayContext where
  state := .rest
  phaseTimer := rest
  intent := .zero
  demand := none
  pending := false
  basis := .demand
  admissionStamp := 0
  troubleHold := false
  clearRequested := false

/-- Quality counters all 0 (R104). -/
def QualityCounters.zero : QualityCounters := ⟨0, 0, 0, 0⟩

/-- Reported flags all clear (R104). -/
def ReportedFlags.clear : ReportedFlags := ⟨false, false, false, false⟩

/-- The Link Engine after either reset, with the level of its line as it stands (R104). RxBuffer is not in R104's list:
DESIGN CHOICE empty, log entry 7. -/
def LinkEngine.reset (high : Bool) : LinkEngine where
  linkState := .detached
  lineState := .idle
  lineHigh := high
  idleTime := 0
  rxBuffer := []
  pendingAck := none
  txList := []
  inFlight := none
  nextSequence := 0
  lastSequence := 0
  filterValid := false
  linkTimer := none
  counters := .zero
  reported := .clear
  txFrame := none

/-- The Dialogue Unit with its directory entry cleared and a slot status (R127). -/
def DialogueUnit.cleared (status : SlotStatus) : DialogueUnit where
  parcelCopy := none
  slotStatus := status
  malformed := 0
  moduleClass := 0
  linkRevision := 0
  identity := List.replicate 8 0

/-- The Input Conditioner of a bay after either reset, with the pins as they stand (R64, R68, R69, R71). -/
def BayInputs.reset (pres latch flt pg : Bool) : BayInputs where
  presPin := pres
  presTimer := some (ms Config.presencePeriod)
  presConfirmed := false
  latchPin := latch
  latchTimer := some (ms Config.presencePeriod)
  latchConfirmed := false
  fltPin := flt
  fltTicks := 0
  fltLevel := false
  fltTickDue := false
  pgLevel := pg
  faultCount := 0

/-- A bay after a full reset, with its pins as they stand (R30, R58, R64, R104, R127, R162). -/
def Bay.reset (pres latch flt pg high : Bool) : Bay where
  ctx := .cleared (ms Config.resetRest)
  inputs := .reset pres latch flt pg
  link := .reset high
  dialogue := .cleared .free
  charge := 0
  grantedHold := 0
  settledFrom := none
  applied := 0
  quiesceOutcome := .none
  resetOldState := .rest
  owedParcel := none

/-- The pool after a reset, with the SupplyLow the reset gives it (R58, R59). -/
def Pool.reset (low : Bool) : Pool where
  budget := 0
  reserve := 0
  lowBudget := 0
  supplyLow := low
  effectiveBudget := 0
  committed := 0
  arrivalCounter := 0

/-- The Journal Writer after either reset (R160, R161). -/
def Journal.reset : Journal where
  head := 0
  headWrap := false
  tail := 0
  tailWrap := false
  lost := 0
  overflow := false
  badTail := false
  stamp := 0
  shelfTime := 0
  holdoffTimer := none
  waitingSnapshot := none

/-- The zero shelf context (R128). -/
def ShelfContext.zero : ShelfContext := ⟨.hold, 0, 0, 0, 0, 0, 0, false⟩

/-- The blink timer stopped through INIT (R76). Length and phase in INIT are DESIGN CHOICE, log entry 7: those it
will start with. -/
def BlinkTimer.stopped : BlinkTimer := ⟨true, Config.blinkDefault, none, false⟩

/-- The Shelf Controller as a reset leaves it, with the INIT the reset calls for (R162, R184). -/
def Shelf.reset (time : Nat) (scope : ClearScope) : Shelf where
  state := .init
  initTimer := some time
  clearScope := scope
  context := .zero
  deadlineTimer := none
  wakeBits := 0
  snapStatus := .idle
  snapCount := 0
  blink := .stopped
  applied := 0

/-- No cause and no enable (R189). -/
def Causes.none : Causes := ⟨false, false, false, false⟩

/-- The part right after a full reset, with every input pin inactive and every LINK line high (DESIGN CHOICE, log entry 6),
CSn high, and no command waiting. -/
def State.reset : State where
  bays := Vector.replicate 16 (Bay.reset false false false false true)
  pool := .reset false
  queue := []
  journal := .reset
  shelf := .reset Config.initWhole .whole
  supply := ⟨false, some (ms Config.supplyPeriod), false⟩
  attnPending := .none
  attnEnable := .none
  window := []
  port := .idle
  miso := []
  timeBase := 0
  pending := []

end Sys2Proof.Machine
end

