-- ==== Sys2Proof/Machine/Layout.lean ====
section
/-! DEFINITION. Every encoding of chapter 10: byte order, code tables, the window map, the journal records, the snapshot
entries and the link frames (R192). -/

namespace Sys2Proof.Machine

/-! ## Numbers -/

/-- The low byte of a number. -/
def byteOf (n : Nat) : Byte := BitVec.ofNat 8 n

/-- A 16-bit field, least significant byte first (R192). -/
def le16 (n : Nat) : List Byte := [byteOf n, byteOf (n / 256)]

/-- A 32-bit field, least significant byte first (R192). -/
def le32 (n : Nat) : List Byte := [byteOf n, byteOf (n / 256), byteOf (n / 65536), byteOf (n / 16777216)]

/-- The number that two bytes hold, least significant first (R192). -/
def ofLe16 (lo hi : Byte) : Nat := lo.toNat + 256 * hi.toNat

/-- A one-bit field as a number: 1 for the first-named value (R192). -/
def bitOf (x : Bool) : Nat := if x then 1 else 0

/-- A list of bits as a number, bit 0 first. -/
def ofBits (l : List Bool) : Nat := l.foldr (fun x n => bitOf x + 2 * n) 0

/-- A list cut or filled with 0 to a length. -/
def padTo (n : Nat) (l : List Byte) : List Byte := (l ++ List.replicate (n - l.length) 0).take n

/-- A length rounded up to a multiple of 8 (R149). -/
def roundUp8 (n : Nat) : Nat := (n + 7) / 8 * 8

/-! ## Codes (10, section 10.3) -/

def BayState.code : BayState → Nat
  | .empty => 0
  | .off => 1
  | .rest => 2
  | .queued => 3
  | .ramp => 4
  | .settle => 5
  | .on => 6
  | .drain => 7
  | .cutoff => 8
  | .faulted => 9

def LinkState.code : LinkState → Nat
  | .detached => 0
  | .unbound => 1
  | .bound => 2
  | .lost => 3

def ShelfState.code : ShelfState → Nat
  | .init => 0
  | .held => 1
  | .run => 2
  | .quiescing => 3
  | .standby => 4

def Mode.code : Mode → Nat
  | .hold => 0
  | .run => 1
  | .quiesce => 2

/-- The Mode of a code, where it has one (R136, test 2 of the shelf record). -/
def Mode.ofCode : Nat → Option Mode
  | 0 => some .hold
  | 1 => some .run
  | 2 => some .quiesce
  | _ => none

def Target.code : Target → Nat
  | .off => 0
  | .on => 1
  | .cut => 2

/-- The Target of a code, where it has one (R136, test 2 of the bay record). -/
def Target.ofCode : Nat → Option Target
  | 0 => some .off
  | 1 => some .on
  | 2 => some .cut
  | _ => none

def LampMode.code : LampMode → Nat
  | .auto => 0
  | .off => 1
  | .on => 2
  | .blink => 3

/-- The Lamp of a code, where it has one (R136, test 3 of the bay record). -/
def LampMode.ofCode : Nat → Option LampMode
  | 0 => some .auto
  | 1 => some .off
  | 2 => some .on
  | 3 => some .blink
  | _ => none

def SlotStatus.code : SlotStatus → Nat
  | .free => 0
  | .posted => 1
  | .sending => 2
  | .sent => 3
  | .failed => 4
  | .abandoned => 5

def SnapStatus.code : SnapStatus → Nat
  | .idle => 0
  | .pending => 1

def QuiesceOutcome.code : QuiesceOutcome → Nat
  | .none => 0
  | .released => 1
  | .expired => 2
  | .cut => 3
  | .faulted => 4
  | .absent => 5
  | .wasOff => 6

/-- The reasons of STATE records (01, section 1.13). -/
inductive StateReason where
  | commit | admitted | powerGood | settled | target | released | drainExpired | discharged | restDone | removed
  | inserted | latchOpen | switchFault | noPowerGood | powerLost | stuck | cut | shed | quiesce | quiesceDeadline
  | trouble | linkLost | preconditionLost | reset
  deriving DecidableEq, Repr

def StateReason.code : StateReason → Nat
  | .commit => 1
  | .admitted => 2
  | .powerGood => 3
  | .settled => 4
  | .target => 5
  | .released => 6
  | .drainExpired => 7
  | .discharged => 8
  | .restDone => 9
  | .removed => 10
  | .inserted => 11
  | .latchOpen => 12
  | .switchFault => 13
  | .noPowerGood => 14
  | .powerLost => 15
  | .stuck => 16
  | .cut => 17
  | .shed => 18
  | .quiesce => 19
  | .quiesceDeadline => 20
  | .trouble => 21
  | .linkLost => 22
  | .preconditionLost => 23
  | .reset => 24

/-- The STATE reason that a drain reason is. -/
def DrainReason.toState : DrainReason → StateReason
  | .target => .target
  | .trouble => .trouble
  | .latchOpen => .latchOpen
  | .shed => .shed
  | .quiesce => .quiesce

/-! ## Journal records (R149; 10, section 10.5) -/

/-- ADMIT outcomes (R57). -/
inductive AdmitOutcome where
  | queued | admitted | withdrawn | refused
  deriving DecidableEq, Repr

def AdmitOutcome.code : AdmitOutcome → Nat
  | .queued => 0
  | .admitted => 1
  | .withdrawn => 2
  | .refused => 3

def EntryKind.code : EntryKind → Nat
  | .start => 0
  | .raise => 1

/-- BUDGET causes (R55). -/
inductive BudgetCause where
  | commit | supplyLow | supplyRestored
  deriving DecidableEq, Repr

def BudgetCause.code : BudgetCause → Nat
  | .commit => 0
  | .supplyLow => 1
  | .supplyRestored => 2

/-- What a HELLO said of its module, as a LINK record carries it (R102, R108). -/
structure HelloFields where
  moduleClass : Byte
  identity : List Byte
  linkRevision : Byte
  deriving DecidableEq, Repr

/-- The events of LINK records with their fields (R102). -/
inductive LinkEvent where
  | bound (h : HelloFields)
  | rebound (h : HelloFields)
  | refused (h : HelloFields)
  | lost (failedKind attempts : Nat)
  | detached
  deriving DecidableEq, Repr

/-- PARCEL causes (R126). -/
inductive ParcelCause where
  | acked | failed | linkLost | unbound | detached | reset
  deriving DecidableEq, Repr

def ParcelCause.code : ParcelCause → Nat
  | .acked => 0
  | .failed => 1
  | .linkLost => 2
  | .unbound => 3
  | .detached => 4
  | .reset => 5

/-- TROUBLE actions (R116). -/
inductive TroubleAction where
  | none | hold | withdrawn | drain | cut
  deriving DecidableEq, Repr

def TroubleAction.code : TroubleAction → Nat
  | .none => 0
  | .hold => 1
  | .withdrawn => 2
  | .drain => 3
  | .cut => 4

/-- What a REFUSED record is about (R140). -/
inductive RefusedRecord where
  | shelf | intent | outbox
  deriving DecidableEq, Repr

def RefusedRecord.code : RefusedRecord → Nat
  | .shelf => 0
  | .intent => 1
  | .outbox => 2

/-- Refusal reasons (R136, R140). -/
inductive RefuseReason where
  | zero | enum | range | capZero | budgetOrder | modeLocked
  deriving DecidableEq, Repr

def RefuseReason.code : RefuseReason → Nat
  | .zero => 1
  | .enum => 2
  | .range => 3
  | .capZero => 4
  | .budgetOrder => 5
  | .modeLocked => 6

/-- Discard causes (R132). -/
inductive DiscardCause where
  | partOwned | locked | sending | statusValue
  deriving DecidableEq, Repr

def DiscardCause.code : DiscardCause → Nat
  | .partOwned => 0
  | .locked => 1
  | .sending => 2
  | .statusValue => 3

/-- The quality counters by name (R103). -/
inductive QualityKind where
  | badCheck | dropped | duplicates | retries
  deriving DecidableEq, Repr

def QualityKind.code : QualityKind → Nat
  | .badCheck => 0
  | .dropped => 1
  | .duplicates => 2
  | .retries => 3

/-- WAKE sources (R174). -/
inductive WakeSource where
  | presence | latch | trouble | note
  deriving DecidableEq, Repr

def WakeSource.code : WakeSource → Nat
  | .presence => 0
  | .latch => 1
  | .trouble => 2
  | .note => 3

/-- The submitted records of R149, but for SNAPSHOT (`Snapshot`), PAD and GAP, which the Journal Writer makes. -/
inductive Record where
  | state (bay : BayId) (old new : BayState) (reason : StateReason) (surprise : Bool)
  | admission (bay : BayId) (kind : EntryKind) (outcome : AdmitOutcome) (amount position : Nat) (clipped : Bool)
      (committed : Nat)
  | budget (old new : Nat) (cause : BudgetCause) (shed refused committed : Nat)
  | link (bay : BayId) (event : LinkEvent)
  | note (bay : BayId) (bytes : List Byte)
  | parcel (bay : BayId) (outcome : SlotStatus) (cause : ParcelCause) (length attempts : Nat)
  | trouble (bay : BayId) (severity : Nat) (state : BayState) (code : Nat) (action : TroubleAction)
  | refused (bay : Option BayId) (record : RefusedRecord) (reason : RefuseReason) (field commitValue value : Nat)
  | discard (bay : Option BayId) (cause : DiscardCause) (committed : Bool) (firstAddress count : Nat)
  | quiesced (outcomes : List QuiesceOutcome)
  | quality (bay : BayId) (counter : QualityKind) (counters : QualityCounters)
  | wake (bay : BayId) (source : WakeSource) (wakeBits : BitVec 16)
  deriving DecidableEq, Repr

/-- The Kind code of PAD and of GAP (10, section 10.3). -/
def padKind : Nat := 1
def gapKind : Nat := 2

/-- The Kind code of SNAPSHOT. -/
def snapshotKind : Nat := 12

/-- The Kind code of a record (10, section 10.3). -/
def Record.kind : Record → Nat
  | .state .. => 3
  | .admission .. => 4
  | .budget .. => 5
  | .link .. => 6
  | .note .. => 7
  | .parcel .. => 8
  | .trouble .. => 9
  | .refused .. => 10
  | .discard .. => 11
  | .quiesced .. => 13
  | .quality .. => 14
  | .wake .. => 15

/-- The Bay byte: the bay number, or 255 for the shelf (R148). -/
def bayByte : Option BayId → Byte
  | some b => byteOf b.val
  | none => 255

/-- The bay a record concerns, if it concerns one (R149). -/
def Record.bay : Record → Option BayId
  | .state b .. => some b
  | .admission b .. => some b
  | .budget .. => none
  | .link b _ => some b
  | .note b _ => some b
  | .parcel b .. => some b
  | .trouble b .. => some b
  | .refused b .. => b
  | .discard b .. => b
  | .quiesced _ => none
  | .quality b .. => some b
  | .wake b .. => some b

/-- The body of a LINK record from offset 8: 16 bytes (R149 gives the record 24). -/
def LinkEvent.body : LinkEvent → List Byte
  | .bound h => padTo 16 (0#8 :: h.moduleClass :: h.linkRevision :: 0#8 :: h.identity)
  | .rebound h => padTo 16 (1#8 :: h.moduleClass :: h.linkRevision :: 0#8 :: h.identity)
  | .refused h => padTo 16 (2#8 :: h.moduleClass :: h.linkRevision :: 0#8 :: h.identity)
  | .lost kind attempts => padTo 16 [3#8, byteOf kind, byteOf attempts]
  | .detached => padTo 16 [4#8]

/-- The body of a record from offset 8 (10, section 10.5). -/
def Record.body : Record → List Byte
  | .state _ old new reason surprise =>
    [byteOf old.code, byteOf new.code, byteOf reason.code, byteOf (bitOf surprise)]
  | .admission _ kind outcome amount position clipped committed =>
    [byteOf kind.code, byteOf outcome.code] ++ le16 amount ++ [byteOf position, byteOf (bitOf clipped)]
      ++ le16 committed
  | .budget old new cause nShed nRefused committed =>
    le16 old ++ le16 new ++ [byteOf cause.code, byteOf nShed, byteOf nRefused, 0#8] ++ le16 committed
  | .link _ event => event.body
  | .note _ bytes => byteOf bytes.length :: bytes
  | .parcel _ outcome cause length attempts =>
    [byteOf outcome.code, byteOf cause.code, byteOf length, byteOf attempts]
  | .trouble _ severity bayState code action =>
    [byteOf severity, byteOf bayState.code] ++ le16 code ++ [byteOf action.code]
  | .refused _ record reason field commitValue value =>
    [byteOf record.code, byteOf reason.code, byteOf field, byteOf commitValue] ++ le16 value
  | .discard _ cause committed firstAddress count =>
    [byteOf cause.code, byteOf (bitOf committed)] ++ le16 firstAddress ++ le16 count
  | .quiesced outcomes => outcomes.map (fun o => byteOf o.code)
  | .quality _ counter c =>
    [byteOf counter.code, byteOf c.badCheck, byteOf c.dropped, byteOf c.duplicates, byteOf c.retries]
  | .wake _ source wakeBits => [byteOf source.code, 0#8] ++ le16 wakeBits.toNat

/-- The length of a record in bytes: header, Time and body, rounded up to a multiple of 8 (R149). -/
def Record.length (r : Record) : Nat := roundUp8 (8 + r.body.length)

/-- The bytes of a record: header, Time, body, and 0 up to its length (R148; 10, section 10.5). -/
def recordBytes (kind : Nat) (bay : Byte) (stamp : Byte) (time : BitVec 32) (body : List Byte) (length : Nat) :
    List Byte :=
  padTo length ([byteOf kind, byteOf (length / 8), bay, stamp] ++ le32 time.toNat ++ body)

/-- The bytes of a GAP: TimeLow stands where other records begin Time (R149). -/
def gapBytes (stamp : Byte) (lost : Nat) (time : BitVec 32) : List Byte :=
  [byteOf gapKind, 1#8, 255#8, stamp] ++ le16 lost ++ le16 time.toNat

/-- The Pins byte of a status or snapshot entry (10, section 10.5). -/
def pinsByte (pres latch flt pg en : Bool) : Byte := byteOf (ofBits [pres, latch, flt, pg, en])

/-- The 16 bytes of a snapshot entry (10, section 10.5). -/
def SnapEntry.bytes (e : SnapEntry) : List Byte :=
  [byteOf e.bay.val, byteOf e.state.code, byteOf (e.linkState.code + 4 * e.target.code), byteOf e.position]
    ++ le16 e.charge ++ le16 e.phaseRemaining ++ le16 e.raiseAmount
    ++ [pinsByte e.pres e.latch e.flt e.pg e.en, byteOf e.faultCount, byteOf e.counters.badCheck,
      byteOf e.counters.dropped, byteOf e.counters.duplicates, byteOf e.counters.retries]

/-- The body of a SNAPSHOT record from offset 8: Mask, EntryCount, and entry i at 16 + 16i. -/
def Snapshot.body (p : Snapshot) : List Byte :=
  le16 p.mask.toNat ++ byteOf p.entries.length :: List.replicate 5 0#8 ++ p.entries.flatMap SnapEntry.bytes

/-- The length of a SNAPSHOT record: 16 + 16 × EntryCount (R149). -/
def Snapshot.length (p : Snapshot) : Nat := 16 + 16 * p.entries.length

/-! ## Window map (10, section 10.4) -/

def shelfBase : Nat := 0x0000
def journalControlBase : Nat := 0x0040
def statusBase : Nat := 0x0060
def intentBase : Nat := 0x0100
def outboxBase : Nat := 0x0500
def directoryBase : Nat := 0x0800

/-- The window address of a field of a bay's intent record. -/
def intentAddr (b : BayId) (offset : Nat) : Nat := intentBase + 64 * b.val + offset

/-- The window address of a byte of a bay's outbox slot. -/
def outboxAddr (b : BayId) (offset : Nat) : Nat := outboxBase + 48 * b.val + offset

/-- The bay whose entry holds an address, in a table of 16 entries of a size from a base, and the offset in it. -/
def tableEntry (base size a : Nat) : BayId × Nat :=
  (Fin.ofNat 16 ((a - base) / size), (a - base) % size)

/-- The areas of the window, with the bay and the offset in its entry where the area is a table. -/
inductive Area where
  | shelf (offset : Nat)
  | journalControl (offset : Nat)
  | status (b : BayId) (offset : Nat)
  | intent (b : BayId) (offset : Nat)
  | outbox (b : BayId) (offset : Nat)
  | directory (b : BayId) (offset : Nat)
  | ring (offset : Nat)
  | noArea
  deriving DecidableEq, Repr

/-- The area that holds a window address (10, section 10.4). -/
def areaOf (a : Nat) : Area :=
  if a < 0x40 then .shelf a
  else if a < 0x60 then .journalControl (a - journalControlBase)
  else if a < 0xE0 then .status (tableEntry statusBase 8 a).1 (tableEntry statusBase 8 a).2
  else if a < 0x100 then .noArea
  else if a < 0x500 then .intent (tableEntry intentBase 64 a).1 (tableEntry intentBase 64 a).2
  else if a < 0x800 then .outbox (tableEntry outboxBase 48 a).1 (tableEntry outboxBase 48 a).2
  else if a < 0xA00 then .directory (tableEntry directoryBase 32 a).1 (tableEntry directoryBase 32 a).2
  else if a < 0x1000 then .noArea
  else if a < 0x2000 then .ring (a - Config.ringBase)
  else .noArea

/-- The bytes of the locked group of an intent record, offsets 04h to 12h (10, section 10.5). -/
def Intent.lockedBytes (i : Intent) : List Byte :=
  [byteOf i.priority, byteOf (bitOf i.blind), byteOf (bitOf i.latchSensed), byteOf i.retryLimit] ++ le16 i.cap
    ++ le16 i.rampWindow ++ le16 i.settleDelay ++ le16 i.dischargeWindow
    ++ [byteOf i.drainWait, byteOf i.restInterval, byteOf i.faultFilter]

/-- The bytes of Target and Lamp, offsets 00h and 01h. -/
def Intent.unlockedBytes (i : Intent) : List Byte := [byteOf i.target.code, byteOf i.lamp.code]

/-- The bytes of the committed fields of the shelf record, offsets 00h to 0Ah (10, section 10.5). -/
def ShelfContext.bytes (c : ShelfContext) : List Byte :=
  [byteOf c.mode.code, byteOf c.quiesceDeadline] ++ le16 c.budget ++ le16 c.reserve ++ le16 c.lowBudget
    ++ [byteOf c.holdoff, byteOf c.blinkHalfPeriod, byteOf (bitOf c.wakeEnable)]

/-! ## Link frames (R80, R82, R83; 10, section 10.6) -/

/-- The header of a link frame by its fields (R82). -/
structure FrameHeader where
  kind : BitVec 4
  sequence : Sequence
  length : BitVec 6
  zeros : BitVec 3
  deriving DecidableEq, Repr

/-- The 16 header bits: Kind at 0-3, Sequence at 4-6, Length at 7-12, zeros at 13-15. -/
def FrameHeader.toBits (h : FrameHeader) : BitVec 16 := h.zeros ++ h.length ++ h.sequence ++ h.kind

/-- The fields of 16 header bits. -/
def FrameHeader.ofBits (w : BitVec 16) : FrameHeader where
  kind := w.extractLsb' 0 4
  sequence := w.extractLsb' 4 3
  length := w.extractLsb' 7 6
  zeros := w.extractLsb' 13 3

/-- The frame kind code of a message of the part (10, section 10.3). -/
def TxEntry.kindCode : TxEntry → Nat
  | .limit _ => 8
  | .grant _ _ => 9
  | .wait _ => 10
  | .prepare _ _ => 11
  | .parcel _ => 12
  | .probe => 13

/-- The payload bytes of a message of the part (10, section 10.6). -/
def TxEntry.payload : TxEntry → List Byte
  | .limit cap => le16 cap
  | .grant ramp hold => le16 ramp ++ le16 hold
  | .wait position => [byteOf position]
  | .prepare drainWait reason => [byteOf drainWait, byteOf reason.toState.code]
  | .parcel payload => payload
  | .probe => []

/-- The bits of a byte in the order they are sent: least significant first (R80). -/
def byteBits (x : Byte) : List Bool := (List.range 8).map x.getLsbD

/-- The bits of a 16-bit word, bit 0 first. -/
def wordBits (x : BitVec 16) : List Bool := (List.range 16).map x.getLsbD

/-- One step of the check register for one data bit (R83, steps 2 to 4). -/
def crcStep (reg : BitVec 16) (bit : Bool) : BitVec 16 :=
  if bit != reg.getLsbD 15 then reg <<< 1 ^^^ 0x1021#16 else reg <<< 1

/-- The check over the header and payload bits in the order they are sent (R83). -/
def frameCheck (header : BitVec 16) (payload : List Byte) : BitVec 16 :=
  (wordBits header ++ payload.flatMap byteBits).foldl crcStep 0xFFFF#16

/-- The frame of a kind, a Sequence and a payload, as the part sends it (R82, R83). -/
def mkFrame (kind : Nat) (seq : Sequence) (payload : List Byte) : Frame :=
  let header := FrameHeader.toBits ⟨BitVec.ofNat 4 kind, seq, BitVec.ofNat 6 payload.length, 0⟩
  ⟨header, payload, frameCheck header payload⟩

/-- The frame of a message of the part. -/
def TxEntry.frame (e : TxEntry) (seq : Sequence) : Frame := mkFrame e.kindCode seq e.payload

/-- The ACK frame that carries a Sequence (R89): Kind 0, Length 0. -/
def ackFrame (seq : Sequence) : Frame := mkFrame 0 seq []

/-- The two half-bits of a bit, true for the line released high: a 0 is low then high, a 1 high then low (R80). -/
def manchester (bit : Bool) : List Bool := [bit, !bit]

/-- The line over a whole frame in half-bits of 4 µs: preamble, start delimiter, header, payload, check with bit 15
first, end delimiter (R80, R82, R83). -/
def Frame.wave (f : Frame) : List Bool :=
  (List.range 16).flatMap (fun i => manchester (i % 2 == 1))
    ++ List.replicate 4 true
    ++ (wordBits f.header ++ f.payload.flatMap byteBits ++ (wordBits f.check).reverse).flatMap manchester
    ++ List.replicate 4 false

end Sys2Proof.Machine
end

