-- ==== Sys2Proof/Machine/Operands.lean ====
section
/-! DEFINITION. The operands of commands: the address and data of an SPI transaction (R185 to R188) and the fields of a
module's payload (10, section 10.6). -/

namespace Sys2Proof.Machine

/-- The byte at a place of a list, 0 past its end. -/
def byteAt (l : List Byte) (i : Nat) : Byte := l.getD i 0

/-! ## SPI transactions -/

/-- What a command byte makes of a transaction: bit 7 the direction, bit 6 the space, bits 0 to 5 zero (R185). -/
def spiKindOf (command : Byte) : SpiKind :=
  if command.extractLsb' 0 6 = 0#6 then
    match command.getLsbD 7, command.getLsbD 6 with
    | false, false => .windowWrite
    | true, false => .windowRead
    | false, true => .registerWrite
    | true, true => .registerRead
  else .unknown

/-- The start address, high byte first; absent when the transaction ended before its address was complete (R185). -/
def spiStart (tx : SpiBytes) : Option Nat :=
  match tx.bytes with
  | hi :: lo :: _ => some (256 * hi.toNat + lo.toNat)
  | _ => none

/-- Bytes with their addresses, running up and not wrapping past FFFFh (R186). -/
def numberBytes : Nat → List Byte → List (Nat × Byte)
  | _, [] => []
  | a, v :: vs => if a < 65536 then (a, v) :: numberBytes (a + 1) vs else []

/-- The data bytes of a write transaction with their addresses; the bits of an unfinished byte are dropped (R185). -/
def spiCollected (tx : SpiBytes) : List (Nat × Byte) :=
  match spiStart tx with
  | some a => numberBytes a (tx.bytes.drop 2)
  | none => []

/-- The bytes a window write collects: those at 2000h upwards are dropped as they arrive (R186). -/
def windowCollected (tx : SpiBytes) : List (Nat × Byte) :=
  (spiCollected tx).filter (fun c => c.1 < Config.windowSize)

/-- The addresses a read transaction returns data from: the bytes after the address and the dummy byte (R185). They run on
past FFFFh, where every byte reads 0 (DESIGN CHOICE, log entry 46). -/
def spiReadAddresses (tx : SpiBytes) : List Nat :=
  match spiStart tx with
  | some a => (List.range (tx.bytes.length - 3)).map (fun i => a + i)
  | none => []

/-- The transaction that an SPI command begins on a free port or after the fall of CSn, or goes on with: its bytes are those
of the one in progress and more (R185). None where the port takes nothing. -/
def SpiPort.joined (k : SpiKind) (tx : SpiBytes) : SpiPort → Option Transfer
  | .idle => some ⟨k, [], [], none⟩
  | .selected => some ⟨k, [], [], none⟩
  | .active t => if t.kind = k ∧ t.bytes.isPrefixOf tx.bytes = true then some t else none
  | .ignoring => none

/-- The port after a command: free once CSn has risen (R185). -/
def portAfter (tx : SpiBytes) (t : Transfer) : SpiPort := if tx.ended then .idle else .active t

/-- A group as it is taken, of a number of bytes, from what the bytes read as now (R187, R188). -/
def takeGroup (size : Nat) (read : Nat → Byte) (a : Nat) : HeldGroup :=
  ⟨a / size, (List.range size).map (fun i => read (size * (a / size) + i))⟩

/-- The group the port reads an address from: the one it holds, else one it takes now (R187, R188). -/
def groupFor (size : Nat) (read : Nat → Byte) (held : Option HeldGroup) (a : Nat) : HeldGroup :=
  match held with
  | some g => if g.index = a / size then g else takeGroup size read a
  | none => takeGroup size read a

/-- The data of a read from the addresses in turn, and the group the port then holds (R187, R188). -/
def readGroups (size : Nat) (read : Nat → Byte) : List Nat → Transfer → Transfer
  | [], t => t
  | a :: l, t =>
    readGroups size read l { t with
      data := t.data ++ [byteAt (groupFor size read t.held a).bytes (a % size)]
      held := some (groupFor size read t.held a) }

/-- The address of a data byte that has begun to be shifted out, if one has (R187). -/
def spiBegunAddress (tx : SpiBytes) : Option Nat :=
  if tx.extraBits ≠ 0 ∧ 3 ≤ tx.bytes.length then (spiStart tx).map (fun a => a + (tx.bytes.length - 3)) else none

/-- The group of a data byte that has begun is taken before it begins (R187, R188). -/
def Transfer.readBegun (size : Nat) (read : Nat → Byte) (tx : SpiBytes) (t : Transfer) : Transfer :=
  match spiBegunAddress tx with
  | some a => { t with held := some (groupFor size read t.held a) }
  | none => t

/-- A read transaction as far as it has been shifted: the addresses not yet answered, in turn, and the byte that has begun
(R187, R188). -/
def Transfer.readOn (size : Nat) (read : Nat → Byte) (tx : SpiBytes) (t : Transfer) : Transfer :=
  (readGroups size read ((spiReadAddresses tx).drop t.data.length) { t with bytes := tx.bytes }).readBegun size read tx

/-- What MISO carries in a read transaction: 0 until the first data byte, then the data (R185). -/
def misoOfRead (tx : SpiBytes) (data : List Byte) : List Byte :=
  List.replicate (min 4 (tx.bytes.length + 1)) 0 ++ data

/-- What MISO carries in a write or an unknown transaction: 0 throughout (R185). -/
def misoOfWrite (tx : SpiBytes) : List Byte := List.replicate (tx.bytes.length + 1) 0

/-- The byte that a transaction wrote to an address, if it wrote one. -/
def writtenAt (l : List (Nat × Byte)) (a : Nat) : Option Byte := (l.find? (fun c => c.1 == a)).map Prod.snd

/-- Whether a transaction wrote a byte to an address. -/
def wrote (l : List (Nat × Byte)) (a : Nat) : Bool := l.any (fun c => c.1 == a)

/-- Whether a register write transaction writes 1 to a bit of the byte at an address (R188). -/
def writesOne (tx : SpiBytes) (a bit : Nat) : Bool :=
  match writtenAt (spiCollected tx) a with
  | some v => v.getLsbD bit
  | none => false

/-- SOFT_RESET: bit 0 of CONTROL at 0002h (R190). -/
def writesSoftReset (tx : SpiBytes) : Bool := writesOne tx 2 0

/-- OVERFLOW, FAULT and WAKE: bits 1, 2 and 3 of ATTN_PENDING at 0006h (R189). -/
def writesOverflow (tx : SpiBytes) : Bool := writesOne tx 6 1
def writesFault (tx : SpiBytes) : Bool := writesOne tx 6 2
def writesWake (tx : SpiBytes) : Bool := writesOne tx 6 3

/-- The byte written to the low byte of ATTN_ENABLE at 0008h; its high byte holds reserved bits only (R189). -/
def writtenEnable (tx : SpiBytes) : Option Byte := writtenAt (spiCollected tx) 8

/-- The causes that bits 0 to 3 of a byte name (R189). -/
def causesOfByte (v : Byte) : Causes := ⟨v.getLsbD 0, v.getLsbD 1, v.getLsbD 2, v.getLsbD 3⟩

/-! ## Module payloads -/

/-- The fields of a HELLO payload; those it does not reach are 0, and bytes after the tenth are not carried (R108). An
Identity that it reaches in part has the bytes that came, and 0 behind them (DESIGN CHOICE, log entry 51). -/
def helloFields (payload : List Byte) : HelloFields where
  moduleClass := byteAt payload 0
  identity := padTo 8 (payload.drop 1)
  linkRevision := byteAt payload 9

/-- The HELLO test of R106. -/
def helloAccepted (payload : List Byte) : Bool :=
  payload.length == 10 && (byteAt payload 0).toNat ≤ 2 && byteAt payload 9 == 1

/-- RampFigure and HoldFigure of a DEMAND payload. -/
def demandRamp (payload : List Byte) : Nat := ofLe16 (byteAt payload 0) (byteAt payload 1)
def demandHold (payload : List Byte) : Nat := ofLe16 (byteAt payload 2) (byteAt payload 3)

/-- Severity and Code of a TROUBLE payload. -/
def troubleSeverity (payload : List Byte) : Nat := (byteAt payload 0).toNat
def troubleCode (payload : List Byte) : Nat := ofLe16 (byteAt payload 1) (byteAt payload 2)

/-- The TROUBLE test of R106. -/
def troubleWellShaped (payload : List Byte) : Bool :=
  payload.length == 3 && 1 ≤ troubleSeverity payload && troubleSeverity payload ≤ 3

/-- A demand's figures normalised against Cap (R110): Ramp raised to Hold, then both cut to Cap. -/
def normaliseDemand (cap ramp hold : Nat) : Demand where
  ramp := min cap (max ramp hold)
  hold := min cap hold
  clipped := cap < ramp || cap < hold

/-- A known demand re-normalised against a new Cap (R114): Clipped is set when a figure is lowered, else kept. -/
def renormaliseDemand (cap : Nat) (d : Demand) : Demand where
  ramp := min cap d.ramp
  hold := min cap d.hold
  clipped := d.clipped || cap < d.ramp || cap < d.hold

end Sys2Proof.Machine
end

