-- ==== Sys2Proof/Decode.lean ====
section
/-! DEFINITION. From bytes to commands: the command that the bytes of an SPI transaction are (R185), and the commands that a
word spells by the bits of spec/opcode_table.json. -/

namespace Sys2Proof

open Sys2Proof.Machine

/-- The row of a register write transaction: the first of the table's rows whose bits it writes (R188 to R190; log entry
23). -/
def registerWriteOf (tx : SpiBytes) : Instr :=
  if writesSoftReset tx then .softReset tx
  else if writesOverflow tx then .clearOverflow tx
  else if writesFault tx then .clearFault tx
  else if writesWake tx then .clearWake tx
  else if (writtenEnable tx).isSome then .attnEnableWrite tx
  else .droppedRegisterWrite tx

/-- The command that a command byte and what has followed it are (R185). -/
def commandOf (command : Byte) (tx : SpiBytes) : Instr :=
  match spiKindOf command with
  | .windowWrite => .windowWrite tx
  | .windowRead => .windowRead tx
  | .registerWrite => registerWriteOf tx
  | .registerRead => .registerRead tx
  | .unknown => .unknownCommand (some command) tx

/-- The command that the bytes of an SPI transaction are so far, its command byte first (R185). -/
def transactionOf (bytes : List Byte) (extraBits : Nat) (ended : Bool) : Instr :=
  match bytes with
  | [] => .unknownCommand none ⟨[], extraBits, ended⟩
  | command :: rest => commandOf command ⟨rest, extraBits, ended⟩

/-- No row of the table gives any bits, so no word spells a command (log entry 24). The bytes of a transaction are decoded
by `transactionOf`. -/
def decodeTableWord (_nbits _w : Nat) : Option Instr := none

end Sys2Proof
end

