-- ==== Sys2Proof/Machine/Memory.lean ====
section
/-! DEFINITION. The stored bytes of the Shared Window: reading, writing, clearing, and the canonical form. -/

namespace Sys2Proof.Machine

/-- The canonical form: addresses strictly rising, and no byte equal to what an unlisted address reads as. -/
abbrev Memory.wf (m : Memory) : Prop :=
  List.Pairwise (fun c d => c.1 < d.1) m ∧ ∀ c ∈ m, c.2 ≠ 0

/-- One byte of the window; an unlisted address reads 0, as INIT leaves the window (R144, R164). -/
def Memory.read : Memory → Nat → Byte
  | [], _ => 0
  | (k, w) :: m, a => if k = a then w else Memory.read m a

/-- One byte written, in canonical form: writing 0 removes the entry. -/
def Memory.write : Memory → Nat → Byte → Memory
  | [], a, v => if v = 0 then [] else [(a, v)]
  | (k, w) :: m, a, v =>
    if a < k then (if v = 0 then (k, w) :: m else (a, v) :: (k, w) :: m)
    else if a = k then (if v = 0 then m else (a, v) :: m)
    else (k, w) :: Memory.write m a v

/-- Bytes written at consecutive addresses. -/
def Memory.writeBytes : Memory → Nat → List Byte → Memory
  | m, _, [] => m
  | m, a, v :: vs => Memory.writeBytes (Memory.write m a v) (a + 1) vs

/-- Bytes written each at its own address. -/
def Memory.writeAll : Memory → List (Nat × Byte) → Memory
  | m, [] => m
  | m, (a, v) :: l => Memory.writeAll (Memory.write m a v) l

/-- Every byte from an address upwards cleared to 0. -/
def Memory.clearFrom (m : Memory) (a : Nat) : Memory := m.filter (fun c => c.1 < a)

/-- The 16-bit field at an address, least significant byte first (R192). -/
def Memory.read16 (m : Memory) (a : Nat) : Nat :=
  (Memory.read m a).toNat + 256 * (Memory.read m (a + 1)).toNat

/-- A number of consecutive bytes. -/
def Memory.readBytes (m : Memory) (a n : Nat) : List Byte := (List.range n).map (fun i => Memory.read m (a + i))

end Sys2Proof.Machine
end

