-- ==== Sys2Proof/Machine/Ops.lean ====
section
/-! DEFINITION. The named operations on the state that every other file uses: the bays and their parts, the attention
causes, the charges, the queue's views and order, the transmit list, and what a link takes. -/

namespace Sys2Proof.Machine

/-- All bays in ascending order. -/
def allBays : List BayId := List.finRange 16

/-! ## Reaching one bay -/

/-- Everything held for a bay. -/
def State.bay (s : State) (b : BayId) : Bay := s.bays[b]

/-- One bay changed by a function. -/
def modBay (b : BayId) (f : Bay → Bay) (s : State) : State := { s with bays := s.bays.set b (f (s.bay b)) }

/-- The bay context changed. -/
def modCtx (b : BayId) (f : BayContext → BayContext) (s : State) : State := modBay b (fun y => { y with ctx := f y.ctx }) s

/-- The Input Conditioner changed. -/
def modInputs (b : BayId) (f : BayInputs → BayInputs) (s : State) : State :=
  modBay b (fun y => { y with inputs := f y.inputs }) s

/-- The Link Engine changed. -/
def modLink (b : BayId) (f : LinkEngine → LinkEngine) (s : State) : State :=
  modBay b (fun y => { y with link := f y.link }) s

/-- The Dialogue Unit changed. -/
def modDialogue (b : BayId) (f : DialogueUnit → DialogueUnit) (s : State) : State :=
  modBay b (fun y => { y with dialogue := f y.dialogue }) s

/-- The Shelf Controller changed. -/
def modShelf (f : Shelf → Shelf) (s : State) : State := { s with shelf := f s.shelf }

/-- The pool changed but for its charges. -/
def modPool (f : Pool → Pool) (s : State) : State := { s with pool := f s.pool }

/-- The Journal Writer changed. -/
def modJournal (f : Journal → Journal) (s : State) : State := { s with journal := f s.journal }

/-- Pending attention causes changed (R189). -/
def modAttn (f : Causes → Causes) (s : State) : State := { s with attnPending := f s.attnPending }

/-- The queue replaced. -/
def setQueue (q : List QueueEntry) (s : State) : State := { s with queue := q }

/-- The window's stored bytes replaced. -/
def setWindow (m : Memory) (s : State) : State := { s with window := m }

/-- What MISO carried. -/
def setMiso (l : List Byte) (s : State) : State := { s with miso := l }

/-- The SPI port. -/
def setPort (p : SpiPort) (s : State) : State := { s with port := p }

/-- An operation made for each bay in ascending order. -/
def forBays (f : BayId → State → State) (s : State) : State := allBays.foldl (fun t b => f b t) s

/-- The state of a bay. -/
def State.stateOf (s : State) (b : BayId) : BayState := (s.bay b).ctx.state

/-- The committed intent of a bay. -/
def State.intentOf (s : State) (b : BayId) : Intent := (s.bay b).ctx.intent

/-- Whether the shelf is INIT. -/
def State.inInit (s : State) : Bool := s.shelf.state == .init

/-! ## What a bay state means -/

/-- EN is asserted exactly in RAMP, SETTLE, ON and DRAIN (R4). -/
def BayState.en : BayState → Bool
  | .ramp | .settle | .on | .drain => true
  | .empty | .off | .rest | .queued | .cutoff | .faulted => false

/-- The states that protect the locked group, in which the lock flag is set (R133). -/
def BayState.locked : BayState → Bool
  | .queued | .ramp | .settle | .on | .drain | .cutoff => true
  | .empty | .off | .rest | .faulted => false

/-- The powered states (01, section 1.2; R35). -/
def BayState.powered : BayState → Bool
  | .ramp | .settle | .on => true
  | .empty | .off | .rest | .queued | .drain | .cutoff | .faulted => false

/-- The timed states, in which the phase timer runs (R3). -/
def BayState.timed : BayState → Bool
  | .ramp | .settle | .drain | .cutoff | .rest => true
  | .empty | .off | .queued | .on | .faulted => false

/-- The states that count as complete in a quiesce (R172). -/
def BayState.complete : BayState → Bool
  | .empty | .off | .rest | .faulted => true
  | .queued | .ramp | .settle | .on | .drain | .cutoff => false

/-- A committed Target of CUT acts as OFF at every reconciliation (R21). -/
def Target.wantsOff : Target → Bool
  | .on => false
  | .off | .cut => true

/-- The bay's fault threshold: FaultFilter, with 0 taken as 1 (R60, R67). -/
def faultThreshold (i : Intent) : Nat := max 1 i.faultFilter

/-- The Ramp figure of the current start (R2). -/
def rampFigure (c : BayContext) : Nat :=
  match c.basis, c.demand with
  | .demand, some d => d.ramp
  | .demand, none => 0
  | .blind, _ => c.intent.cap

/-- The Hold figure of the current start (R2). -/
def holdFigure (c : BayContext) : Nat :=
  match c.basis, c.demand with
  | .demand, some d => d.hold
  | .demand, none => 0
  | .blind, _ => c.intent.cap

/-- Whether the demand behind the current start's figures was clipped (R38). -/
def startClipped (c : BayContext) : Bool :=
  match c.basis, c.demand with
  | .demand, some d => d.clipped
  | .demand, none => false
  | .blind, _ => false

/-- The Start preconditions (R6). -/
def State.startOk (s : State) (b : BayId) : Bool :=
  let y := s.bay b
  s.shelf.state == .run && y.ctx.intent.target == .on && y.inputs.presConfirmed
    && (!y.ctx.intent.latchSensed || y.inputs.latchConfirmed) && !y.inputs.fltLevel && !y.ctx.troubleHold
    && ((y.link.linkState == .bound && y.ctx.demand.isSome) || y.ctx.intent.blind)

/-! ## Charges (R34) -/

/-- A bay's charge set; Committed changes by the same amount in that event (R34). -/
def setCharge (b : BayId) (v : Nat) (s : State) : State :=
  modPool (fun p => { p with committed := p.committed + v - (s.bay b).charge })
    (modBay b (fun y => { y with charge := v }) s)

/-- The sum of the charges of all sixteen bays (R34). -/
def State.chargeSum (s : State) : Nat := (allBays.map (fun b => (s.bay b).charge)).sum

/-- The powered sum: the charges of the bays in RAMP, SETTLE and ON (R35). -/
def State.poweredSum (s : State) : Nat :=
  (allBays.map (fun b => if (s.stateOf b).powered then (s.bay b).charge else 0)).sum

/-- The EffectiveBudget that the pool's figures and SupplyLow give (R33); Nat subtraction gives 0 when Reserve exceeds
LowBudget. -/
def derivedBudget (p : Pool) : Nat := if p.supplyLow then p.lowBudget - p.reserve else p.budget - p.reserve

/-! ## Stamps and the order of the queue (R36) -/

/-- Stamp `a` of bay `ba` is earlier than stamp `c` of bay `bc`, with the counter's wrap taken into account; at a
distance of exactly 2³¹ the lower-numbered bay's is (R36). Equal stamps are settled the same way: DESIGN CHOICE, log
entry 19. -/
def stampEarlier (a : BitVec 32) (ba : BayId) (c : BitVec 32) (bc : BayId) : Bool :=
  let d := (c - a).toNat
  if d == 0 || d == 2147483648 then ba.val < bc.val else d < 2147483648

/-- Entry `x` stands ahead of entry `y`: a lower Class number, or an earlier Arrival within the class (R36). -/
def QueueEntry.ahead (x y : QueueEntry) : Bool :=
  x.priority < y.priority || (x.priority == y.priority && stampEarlier x.arrival x.bay y.arrival y.bay)

/-- An entry put in its place in the order. -/
def queueInsert (e : QueueEntry) : List QueueEntry → List QueueEntry
  | [] => [e]
  | x :: q => if e.ahead x then e :: x :: q else x :: queueInsert e q

/-- The entry of a bay, if it has one (R37). -/
def queueEntryOf (q : List QueueEntry) (b : BayId) : Option QueueEntry := q.find? (fun e => e.bay == b)

/-- The position of a bay's entry, counted from 1 at the head; 0 when it has none (R36, R180). -/
def queuePosition : List QueueEntry → BayId → Nat
  | [], _ => 0
  | e :: q, b =>
    if e.bay == b then 1
    else match queuePosition q b with
      | 0 => 0
      | n + 1 => n + 2

/-- The queue without a bay's entry. -/
def queueWithout (q : List QueueEntry) (b : BayId) : List QueueEntry := q.filter (fun e => e.bay != b)

/-- A bay's entry with its amount replaced in place (R40). -/
def queueReplace (b : BayId) (amount : Nat) (clipped : Bool) (q : List QueueEntry) : List QueueEntry :=
  q.map (fun e => if e.bay == b then { e with amount := amount, clipped := clipped } else e)

/-! ## The transmit list (R91) -/

/-- The five kinds of entry of the transmit list (R91). -/
inductive TxSlot where
  | limit | answer | prepare | parcel | probe
  deriving DecidableEq, Repr

/-- The kind of an entry; GRANT and WAIT are both the ANSWER (R91). -/
def TxEntry.slot : TxEntry → TxSlot
  | .limit _ => .limit
  | .grant _ _ => .answer
  | .wait _ => .answer
  | .prepare _ _ => .prepare
  | .parcel _ => .parcel
  | .probe => .probe

/-- Whether the list holds an entry of a kind. -/
def txListed (k : TxSlot) (l : List TxEntry) : Bool := l.any (fun e => e.slot == k)

/-- The listed entry of the same kind replaced in place. -/
def txReplace (e : TxEntry) (l : List TxEntry) : List TxEntry := l.map (fun x => if x.slot == e.slot then e else x)

/-- An entry placed on the list as R91's table gives: replaced in place, else at the tail, a PREPARE at the front; a
PREPARE removes any ANSWER. -/
def txPlace (e : TxEntry) (l : List TxEntry) : List TxEntry :=
  match e.slot with
  | .prepare =>
    let l' := l.filter (fun x => x.slot != .answer)
    if txListed .prepare l' then txReplace e l' else e :: l'
  | k => if txListed k l then txReplace e l else l ++ [e]

/-- An entry handed to the Link Engine; while the link is other than BOUND it takes PROBE alone (R91). -/
def placeEntry (b : BayId) (e : TxEntry) (s : State) : State :=
  if (s.bay b).link.linkState = .bound ∨ e.slot = .probe then
    modLink b (fun l => { l with txList := txPlace e l.txList }) s
  else s

/-- Whether an entry of a kind is in flight. -/
def inFlightIs (k : TxSlot) (l : LinkEngine) : Bool :=
  match l.inFlight with
  | some m => m.entry.slot == k
  | none => false

/-- PROBE placed unless a PROBE is listed or in flight (R98, R101). -/
def placeProbe (b : BayId) (s : State) : State :=
  if txListed .probe (s.bay b).link.txList || inFlightIs .probe (s.bay b).link then s else placeEntry b .probe s

/-- How many attempts the in-flight message has made: in AwaitingResend Attempts already counts the next one (R94,
R126; DEDUCED, log entry 18). -/
def InFlight.made (m : InFlight) : Nat :=
  match m.phase with
  | .awaitingResend => m.attempts - 1
  | .sending | .awaitingAck => m.attempts

/-! ## What a link takes (R84, R90, R106) -/

/-- Whether the completion of a frame can come now: a link that is not DETACHED whose line is not being driven or
discarded (R84; LineState Idle is admitted too, log entry 4). -/
def LinkEngine.mayReceive (l : LinkEngine) : Bool :=
  l.linkState != .detached && (l.lineState == .idle || l.lineState == .receiving)

/-- Whether a message is a duplicate (R90). -/
def LinkEngine.duplicate (l : LinkEngine) (seq : Sequence) : Bool := l.filterValid && l.lastSequence == seq

/-! ## Attention causes (R189) -/

/-- FAULT raised (R72, R159). -/
def raiseFault (s : State) : State := modAttn (fun c => { c with fault := true }) s

end Sys2Proof.Machine
end

