-- ==== Sys2Proof/Machine/Journal.lean ====
section
/-! DEFINITION. The Journal Writer: positions, appending, loss and GAP, the waiting snapshot, the Tail and the JOURNAL
cause (chapter 7). -/

namespace Sys2Proof.Machine

/-! ## Positions and room (R147) -/

/-- The position of an offset with its wrap flag. -/
def ringPosition (offset : Nat) (wrap : Bool) : Nat := offset + if wrap then Config.ringSize else 0

/-- The bytes written and not yet given back. -/
def Journal.unread (j : Journal) : Nat :=
  (ringPosition j.head j.headWrap + 2 * Config.ringSize - ringPosition j.tail j.tailWrap) % (2 * Config.ringSize)

/-- The room the Writer may fill. -/
def Journal.free (j : Journal) : Nat := Config.ringSize - j.unread

/-- Head advanced by a number of bytes (R147). -/
def Journal.advance (n : Nat) (j : Journal) : Journal :=
  let p := (ringPosition j.head j.headWrap + n) % (2 * Config.ringSize)
  { j with head := p % Config.ringSize, headWrap := Config.ringSize ≤ p }

/-! ## The room test (R151) -/

/-- G: the bytes of an owed GAP. -/
def Journal.gapLength (j : Journal) : Nat := if j.overflow then 8 else 0

/-- H: the offset at which the record would begin. -/
def Journal.recordStart (j : Journal) : Nat := (j.head + j.gapLength) % Config.ringSize

/-- P: the bytes of a PAD that a record of a length needs. -/
def Journal.padLength (j : Journal) (length : Nat) : Nat :=
  if length ≤ Config.ringSize - j.recordStart then 0 else Config.ringSize - j.recordStart

/-- The offset at which a record of a length is written. -/
def Journal.recordOffset (j : Journal) (length : Nat) : Nat :=
  if j.padLength length = 0 then j.recordStart else 0

/-- Whether a record of a length fits, with 8 bytes left free (R151, step 4). -/
def Journal.fits (j : Journal) (length : Nat) : Bool :=
  j.gapLength + j.padLength length + length + 8 ≤ j.free

/-! ## The JOURNAL cause (R157, R158) -/

/-- The HoldoffTimer started at the context's Holdoff; a Holdoff of 0 sets JOURNAL at once (R157). -/
def startHoldoff (s : State) : State :=
  if s.shelf.context.holdoff = 0 then modAttn (fun c => { c with journal := true }) s
  else modJournal (fun j => { j with holdoffTimer := some (ms s.shelf.context.holdoff) }) s

/-- The Writer takes the JOURNAL cause after an append, given Unread before it (R157, R158). -/
def causeAfterAppend (unreadBefore : Nat) (s : State) : State :=
  let s1 := if unreadBefore = 0 ∧ 0 < s.journal.unread ∧ s.attnPending.journal = false then startHoldoff s else s
  if Config.journalHalf ≤ s1.journal.unread then
    modAttn (fun c => { c with journal := true }) (modJournal (fun j => { j with holdoffTimer := none }) s1)
  else s1

/-- The Writer takes the JOURNAL cause after a Tail write: cleared, and the timer stopped, at Unread 0 (R158). -/
def causeAfterTail (s : State) : State :=
  if s.journal.unread = 0 then
    modAttn (fun c => { c with journal := false }) (modJournal (fun j => { j with holdoffTimer := none }) s)
  else s

/-! ## Appending (R152) -/

/-- Bytes written into the ring at an offset. -/
def ringWrite (offset : Nat) (bytes : List Byte) (s : State) : State :=
  setWindow (Memory.writeBytes s.window (Config.ringBase + offset) bytes) s

/-- The owed GAP written at Head with the next Stamp (R154), if one is owed. -/
def writeGap (s : State) : State :=
  if s.journal.overflow then
    modJournal (fun j => { j with stamp := j.stamp + 1 })
      (ringWrite s.journal.head (gapBytes s.journal.stamp s.journal.lost s.journal.shelfTime) s)
  else s

/-- A PAD of a length written at an offset with the next Stamp (R151), if the length is not 0. Its Time is the Shelf Time of
the event that writes it, also ahead of a snapshot latched before (DESIGN CHOICE, log entry 45). -/
def writePad (offset length : Nat) (s : State) : State :=
  if length = 0 then s
  else
    modJournal (fun j => { j with stamp := j.stamp + 1 })
      (ringWrite offset (recordBytes padKind 255 s.journal.stamp s.journal.shelfTime [] length) s)

/-- The record itself written at an offset with the next Stamp. -/
def writeRecord (kind : Nat) (bay : Byte) (time : BitVec 32) (body : List Byte) (length offset : Nat) (s : State) :
    State :=
  modJournal (fun j => { j with stamp := j.stamp + 1 })
    (ringWrite offset (recordBytes kind bay s.journal.stamp time body length) s)

/-- A record that fits appended: GAP, PAD, record, then Head once past all three; an owed GAP clears Lost and Overflow
(R152, R154). `j` is the Writer as the room test found it. -/
def appendAt (j : Journal) (kind : Nat) (bay : Byte) (time : BitVec 32) (body : List Byte) (length : Nat) (s : State) :
    State :=
  causeAfterAppend j.unread
    (modJournal (fun k =>
        { Journal.advance (j.gapLength + j.padLength length + length) k with
          lost := if j.overflow then 0 else k.lost, overflow := false })
      (writeRecord kind bay time body length (j.recordOffset length)
        (writePad j.recordStart (j.padLength length) (writeGap s))))

/-- A submission lost (R153). -/
def loseRecord (s : State) : State :=
  modAttn (fun c => { c with overflow := c.overflow || !s.journal.overflow })
    (modJournal (fun j => { j with lost := min 65535 (j.lost + 1), overflow := true }) s)

/-- A record submitted to the Writer: appended where it fits and no snapshot waits, else lost (R150, R153, R155). -/
def submit (r : Record) (s : State) : State :=
  if s.journal.waitingSnapshot.isNone && s.journal.fits r.length then
    appendAt s.journal r.kind (bayByte r.bay) s.journal.shelfTime r.body r.length s
  else loseRecord s

/-- A SNAPSHOT record written, with the Time of its latch; SnapStatus returns to IDLE and SnapCount advances (R155,
R182). -/
def appendSnapshot (p : Snapshot) (s : State) : State :=
  modShelf (fun h => { h with snapStatus := .idle, snapCount := h.snapCount + 1 })
    (modJournal (fun j => { j with waitingSnapshot := none })
      (appendAt s.journal snapshotKind 255 p.time p.body p.length s))

/-- A latched snapshot submitted: written where it fits, else kept waiting with SnapStatus PENDING (R155, R182). -/
def submitSnapshot (p : Snapshot) (s : State) : State :=
  if s.journal.fits p.length then appendSnapshot p s
  else
    modShelf (fun h => { h with snapStatus := .pending })
      (modJournal (fun j => { j with waitingSnapshot := some p }) s)

/-- A waiting snapshot tried again (R156, step 2). -/
def retrySnapshot (s : State) : State :=
  match s.journal.waitingSnapshot with
  | some p => if s.journal.fits p.length then appendSnapshot p s else s
  | none => s

/-- A valid Tail write taken by the Writer (R156): BadTail cleared, the copy taken, a waiting snapshot tried. -/
def takeTail (offset : Nat) (wrap : Bool) (s : State) : State :=
  retrySnapshot (causeAfterTail
    (modJournal (fun j => { j with tail := offset, tailWrap := wrap, badTail := false }) s))

end Sys2Proof.Machine
end

