-- ==== Sys2Proof/Machine/Sequencer.lean ====
section
/-! DEFINITION. The Bay Sequencer: every change of bay state with what it hands on, the entries into each state, joining
and leaving the Admission Queue, and reconciliation (chapter 1; R36 to R41, R45, R47 to R50). No operation here evaluates the
head of the queue: an event does so when its own part is done (R42; DEDUCED, log entry 11). -/

namespace Sys2Proof.Machine

/-! ## ADMIT records and the ANSWER messages -/

/-- An ADMIT record with Committed as it stands (R57). -/
def submitAdmit (b : BayId) (kind : EntryKind) (outcome : AdmitOutcome) (amount position : Nat) (clipped : Bool)
    (s : State) : State :=
  submit (.admission b kind outcome amount position clipped s.pool.committed) s

/-- GRANT carrying the bay's charge as both figures (R119). -/
def grantCharge (b : BayId) (s : State) : State := placeEntry b (.grant (s.bay b).charge (s.bay b).charge) s

/-- An ADMIT record with outcome Queued at the position of the bay's entry, and WAIT with it (R38, R40, R49). -/
def announceQueued (b : BayId) (kind : EntryKind) (amount : Nat) (clipped : Bool) (s : State) : State :=
  placeEntry b (.wait (queuePosition s.queue b))
    (submitAdmit b kind .queued amount (queuePosition s.queue b) clipped s)

/-- An entry put in the queue with the current ArrivalCounter value, and the counter advanced (R36, R38). -/
def joinQueue (b : BayId) (kind : EntryKind) (amount : Nat) (clipped : Bool) (s : State) : State :=
  modPool (fun p => { p with arrivalCounter := p.arrivalCounter + 1 })
    (setQueue (queueInsert ⟨b, kind, amount, (s.intentOf b).priority, s.pool.arrivalCounter, clipped⟩ s.queue) s)

/-- The bay's entry removed from the queue, with an ADMIT record of an outcome at the position it held (R41, R57). -/
def leaveQueue (b : BayId) (outcome : AdmitOutcome) (s : State) : State :=
  match queueEntryOf s.queue b with
  | some e =>
    submitAdmit b e.kind outcome e.amount (queuePosition s.queue b) e.clipped (setQueue (queueWithout s.queue b) s)
  | none => s

/-! ## A change of bay state (R5) -/

/-- The QuiesceOutcome that a transition sets while the shelf is QUIESCING (R170). -/
def quiesceOutcomeOf (new : BayState) (reason : StateReason) : Option QuiesceOutcome :=
  match new with
  | .cutoff =>
    match reason with
    | .released => some .released
    | .drainExpired | .linkLost => some .expired
    | .quiesceDeadline | .cut | .trouble | .latchOpen | .shed => some .cut
    | _ => none
  | .faulted => some .faulted
  | .empty => if reason = .removed then some .absent else none
  | .off | .rest | .queued | .ramp | .settle | .on | .drain => none

/-- The Shelf Controller told of a transition (R170). -/
def noteQuiesce (b : BayId) (new : BayState) (reason : StateReason) (s : State) : State :=
  if s.shelf.state = .quiescing then
    match quiesceOutcomeOf new reason with
    | some o => modBay b (fun y => { y with quiesceOutcome := o }) s
    | none => s
  else s

/-- The Intake rewrites the window copy of the locked group as the bay locks (R133). -/
def rewriteLocked (b : BayId) (old new : BayState) (s : State) : State :=
  if !old.locked && new.locked then
    setWindow (Memory.writeBytes s.window (intentAddr b 4) (s.intentOf b).lockedBytes) s
  else s

/-- Pending after a transition: cleared on leaving RAMP and SETTLE but for SETTLE to ON (R5). RAMP to SETTLE keeps it,
since R11 and R47 resolve it at ON (DEDUCED, log entry 12). -/
def pendingAfter (old new : BayState) (p : Bool) : Bool :=
  match old, new with
  | .ramp, .settle => p
  | .ramp, _ => false
  | .settle, .on => p
  | .settle, _ => false
  | _, _ => p

/-- A Raise entry leaves the queue as its bay leaves ON (R5, R41); its ADMIT record follows the STATE record (DEDUCED,
log entry 13). -/
def leaveOn (b : BayId) (old : BayState) (s : State) : State :=
  if old = .on then leaveQueue b .withdrawn s else s

/-- One change of bay state, with the phase timer it loads, in ms: STATE record, context, protection, quiesce outcome and
Raise entry (R3, R5). EN, the lamp and the status entry follow the state. -/
def changeState (b : BayId) (new : BayState) (reason : StateReason) (surprise : Bool) (timer : Nat) (s : State) : State :=
  leaveOn b (s.stateOf b)
    (noteQuiesce b new reason
      (rewriteLocked b (s.stateOf b) new
        (modCtx b (fun c => { c with state := new, phaseTimer := ms timer, pending := pendingAfter c.state new c.pending })
          (submit (.state b (s.stateOf b) new reason surprise) s))))

/-! ## Joining with a Start (R8, R38) -/

/-- Basis as a Start that may join sets it (R8). -/
def chooseBasis (b : BayId) (s : State) : State :=
  modCtx b (fun c => { c with
    basis := if (s.bay b).link.linkState = .bound ∧ c.demand.isSome then .demand else .blind }) s

/-- The Start asks to join with the Ramp figure of its Basis: refused above the EffectiveBudget, else the bay enters
QUEUED, the entry joins and WAIT is sent (R38). -/
def joinStart (b : BayId) (s : State) : State :=
  if s.pool.effectiveBudget < rampFigure (s.bay b).ctx then
    submitAdmit b .start .refused (rampFigure (s.bay b).ctx) 0 (startClipped (s.bay b).ctx) s
  else
    announceQueued b .start (rampFigure (s.bay b).ctx) (startClipped (s.bay b).ctx)
      (joinQueue b .start (rampFigure (s.bay b).ctx) (startClipped (s.bay b).ctx)
        (changeState b .queued .commit false 0 s))

/-- Reconciliation in OFF: a Start asks to join where the preconditions hold (R7, R8). -/
def reconcileOff (b : BayId) (s : State) : State :=
  if s.stateOf b = .off ∧ s.startOk b = true then joinStart b (chooseBasis b s) else s

/-! ## Leaving QUEUED (R9) -/

/-- A Start entry is withdrawn and its bay enters OFF (R9, R41). -/
def withdrawStart (b : BayId) (reason : StateReason) (s : State) : State :=
  changeState b .off reason false 0 (leaveQueue b .withdrawn s)

/-! ## REST (R19, R20) -/

/-- REST expiry: OFF or EMPTY from the confirmed PRES level, reconciled in the same event (R20). -/
def endRest (b : BayId) (s : State) : State :=
  if (s.bay b).inputs.presConfirmed then reconcileOff b (changeState b .off .restDone false 0 s)
  else changeState b .empty .restDone false 0 s

/-- A rest period of 0 ends in the event that entered REST (R3, R19). -/
def restIfZero (b : BayId) (s : State) : State := if (s.bay b).ctx.phaseTimer = 0 then endRest b s else s

/-- The rest period of a bay that enters REST in operation, in ms (R19). -/
def restPeriod (s : State) (b : BayId) : Nat := (s.intentOf b).restInterval * 10

/-- CUTOFF to REST on discharge, with the charge released (R17, R48). -/
def discharge (b : BayId) (s : State) : State :=
  restIfZero b (setCharge b 0 (changeState b .rest .discharged false (restPeriod s b) s))

/-- The fault filter cleared (R68). -/
def clearFilter (b : BayId) (s : State) : State :=
  modInputs b (fun i => { i with fltTicks := 0, fltLevel := false }) s

/-- FAULTED to REST as the fault is cleared (R26, R68). -/
def leaveFaulted (b : BayId) (s : State) : State :=
  restIfZero b (clearFilter b (changeState b .rest .commit false (restPeriod s b) s))

/-! ## FAULTED (R25) -/

/-- The charge is released on entry into FAULTED while PG is inactive, and kept while it is active (R25, R48). -/
def releaseIfDown (b : BayId) (s : State) : State :=
  if (s.bay b).inputs.pgLevel then s else setCharge b 0 s

/-- Entry into FAULTED (R25, R70, R72). -/
def enterFaulted (b : BayId) (reason : StateReason) (s : State) : State :=
  releaseIfDown b
    (raiseFault
      (modInputs b (fun i => { i with faultCount := min 255 (i.faultCount + 1) })
        (modCtx b (fun c => { c with clearRequested := false, pending := false })
          (changeState b .faulted reason false 0 s))))

/-! ## CUTOFF and DRAIN (R15 to R18) -/

/-- What follows entry into CUTOFF: discharged at once with PG inactive; a DischargeWindow of 0 expires in the entry
event (R3, R17, R18). So a bay that the quiesce deadline cuts from RAMP goes on to REST at once, and a later rise of PG finds
it there, not in CUTOFF as the last row of R171's table has it (DESIGN CHOICE, log entry 52). -/
def cutoffNext (b : BayId) (s : State) : State :=
  if (s.bay b).inputs.pgLevel = false then discharge b s
  else if (s.bay b).ctx.phaseTimer = 0 then enterFaulted b .stuck s
  else s

/-- Entry into CUTOFF (R17). -/
def enterCutoff (b : BayId) (reason : StateReason) (s : State) : State :=
  cutoffNext b (changeState b .cutoff reason false (s.intentOf b).dischargeWindow s)

/-- What follows entry into DRAIN: PREPARE on a BOUND link, CUTOFF at once with a DrainWait of 0 or a link not BOUND
(R15, R120). -/
def drainNext (b : BayId) (reason : DrainReason) (s : State) : State :=
  if (s.bay b).link.linkState = .bound then
    if (s.intentOf b).drainWait = 0 then
      enterCutoff b .drainExpired (placeEntry b (.prepare (s.intentOf b).drainWait reason) s)
    else placeEntry b (.prepare (s.intentOf b).drainWait reason) s
  else enterCutoff b .linkLost s

/-- Entry into DRAIN from ON (R15). -/
def enterDrain (b : BayId) (reason : DrainReason) (s : State) : State :=
  drainNext b reason (changeState b .drain reason.toState false ((s.intentOf b).drainWait * 10) s)

/-! ## Raises and lowers (R49, R50) -/

/-- A raise to a HoldFigure asked for by a bay in ON: tested against the EffectiveBudget, then refused, replaced in
place or joined (R40, R49). A refused replacement reports the amount that was held (R57). -/
def requestRaise (b : BayId) (hold : Nat) (clipped : Bool) (s : State) : State :=
  if s.pool.effectiveBudget < hold - (s.bay b).charge + (s.bay b).charge then
    grantCharge b
      (if (queueEntryOf s.queue b).isSome then leaveQueue b .refused s
      else submitAdmit b .raise .refused (hold - (s.bay b).charge) 0 clipped s)
  else
    announceQueued b .raise (hold - (s.bay b).charge) clipped
      (if (queueEntryOf s.queue b).isSome then
        setQueue (queueReplace b (hold - (s.bay b).charge) clipped s.queue) s
      else joinQueue b .raise (hold - (s.bay b).charge) clipped s)

/-- A Raise admitted: the bay's charge grows by its Amount (R45). -/
def admitRaise (e : QueueEntry) (s : State) : State :=
  grantCharge e.bay
    (submitAdmit e.bay .raise .admitted e.amount 1 e.clipped
      (setCharge e.bay ((s.bay e.bay).charge + e.amount) (setQueue (queueWithout s.queue e.bay) s)))

/-- The bay's Raise admitted in the event that made it, in its place in the queue, where the new Committed fits (R34;
DESIGN CHOICE, log entry 44). -/
def admitAtOnce (b : BayId) (s : State) : State :=
  match queueEntryOf s.queue b with
  | some e => if s.pool.committed + e.amount ≤ s.pool.effectiveBudget then admitRaise e s else s
  | none => s

/-- The bay has reached ON in this same moment, from a SETTLE charge not below a HoldFigure (R112). -/
def Bay.settledAbove (hold : Nat) (y : Bay) : Bool :=
  match y.settledFrom with
  | some charge => hold ≤ charge
  | none => false

/-- A raise taken in ON (R49). Together with the expiry of SETTLE a HoldFigure at or below the SETTLE charge becomes the
charge in whichever order the two are taken (R112, last paragraph): the Raise is admitted at once (DESIGN CHOICE, log entry
44). -/
def takeRaise (b : BayId) (hold : Nat) (clipped : Bool) (s : State) : State :=
  if (s.bay b).settledAbove hold then admitAtOnce b (requestRaise b hold clipped s) else requestRaise b hold clipped s

/-- A lower taken in ON: a Raise withdrawn, the charge set, GRANT sent (R50). -/
def takeLower (b : BayId) (hold : Nat) (s : State) : State :=
  grantCharge b (setCharge b hold (leaveQueue b .withdrawn s))

/-! ## RAMP, SETTLE and ON (R10 to R14) -/

/-- Why a bay that reaches ON drains in that event, if it does (R13). CUT acts as OFF (R21). -/
def drainAtOn (s : State) (b : BayId) : Option DrainReason :=
  if (s.intentOf b).target.wantsOff then some .target
  else if (s.bay b).ctx.troubleHold then some .trouble
  else if s.shelf.state = .quiescing then some .quiesce
  else none

/-- A pending demand resolved as the bay enters ON (R13, R47). -/
def resolvePending (b : BayId) (d : Demand) (s : State) : State :=
  if (drainAtOn s b).isSome then setCharge b (min d.hold (s.bay b).grantedHold) s
  else if d.hold ≤ (s.bay b).charge then grantCharge b (setCharge b d.hold s)
  else requestRaise b d.hold d.clipped (setCharge b (s.bay b).grantedHold s)

/-- The charge as the bay enters ON: GrantedHold, or as the pending demand resolves (R13, R47). -/
def settleCharge (b : BayId) (s : State) : State :=
  match (s.bay b).ctx.pending, (s.bay b).ctx.demand with
  | true, some d => resolvePending b d s
  | _, _ => setCharge b (s.bay b).grantedHold s

/-- The charge held in SETTLE kept for a DEMAND of the same moment (R112, log entry 44). -/
def keepSettled (b : BayId) (s : State) : State := modBay b (fun y => { y with settledFrom := some y.charge }) s

/-- Pending cleared once it is resolved (R13). -/
def clearPending (b : BayId) (s : State) : State := modCtx b (fun c => { c with pending := false }) s

/-- Reconciliation at ON (R13). -/
def reconcileOn (b : BayId) (s : State) : State :=
  match drainAtOn s b with
  | some r => enterDrain b r s
  | none => s

/-- Entry into ON from SETTLE (R13). Its STATE record comes before the ADMIT record of a Raise that the resolution of a
pending demand asks for (DESIGN CHOICE, log entry 49). -/
def enterOn (b : BayId) (s : State) : State :=
  reconcileOn b (clearPending b (settleCharge b (keepSettled b (changeState b .on .settled false 0 s))))

/-- A SettleDelay of 0 takes the bay to ON in the event that entered SETTLE (R12). -/
def settleNext (b : BayId) (s : State) : State := if (s.bay b).ctx.phaseTimer = 0 then enterOn b s else s

/-- Entry into SETTLE (R11). -/
def enterSettle (b : BayId) (s : State) : State :=
  settleNext b (changeState b .settle .powerGood false (s.intentOf b).settleDelay s)

/-- What follows entry into RAMP: SETTLE at once with PG active; a RampWindow of 0 expires in the entry event (R3, R10,
R11). -/
def rampNext (b : BayId) (s : State) : State :=
  if (s.bay b).inputs.pgLevel then enterSettle b s
  else if (s.bay b).ctx.phaseTimer = 0 then enterFaulted b .noPowerGood s
  else s

/-- Entry into RAMP at an admission, with GRANT carrying the admitted figures (R10, R44). -/
def enterRamp (b : BayId) (amount : Nat) (s : State) : State :=
  rampNext b
    (placeEntry b (.grant amount (s.bay b).grantedHold)
      (clearFilter b (changeState b .ramp .admitted false (s.intentOf b).rampWindow s)))

/-! ## Events by bay state -/

/-- FltLevel becomes active (R66). -/
def onFaultConfirmed (b : BayId) (s : State) : State :=
  match s.stateOf b with
  | .ramp | .settle | .on | .drain => enterFaulted b .switchFault s
  | .queued => withdrawStart b .preconditionLost s
  | .empty | .off | .rest | .cutoff | .faulted => s

/-- PG becomes active (R69). -/
def onPgActive (b : BayId) (s : State) : State :=
  match s.stateOf b with
  | .ramp => enterSettle b s
  | .empty | .off | .rest | .queued | .settle | .on | .drain | .cutoff | .faulted => s

/-- PG becomes inactive in FAULTED: a stuck charge is released, and a waiting clearing is completed (R26). -/
def onPgInactiveFaulted (b : BayId) (s : State) : State :=
  if (s.bay b).ctx.clearRequested then leaveFaulted b (setCharge b 0 s) else setCharge b 0 s

/-- PG becomes inactive (R69). -/
def onPgInactive (b : BayId) (s : State) : State :=
  match s.stateOf b with
  | .settle | .on | .drain => enterFaulted b .powerLost s
  | .cutoff => discharge b s
  | .faulted => onPgInactiveFaulted b s
  | .empty | .off | .rest | .queued | .ramp => s

/-- A confirmed opening of the latch while LatchSensed is 1 (R22). -/
def onLatchOpen (b : BayId) (s : State) : State :=
  match s.stateOf b with
  | .on => enterDrain b .latchOpen s
  | .ramp | .settle => enterCutoff b .latchOpen s
  | .queued => withdrawStart b .latchOpen s
  | .empty | .off | .rest | .drain | .cutoff | .faulted => s

/-- A clearing commit in FAULTED: REST with PG inactive, else the clearing waits (R26). -/
def clearFault (b : BayId) (s : State) : State :=
  if (s.bay b).inputs.pgLevel then modCtx b (fun c => { c with clearRequested := true }) s else leaveFaulted b s

/-- The committed Target taken against the bay state (R21). -/
def takeTarget (b : BayId) (s : State) : State :=
  match (s.intentOf b).target, s.stateOf b with
  | _, .off => reconcileOff b s
  | .off, .queued => withdrawStart b .target s
  | .off, .on => enterDrain b .target s
  | .off, .faulted => clearFault b s
  | .cut, .queued => withdrawStart b .cut s
  | .cut, .ramp => enterCutoff b .cut s
  | .cut, .settle => enterCutoff b .cut s
  | .cut, .on => enterCutoff b .cut s
  | .cut, .drain => enterCutoff b .cut s
  | .cut, .faulted => clearFault b s
  | _, _ => s

/-- The quiesce deadline for one bay (R29, R171). -/
def onDeadline (b : BayId) (s : State) : State :=
  match s.stateOf b with
  | .ramp | .settle | .on | .drain => enterCutoff b .quiesceDeadline s
  | .empty | .off | .rest | .queued | .cutoff | .faulted => s

/-- The link has left BOUND for LOST or UNBOUND, or a demand is unknown: a QUEUED bay that is not Blind is withdrawn
(R9). -/
def withdrawUnlessBlind (b : BayId) (s : State) : State :=
  if s.stateOf b = .queued ∧ (s.intentOf b).blind = false then withdrawStart b .preconditionLost s else s

/-- The link has gone LOST: DRAIN ends, and a QUEUED bay that is not Blind is withdrawn (R16, R101). -/
def onLinkLost (b : BayId) (s : State) : State :=
  if s.stateOf b = .drain then enterCutoff b .linkLost s else withdrawUnlessBlind b s

/-- A Start's amount replaced in place, or the Start refused where the new amount exceeds the EffectiveBudget (R40): its
ADMIT record carries the amount that was held (R57), and comes before the STATE record (DESIGN CHOICE, log entry 42). -/
def replaceStart (b : BayId) (amount : Nat) (clipped : Bool) (s : State) : State :=
  if s.pool.effectiveBudget < amount then
    changeState b .off .shed false 0 (leaveQueue b .refused s)
  else announceQueued b .start amount clipped (setQueue (queueReplace b amount clipped s.queue) s)

/-- Demand becoming unknown, as the Sequencer takes it by bay state (R113). -/
def onDemandUnknown (b : BayId) (s : State) : State :=
  match s.stateOf b with
  | .queued =>
    if (s.intentOf b).blind then
      replaceStart b (s.intentOf b).cap false (modCtx b (fun c => { c with basis := .blind }) s)
    else withdrawStart b .preconditionLost s
  | .ramp | .settle => clearPending b s
  | .empty | .off | .rest | .on | .drain | .cutoff | .faulted => s

/-- The Demand made unknown, with its effects (R113). -/
def makeDemandUnknown (b : BayId) (s : State) : State :=
  onDemandUnknown b (modCtx b (fun c => { c with demand := none }) s)

/-- A stored DEMAND acted on by bay state (R111). In ON the present charge tells a raise from a lower (R49, R50).
A HoldFigure above the charge is a raise also where the figures are the stored ones and a Raise waits: it is replaced in
place with WAIT (R49, R51), although R111 has it withdrawn with GRANT (DESIGN CHOICE, log entry 50). -/
def onDemand (b : BayId) (d : Demand) (s : State) : State :=
  match s.stateOf b with
  | .off => reconcileOff b s
  | .queued => replaceStart b d.ramp d.clipped (modCtx b (fun c => { c with basis := .demand }) s)
  | .ramp | .settle => modCtx b (fun c => { c with pending := true }) s
  | .on => if (s.bay b).charge < d.hold then takeRaise b d.hold d.clipped s else takeLower b d.hold s
  | .empty | .rest | .drain | .cutoff | .faulted => s

/-- RELEASE: in DRAIN the bay enters CUTOFF, elsewhere it is discarded (R115). -/
def onRelease (b : BayId) (s : State) : State :=
  if s.stateOf b = .drain then enterCutoff b .released s else s

/-- The Action a TROUBLE of a severity has in a bay state (R116). -/
def troubleActionOf (severity : Nat) (st : BayState) : TroubleAction :=
  if severity = 1 then .none
  else
    match st with
    | .queued => .withdrawn
    | .on => if severity = 3 then .cut else .drain
    | .ramp | .settle | .drain => if severity = 3 then .cut else .hold
    | .empty | .off | .rest | .cutoff | .faulted => .hold

/-- A TROUBLE acted on by the Sequencer: the hold first, then the severity's action (R27, R116). -/
def onTrouble (b : BayId) (severity : Nat) (s : State) : State :=
  match troubleActionOf severity (s.stateOf b) with
  | .none => s
  | .hold => modCtx b (fun c => { c with troubleHold := true }) s
  | .withdrawn => withdrawStart b .trouble (modCtx b (fun c => { c with troubleHold := true }) s)
  | .drain => enterDrain b .trouble (modCtx b (fun c => { c with troubleHold := true }) s)
  | .cut => enterCutoff b .trouble (modCtx b (fun c => { c with troubleHold := true }) s)

end Sys2Proof.Machine
end

