-- ==== Sys2Proof/Machine/Dialogue.lean ====
section
/-! DEFINITION. The outbox of the Dialogue Unit and the end of a parcel (R121 to R126), and the LIMIT message (R118). -/

namespace Sys2Proof.Machine

/-! ## The end of a parcel (R126) -/

/-- The Length of the parcel being sent. -/
def DialogueUnit.parcelLength (d : DialogueUnit) : Nat := (d.parcelCopy.getD []).length

/-- A SENDING parcel ended with an outcome: ParcelCopy absent, SlotStatus the outcome, a PARCEL record (R126). -/
def endParcel (b : BayId) (outcome : SlotStatus) (cause : ParcelCause) (attempts : Nat) (s : State) : State :=
  submit (.parcel b outcome cause (s.bay b).dialogue.parcelLength attempts)
    (modDialogue b (fun d => { d with parcelCopy := none, slotStatus := outcome }) s)

/-- A parcel that is listed and not yet in flight abandoned as its list is flushed (R92, R126). -/
def abandonListed (b : BayId) (cause : ParcelCause) (s : State) : State :=
  if txListed .parcel (s.bay b).link.txList then endParcel b .abandoned cause 0 s else s

/-! ## Posting and taking (R122, R123) -/

/-- The Length byte of a slot as it stands in the window. -/
def State.slotLength (s : State) (b : BayId) : Nat := (Memory.read s.window (outboxAddr b 1)).toNat

/-- The first bytes of a slot's Payload as they stand in the window. -/
def State.slotPayload (s : State) (b : BayId) (n : Nat) : List Byte := Memory.readBytes s.window (outboxAddr b 2) n

/-- SlotStatus set; the Status byte in the window shows it (R121). -/
def setSlot (b : BayId) (st : SlotStatus) (s : State) : State := modDialogue b (fun d => { d with slotStatus := st }) s

/-- A parcel refused for its Length: FAILED, with a REFUSED record (R122, R123, R140). The failing field is at offset 01h
of the slot. -/
def refuseParcel (b : BayId) (s : State) : State :=
  submit (.refused (some b) .outbox .range 1 0 (s.slotLength b)) (setSlot b .failed s)

/-- A POSTED parcel taken: copied, SENDING, and placed on the transmit list (R123, steps 2 to 4). -/
def copyParcel (b : BayId) (payload : List Byte) (s : State) : State :=
  placeEntry b (.parcel payload)
    (modDialogue b (fun d => { d with parcelCopy := some payload, slotStatus := .sending }) s)

/-- Whether a POSTED parcel is taken now (R123). -/
def State.mayTake (s : State) (b : BayId) : Bool :=
  (s.bay b).dialogue.slotStatus == .posted && (s.bay b).link.linkState == .bound
    && !txListed .parcel (s.bay b).link.txList && !inFlightIs .parcel (s.bay b).link

/-- The take, where its conditions hold (R123). -/
def takeParcel (b : BayId) (s : State) : State :=
  if s.mayTake b then
    if 32 < s.slotLength b then refuseParcel b s else copyParcel b (s.slotPayload b (s.slotLength b)) s
  else s

/-- A post (R122). -/
def post (b : BayId) (s : State) : State :=
  if 32 < s.slotLength b then refuseParcel b s else takeParcel b (setSlot b .posted s)

/-- A Status value of FREE or POSTED that landed, taken against SlotStatus (R121). A slot that is SENDING is protected,
so nothing lands in it. -/
def handOver (b : BayId) (posted : Bool) (s : State) : State :=
  match posted, (s.bay b).dialogue.slotStatus with
  | true, .free => post b s
  | true, .sent => post b s
  | true, .failed => post b s
  | true, .abandoned => post b s
  | false, .posted => setSlot b .free s
  | false, .sent => setSlot b .free s
  | false, .failed => setSlot b .free s
  | false, .abandoned => setSlot b .free s
  | _, _ => s

/-! ## LIMIT (R118) -/

/-- LIMIT carrying the committed Cap placed. -/
def placeLimit (b : BayId) (s : State) : State := placeEntry b (.limit (s.intentOf b).cap) s

end Sys2Proof.Machine
end

