-- ==== Sys2Proof/Machine/Admission.lean ====
section
/-! DEFINITION. The Admission Controller: the evaluation of the head of the queue, admission, the EffectiveBudget, shedding
and refusal on a budget fall (chapter 2; R28). -/

namespace Sys2Proof.Machine

/-! ## Evaluation and admission (R42 to R45) -/

/-- The head of the queue, when it is admitted as the pool stands: the shelf RUN and Committed plus the Amount within
the EffectiveBudget (R43). -/
def headThatFits (s : State) : Option QueueEntry :=
  match s.queue with
  | [] => none
  | e :: _ =>
    if s.shelf.state = .run ∧ s.pool.committed + e.amount ≤ s.pool.effectiveBudget then some e else none

/-- What a Start admission sets for the bay: GrantedHold, the Hold figure of the Basis (R44, step 3), and the
AdmissionStamp (step 4). -/
def grantStamp (b : BayId) (stamp : BitVec 32) (s : State) : State :=
  modBay b (fun y => { y with grantedHold := holdFigure y.ctx, ctx := { y.ctx with admissionStamp := stamp } }) s

/-- The ArrivalCounter advanced by one (R36). -/
def advanceCounter (s : State) : State := modPool (fun p => { p with arrivalCounter := p.arrivalCounter + 1 }) s

/-- A Start at the head admitted (R44). -/
def admitStart (e : QueueEntry) (s : State) : State :=
  enterRamp e.bay e.amount
    (submitAdmit e.bay .start .admitted e.amount 1 e.clipped
      (advanceCounter
        (grantStamp e.bay s.pool.arrivalCounter
          (setCharge e.bay e.amount (setQueue (queueWithout s.queue e.bay) s)))))

/-- The head admitted by its kind. -/
def admitEntry (e : QueueEntry) (s : State) : State :=
  match e.kind with
  | .start => admitStart e s
  | .raise => admitRaise e s

/-- Heads admitted one after another while they fit, at most a number of times (R43). -/
def evaluateLoop : Nat → State → State
  | 0, s => s
  | n + 1, s =>
    match headThatFits s with
    | some e => evaluateLoop n (admitEntry e s)
    | none => s

/-- The head of the queue evaluated (R43). An admission takes an entry away and adds at most the Raise of the bay whose
Start it admitted (R47), so twice the length of the queue is room enough. An event that R42 does not list cannot change
whether the head fits, so every event that may list one ends with this (log entry 11). -/
def evaluateHead (s : State) : State := evaluateLoop (2 * s.queue.length) s

/-! ## Shedding (R28, R52, R53) -/

/-- Bay `x` is shed before bay `y`: a higher Priority number, or in one class the later AdmissionStamp (R53). -/
def shedAhead (s : State) (x y : BayId) : Bool :=
  (s.intentOf y).priority < (s.intentOf x).priority
    || ((s.intentOf x).priority == (s.intentOf y).priority
      && stampEarlier (s.bay y).ctx.admissionStamp y (s.bay x).ctx.admissionStamp x)

/-- A bay put in its place in the shedding order. -/
def shedInsert (s : State) (b : BayId) : List BayId → List BayId
  | [] => [b]
  | x :: l => if shedAhead s b x then b :: x :: l else x :: shedInsert s b l

/-- The bays of the given states that hold a charge, in the shedding order (R53). -/
def shedOrder (s : State) (among : BayState → Bool) : List BayId :=
  (allBays.filter (fun b => among (s.stateOf b) && (s.bay b).charge != 0)).foldr (shedInsert s) []

/-- The states of step 1 and of step 2 of R53. -/
def BayState.isOn : BayState → Bool
  | .on => true
  | .empty | .off | .rest | .queued | .ramp | .settle | .drain | .cutoff | .faulted => false
def BayState.isRising : BayState → Bool
  | .ramp | .settle => true
  | .empty | .off | .rest | .queued | .on | .drain | .cutoff | .faulted => false

/-- The candidates for shedding in their order: bays in ON, then bays in RAMP and SETTLE together (R53). -/
def shedCandidates (s : State) : List BayId := shedOrder s BayState.isOn ++ shedOrder s BayState.isRising

/-- The candidates taken until what is left of the powered sum is within the budget (R53). -/
def shedChoice (budget : Nat) (charge : BayId → Nat) : List BayId → Nat → List BayId
  | [], _ => []
  | b :: l, sum => if budget < sum then b :: shedChoice budget charge l (sum - charge b) else []

/-- A shed order taken by a bay (R28). -/
def shedBay (b : BayId) (s : State) : State :=
  match s.stateOf b with
  | .on => enterDrain b .shed s
  | .ramp | .settle => enterCutoff b .shed s
  | .empty | .off | .rest | .queued | .drain | .cutoff | .faulted => s

/-- The bays that the EffectiveBudget as it stands has shed (R52, step 2). -/
def shedList (s : State) : List BayId :=
  shedChoice s.pool.effectiveBudget (fun b => (s.bay b).charge) (shedCandidates s) s.poweredSum

/-- A shed order to each bay of a list, in turn. -/
def shedAll (l : List BayId) (s : State) : State := l.foldl (fun t b => shedBay b t) s

/-! ## Refusals on a budget fall (R54) -/

/-- An entry that the EffectiveBudget can no longer serve (R54). -/
def unservable (s : State) (e : QueueEntry) : Bool :=
  match e.kind with
  | .start => s.pool.effectiveBudget < e.amount
  | .raise => s.pool.effectiveBudget < e.amount + (s.bay e.bay).charge

/-- The entries to refuse, in queue order, each with the position it holds as the refusals begin (R54). -/
def refusalList (s : State) : List (QueueEntry × Nat) :=
  (s.queue.filter (unservable s)).map (fun e => (e, queuePosition s.queue e.bay))

/-- One entry refused (R54). -/
def refuseEntry (e : QueueEntry) (position : Nat) (s : State) : State :=
  match e.kind with
  | .start =>
    changeState e.bay .off .shed false 0
      (submitAdmit e.bay .start .refused e.amount position e.clipped (setQueue (queueWithout s.queue e.bay) s))
  | .raise =>
    grantCharge e.bay
      (submitAdmit e.bay .raise .refused e.amount position e.clipped (setQueue (queueWithout s.queue e.bay) s))

/-- The entries of a list refused in turn. -/
def refuseAll (l : List (QueueEntry × Nat)) (s : State) : State := l.foldl (fun t r => refuseEntry r.1 r.2 t) s

/-! ## The EffectiveBudget (R33, R52, R55) -/

/-- The BUDGET record (R55). -/
def submitBudget (old : Nat) (cause : BudgetCause) (nShed nRefused : Nat) (s : State) : State :=
  submit (.budget old s.pool.effectiveBudget cause nShed nRefused s.pool.committed) s

/-- The EffectiveBudget set. -/
def setEffective (v : Nat) (s : State) : State := modPool (fun p => { p with effectiveBudget := v }) s

/-- The refusals of a budget fall and its BUDGET record, after a number of bays have been shed (R52, steps 3 and 4). -/
def fallNext (old : Nat) (cause : BudgetCause) (nShed : Nat) (s : State) : State :=
  submitBudget old cause nShed (refusalList s).length (refuseAll (refusalList s) s)

/-- A fall of the EffectiveBudget after it is recorded: shedding, refusals, BUDGET record (R52, steps 2 to 4). -/
def budgetFall (old : Nat) (cause : BudgetCause) (s : State) : State :=
  fallNext old cause (shedList s).length (shedAll (shedList s) s)

/-- The EffectiveBudget recomputed from the pool's figures, with what R33 has follow but for the evaluation of the
head, which the event makes at its end. -/
def recomputeBudget (cause : BudgetCause) (s : State) : State :=
  if derivedBudget s.pool = s.pool.effectiveBudget then s
  else if s.pool.effectiveBudget < derivedBudget s.pool then
    submitBudget s.pool.effectiveBudget cause 0 0 (setEffective (derivedBudget s.pool) s)
  else budgetFall s.pool.effectiveBudget cause (setEffective (derivedBudget s.pool) s)

end Sys2Proof.Machine
end

