-- ==== Sys2Proof/Machine/Flags.lean ====
section
/-! DEFINITION. What the outside sees: the registers, the pins, and every byte of the Shared Window, each computed from
the block that owns it (R129, R176, R189, R191). -/

namespace Sys2Proof.Machine

/-! ## Registers (10, section 10.2) -/

/-- The four causes as bits 0 to 3 of a register; bits 4 to 15 read 0 (R189). -/
def Causes.word (c : Causes) : RegWord := BitVec.ofNat 16 (ofBits [c.journal, c.overflow, c.fault, c.wake])

/-- INIT_DONE: clear while the shelf is INIT (R191). -/
def ShelfState.initDone : ShelfState → Bool
  | .init => false
  | .held | .run | .quiescing | .standby => true

/-- STATUS (R191): INIT_DONE, the shelf state code and the confirmed SUPPLY_LOW level. -/
def State.statusRegister (s : State) : RegWord :=
  BitVec.ofNat 16 (bitOf s.shelf.state.initDone + 2 * s.shelf.state.code + 16 * bitOf s.supply.confirmed)

/-- The register at an even address; 0 from 000Ah upwards (R188). CONTROL reads 0000h (R190). -/
def State.register (s : State) (a : Nat) : RegWord :=
  match a with
  | 0 => Config.idValue
  | 4 => s.statusRegister
  | 6 => s.attnPending.word
  | 8 => s.attnEnable.word
  | _ => 0

/-- The register byte at an address: the low byte at the even address, the high byte at the next (10, section 10.2). -/
def State.registerByte (s : State) (a : Nat) : Byte :=
  if a % 2 = 0 then (s.register a).extractLsb' 0 8 else (s.register (a - 1)).extractLsb' 8 8

/-! ## Pins -/

/-- ATTN is driven low while a cause is pending and enabled (R189). -/
def State.attnAsserted (s : State) : Bool :=
  (s.attnPending.journal && s.attnEnable.journal) || (s.attnPending.overflow && s.attnEnable.overflow)
    || (s.attnPending.fault && s.attnEnable.fault) || (s.attnPending.wake && s.attnEnable.wake)

/-- MISO is driven while CSn is low, and high-impedance otherwise (R185). -/
def State.misoDriven (s : State) : Bool := s.port != .idle

/-- The EN output of a bay (R4). -/
def State.enOutput (s : State) (b : BayId) : Bool := (s.stateOf b).en

/-- The lamp patterns (R75). -/
inductive LampPattern where
  | dark | lit | blink | flash
  deriving DecidableEq, Repr

/-- The AUTO pattern of a bay state (R75). -/
def BayState.autoPattern : BayState → LampPattern
  | .empty | .off | .rest => .dark
  | .queued | .ramp | .settle | .drain | .cutoff => .blink
  | .on => .lit
  | .faulted => .flash

/-- The pattern of a bay's lamp (R75). -/
def State.lampPattern (s : State) (b : BayId) : LampPattern :=
  match s.shelf.state with
  | .init | .standby => .dark
  | .held | .run | .quiescing =>
    match (s.intentOf b).lamp with
    | .off => .dark
    | .on => .lit
    | .blink => .blink
    | .auto => (s.stateOf b).autoPattern

/-- The level of a bay's LAMP output (R77, R78). -/
def State.lampLit (s : State) (b : BayId) : Bool :=
  match s.lampPattern b with
  | .dark => false
  | .lit => true
  | .blink => s.shelf.blink.lit
  | .flash => !s.shelf.blink.pastMidpoint

/-- The half-bits being driven on a bay's LINK line: those of the frame in transmission, none while released (R80). -/
def State.linkDriven (s : State) (b : BayId) : List Bool :=
  match (s.bay b).link.txFrame with
  | some f => f.wave
  | none => []

/-! ## The Shared Window as a read sees it (10, sections 10.4 and 10.5) -/

/-- A part-written byte of the shelf record, or none where the offset is the shelf manager's or no field (R129). -/
def State.shelfField (s : State) : Nat → Option Byte
  | 0x10 => some s.shelf.applied
  | 0x11 => some (byteOf s.shelf.state.code)
  | 0x12 => some (byteOf s.pool.effectiveBudget)
  | 0x13 => some (byteOf (s.pool.effectiveBudget / 256))
  | 0x14 => some (byteOf s.pool.committed)
  | 0x15 => some (byteOf (s.pool.committed / 256))
  | 0x16 => some (s.shelf.wakeBits.extractLsb' 0 8)
  | 0x17 => some (s.shelf.wakeBits.extractLsb' 8 8)
  | 0x18 => some (byteOf s.shelf.snapStatus.code)
  | 0x1A => some (s.shelf.snapCount.extractLsb' 0 8)
  | 0x1B => some (s.shelf.snapCount.extractLsb' 8 8)
  | _ => none

/-- A byte of the journal control area (R146). -/
def Journal.controlByte (j : Journal) : Nat → Byte
  | 0x00 => byteOf j.head
  | 0x01 => byteOf (j.head / 256)
  | 0x02 => byteOf (bitOf j.headWrap)
  | 0x03 => j.stamp
  | 0x04 => byteOf j.lost
  | 0x05 => byteOf (j.lost / 256)
  | 0x06 => byteOf (bitOf j.overflow)
  | 0x07 => byteOf (bitOf j.badTail)
  | 0x08 => byteOf j.tail
  | 0x09 => byteOf (j.tail / 256)
  | 0x0A => byteOf (bitOf j.tailWrap)
  | _ => 0

/-- A byte of a bay status entry (R176). -/
def Bay.statusByte (y : Bay) : Nat → Byte
  | 0 => byteOf y.ctx.state.code
  | 1 => byteOf y.link.linkState.code
  | 2 => byteOf y.charge
  | 3 => byteOf (y.charge / 256)
  | 4 => pinsByte y.inputs.presConfirmed y.inputs.latchConfirmed y.inputs.fltLevel y.inputs.pgLevel y.ctx.state.en
  | 5 => byteOf (ofBits [y.ctx.troubleHold, y.ctx.demand.isSome])
  | 6 => byteOf y.inputs.faultCount
  | _ => 0

/-- The demand figures as the directory shows them: 0 while unknown (R109). -/
def shownDemand (d : Option Demand) : Demand := d.getD ⟨0, 0, false⟩

/-- A byte of a module directory entry (R109). -/
def Bay.directoryByte (y : Bay) (o : Nat) : Byte :=
  if 4 ≤ o ∧ o < 12 then byteAt y.dialogue.identity (o - 4)
  else
    match o with
    | 0x00 => byteOf y.link.linkState.code
    | 0x01 => y.dialogue.moduleClass
    | 0x02 => y.dialogue.linkRevision
    | 0x03 => byteOf (ofBits [y.ctx.demand.isSome, (shownDemand y.ctx.demand).clipped])
    | 0x0C => byteOf (shownDemand y.ctx.demand).ramp
    | 0x0D => byteOf ((shownDemand y.ctx.demand).ramp / 256)
    | 0x0E => byteOf (shownDemand y.ctx.demand).hold
    | 0x0F => byteOf ((shownDemand y.ctx.demand).hold / 256)
    | 0x10 => byteOf y.dialogue.malformed
    | _ => 0

/-- A byte of the window outside INIT: a part-written byte from its owner, a manager-written one or one of the ring from the
stored bytes, and 0 where no field lies (R187). -/
def State.storedByte (s : State) (a : Nat) : Byte :=
  match areaOf a with
  | .shelf o => (s.shelfField o).getD (if o ≤ 0x0F then Memory.read s.window a else 0)
  | .journalControl o => s.journal.controlByte o
  | .status b o => (s.bay b).statusByte o
  | .intent b o => if o = 3 then (s.bay b).applied else if o ≤ 0x12 then Memory.read s.window a else 0
  | .outbox b o =>
    if o = 0 then byteOf (s.bay b).dialogue.slotStatus.code else if o ≤ 0x21 then Memory.read s.window a else 0
  | .directory b o => (s.bay b).directoryByte o
  | .ring _ => Memory.read s.window a
  | .noArea => 0

/-- A byte of the window as a read transaction returns it: 0 throughout INIT (R187). -/
def State.windowByte (s : State) (a : Nat) : Byte := if s.shelf.state = .init then 0 else s.storedByte a

end Sys2Proof.Machine
end

