-- ==== Sys2Proof/Machine/Shelf.lean ====
section
/-! DEFINITION. The Shelf Controller: wake events, the changes of shelf state, quiesce and its completion, snapshots, and
what ends every event (chapters 8 and 9). -/

namespace Sys2Proof.Machine

/-- The shelf state changed (R163). The queue, the lamps, the Intake and STATUS read it. -/
def setShelfState (st : ShelfState) (s : State) : State := modShelf (fun h => { h with state := st }) s

/-! ## Wake events (R174, R175) -/

/-- The bit of a bay in a 16-bit mask. -/
def bayBit (b : BayId) : BitVec 16 := 1#16 <<< b.val

/-- The WAKE cause, where WakeEnable lets it be raised (R175). -/
def raiseWake (s : State) : State :=
  if s.shelf.context.wakeEnable then modAttn (fun c => { c with wake := true }) s else s

/-- A wake event of a bay, which is one only in STANDBY (R174). -/
def wakeEvent (b : BayId) (source : WakeSource) (s : State) : State :=
  if s.shelf.state = .standby then
    raiseWake
      (submit (.wake b source (s.shelf.wakeBits ||| bayBit b))
        (modShelf (fun h => { h with wakeBits := h.wakeBits ||| bayBit b }) s))
  else s

/-! ## RUN and HELD (R167, R168) -/

/-- Reconciliation as the shelf enters RUN (R7, R29). -/
def reconcile (b : BayId) (s : State) : State :=
  match s.stateOf b with
  | .off => reconcileOff b s
  | .on => reconcileOn b s
  | .empty | .rest | .queued | .ramp | .settle | .drain | .cutoff | .faulted => s

/-- Entry into RUN: every bay reconciled, then one evaluation (R39, R168). A bay whose Start a budget fall of the same
commit has refused is reconciled with the others (DESIGN CHOICE, log entry 41). -/
def enterRun (s : State) : State := evaluateHead (forBays reconcile (setShelfState .run s))

/-- Entry into HELD at a commit of Mode HOLD (R167). -/
def enterHeld (s : State) : State := setShelfState .held s

/-! ## Quiesce (R169 to R173) -/

/-- The ADMIT record of an entry that the quiesce removes, with the position and Committed as the removal of all
entries found them (R56; DEDUCED, log entry 15). -/
def quiesceAdmit (q : List QueueEntry) (committed : Nat) (b : BayId) (s : State) : State :=
  match queueEntryOf q b with
  | some e => submit (.admission b e.kind .withdrawn e.amount (queuePosition q b) e.clipped committed) s
  | none => s

/-- A bay's part of entry into QUIESCING (R169, steps 3 and 4). -/
def quiesceBay (b : BayId) (s : State) : State :=
  match s.stateOf b with
  | .queued => changeState b .off .quiesce false 0 s
  | .on => enterDrain b .quiesce s
  | .empty | .off | .rest | .ramp | .settle | .drain | .cutoff | .faulted => s

/-- The deadline as it is loaded, in ms (R169, step 2). -/
def deadlineMs (c : ShelfContext) : Nat := c.quiesceDeadline * 100

/-- The shelf in QUIESCING with every outcome None, the deadline running and the queue emptied (R169, steps 1 to 3). -/
def beginQuiesce (s : State) : State :=
  setQueue []
    (modShelf (fun h => { h with state := .quiescing, deadlineTimer := some (ms (deadlineMs h.context)) })
      (forBays (fun b => modBay b (fun y => { y with quiesceOutcome := .none })) s))

/-- Entry into QUIESCING (R169) but for the test of completion, which ends the event. -/
def enterQuiescing (s : State) : State :=
  forBays (fun b t => quiesceBay b (quiesceAdmit s.queue s.pool.committed b t)) (beginQuiesce s)

/-- The outcome of a bay as the quiesce completes (R170, R172). -/
def finalOutcome (y : Bay) : QuiesceOutcome :=
  match y.quiesceOutcome with
  | .none =>
    match y.ctx.state with
    | .empty => .absent
    | .faulted => .faulted
    | .off | .rest | .queued | .ramp | .settle | .on | .drain | .cutoff => .wasOff
  | .released => .released
  | .expired => .expired
  | .cut => .cut
  | .faulted => .faulted
  | .absent => .absent
  | .wasOff => .wasOff

/-- The sixteen outcomes in bay order. -/
def State.outcomes (s : State) : List QuiesceOutcome := allBays.map (fun b => (s.bay b).quiesceOutcome)

/-- Entry into STANDBY (R173). -/
def enterStandby (s : State) : State :=
  modShelf (fun h => { h with state := .standby, deadlineTimer := none, wakeBits := 0 }) s

/-- Every bay given its final outcome (R172, step 1). -/
def settleOutcomes (s : State) : State :=
  forBays (fun b => modBay b (fun y => { y with quiesceOutcome := finalOutcome y })) s

/-- The QUIESCED record (R172, step 2). -/
def submitQuiesced (s : State) : State := submit (.quiesced s.outcomes) s

/-- Every bay is in EMPTY, OFF, REST or FAULTED (R172). -/
def State.allComplete (s : State) : Bool := allBays.all (fun b => (s.stateOf b).complete)

/-- The test of completion (R172). A shelf in QUIESCING with every bay complete is found so in the event that made it
so, hence the test at the end of every event that may change a bay is the manual's. -/
def quiesceTest (s : State) : State :=
  if s.shelf.state = .quiescing ∧ s.allComplete = true then enterStandby (submitQuiesced (settleOutcomes s)) else s

/-- The end of an event that may touch the queue, the charges or the bay states: the head is evaluated (R42), then
completion is tested (R172). -/
def finish (s : State) : State := quiesceTest (evaluateHead s)

/-- The quiesce deadline (R171), with the end of the event. -/
def deadlineExpiry (s : State) : State :=
  finish (forBays onDeadline (modShelf (fun h => { h with deadlineTimer := none }) s))

/-! ## Mode (R166) -/

/-- The committed Mode taken by shelf state (R166). -/
def takeMode (m : Mode) (s : State) : State :=
  match s.shelf.state, m with
  | .held, .run => enterRun s
  | .standby, .run => enterRun s
  | .run, .hold => enterHeld s
  | .standby, .hold => enterHeld s
  | .held, .quiesce => enterQuiescing s
  | .run, .quiesce => enterQuiescing s
  | _, _ => s

/-! ## Snapshots (R179 to R182) -/

/-- The Amount of a bay's Raise entry; 0 when it has none (R180). -/
def raiseAmount (q : List QueueEntry) (b : BayId) : Nat :=
  match queueEntryOf q b with
  | some e => if e.kind = .raise then e.amount else 0
  | none => 0

/-- What a timer reads, counting down in whole ms: the ms left, a begun one as a whole (R3; DEDUCED, log entry 1). -/
def msLeft (us : Nat) : Nat := (us + 999) / 1000

/-- The entry a snapshot latches for a bay (R180). -/
def State.snapEntry (s : State) (b : BayId) : SnapEntry where
  bay := b
  state := s.stateOf b
  linkState := (s.bay b).link.linkState
  target := (s.intentOf b).target
  charge := (s.bay b).charge
  phaseRemaining := msLeft (s.bay b).ctx.phaseTimer
  position := queuePosition s.queue b
  raiseAmount := raiseAmount s.queue b
  counters := (s.bay b).link.counters
  faultCount := (s.bay b).inputs.faultCount
  pres := (s.bay b).inputs.presConfirmed
  latch := (s.bay b).inputs.latchConfirmed
  flt := (s.bay b).inputs.fltLevel
  pg := (s.bay b).inputs.pgLevel
  en := s.enOutput b

/-- The bays a mask selects, in ascending order. -/
def maskBays (mask : BitVec 16) : List BayId := allBays.filter (fun b => mask.getLsbD b.val)

/-- The snapshot as it is latched (R180, R182). -/
def State.snapshot (s : State) (mask : BitVec 16) : Snapshot where
  time := s.journal.shelfTime
  mask := mask
  entries := (maskBays mask).map s.snapEntry

/-- The quality counters of a bay and their Reported flags cleared (R103). -/
def clearCounters (b : BayId) (s : State) : State :=
  modLink b (fun l => { l with counters := .zero, reported := .clear }) s

/-- SnapClear applied to the selected bays (R181). -/
def snapClear (mask : BitVec 16) (s : State) : State := (maskBays mask).foldl (fun t b => clearCounters b t) s

/-- A snapshot request: taken while SnapStatus is IDLE, ignored while it is PENDING (R179). -/
def requestSnapshot (mask : BitVec 16) (clear : Bool) (s : State) : State :=
  match s.shelf.snapStatus with
  | .pending => s
  | .idle => submitSnapshot (s.snapshot mask) (if clear then snapClear mask s else s)

end Sys2Proof.Machine
end

