-- ==== Sys2Proof/Machine/Link.lean ====
section
/-! DEFINITION. The Link Engine: quality counters, the failing and completing of a message, the link states, reception,
and the delivery of module messages to the Dialogue Unit (chapter 4; R106 to R117). -/

namespace Sys2Proof.Machine

/-! ## Quality counters (R103) -/

def QualityCounters.get (c : QualityCounters) : QualityKind → Nat
  | .badCheck => c.badCheck
  | .dropped => c.dropped
  | .duplicates => c.duplicates
  | .retries => c.retries

/-- A counter increased by one, saturating at 255. -/
def QualityCounters.bump (c : QualityCounters) : QualityKind → QualityCounters
  | .badCheck => { c with badCheck := min 255 (c.badCheck + 1) }
  | .dropped => { c with dropped := min 255 (c.dropped + 1) }
  | .duplicates => { c with duplicates := min 255 (c.duplicates + 1) }
  | .retries => { c with retries := min 255 (c.retries + 1) }

def ReportedFlags.get (r : ReportedFlags) : QualityKind → Bool
  | .badCheck => r.badCheck
  | .dropped => r.dropped
  | .duplicates => r.duplicates
  | .retries => r.retries

def ReportedFlags.mark (r : ReportedFlags) : QualityKind → ReportedFlags
  | .badCheck => { r with badCheck := true }
  | .dropped => { r with dropped := true }
  | .duplicates => { r with duplicates := true }
  | .retries => { r with retries := true }

/-- The QUALITY record, with the Reported flag set (R103). -/
def reportQuality (b : BayId) (k : QualityKind) (s : State) : State :=
  submit (.quality b k (s.bay b).link.counters) (modLink b (fun l => { l with reported := l.reported.mark k }) s)

/-- Whether the next increase of a counter calls for a QUALITY record (R103). -/
def LinkEngine.qualityDue (l : LinkEngine) (k : QualityKind) : Bool :=
  l.counters.get k + 1 == Config.qualityThreshold && !l.reported.get k

/-- A quality counter increased (R103). -/
def countQuality (b : BayId) (k : QualityKind) (s : State) : State :=
  if (s.bay b).link.qualityDue k then
    reportQuality b k (modLink b (fun l => { l with counters := l.counters.bump k }) s)
  else modLink b (fun l => { l with counters := l.counters.bump k }) s

/-! ## LINK records (R102) -/

def submitLink (b : BayId) (event : LinkEvent) (s : State) : State := submit (.link b event) s

/-! ## LOST (R96, R101) -/

/-- The list flushed, a listed PARCEL reported as abandoned (R92). -/
def flushList (b : BayId) (cause : ParcelCause) (s : State) : State :=
  modLink b (fun l => { l with txList := [] }) (abandonListed b cause s)

/-- The fields of a link that enters LOST (R101). -/
def LinkEngine.lose (l : LinkEngine) : LinkEngine :=
  { l with linkState := .lost, txList := [], filterValid := false, linkTimer := some (ms Config.probePeriod) }

/-- Entry into LOST: flush, LINK record, then the Sequencer (R101; the order of a flushed parcel's record: DEDUCED, log
entry 17). -/
def enterLost (b : BayId) (kind attempts : Nat) (s : State) : State :=
  onLinkLost b
    (submitLink b (.lost kind attempts) (modLink b LinkEngine.lose (abandonListed b .linkLost s)))

/-- What follows the end of a failed message: LOST, or in LOST a flush alone (R96). -/
def failNext (b : BayId) (kind attempts : Nat) (s : State) : State :=
  if (s.bay b).link.linkState = .lost then flushList b .linkLost s else enterLost b kind attempts s

/-- InFlight made absent. -/
def clearInFlight (b : BayId) (s : State) : State := modLink b (fun l => { l with inFlight := none }) s

/-- A PARCEL in flight ended with an outcome; other kinds end without report (R93, R96). -/
def reportParcel (b : BayId) (e : TxEntry) (outcome : SlotStatus) (cause : ParcelCause) (attempts : Nat) (s : State) :
    State :=
  match e.slot with
  | .parcel => endParcel b outcome cause attempts s
  | .limit | .answer | .prepare | .probe => s

/-- A message that has failed after a number of attempts (R96). -/
def failMessage (b : BayId) (e : TxEntry) (attempts : Nat) (s : State) : State :=
  failNext b e.kindCode attempts (reportParcel b e .failed .failed attempts (clearInFlight b s))

/-- A message that waits for another attempt (R94). -/
def InFlight.resend (m : InFlight) : InFlight :=
  { m with attempts := m.attempts + 1, phase := .awaitingResend, ackTimer := some Config.ackWait }

/-- A message given another attempt: AwaitingResend with the resend deadline (R94). -/
def awaitResend (b : BayId) (m : InFlight) (s : State) : State :=
  modLink b (fun l => { l with inFlight := some m.resend }) s

/-- An attempt that has failed: Attempts − 1, after its increase, is the number it had (R94). A resend that never began
counts among the attempts made of a message that fails so (DEDUCED, log entry 43). -/
def attemptFailed (b : BayId) (m : InFlight) (s : State) : State :=
  if m.attempts ≤ (s.intentOf b).retryLimit then awaitResend b m s else failMessage b m.entry m.attempts s

/-- A message completed by its ACK (R93). -/
def completeMessage (b : BayId) (m : InFlight) (s : State) : State :=
  reportParcel b m.entry .sent .acked m.made (clearInFlight b s)

/-! ## DETACHED and UNBOUND (R97, R98, R127) -/

/-- The fields of a link that goes DETACHED in operation; the counters, NextSequence and LastSequence stay (R97). R97 does not
list RxBuffer: it is emptied, also where no reception was in progress (DESIGN CHOICE, log entry 53). -/
def LinkEngine.detach (l : LinkEngine) : LinkEngine :=
  { l with linkState := .detached, lineState := .idle, rxBuffer := [], pendingAck := none, txList := [], inFlight := none,
           filterValid := false, linkTimer := none, txFrame := none }

/-- The parcel that a detachment or a soft reset abandons, with its Length and the attempts made: a POSTED one still has
its Length in the window (R126, R127; DEDUCED, log entry 39). -/
def State.parcelToAbandon (s : State) (b : BayId) : Option OwedParcel :=
  match (s.bay b).dialogue.slotStatus with
  | .posted => some ⟨s.slotLength b, 0⟩
  | .sending =>
    match (s.bay b).link.inFlight with
    | some m => some ⟨(s.bay b).dialogue.parcelLength, if m.entry.slot = .parcel then m.made else 0⟩
    | none => some ⟨(s.bay b).dialogue.parcelLength, 0⟩
  | .free | .sent | .failed | .abandoned => none

/-- SlotStatus after a detachment or a soft reset (R127). -/
def SlotStatus.dropped : SlotStatus → SlotStatus
  | .posted | .sending => .abandoned
  | .free => .free
  | .sent => .sent
  | .failed => .failed
  | .abandoned => .abandoned

/-- The PARCEL record of an abandoned parcel, if there is one. -/
def submitAbandoned (b : BayId) (cause : ParcelCause) (p : Option OwedParcel) (s : State) : State :=
  match p with
  | some o => submit (.parcel b .abandoned cause o.length o.attempts) s
  | none => s

/-- The bay's blocks as the link goes DETACHED: the engine, the slot, the cleared directory entry and the unknown Demand
(R97, R109, R127). -/
def detachFields (b : BayId) (s : State) : State :=
  modBay b (fun y => { y with
    link := y.link.detach, dialogue := .cleared y.dialogue.slotStatus.dropped, ctx := { y.ctx with demand := none } }) s

/-- The link goes DETACHED on a confirmed absence of PRES: the LINK record, then the PARCEL record (R97, R102, R126). -/
def detachLink (b : BayId) (s : State) : State :=
  if (s.bay b).link.linkState = .detached then s
  else submitAbandoned b .detached (s.parcelToAbandon b) (submitLink b .detached (detachFields b s))

/-- The link goes from DETACHED to UNBOUND on a confirmed presence (R98). -/
def attachLink (b : BayId) (s : State) : State :=
  if (s.bay b).link.linkState = .detached then
    placeProbe b (modLink b (fun l => { l with
      linkState := .unbound, counters := .zero, reported := .clear, nextSequence := 0 }) s)
  else s

/-! ## Insertion and removal (R23, R24) -/

/-- A bay in EMPTY enters OFF (R23). -/
def insertModule (b : BayId) (s : State) : State :=
  match s.stateOf b with
  | .empty => changeState b .off .inserted false 0 s
  | .off | .rest | .queued | .ramp | .settle | .on | .drain | .cutoff | .faulted => s

/-- A confirmed presence: the link, the bay, then its reconciliation (R23, R62). -/
def onPresent (b : BayId) (s : State) : State := reconcileOff b (attachLink b (insertModule b s))

/-- Whether a removal is a surprise (R24). -/
def BayState.surprise : BayState → Bool
  | .ramp | .settle | .on | .drain | .cutoff => true
  | .empty | .off | .rest | .queued | .faulted => false

/-- The fault filter cleared as the bay leaves FAULTED for EMPTY (R68). -/
def clearIfFaulted (b : BayId) (was : BayState) (s : State) : State := if was = .faulted then clearFilter b s else s

/-- A removal from a bay that is neither EMPTY nor in REST (R24): the charge, the entry without an ADMIT record (R57),
Pending and TroubleHold, the link, and last the STATE record. -/
def removeModule (b : BayId) (s : State) : State :=
  clearIfFaulted b (s.stateOf b)
    (changeState b .empty .removed (s.stateOf b).surprise 0
      (detachLink b
        (modCtx b (fun c => { c with pending := false, troubleHold := false })
          (setQueue (queueWithout s.queue b) (setCharge b 0 s)))))

/-- A confirmed absence (R24, R27, R62). -/
def onAbsent (b : BayId) (s : State) : State :=
  match s.stateOf b with
  | .empty => detachLink b s
  | .rest => detachLink b (modCtx b (fun c => { c with troubleHold := false }) s)
  | .off | .queued | .ramp | .settle | .on | .drain | .cutoff | .faulted => removeModule b s

/-! ## HELLO (R99, R107, R108) -/

/-- The fields of a link that enters BOUND or rebinds: PROBE leaves the list, LinkTimer stops (R99). -/
def LinkEngine.bind (l : LinkEngine) : LinkEngine :=
  { l with linkState := .bound, txList := l.txList.filter (fun e => e.slot != .probe), linkTimer := none }

/-- The LINK event of an accepted HELLO (R102). -/
def bindEvent (was : LinkState) (h : HelloFields) : LinkEvent :=
  match was with
  | .bound => .rebound h
  | .detached | .unbound | .lost => .bound h

/-- The module directory entry written from a HELLO (R107, step 2). -/
def writeDirectory (b : BayId) (h : HelloFields) (s : State) : State :=
  modDialogue b (fun d => { d with
    moduleClass := h.moduleClass, linkRevision := h.linkRevision, identity := h.identity }) s

/-- An accepted HELLO: the LINK record, then the steps of R107. -/
def acceptHello (b : BayId) (h : HelloFields) (s : State) : State :=
  takeParcel b
    (placeLimit b
      (writeDirectory b h
        (makeDemandUnknown b
          (submitLink b (bindEvent (s.bay b).link.linkState h) (modLink b LinkEngine.bind s)))))

/-- A BOUND link dropped to UNBOUND by a refused HELLO, after its LINK record (R99, R108). -/
def unbindLink (b : BayId) (s : State) : State :=
  makeDemandUnknown b (flushList b .unbound (modLink b (fun l => { l with linkState := .unbound }) s))

/-- A refused HELLO (R108). -/
def refuseHello (b : BayId) (h : HelloFields) (s : State) : State :=
  if (s.bay b).link.linkState = .bound then unbindLink b (submitLink b (.refused h) s)
  else submitLink b (.refused h) s

/-- A delivered HELLO (R106 to R108). -/
def deliverHello (b : BayId) (payload : List Byte) (s : State) : State :=
  if helloAccepted payload then acceptHello b (helloFields payload) s else refuseHello b (helloFields payload) s

/-! ## The other module messages (R106, R110 to R117) -/

/-- A malformed message discarded and counted (R106). -/
def countMalformed (b : BayId) (s : State) : State :=
  modDialogue b (fun d => { d with malformed := min 255 (d.malformed + 1) }) s

/-- A demand stored (R110). -/
def storeDemand (b : BayId) (d : Demand) (s : State) : State := modCtx b (fun c => { c with demand := some d }) s

/-- A delivered DEMAND (R106, R110, R111). -/
def deliverDemand (b : BayId) (payload : List Byte) (s : State) : State :=
  if payload.length = 4 then
    onDemand b (normaliseDemand (s.intentOf b).cap (demandRamp payload) (demandHold payload))
      (storeDemand b (normaliseDemand (s.intentOf b).cap (demandRamp payload) (demandHold payload)) s)
  else countMalformed b s

/-- A delivered RELEASE (R106, R115). -/
def deliverRelease (b : BayId) (payload : List Byte) (s : State) : State :=
  if payload.length = 0 then onRelease b s else countMalformed b s

/-- A delivered TROUBLE: the record, the Sequencer, the wake event (R106, R116, R174). -/
def deliverTrouble (b : BayId) (payload : List Byte) (s : State) : State :=
  if troubleWellShaped payload then
    wakeEvent b .trouble
      (onTrouble b (troubleSeverity payload)
        (submit (.trouble b (troubleSeverity payload) (s.stateOf b) (troubleCode payload)
          (troubleActionOf (troubleSeverity payload) (s.stateOf b))) s))
  else countMalformed b s

/-- A delivered NOTE (R117, R174). -/
def deliverNote (b : BayId) (payload : List Byte) (s : State) : State :=
  wakeEvent b .note (submit (.note b payload) s)

/-! ## Reception (R84 to R90) -/

/-- The line as a completed frame leaves it, with what RxBuffer holds (R86). -/
def endReception (b : BayId) (buffer : List Byte) (s : State) : State :=
  modLink b (fun l => { l with lineState := .idle, lineHigh := true, idleTime := 0, rxBuffer := buffer }) s

/-- RxBuffer after a used frame: header and payload (R79, R85). -/
def frameBuffer (kind : Nat) (seq : Sequence) (payload : List Byte) : List Byte :=
  le16 (mkFrame kind seq payload).header.toNat ++ payload

/-- PendingAck takes the Sequence of a module message (R88). -/
def oweAck (b : BayId) (seq : Sequence) (s : State) : State := modLink b (fun l => { l with pendingAck := some seq }) s

/-- LastSequence taken at a delivery (R90). -/
def noteSequence (b : BayId) (seq : Sequence) (s : State) : State :=
  modLink b (fun l => { l with lastSequence := seq, filterValid := true }) s

/-- A message that the link state lets through: counted as a duplicate, or delivered (R90). -/
def filterMessage (b : BayId) (seq : Sequence) (deliver : State → State) (s : State) : State :=
  if (s.bay b).link.duplicate seq then countQuality b .duplicates s else deliver (noteSequence b seq s)

/-- A module message taken by the link state: every HELLO, and every message while BOUND, goes to the duplicate filter;
any other places PROBE (R90, R98, R99, R101). -/
def takeByLinkState (b : BayId) (isHello : Bool) (seq : Sequence) (deliver : State → State) (s : State) : State :=
  if isHello ∨ (s.bay b).link.linkState = .bound then filterMessage b seq deliver s else placeProbe b s

/-- The completion event of a good module message (R86 to R90), with the end of the event. -/
def receiveMessage (b : BayId) (kind : Nat) (isHello : Bool) (seq : Sequence) (payload : List Byte)
    (deliver : State → State) (s : State) : State :=
  if (s.bay b).link.mayReceive then
    finish
      (takeByLinkState b isHello seq deliver (oweAck b seq (endReception b (frameBuffer kind seq payload) s)))
  else s

/-- An ACK matched against the in-flight message (R93). -/
def matchAck (b : BayId) (seq : Sequence) (s : State) : State :=
  match (s.bay b).link.inFlight with
  | some m => if m.sequence = seq ∧ m.phase ≠ .sending then completeMessage b m s else s
  | none => s

/-- A complete frame that is not used, counted (R87, tests 1 and 2). RxBuffer is left empty (log entry 40). -/
def dropFrame (b : BayId) (k : QualityKind) (s : State) : State := countQuality b k (endReception b [] s)

/-- The header fails test 2 of R87. -/
def headerInvalid (h : FrameHeader) : Bool := h.zeros != 0 || 5 < h.kind.toNat || (h.kind == 0 && h.length != 0)

/-- The line as the end of a reception leaves it that found no whole frame: Idle where it is high, else Discarding
(R84, R86). -/
def stopReception (b : BayId) (lineHigh : Bool) (sinceEdge : Nat) (s : State) : State :=
  modLink b (fun l => { l with
    lineState := if lineHigh then .idle else .discarding, lineHigh := lineHigh,
    idleTime := if lineHigh then sinceEdge else 0, rxBuffer := [] }) s

/-- An oversize frame abandoned (R85). -/
def abandonOversize (b : BayId) (header : BitVec 16) (s : State) : State :=
  countQuality b .dropped
    (modLink b (fun l => { l with lineState := .discarding, idleTime := 0, rxBuffer := le16 header.toNat }) s)

/-! ## Sending (R81, R89, R93 to R95) -/

/-- The conditions of R81. -/
def LinkEngine.mayDrive (l : LinkEngine) : Bool :=
  l.lineState == .idle && Config.turnaround ≤ l.idleTime && l.linkState != .detached

/-- A link that begins to drive a frame. -/
def LinkEngine.drive (l : LinkEngine) (f : Frame) : LinkEngine :=
  { l with lineState := .transmitting, idleTime := 0, txFrame := some f }

/-- The line as the end of a frame of the part leaves it (R81, R93). -/
def LinkEngine.release (l : LinkEngine) : LinkEngine :=
  { l with lineState := .idle, lineHigh := true, idleTime := 0, txFrame := none }

/-- The front entry of the list begun to be sent (R93). -/
def LinkEngine.sendFront (l : LinkEngine) (e : TxEntry) (rest : List TxEntry) : LinkEngine :=
  { l.drive (e.frame l.nextSequence) with
    txList := rest, inFlight := some ⟨e, l.nextSequence, 1, .sending, none⟩, nextSequence := l.nextSequence + 1 }

/-- Whether the part is driving a message, not an ACK: the two cannot be driven together (R89, R93). -/
def LinkEngine.sendingMessage (l : LinkEngine) : Option InFlight :=
  match l.inFlight with
  | some m => if m.phase = .sending then some m else none
  | none => none

/-- Whether a frame is being driven. -/
def LinkEngine.driving (l : LinkEngine) : Bool := l.lineState == .transmitting && l.txFrame.isSome

end Sys2Proof.Machine
end

