-- ==== Sys2Proof/Machine/FrameCommands.lean ====
section
/-! DEFINITION. The commands that are the completion of a frame from a module (R87 to R90, R93, R106 to R117). -/

namespace Sys2Proof.Machine

/-- A valid ACK frame completes (R93). -/
def receiveAck (b : BayId) (seq : Sequence) (s : State) : State :=
  if (s.bay b).link.mayReceive then matchAck b seq (endReception b (frameBuffer 0 seq []) s) else s

/-- A complete frame whose check is not good (R87, test 1). -/
def receiveBadCheck (b : BayId) (header : BitVec 16) (payload : List Byte) (check : BitVec 16) (s : State) : State :=
  if (s.bay b).link.mayReceive ∧ frameCheck header payload ≠ check then dropFrame b .badCheck s else s

/-- A complete frame with a good check that fails test 2 of R87. -/
def receiveInvalid (b : BayId) (header : BitVec 16) (_payload : List Byte) (s : State) : State :=
  if (s.bay b).link.mayReceive ∧ headerInvalid (FrameHeader.ofBits header) = true then dropFrame b .dropped s else s

/-- ACK (R93). -/
def execAck (b : BayId) (seq : Sequence) (s : State) : Result := .next (receiveAck b seq s)

/-- HELLO (R107); frame kind 1. -/
def execHello (b : BayId) (seq : Sequence) (payload : List Byte) (s : State) : Result :=
  .next (receiveMessage b 1 true seq payload (deliverHello b payload) s)

/-- DEMAND (R111); frame kind 2. -/
def execDemand (b : BayId) (seq : Sequence) (payload : List Byte) (s : State) : Result :=
  .next (receiveMessage b 2 false seq payload (deliverDemand b payload) s)

/-- RELEASE (R115); frame kind 3. -/
def execRelease (b : BayId) (seq : Sequence) (payload : List Byte) (s : State) : Result :=
  .next (receiveMessage b 3 false seq payload (deliverRelease b payload) s)

/-- TROUBLE (R116); frame kind 4. -/
def execTrouble (b : BayId) (seq : Sequence) (payload : List Byte) (s : State) : Result :=
  .next (receiveMessage b 4 false seq payload (deliverTrouble b payload) s)

/-- NOTE (R117); frame kind 5. -/
def execNote (b : BayId) (seq : Sequence) (payload : List Byte) (s : State) : Result :=
  .next (receiveMessage b 5 false seq payload (deliverNote b payload) s)

/-- BAD_CHECK_FRAME (R87). -/
def execBadCheckFrame (b : BayId) (header : BitVec 16) (payload : List Byte) (check : BitVec 16) (s : State) : Result :=
  .next (receiveBadCheck b header payload check s)

/-- INVALID_FRAME (R87). -/
def execInvalidFrame (b : BayId) (header : BitVec 16) (payload : List Byte) (s : State) : Result :=
  .next (receiveInvalid b header payload s)

end Sys2Proof.Machine
end

