-- ==== Sys2Proof/Machine/InputCommands.lean ====
section
/-! DEFINITION. The commands of the Input Conditioner (chapter 3). -/

namespace Sys2Proof.Machine

/-! ## The stable-level filters (R61) -/

/-- An edge taken by the filter of an input: the pin's level, and the timer started afresh (R61). -/
def filterEdge (i : FilterInput) (level : Bool) (s : State) : State :=
  match i with
  | .pres b => modInputs b (fun x => { x with presPin := level, presTimer := some (ms Config.presencePeriod) }) s
  | .latch b => modInputs b (fun x => { x with latchPin := level, latchTimer := some (ms Config.presencePeriod) }) s
  | .supplyLow => { s with supply := { s.supply with pin := level, timer := some (ms Config.supplyPeriod) } }

/-- The PRES filter can expire: its timer has run down, and the shelf is not INIT, inside which no PRES or LATCH filter
can expire (R1, R64; log entry 27). -/
def State.presDue (s : State) (b : BayId) : Bool := !s.inInit && (s.bay b).inputs.presTimer == some 0

/-- The LATCH filter can expire. -/
def State.latchDue (s : State) (b : BayId) : Bool := !s.inInit && (s.bay b).inputs.latchTimer == some 0

/-- A filter's expiry with the input back at its confirmed level: the timer stops (R61). -/
def filterUnchanged (i : FilterInput) (s : State) : State :=
  match i with
  | .pres b =>
    if s.presDue b ∧ (s.bay b).inputs.presPin = (s.bay b).inputs.presConfirmed then
      modInputs b (fun x => { x with presTimer := none }) s
    else s
  | .latch b =>
    if s.latchDue b ∧ (s.bay b).inputs.latchPin = (s.bay b).inputs.latchConfirmed then
      modInputs b (fun x => { x with latchTimer := none }) s
    else s
  | .supplyLow =>
    if s.supply.timer = some 0 ∧ s.supply.pin = s.supply.confirmed then
      { s with supply := { s.supply with timer := none } }
    else s

/-! ## PRES (R62) -/

/-- PresConfirmed takes the pin's level. -/
def confirmPres (b : BayId) (s : State) : State :=
  modInputs b (fun x => { x with presTimer := none, presConfirmed := x.presPin }) s

/-- A confirmed change handed to the Link Engine and the Sequencer (R62). -/
def handPres (b : BayId) (s : State) : State :=
  if (s.bay b).inputs.presConfirmed then onPresent b s else onAbsent b s

/-- The expiry that confirms a change of PRES, with the end of the event (R62, R174). -/
def presExpiry (b : BayId) (s : State) : State :=
  if s.presDue b ∧ (s.bay b).inputs.presPin ≠ (s.bay b).inputs.presConfirmed then
    finish (wakeEvent b .presence (handPres b (confirmPres b s)))
  else s

/-! ## LATCH (R63) -/

/-- LatchConfirmed takes the pin's level. -/
def confirmLatch (b : BayId) (s : State) : State :=
  modInputs b (fun x => { x with latchTimer := none, latchConfirmed := x.latchPin }) s

/-- A confirmed change handed to the Sequencer while LatchSensed is 1 (R22, R63). -/
def handLatch (b : BayId) (s : State) : State :=
  if (s.intentOf b).latchSensed then
    if (s.bay b).inputs.latchConfirmed then reconcileOff b s else onLatchOpen b s
  else s

/-- The expiry that confirms a change of LATCH, with the end of the event (R63, R174). -/
def latchExpiry (b : BayId) (s : State) : State :=
  if s.latchDue b ∧ (s.bay b).inputs.latchPin ≠ (s.bay b).inputs.latchConfirmed then
    finish (wakeEvent b .latch (handLatch b (confirmLatch b s)))
  else s

/-! ## SUPPLY_LOW (R73) -/

/-- SupplyConfirmed and the pool's SupplyLow take the pin's level. -/
def confirmSupply (s : State) : State :=
  modPool (fun p => { p with supplyLow := s.supply.pin })
    { s with supply := { s.supply with timer := none, confirmed := s.supply.pin } }

/-- The BUDGET cause of a confirmed level (R55). -/
def supplyCause (active : Bool) : BudgetCause := if active then .supplyLow else .supplyRestored

/-- The expiry that confirms a change of SUPPLY_LOW, with the end of the event (R33, R73). -/
def supplyExpiry (s : State) : State :=
  if s.supply.timer = some 0 ∧ s.supply.pin ≠ s.supply.confirmed then
    finish (recomputeBudget (supplyCause s.supply.pin) (confirmSupply s))
  else s

/-! ## FLT (R65, R66) -/

/-- The fields of the fault filter at an edge of FLT (R65). A tick of the moment in which FLT is deasserted counts nothing
(log entry 31). -/
def BayInputs.fltEdge (threshold : Nat) (asserted : Bool) (i : BayInputs) : BayInputs :=
  { i with fltPin := asserted, fltLevel := asserted && i.fltTicks == threshold, fltTickDue := asserted && i.fltTickDue }

/-- A change of FltLevel handed to the Sequencer (R66): active is a confirmed fault; inactive may complete the Start
preconditions in OFF. -/
def handFlt (b : BayId) (was : Bool) (s : State) : State :=
  match was, (s.bay b).inputs.fltLevel with
  | false, true => onFaultConfirmed b s
  | true, false => reconcileOff b s
  | false, false => s
  | true, true => s

/-- An edge of the synchronized FLT, with the end of the event. -/
def fltChange (b : BayId) (asserted : Bool) (s : State) : State :=
  finish (handFlt b (s.bay b).inputs.fltLevel
    (modInputs b (BayInputs.fltEdge (faultThreshold (s.intentOf b)) asserted) s))

/-- The tick that brings FltTicks to the threshold has come: FLT asserted, one count short, the shelf not INIT (R65). -/
def State.faultDue (s : State) (b : BayId) : Bool :=
  (s.bay b).inputs.fltTickDue && !s.inInit && (s.bay b).inputs.fltPin
    && (s.bay b).inputs.fltTicks + 1 == faultThreshold (s.intentOf b)

/-- The tick that confirms a fault, with the end of the event (R65, R66). The count of that tick is this command's (log
entry 31). -/
def faultTick (b : BayId) (s : State) : State :=
  if s.faultDue b then
    finish (onFaultConfirmed b
      (modInputs b (fun i => { i with fltTicks := i.fltTicks + 1, fltLevel := true, fltTickDue := false }) s))
  else s

/-! ## PG (R69) -/

/-- PgLevel set. -/
def setPg (b : BayId) (level : Bool) (s : State) : State := modInputs b (fun i => { i with pgLevel := level }) s

/-- The synchronized PG rises, with the end of the event. -/
def pgRise (b : BayId) (s : State) : State :=
  if (s.bay b).inputs.pgLevel = false then finish (onPgActive b (setPg b true s)) else s

/-- The synchronized PG falls, with the end of the event. -/
def pgFall (b : BayId) (s : State) : State :=
  if (s.bay b).inputs.pgLevel = true then finish (onPgInactive b (setPg b false s)) else s

/-! ## Commands -/

/-- STABLE_FILTER_EDGE (R61). -/
def execStableFilterEdge (i : FilterInput) (level : Bool) (s : State) : Result := .next (filterEdge i level s)

/-- PRES_CONFIRMED (R62). -/
def execPresConfirmed (b : BayId) (s : State) : Result := .next (presExpiry b s)

/-- LATCH_CONFIRMED (R63). -/
def execLatchConfirmed (b : BayId) (s : State) : Result := .next (latchExpiry b s)

/-- SUPPLY_LOW_CONFIRMED (R73). -/
def execSupplyLowConfirmed (s : State) : Result := .next (supplyExpiry s)

/-- FLT_EDGE (R65). -/
def execFltEdge (b : BayId) (asserted : Bool) (s : State) : Result := .next (fltChange b asserted s)

/-- FAULT_CONFIRMED (R65). -/
def execFaultConfirmed (b : BayId) (s : State) : Result := .next (faultTick b s)

/-- PG_BECOMES_ACTIVE (R69). -/
def execPgBecomesActive (b : BayId) (s : State) : Result := .next (pgRise b s)

/-- PG_BECOMES_INACTIVE (R69). -/
def execPgBecomesInactive (b : BayId) (s : State) : Result := .next (pgFall b s)

/-- STABLE_PERIOD_EXPIRY_UNCHANGED (R61). -/
def execStablePeriodExpiryUnchanged (i : FilterInput) (s : State) : Result := .next (filterUnchanged i s)

end Sys2Proof.Machine
end

