-- ==== Sys2Proof/Machine/LineCommands.lean ====
section
/-! DEFINITION. The commands of a LINK line that deliver no message: what the part sends, the link's timers, collisions,
and receptions that begin or end without a frame (R84 to R86, R89, R93 to R95, R101). -/

namespace Sys2Proof.Machine

/-! ## Sending -/

/-- The front entry begins to be sent: InFlight absent, PendingAck absent, the conditions of R81 (R93). -/
def LinkEngine.startSending (l : LinkEngine) : LinkEngine :=
  match l.txList, l.inFlight, l.pendingAck with
  | e :: rest, none, none => if l.mayDrive then l.sendFront e rest else l
  | _, _, _ => l

/-- The same frame driven again, Phase Sending, AckTimer stopped (R94). -/
def LinkEngine.resend (l : LinkEngine) (m : InFlight) : LinkEngine :=
  { l.drive (m.entry.frame m.sequence) with inFlight := some { m with phase := .sending, ackTimer := none } }

/-- The message that can be sent again now: AwaitingResend, PendingAck absent, the conditions of R81 (R94). -/
def LinkEngine.resendable (l : LinkEngine) : Option InFlight :=
  match l.inFlight, l.pendingAck with
  | some m, none => if m.phase = .awaitingResend ∧ l.mayDrive = true then some m else none
  | _, _ => none

/-- A resend begins, and Retries increases (R94, R103). -/
def startResend (b : BayId) (s : State) : State :=
  match (s.bay b).link.resendable with
  | some m => countQuality b .retries (modLink b (fun l => l.resend m) s)
  | none => s

/-- The pending ACK begins to be sent (R89). -/
def LinkEngine.startAck (l : LinkEngine) : LinkEngine :=
  match l.pendingAck with
  | some seq => if l.mayDrive then l.drive (ackFrame seq) else l
  | none => l

/-- The message being sent waits for its ACK from here (R93). -/
def InFlight.sent (m : InFlight) : InFlight := { m with phase := .awaitingAck, ackTimer := some Config.ackWait }

/-- The end of the part's message frame (R93). -/
def LinkEngine.endMessage (l : LinkEngine) : LinkEngine :=
  match l.driving, l.sendingMessage with
  | true, some m => { l.release with inFlight := some m.sent }
  | _, _ => l

/-- The end of the part's ACK frame (R89). -/
def LinkEngine.endAck (l : LinkEngine) : LinkEngine :=
  match l.driving, l.sendingMessage with
  | true, none => { l.release with pendingAck := none }
  | _, _ => l

/-! ## Collisions (R95) -/

/-- The part stops driving a line that another holds low; LineState becomes Idle once it is high (log entry 25). -/
def stopDriving (b : BayId) (s : State) : State := modLink b (fun l => { l with lineHigh := false, txFrame := none }) s

/-- A collision on a message is a failed attempt; on an ACK it changes nothing else (R89, R95). -/
def collide (b : BayId) (s : State) : State :=
  if (s.bay b).link.driving then
    match (s.bay b).link.sendingMessage with
    | some m => finish (attemptFailed b m (stopDriving b s))
    | none => stopDriving b s
  else s

/-- The line rises: after a collision LineState becomes Idle (R95), and on a line that was low while LineState is Idle,
as on a DETACHED link, IdleTime counts from here (R81; log entry 26). -/
def LinkEngine.rise (l : LinkEngine) : LinkEngine :=
  if (l.lineState = .transmitting ∧ l.txFrame = none) ∨ (l.lineState = .idle ∧ l.lineHigh = false) then
    { l with lineState := .idle, lineHigh := true, idleTime := 0 }
  else l

/-! ## The link's timers -/

/-- The AckTimer of the in-flight message expires: it runs in AwaitingAck and AwaitingResend (R1, R94). -/
def ackTimerEnd (b : BayId) (s : State) : State :=
  match (s.bay b).link.inFlight with
  | some m => if m.ackTimer = some 0 then finish (attemptFailed b m s) else s
  | none => s

/-- The LinkTimer expires while LOST (R101). -/
def linkTimerEnd (b : BayId) (s : State) : State :=
  if (s.bay b).link.linkState = .lost ∧ (s.bay b).link.linkTimer = some 0 then
    placeProbe b (modLink b (fun l => { l with linkTimer := some (ms Config.probePeriod) }) s)
  else s

/-! ## Receptions -/

/-- A falling edge on the line: a reception begins on an idle line; while DETACHED the edge sets the level and IdleTime
alone (R81, R84; log entry 26). -/
def LinkEngine.fallingEdge (l : LinkEngine) : LinkEngine :=
  if l.linkState = .detached then { l with lineHigh := false, idleTime := 0 }
  else if l.lineState = .idle then { l with lineState := .receiving, lineHigh := false, idleTime := 0 }
  else l

/-- A reception ends before its start delimiter (R84). -/
def preambleEnd (b : BayId) (lineHigh : Bool) (sinceEdge : Nat) (s : State) : State :=
  if (s.bay b).link.mayReceive then stopReception b lineHigh sinceEdge s else s

/-- A frame ends abnormally (R86). -/
def abnormal (b : BayId) (lineHigh : Bool) (sinceEdge : Nat) (s : State) : State :=
  if (s.bay b).link.mayReceive then countQuality b .dropped (stopReception b lineHigh sinceEdge s) else s

/-- A header with a Length above 32 has come (R85). -/
def oversize (b : BayId) (header : BitVec 16) (s : State) : State :=
  if (s.bay b).link.mayReceive ∧ 32 < (FrameHeader.ofBits header).length.toNat then abandonOversize b header s else s

/-- The line has been high for more than three bit times while Discarding; IdleTime has counted from the last edge
(R85). -/
def LinkEngine.endDiscarding (l : LinkEngine) (sinceEdge : Nat) : LinkEngine :=
  if l.lineState = .discarding ∧ Config.threeBitTimes < sinceEdge then
    { l with lineState := .idle, lineHigh := true, idleTime := sinceEdge }
  else l

/-! ## Commands -/

/-- LINK_TIMER_EXPIRY (R101). -/
def execLinkTimerExpiry (b : BayId) (s : State) : Result := .next (linkTimerEnd b s)

/-- ACK_TIMER_EXPIRY (R94). -/
def execAckTimerExpiry (b : BayId) (s : State) : Result := .next (ackTimerEnd b s)

/-- COLLISION (R95). -/
def execCollision (b : BayId) (s : State) : Result := .next (collide b s)

/-- SENDING_START (R93). -/
def execSendingStart (b : BayId) (s : State) : Result := .next (modLink b LinkEngine.startSending s)

/-- RESEND_START (R94). -/
def execResendStart (b : BayId) (s : State) : Result := .next (startResend b s)

/-- ACK_SEND_START (R89). -/
def execAckSendStart (b : BayId) (s : State) : Result := .next (modLink b LinkEngine.startAck s)

/-- MESSAGE_FRAME_END (R93). -/
def execMessageFrameEnd (b : BayId) (s : State) : Result := .next (modLink b LinkEngine.endMessage s)

/-- ACK_FRAME_END (R89). -/
def execAckFrameEnd (b : BayId) (s : State) : Result := .next (modLink b LinkEngine.endAck s)

/-- OVERSIZE_FRAME (R85). -/
def execOversizeFrame (b : BayId) (header : BitVec 16) (s : State) : Result := .next (oversize b header s)

/-- ABNORMAL_END (R86). -/
def execAbnormalEnd (b : BayId) (lineHigh : Bool) (sinceEdge : Nat) (s : State) : Result :=
  .next (abnormal b lineHigh sinceEdge s)

/-- PREAMBLE_FAILED (R84). -/
def execPreambleFailed (b : BayId) (lineHigh : Bool) (sinceEdge : Nat) (s : State) : Result :=
  .next (preambleEnd b lineHigh sinceEdge s)

/-- DISCARDING_END (R85). -/
def execDiscardingEnd (b : BayId) (sinceEdge : Nat) (s : State) : Result :=
  .next (modLink b (fun l => l.endDiscarding sinceEdge) s)

/-- RECEPTION_BEGINS (R84). -/
def execReceptionBegins (b : BayId) (s : State) : Result := .next (modLink b LinkEngine.fallingEdge s)

/-- LINE_HIGH_AFTER_COLLISION (R95). -/
def execLineHighAfterCollision (b : BayId) (s : State) : Result := .next (modLink b LinkEngine.rise s)

end Sys2Proof.Machine
end

