-- ==== Sys2Proof/Machine/Intake.lean ====
section
/-! DEFINITION. The Intake: the protection map, the validation and taking of commits, the journal Tail, and the order of
one window write transaction (chapter 6). -/

namespace Sys2Proof.Machine

/-! ## The protection map (R132) -/

/-- What becomes of a byte of a window write transaction at step 1 of R131. -/
inductive Landing where
  | lands | discarded (cause : DiscardCause) | heldBack | dropped
  deriving DecidableEq, Repr

/-- Whether an offset of the shelf record is a part-written field; 19h and 1Ch upwards are no field (10, section 10.5). -/
def shelfPartWritten (o : Nat) : Bool := (0x10 ≤ o && o ≤ 0x18) || o == 0x1A || o == 0x1B

/-- A byte of a bay intent record by offset (R130, R132). -/
def landIntent (locked : Bool) (o : Nat) : Landing :=
  if o ≤ 2 then .lands
  else if o = 3 then .discarded .partOwned
  else if o ≤ 0x12 then (if locked then .discarded .locked else .lands)
  else .dropped

/-- A byte of an outbox slot by offset and value (R121, R125, R132). -/
def landOutbox (st : SlotStatus) (o : Nat) (v : Byte) : Landing :=
  if st = .sending then .discarded .sending
  else if o = 0 then (if v.toNat ≤ 1 then .lands else .discarded .statusValue)
  else if o ≤ 0x21 then .lands
  else .dropped

/-- What becomes of a byte (R132). The bay status table, the module directory and the ring are protected whole (log
entry 20). -/
def State.landing (s : State) (a : Nat) (v : Byte) : Landing :=
  match areaOf a with
  | .shelf o => if o ≤ 0x0F then .lands else if shelfPartWritten o then .discarded .partOwned else .dropped
  | .journalControl o => if o ≤ 7 then .discarded .partOwned else if o ≤ 0x0A then .heldBack else .dropped
  | .status _ _ => .discarded .partOwned
  | .intent b o => landIntent (s.stateOf b).locked o
  | .outbox b o => landOutbox (s.bay b).dialogue.slotStatus o v
  | .directory _ _ => .discarded .partOwned
  | .ring _ => .discarded .partOwned
  | .noArea => .dropped

/-- Whether a byte is the Status byte of a slot, which the Dialogue Unit takes and shows (R121). -/
def isSlotStatus (a : Nat) : Bool :=
  match areaOf a with
  | .outbox _ o => o == 0
  | _ => false

/-- The bytes that are written into the window's stored bytes (R131, step 1). -/
def landed (s : State) (l : List (Nat × Byte)) : List (Nat × Byte) :=
  l.filter (fun c => s.landing c.1 c.2 == .lands && !isSlotStatus c.1)

/-- The bytes that protection discards, with the cause of each. -/
def discards (s : State) (l : List (Nat × Byte)) : List (Nat × DiscardCause) :=
  l.filterMap (fun c =>
    match s.landing c.1 c.2 with
    | .discarded cause => some (c.1, cause)
    | .lands => none
    | .heldBack => none
    | .dropped => none)

/-- The bay whose intent record or slot holds an address; none for a shelf-level area (R134). -/
def discardBay (a : Nat) : Option BayId :=
  match areaOf a with
  | .intent b _ => some b
  | .outbox b _ => some b
  | _ => none

/-- Whether an address is that of a Commit byte. -/
def isCommit (a : Nat) : Bool :=
  match areaOf a with
  | .shelf o => o == 0x0F
  | .intent _ o => o == 2
  | _ => false

/-- Step 2 of R131: one DISCARD record if a byte was discarded (R134). -/
def submitDiscard (l : List (Nat × Byte)) (lost : List (Nat × DiscardCause)) (s : State) : State :=
  match lost with
  | [] => s
  | (a, cause) :: _ =>
    submit (.discard (discardBay a) cause (l.any (fun c => isCommit c.1)) a (min 65535 lost.length)) s

/-! ## Validation (R136) -/

/-- A failed test: its reason, the offset of the field it names, and the field's value (R140). -/
structure CommitFailure where
  reason : RefuseReason
  field : Nat
  value : Nat
  deriving DecidableEq, Repr

/-- The first test of a list that fails. -/
def firstFailure (l : List (Bool × CommitFailure)) : Option CommitFailure := (l.find? (fun t => t.1)).map Prod.snd

/-- A byte of a bay intent record in the window. -/
def State.intentByte (s : State) (b : BayId) (o : Nat) : Nat := (Memory.read s.window (intentAddr b o)).toNat

/-- A 16-bit field of a bay intent record in the window. -/
def State.intentWord (s : State) (b : BayId) (o : Nat) : Nat := Memory.read16 s.window (intentAddr b o)

/-- A byte of the shelf record in the window. -/
def State.shelfByte (s : State) (o : Nat) : Nat := (Memory.read s.window (shelfBase + o)).toNat

/-- A 16-bit field of the shelf record in the window. -/
def State.shelfWord (s : State) (o : Nat) : Nat := Memory.read16 s.window (shelfBase + o)

/-- The tests of a bay intent record in their order (R136). -/
def bayTests (s : State) (b : BayId) : List (Bool × CommitFailure) :=
  [ (s.intentByte b 0x02 == 0, ⟨.zero, 0x02, s.intentByte b 0x02⟩),
    ((Target.ofCode (s.intentByte b 0x00)).isNone, ⟨.enum, 0x00, s.intentByte b 0x00⟩),
    ((LampMode.ofCode (s.intentByte b 0x01)).isNone, ⟨.enum, 0x01, s.intentByte b 0x01⟩),
    (3 < s.intentByte b 0x04, ⟨.range, 0x04, s.intentByte b 0x04⟩),
    (1 < s.intentByte b 0x05, ⟨.range, 0x05, s.intentByte b 0x05⟩),
    (1 < s.intentByte b 0x06, ⟨.range, 0x06, s.intentByte b 0x06⟩),
    (s.intentWord b 0x0A == 0 || 2000 < s.intentWord b 0x0A, ⟨.range, 0x0A, s.intentWord b 0x0A⟩),
    (2000 < s.intentWord b 0x0C, ⟨.range, 0x0C, s.intentWord b 0x0C⟩),
    (s.intentWord b 0x0E == 0 || 2000 < s.intentWord b 0x0E, ⟨.range, 0x0E, s.intentWord b 0x0E⟩),
    (s.intentByte b 0x12 == 0, ⟨.range, 0x12, s.intentByte b 0x12⟩),
    (7 < s.intentByte b 0x07, ⟨.range, 0x07, s.intentByte b 0x07⟩),
    (s.intentWord b 0x08 == 0 && s.intentByte b 0x00 == 1, ⟨.capZero, 0x08, s.intentWord b 0x08⟩) ]

/-- The tests of the shelf record in their order (R136). -/
def shelfTests (s : State) : List (Bool × CommitFailure) :=
  [ (s.shelfByte 0x0F == 0, ⟨.zero, 0x0F, s.shelfByte 0x0F⟩),
    ((Mode.ofCode (s.shelfByte 0x00)).isNone, ⟨.enum, 0x00, s.shelfByte 0x00⟩),
    (s.shelfByte 0x01 == 0, ⟨.range, 0x01, s.shelfByte 0x01⟩),
    (s.shelfByte 0x09 < 2, ⟨.range, 0x09, s.shelfByte 0x09⟩),
    (1 < s.shelfByte 0x0A, ⟨.range, 0x0A, s.shelfByte 0x0A⟩),
    (s.shelfWord 0x02 < s.shelfWord 0x04, ⟨.budgetOrder, 0x04, s.shelfWord 0x04⟩),
    (s.shelfWord 0x02 < s.shelfWord 0x06, ⟨.budgetOrder, 0x06, s.shelfWord 0x06⟩),
    (s.shelf.state == .quiescing && Mode.ofCode (s.shelfByte 0x00) != some s.shelf.context.mode,
      ⟨.modeLocked, 0x00, s.shelfByte 0x00⟩) ]

/-! ## Bay commits (R135, R137, R139) -/

/-- The intent that the window's record holds. -/
def State.windowIntent (s : State) (b : BayId) : Intent where
  target := (Target.ofCode (s.intentByte b 0x00)).getD .off
  lamp := (LampMode.ofCode (s.intentByte b 0x01)).getD .auto
  priority := s.intentByte b 0x04
  cap := s.intentWord b 0x08
  blind := s.intentByte b 0x05 == 1
  latchSensed := s.intentByte b 0x06 == 1
  rampWindow := s.intentWord b 0x0A
  settleDelay := s.intentWord b 0x0C
  drainWait := s.intentByte b 0x10
  dischargeWindow := s.intentWord b 0x0E
  restInterval := s.intentByte b 0x11
  faultFilter := s.intentByte b 0x12
  retryLimit := s.intentByte b 0x07

/-- Steps 1 and 2 of R137: the intent copied, Applied written, the Trouble hold cleared. -/
def copyIntent (b : BayId) (i : Intent) (commit : Byte) (s : State) : State :=
  modBay b (fun y => { y with applied := commit, ctx := { y.ctx with intent := i, troubleHold := false } }) s

/-- The fault filter under a new threshold (R67). -/
def BayInputs.retune (threshold : Nat) (i : BayInputs) : BayInputs :=
  { i with fltTicks := min threshold i.fltTicks, fltLevel := decide (threshold ≤ i.fltTicks) && i.fltPin }

/-- A retuned filter that has become active is a confirmed fault (R67). -/
def retuneNext (b : BayId) (was : Bool) (s : State) : State :=
  if was = false ∧ (s.bay b).inputs.fltLevel = true then onFaultConfirmed b s else s

/-- Step 3 of R137: a changed fault threshold (R67). -/
def applyFaultFilter (b : BayId) (old : Intent) (s : State) : State :=
  if old.faultFilter = (s.intentOf b).faultFilter then s
  else retuneNext b (s.bay b).inputs.fltLevel (modInputs b (BayInputs.retune (faultThreshold (s.intentOf b))) s)

/-- A known demand re-normalised against the committed Cap (R114). -/
def renormalise (b : BayId) (s : State) : State :=
  modCtx b (fun c => { c with demand := c.demand.map (renormaliseDemand c.intent.cap) }) s

/-- Step 4 of R137: a changed Cap (R114, R118). -/
def applyCap (b : BayId) (old : Intent) (s : State) : State :=
  if old.cap = (s.intentOf b).cap then s else placeLimit b (renormalise b s)

/-- An accepted bay commit, with the evaluation that its event makes (R42, R137). The lamp pattern of step 5 follows. -/
def acceptBay (b : BayId) (s : State) : State :=
  evaluateHead
    (takeTarget b
      (applyCap b (s.intentOf b)
        (applyFaultFilter b (s.intentOf b)
          (copyIntent b (s.windowIntent b) (Memory.read s.window (intentAddr b 2)) s))))

/-- The manager-written fields of a bay intent record rewritten from the context (R139). -/
def rewriteIntent (b : BayId) (s : State) : State :=
  setWindow
    (Memory.writeBytes (Memory.writeBytes s.window (intentAddr b 0) (s.intentOf b).unlockedBytes) (intentAddr b 4)
      (s.intentOf b).lockedBytes) s

/-- A refused bay commit (R139, R140). -/
def refuseBay (b : BayId) (f : CommitFailure) (s : State) : State :=
  submit (.refused (some b) .intent f.reason f.field (s.intentByte b 2) f.value) (rewriteIntent b s)

/-- A bay commit (R135). -/
def commitBay (b : BayId) (s : State) : State :=
  match firstFailure (bayTests s b) with
  | some f => refuseBay b f s
  | none => acceptBay b s

/-! ## Shelf commits (R135, R138, R139) -/

/-- The shelf context that the window's record holds. -/
def State.windowContext (s : State) : ShelfContext where
  mode := (Mode.ofCode (s.shelfByte 0x00)).getD .hold
  budget := s.shelfWord 0x02
  reserve := s.shelfWord 0x04
  lowBudget := s.shelfWord 0x06
  quiesceDeadline := s.shelfByte 0x01
  holdoff := s.shelfByte 0x08
  blinkHalfPeriod := s.shelfByte 0x09
  wakeEnable := s.shelfByte 0x0A == 1

/-- Step 1 of R138, and the figures handed to the pool (step 2). Holdoff, BlinkHalfPeriod and WakeEnable are read from
the context where they act (step 3). -/
def copyContext (c : ShelfContext) (commit : Byte) (s : State) : State :=
  modPool (fun p => { p with budget := c.budget, reserve := c.reserve, lowBudget := c.lowBudget })
    (modShelf (fun h => { h with context := c, applied := commit }) s)

/-- An accepted shelf commit (R138): the pool, its evaluation, then the Mode. Where the figures refuse a Start and the Mode
enters RUN, the bay is reconciled again (DESIGN CHOICE, log entry 41). -/
def acceptShelf (s : State) : State :=
  takeMode s.windowContext.mode
    (evaluateHead
      (recomputeBudget .commit (copyContext s.windowContext (Memory.read s.window (shelfBase + 0x0F)) s)))

/-- The committed fields of the shelf record rewritten from the context (R139). -/
def rewriteShelf (s : State) : State := setWindow (Memory.writeBytes s.window shelfBase s.shelf.context.bytes) s

/-- A refused shelf commit (R139, R140). -/
def refuseShelf (f : CommitFailure) (s : State) : State :=
  submit (.refused none .shelf f.reason f.field (s.shelfByte 0x0F) f.value) (rewriteShelf s)

/-- A shelf commit (R135). -/
def commitShelf (s : State) : State :=
  match firstFailure (shelfTests s) with
  | some f => refuseShelf f s
  | none => acceptShelf s

/-! ## The journal Tail (R142) -/

/-- The addresses of the Tail fields. -/
def tailLow : Nat := journalControlBase + 8
def tailHigh : Nat := journalControlBase + 9
def tailWrapAt : Nat := journalControlBase + 10

/-- The candidate offset: the bytes written, the rest as the fields stand. -/
def candidateOffset (l : List (Nat × Byte)) (j : Journal) : Nat :=
  ofLe16 ((writtenAt l tailLow).getD (byteOf j.tail)) ((writtenAt l tailHigh).getD (byteOf (j.tail / 256)))

/-- The candidate TailWrap byte. -/
def candidateWrap (l : List (Nat × Byte)) (j : Journal) : Nat :=
  ((writtenAt l tailWrapAt).getD (byteOf (bitOf j.tailWrap))).toNat

/-- The distance of a candidate from the present Tail (R142). -/
def Journal.distance (j : Journal) (offset : Nat) (wrap : Bool) : Nat :=
  (ringPosition offset wrap + 2 * Config.ringSize - ringPosition j.tail j.tailWrap) % (2 * Config.ringSize)

/-- The tests of a candidate (R142). -/
def Journal.tailValid (j : Journal) (offset wrap : Nat) : Bool :=
  offset % 8 == 0 && offset ≤ 4088 && wrap ≤ 1 && j.distance offset (wrap == 1) ≤ j.unread

/-- A candidate taken or found invalid (R142). -/
def writeTail (offset wrap : Nat) (s : State) : State :=
  if s.journal.tailValid offset wrap then takeTail offset (wrap == 1) s
  else modJournal (fun j => { j with badTail := true }) s

/-! ## The order of a transaction (R131) -/

/-- Step 1: the bytes that land. -/
def stepLand (l : List (Nat × Byte)) (s : State) : State := setWindow (Memory.writeAll s.window (landed s l)) s

/-- Step 3: the shelf commit. -/
def stepShelf (l : List (Nat × Byte)) (s : State) : State :=
  if wrote l (shelfBase + 0x0F) then commitShelf s else s

/-- Step 4: the snapshot request, with SnapMask and SnapClear as they stand in the window. -/
def stepSnapshot (l : List (Nat × Byte)) (s : State) : State :=
  if wrote l (shelfBase + 0x0E) then requestSnapshot (BitVec.ofNat 16 (s.shelfWord 0x0C)) (s.shelfByte 0x0B == 1) s
  else s

/-- Step 5: the Tail write. -/
def stepTail (l : List (Nat × Byte)) (s : State) : State :=
  if wrote l tailLow || wrote l tailHigh || wrote l tailWrapAt then
    writeTail (candidateOffset l s.journal) (candidateWrap l s.journal) s
  else s

/-- Step 6 for one bay: its commit. -/
def stepBay (l : List (Nat × Byte)) (b : BayId) (s : State) : State :=
  if wrote l (intentAddr b 2) then commitBay b s else s

/-- The Status value of a slot that landed: whether it is POSTED (R121). -/
def landedStatus (s : State) (l : List (Nat × Byte)) (b : BayId) : Option Bool :=
  match writtenAt l (outboxAddr b 0) with
  | some v => if landOutbox (s.bay b).dialogue.slotStatus 0 v = .lands then some (v == 1) else none
  | none => none

/-- Step 7 for one slot: the hand-over. -/
def stepSlot (status : Option Bool) (b : BayId) (s : State) : State :=
  match status with
  | some posted => handOver b posted s
  | none => s

/-- One window write transaction outside INIT (R131). The map of step 1 is that of the state the event finds; the test
of quiesce completion comes at the end of the event (R172; DEDUCED, log entry 21). -/
def intake (l : List (Nat × Byte)) (s : State) : State :=
  quiesceTest
    (forBays (fun b => stepSlot (landedStatus s l b) b)
      (forBays (stepBay l)
        (stepTail l (stepSnapshot l (stepShelf l (submitDiscard l (discards s l) (stepLand l s)))))))

/-- A window write transaction at the rise of CSn: dropped in INIT, and without effect when it collected no byte for the
window (R131, R164, R186). -/
def windowWrite (l : List (Nat × Byte)) (s : State) : State :=
  if s.shelf.state = .init ∨ l = [] then s else intake l s

end Sys2Proof.Machine
end

