-- ==== Sys2Proof/Machine/Resets.lean ====
section
/-! DEFINITION. The full reset, the soft reset, and the end of INIT (R30, R31, R58, R59, R64, R68, R71, R74, R104, R127,
R144, R145, R160 to R162, R164, R165, R184, R189, R190). -/

namespace Sys2Proof.Machine

/-! ## Full reset (R164) -/

/-- A bay after a full reset, with its pins as they stand. -/
def Bay.fullReset (y : Bay) : Bay :=
  .reset y.inputs.presPin y.inputs.latchPin y.inputs.fltPin y.inputs.pgLevel y.link.lineHigh

/-- The port after a full reset: a transaction in progress is abandoned, and CSn has to rise before the next (R185). -/
def SpiPort.abandon : SpiPort → SpiPort
  | .idle => .idle
  | .selected => .ignoring
  | .active _ => .ignoring
  | .ignoring => .ignoring

/-- A full reset: every block in its full-reset state. The levels on the input pins are the world's and stay; the
commands that wait are those of later events (log entry 6). -/
def fullReset (s : State) : State :=
  { State.reset with
    bays := s.bays.map Bay.fullReset
    supply := ⟨s.supply.pin, some (ms Config.supplyPeriod), false⟩
    port := s.port.abandon
    pending := s.pending }

/-! ## Soft reset (R190) -/

/-- The rest period a soft reset chooses for a bay, in µs: RestInterval where EN was asserted, else 0; a soft reset in INIT
leaves the period already chosen (R31). -/
def softRest (inInit : Bool) (c : BayContext) : Nat :=
  if inInit then c.phaseTimer else if c.state.en then ms (c.intent.restInterval * 10) else 0

/-- A bay after a soft reset, with the parcel the reset abandons (R31, R64, R104, R127, R145). A PARCEL record that an
earlier soft reset of the same INIT owes is kept. -/
def Bay.softReset (inInit : Bool) (abandoned : Option OwedParcel) (y : Bay) : Bay where
  ctx := .cleared (softRest inInit y.ctx)
  inputs := .reset y.inputs.presPin y.inputs.latchPin y.inputs.fltPin y.inputs.pgLevel
  link := .reset y.link.lineHigh
  dialogue := .cleared y.dialogue.slotStatus.dropped
  charge := 0
  grantedHold := 0
  settledFrom := none
  applied := 0
  quiesceOutcome := .none
  resetOldState := if inInit then y.resetOldState else y.ctx.state
  owedParcel := if abandoned.isSome then abandoned else y.owedParcel

/-- The Shelf Controller after a soft reset: the ClearScope and time of R164. -/
def softShelf (s : State) : Shelf :=
  if s.inInit = true ∧ s.shelf.clearScope = .whole then .reset Config.initWhole .whole
  else .reset Config.initPartOwned .partOwned

/-- A soft reset. The SUPPLY_LOW filter carries on (R74), ATTN_ENABLE is kept (R189), and the window is cleared as INIT
ends (log entry 8). -/
def softReset (s : State) : State :=
  { s with
    bays := Vector.ofFn (fun b => (s.bay b).softReset s.inInit (s.parcelToAbandon b))
    pool := .reset s.supply.confirmed
    queue := []
    journal := .reset
    shelf := softShelf s
    attnPending := .none }

/-! ## The end of INIT (R165) -/

/-- The window as INIT has cleared it: whole, or the ring, the one part-owned area that is not a view of its owner's
state (R164; log entry 8). -/
def clearedWindow (scope : ClearScope) (m : Memory) : Memory :=
  match scope with
  | .whole => []
  | .partOwned => m.clearFrom Config.ringBase

/-- The blink timer as it starts: Lit, with a half-period of 500 ms (R76). -/
def BlinkTimer.start : BlinkTimer := ⟨true, Config.blinkDefault, some (ms Config.blinkDefault), false⟩

/-- Steps 1 and 2 of R165: HELD, INIT_DONE, the blink timer. The FLT filters count from 0 from here on (step 3). -/
def leaveInit (s : State) : State :=
  modShelf (fun h => { h with state := .held, initTimer := none, blink := .start })
    (setWindow (clearedWindow s.shelf.clearScope s.window) s)

/-- The STATE record with reason Reset of a bay (R30, R31). -/
def submitReset (b : BayId) (s : State) : State :=
  submit (.state b (s.bay b).resetOldState .rest .reset false) s

/-- The PARCEL record that a soft reset owes (R127). -/
def submitOwed (b : BayId) (s : State) : State :=
  modBay b (fun y => { y with owedParcel := none }) (submitAbandoned b .reset (s.bay b).owedParcel s)

/-- A bay's part of HELD entry (R161, R165, step 4): its records, and the end of a rest period of 0. -/
def startRest (b : BayId) (s : State) : State := restIfZero b (submitReset b (submitOwed b s))

/-- The InitTimer expires (R165). -/
def endInit (s : State) : State := forBays startRest (leaveInit s)

end Sys2Proof.Machine
end

