-- ==== Sys2Proof/Machine/PortCommands.lean ====
section
/-! DEFINITION. The commands of the Manager Port and the two resets (chapter 10; R164, R190). -/

namespace Sys2Proof.Machine

/-! ## Transactions -/

/-- A command of a transaction taken by the port: on a free port, or where it goes on with the one in progress. After a
full reset that found one in progress nothing is taken until CSn has risen; any other command cannot occur (R185; log
entries 3 and 48). -/
def onPort (k : SpiKind) (tx : SpiBytes) (act : Transfer → State → State) (s : State) : State :=
  match s.port.joined k tx with
  | some t => act t s
  | none => if s.port = .ignoring ∧ tx.ended = true then setPort .idle s else s

/-- A transaction that reads: the groups it comes to need are taken from the state as it is (R187, R188). -/
def readTransfer (size : Nat) (tx : SpiBytes) (read : Nat → Byte) (t : Transfer) (s : State) : State :=
  setMiso (misoOfRead tx (t.readOn size read tx).data) (setPort (portAfter tx (t.readOn size read tx)) s)

/-- A transaction that reads nothing: it has its effect, if any, as CSn rises (R185, R186, R188). -/
def writeTransfer (tx : SpiBytes) (effect : State → State) (t : Transfer) (s : State) : State :=
  setMiso (misoOfWrite tx)
    (setPort (portAfter tx { t with bytes := tx.bytes }) (if tx.ended then effect s else s))

/-! ## Shared operations -/

/-- The causes that a register write transaction leaves pending: OVERFLOW, FAULT and WAKE are cleared by a 1, JOURNAL
is not (R189). -/
def clearCauses (tx : SpiBytes) (c : Causes) : Causes where
  journal := c.journal
  overflow := c.overflow && !writesOverflow tx
  fault := c.fault && !writesFault tx
  wake := c.wake && !writesWake tx

/-- ATTN_ENABLE as a register write transaction leaves it (R188, R189). -/
def writeEnable (tx : SpiBytes) (c : Causes) : Causes :=
  match writtenEnable tx with
  | some v => causesOfByte v
  | none => c

/-- The bytes of a register write transaction but for SOFT_RESET; bytes to ID, STATUS, 000Ah upwards and the reserved
bits are dropped (R188). -/
def writeRegisters (tx : SpiBytes) (s : State) : State :=
  { s with attnPending := clearCauses tx s.attnPending, attnEnable := writeEnable tx s.attnEnable }

/-- The bytes of a register write transaction taken: SOFT_RESET after every other byte (R188, R190). -/
def takeRegisterWrite (tx : SpiBytes) (s : State) : State :=
  if writesSoftReset tx then softReset (writeRegisters tx s) else writeRegisters tx s

/-- A register write transaction, which every register write row of the table is (log entry 23). -/
def registerWrite (tx : SpiBytes) (s : State) : State :=
  onPort (spiKindOf 0x40) tx (writeTransfer tx (takeRegisterWrite tx)) s

/-! ## Commands -/

/-- FULL_RESET (R164). -/
def execFullReset (s : State) : Result := .next (fullReset s)

/-- WINDOW_WRITE (R131, R186). -/
def execWindowWrite (tx : SpiBytes) (s : State) : Result :=
  .next (onPort (spiKindOf 0x00) tx (writeTransfer tx (windowWrite (windowCollected tx))) s)

/-- WINDOW_READ (R187): the aligned groups of eight that the bytes shifted so far have come to need (log entry 10). -/
def execWindowRead (tx : SpiBytes) (s : State) : Result :=
  .next (onPort (spiKindOf 0x80) tx (readTransfer 8 tx s.windowByte) s)

/-- REGISTER_READ (R188): each register's two bytes taken together. -/
def execRegisterRead (tx : SpiBytes) (s : State) : Result :=
  .next (onPort (spiKindOf 0xC0) tx (readTransfer 2 tx s.registerByte) s)

/-- CSn is low and the command byte not complete; or CSn has risen so, and the transaction has no effect (R185). -/
def portSelected (ended : Bool) (s : State) : State :=
  match s.port with
  | .idle | .selected => setMiso [] (setPort (if ended then .idle else .selected) s)
  | .ignoring => if ended then setPort .idle s else s
  | .active _ => s

/-- A transaction with a command byte that the port does not know, or not yet: 0 on MISO until CSn rises (R185). -/
def unknownTransfer (command : Option Byte) (tx : SpiBytes) (s : State) : State :=
  match command with
  | some c => if spiKindOf c = .unknown then onPort .unknown tx (writeTransfer tx id) s else s
  | none => portSelected tx.ended s

/-- UNKNOWN_COMMAND (R185). -/
def execUnknownCommand (command : Option Byte) (tx : SpiBytes) (s : State) : Result := .next (unknownTransfer command tx s)

/-- SOFT_RESET (R190). -/
def execSoftReset (tx : SpiBytes) (s : State) : Result := .next (registerWrite tx s)

/-- CLEAR_OVERFLOW (R189). -/
def execClearOverflow (tx : SpiBytes) (s : State) : Result := .next (registerWrite tx s)

/-- CLEAR_FAULT (R189). -/
def execClearFault (tx : SpiBytes) (s : State) : Result := .next (registerWrite tx s)

/-- CLEAR_WAKE (R189). -/
def execClearWake (tx : SpiBytes) (s : State) : Result := .next (registerWrite tx s)

/-- ATTN_ENABLE_WRITE (R189). -/
def execAttnEnableWrite (tx : SpiBytes) (s : State) : Result := .next (registerWrite tx s)

/-- DROPPED_REGISTER_WRITE (R188). -/
def execDroppedRegisterWrite (tx : SpiBytes) (s : State) : Result := .next (registerWrite tx s)

end Sys2Proof.Machine
end

