-- ==== Sys2Proof/Machine/TimerCommands.lean ====
section
/-! DEFINITION. The commands of the part's timers but for those of the link (R3, R76, R77, R157, R165, R171). An expiry
is taken once its timer has run its full period, which is to say down to 0 (R1; log entry 2). -/

namespace Sys2Proof.Machine

/-! ## The phase timer (R3) -/

/-- The phase timer of a bay expires in RAMP (R11). -/
def rampEnd (b : BayId) (s : State) : State :=
  if s.stateOf b = .ramp ∧ (s.bay b).ctx.phaseTimer = 0 then finish (enterFaulted b .noPowerGood s) else s

/-- It expires in SETTLE (R12). -/
def settleEnd (b : BayId) (s : State) : State :=
  if s.stateOf b = .settle ∧ (s.bay b).ctx.phaseTimer = 0 then finish (enterOn b s) else s

/-- It expires in DRAIN (R16). -/
def drainEnd (b : BayId) (s : State) : State :=
  if s.stateOf b = .drain ∧ (s.bay b).ctx.phaseTimer = 0 then finish (enterCutoff b .drainExpired s) else s

/-- It expires in CUTOFF while PG is active (R18). -/
def dischargeEnd (b : BayId) (s : State) : State :=
  if s.stateOf b = .cutoff ∧ (s.bay b).ctx.phaseTimer = 0 ∧ (s.bay b).inputs.pgLevel = true then
    finish (enterFaulted b .stuck s)
  else s

/-- It expires in REST, outside INIT, through which it is stopped (R20, R30). -/
def restEnd (b : BayId) (s : State) : State :=
  if s.stateOf b = .rest ∧ (s.bay b).ctx.phaseTimer = 0 ∧ s.inInit = false then finish (endRest b s) else s

/-! ## The shelf's timers -/

/-- The InitTimer expires (R165). -/
def initEnd (s : State) : State := if s.shelf.state = .init ∧ s.shelf.initTimer = some 0 then endInit s else s

/-- The DeadlineTimer expires (R171). -/
def deadlineEnd (s : State) : State :=
  if s.shelf.state = .quiescing ∧ s.shelf.deadlineTimer = some 0 then deadlineExpiry s else s

/-- The HoldoffTimer expires: JOURNAL is set and the timer stops (R157, R158). -/
def holdoffEnd (s : State) : State :=
  if s.journal.holdoffTimer = some 0 then
    modAttn (fun c => { c with journal := true }) (modJournal (fun j => { j with holdoffTimer := none }) s)
  else s

/-- The half-period length that is loaded: BlinkHalfPeriod × 10 ms, or 500 ms while no shelf commit has been accepted
(R76). -/
def blinkLength (c : ShelfContext) : Nat :=
  if c.blinkHalfPeriod = 0 then Config.blinkDefault else c.blinkHalfPeriod * 10

/-- The blink timer as a new half-period begins (R76). -/
def BlinkTimer.turn (length : Nat) (t : BlinkTimer) : BlinkTimer := ⟨!t.lit, length, some (ms length), false⟩

/-- A half-period ends (R76). -/
def blinkEnd (s : State) : State :=
  if s.shelf.blink.remaining = some 0 then modShelf (fun h => { h with blink := h.blink.turn (blinkLength h.context) }) s
  else s

/-- Half the length of the half-period has passed (R77). -/
def BlinkTimer.halfway (t : BlinkTimer) : Bool :=
  match t.remaining with
  | some n => 2 * n ≤ ms t.length
  | none => false

/-- The midpoint of a half-period is reached (R77). -/
def flashMid (s : State) : State :=
  if s.shelf.blink.halfway then modShelf (fun h => { h with blink := { h.blink with pastMidpoint := true } }) s
  else s

/-! ## Commands -/

/-- INIT_TIMER_EXPIRY (R165). -/
def execInitTimerExpiry (s : State) : Result := .next (initEnd s)

/-- RAMP_EXPIRY (R11). -/
def execRampExpiry (b : BayId) (s : State) : Result := .next (rampEnd b s)

/-- SETTLE_EXPIRY (R12). -/
def execSettleExpiry (b : BayId) (s : State) : Result := .next (settleEnd b s)

/-- DRAIN_EXPIRY (R16). -/
def execDrainExpiry (b : BayId) (s : State) : Result := .next (drainEnd b s)

/-- DISCHARGE_EXPIRY (R18). -/
def execDischargeExpiry (b : BayId) (s : State) : Result := .next (dischargeEnd b s)

/-- REST_EXPIRY (R20). -/
def execRestExpiry (b : BayId) (s : State) : Result := .next (restEnd b s)

/-- QUIESCE_DEADLINE_EXPIRY (R171). -/
def execQuiesceDeadlineExpiry (s : State) : Result := .next (deadlineEnd s)

/-- HOLDOFF_TIMER_EXPIRY (R157). -/
def execHoldoffTimerExpiry (s : State) : Result := .next (holdoffEnd s)

/-- BLINK_HALF_PERIOD_END (R76). -/
def execBlinkHalfPeriodEnd (s : State) : Result := .next (blinkEnd s)

/-- FLASH_MIDPOINT (R77). -/
def execFlashMidpoint (s : State) : Result := .next (flashMid s)

end Sys2Proof.Machine
end

