-- ==== Sys2Proof/Machine/Dispatch.lean ====
section
/-! DEFINITION. The effect of each command on everything but the queue: one arm for each constructor of Instr. -/

namespace Sys2Proof.Machine

def exec (i : Instr) (s : State) : Host.Outcome State Fault Refusal :=
  match i with
  | .fullReset => Sys2Proof.Machine.execFullReset s
  | .windowWrite tx => Sys2Proof.Machine.execWindowWrite tx s
  | .windowRead tx => Sys2Proof.Machine.execWindowRead tx s
  | .registerRead tx => Sys2Proof.Machine.execRegisterRead tx s
  | .unknownCommand command tx => Sys2Proof.Machine.execUnknownCommand command tx s
  | .softReset tx => Sys2Proof.Machine.execSoftReset tx s
  | .clearOverflow tx => Sys2Proof.Machine.execClearOverflow tx s
  | .clearFault tx => Sys2Proof.Machine.execClearFault tx s
  | .clearWake tx => Sys2Proof.Machine.execClearWake tx s
  | .attnEnableWrite tx => Sys2Proof.Machine.execAttnEnableWrite tx s
  | .droppedRegisterWrite tx => Sys2Proof.Machine.execDroppedRegisterWrite tx s
  | .initTimerExpiry => Sys2Proof.Machine.execInitTimerExpiry s
  | .stableFilterEdge input level => Sys2Proof.Machine.execStableFilterEdge input level s
  | .presConfirmed b => Sys2Proof.Machine.execPresConfirmed b s
  | .latchConfirmed b => Sys2Proof.Machine.execLatchConfirmed b s
  | .supplyLowConfirmed => Sys2Proof.Machine.execSupplyLowConfirmed s
  | .fltEdge b asserted => Sys2Proof.Machine.execFltEdge b asserted s
  | .faultConfirmed b => Sys2Proof.Machine.execFaultConfirmed b s
  | .pgBecomesActive b => Sys2Proof.Machine.execPgBecomesActive b s
  | .pgBecomesInactive b => Sys2Proof.Machine.execPgBecomesInactive b s
  | .rampExpiry b => Sys2Proof.Machine.execRampExpiry b s
  | .settleExpiry b => Sys2Proof.Machine.execSettleExpiry b s
  | .drainExpiry b => Sys2Proof.Machine.execDrainExpiry b s
  | .dischargeExpiry b => Sys2Proof.Machine.execDischargeExpiry b s
  | .restExpiry b => Sys2Proof.Machine.execRestExpiry b s
  | .quiesceDeadlineExpiry => Sys2Proof.Machine.execQuiesceDeadlineExpiry s
  | .holdoffTimerExpiry => Sys2Proof.Machine.execHoldoffTimerExpiry s
  | .blinkHalfPeriodEnd => Sys2Proof.Machine.execBlinkHalfPeriodEnd s
  | .flashMidpoint => Sys2Proof.Machine.execFlashMidpoint s
  | .linkTimerExpiry b => Sys2Proof.Machine.execLinkTimerExpiry b s
  | .ackTimerExpiry b => Sys2Proof.Machine.execAckTimerExpiry b s
  | .collision b => Sys2Proof.Machine.execCollision b s
  | .sendingStart b => Sys2Proof.Machine.execSendingStart b s
  | .resendStart b => Sys2Proof.Machine.execResendStart b s
  | .ackSendStart b => Sys2Proof.Machine.execAckSendStart b s
  | .messageFrameEnd b => Sys2Proof.Machine.execMessageFrameEnd b s
  | .ackFrameEnd b => Sys2Proof.Machine.execAckFrameEnd b s
  | .ack b seq => Sys2Proof.Machine.execAck b seq s
  | .hello b seq payload => Sys2Proof.Machine.execHello b seq payload s
  | .demand b seq payload => Sys2Proof.Machine.execDemand b seq payload s
  | .release b seq payload => Sys2Proof.Machine.execRelease b seq payload s
  | .trouble b seq payload => Sys2Proof.Machine.execTrouble b seq payload s
  | .note b seq payload => Sys2Proof.Machine.execNote b seq payload s
  | .badCheckFrame b header payload check => Sys2Proof.Machine.execBadCheckFrame b header payload check s
  | .invalidFrame b header payload => Sys2Proof.Machine.execInvalidFrame b header payload s
  | .oversizeFrame b header => Sys2Proof.Machine.execOversizeFrame b header s
  | .abnormalEnd b lineHigh sinceEdge => Sys2Proof.Machine.execAbnormalEnd b lineHigh sinceEdge s
  | .preambleFailed b lineHigh sinceEdge => Sys2Proof.Machine.execPreambleFailed b lineHigh sinceEdge s
  | .discardingEnd b sinceEdge => Sys2Proof.Machine.execDiscardingEnd b sinceEdge s
  | .receptionBegins b => Sys2Proof.Machine.execReceptionBegins b s
  | .stablePeriodExpiryUnchanged input => Sys2Proof.Machine.execStablePeriodExpiryUnchanged input s
  | .lineHighAfterCollision b => Sys2Proof.Machine.execLineHighAfterCollision b s

end Sys2Proof.Machine
end

