-- ==== Sys2Proof/Machine/Time.lean ====
section
/-! DEFINITION. The passing of time: one tick of 50 µs of every counter the part keeps (log entry 1). Expiries are
commands and are not taken here. -/

namespace Sys2Proof.Machine

/-- Which time bases advance at a tick (00, Numbers and units). -/
structure TickBases where
  hundredUs : Bool
  oneMs : Bool
  deriving DecidableEq, Repr

/-- The bases that advance as the µs within the millisecond reach a value. -/
def tickBases (elapsed : Nat) : TickBases := ⟨elapsed % 100 == 0, 1000 ≤ elapsed⟩

/-- The time a timer has left after a tick. -/
def countDown (us : Nat) : Nat := us - Config.tick

/-- A timer, if it runs: it reaches 0 its full period after the event that loaded it (R1, R3, R61). -/
def runTimer (t : Option Nat) : Option Nat := t.map countDown

/-- The phase timer runs in a timed state outside INIT (R3). -/
def BayContext.tick (inInit : Bool) (c : BayContext) : BayContext :=
  { c with phaseTimer := if c.state.timed && !inInit then countDown c.phaseTimer else c.phaseTimer }

/-- A tick that FltTicks has still to count: it waits for FAULT_CONFIRMED while it brings FltTicks to the threshold, and is
counted where, by a clearing or a commit of its moment, it does so no more (R65, R67, R68; log entry 31). -/
def BayInputs.settleDue (threshold : Nat) (i : BayInputs) : BayInputs :=
  { i with fltTicks := if i.fltTickDue && decide (i.fltTicks + 1 < threshold) then i.fltTicks + 1 else i.fltTicks
           fltTickDue := i.fltTickDue && i.fltTicks + 1 == threshold }

/-- A tick of the 100 µs base that finds FLT asserted: it is counted below the threshold, and the tick that brings FltTicks
to the threshold is due to FAULT_CONFIRMED (R65; log entry 31). -/
def BayInputs.countFlt (threshold : Nat) (i : BayInputs) : BayInputs :=
  { i with fltTicks := if i.fltTicks + 1 < threshold then i.fltTicks + 1 else i.fltTicks
           fltTickDue := i.fltTickDue || i.fltTicks + 1 == threshold }

/-- The fault filter at a tick, with the 100 µs base advancing or not, and INIT or not (R65). -/
def BayInputs.tickFlt (k : TickBases) (inInit : Bool) (threshold : Nat) (i : BayInputs) : BayInputs :=
  if k.hundredUs && !inInit && i.fltPin then (i.settleDue threshold).countFlt threshold else i.settleDue threshold

/-- The filters of a bay at a tick (R61, R65). -/
def BayInputs.tick (k : TickBases) (inInit : Bool) (threshold : Nat) (i : BayInputs) : BayInputs :=
  { i.tickFlt k inInit threshold with presTimer := runTimer i.presTimer, latchTimer := runTimer i.latchTimer }

/-- The in-flight message at a tick (R94). -/
def InFlight.tick (m : InFlight) : InFlight := { m with ackTimer := runTimer m.ackTimer }

/-- The Link Engine at a tick: IdleTime counts while the line is high, with LineState Idle (R81; log entry 26). -/
def LinkEngine.tick (l : LinkEngine) : LinkEngine :=
  { l with idleTime := if l.lineState = .idle ∧ l.lineHigh = true then l.idleTime + Config.tick else l.idleTime,
           linkTimer := runTimer l.linkTimer, inFlight := l.inFlight.map InFlight.tick }

/-- A bay at a tick. The moment in which it reached ON is past (log entry 44). -/
def Bay.tick (k : TickBases) (inInit : Bool) (y : Bay) : Bay :=
  { y with ctx := y.ctx.tick inInit, inputs := y.inputs.tick k inInit (faultThreshold y.ctx.intent),
           link := y.link.tick, settledFrom := none }

/-- The Journal Writer at a tick: Shelf Time and the HoldoffTimer (R148, R157). -/
def Journal.tick (k : TickBases) (j : Journal) : Journal :=
  { j with shelfTime := if k.oneMs then j.shelfTime + 1 else j.shelfTime, holdoffTimer := runTimer j.holdoffTimer }

/-- The Shelf Controller at a tick: InitTimer, DeadlineTimer and the blink timer (R76, R162, R171). -/
def Shelf.tick (h : Shelf) : Shelf :=
  { h with initTimer := runTimer h.initTimer, deadlineTimer := runTimer h.deadlineTimer,
           blink := { h.blink with remaining := runTimer h.blink.remaining } }

/-- The SUPPLY_LOW filter at a tick (R61). -/
def SupplyInput.tick (i : SupplyInput) : SupplyInput := { i with timer := runTimer i.timer }

/-- The whole part at a tick, with the bases that advance: Shelf Time and the fault filters go by them, every timer by
its own full period (log entry 1). -/
def tickBy (k : TickBases) (s : State) : State :=
  { s with
    bays := s.bays.map (Bay.tick k s.inInit)
    journal := s.journal.tick k
    shelf := s.shelf.tick
    supply := s.supply.tick
    timeBase := if k.oneMs then s.timeBase + Config.tick - 1000 else s.timeBase + Config.tick }

/-- One tick. -/
def tick (s : State) : State := tickBy (tickBases (s.timeBase + Config.tick)) s

end Sys2Proof.Machine
end

