-- ==== Sys2Proof/Safety.lean ====
section
/-! DEFINITION. What a sound state of the part is, and which states commands from outside can reach. Nothing stops the
part, so safety is the keeping of these invariants. -/

namespace Sys2Proof.Machine

/-! ## Invariants of one block each -/

/-- The window is in canonical form. -/
def State.windowOk (s : State) : Prop := Memory.wf s.window

/-- Committed is the sum of the sixteen charges (R34). -/
def State.chargesOk (s : State) : Prop := s.pool.committed = s.chargeSum

/-- Head and Tail are multiples of 8 below the ring's size, and Unread never exceeds 4088 (R147). -/
def Journal.positionsOk (j : Journal) : Prop :=
  j.head % 8 = 0 ∧ j.head < Config.ringSize ∧ j.tail % 8 = 0 ∧ j.tail < Config.ringSize ∧ j.unread ≤ 4088

/-- Overflow is set exactly while records are lost and not yet reported (R153, R154). -/
def Journal.lossOk (j : Journal) : Prop := j.overflow = true ↔ 0 < j.lost

/-- SnapStatus is PENDING exactly while a snapshot waits (R182). -/
def State.snapshotOk (s : State) : Prop := s.shelf.snapStatus = .pending ↔ s.journal.waitingSnapshot.isSome = true

/-- The pool's figures are those of the committed shelf record, and EffectiveBudget is the one they give (R32, R33). -/
def State.poolOk (s : State) : Prop :=
  s.pool.budget = s.shelf.context.budget ∧ s.pool.reserve = s.shelf.context.reserve
    ∧ s.pool.lowBudget = s.shelf.context.lowBudget ∧ s.pool.supplyLow = s.supply.confirmed
    ∧ s.pool.effectiveBudget = derivedBudget s.pool

/-- FltTicks does not pass the threshold, and FltLevel is active exactly while FltTicks equals it and FLT is asserted
(R65). -/
def Bay.filterOk (y : Bay) : Prop :=
  y.inputs.fltTicks ≤ faultThreshold y.ctx.intent
    ∧ (y.inputs.fltLevel = true ↔ y.inputs.fltPin = true ∧ y.inputs.fltTicks = faultThreshold y.ctx.intent)

/-- The phase timer reads 0 in EMPTY, OFF, QUEUED, ON and FAULTED (R3). -/
def Bay.timerOk (y : Bay) : Prop := y.ctx.state.timed = false → y.ctx.phaseTimer = 0

/-! ## The bays and the queue together -/

/-- The queue's entries of a bay. -/
def entriesOf (q : List QueueEntry) (b : BayId) : List QueueEntry := q.filter (fun e => e.bay == b)

/-- A bay has one Start entry in QUEUED, at most one Raise entry in ON, and no entry in any other state (R37). -/
def State.entriesOk (s : State) (b : BayId) : Prop :=
  match s.stateOf b with
  | .queued => (entriesOf s.queue b).map (fun e => e.kind) = [.start]
  | .on => entriesOf s.queue b = [] ∨ (entriesOf s.queue b).map (fun e => e.kind) = [.raise]
  | .empty | .off | .rest | .ramp | .settle | .drain | .cutoff | .faulted => entriesOf s.queue b = []

/-- A bay in EMPTY, OFF, REST or QUEUED has a charge of zero (R34), and so has one in FAULTED while PG is inactive
(R48). -/
def Bay.chargeOk (y : Bay) : Prop :=
  match y.ctx.state with
  | .empty | .off | .rest | .queued => y.charge = 0
  | .faulted => y.inputs.pgLevel = false → y.charge = 0
  | .ramp | .settle | .on | .drain | .cutoff => True

/-- Between events a bay in RAMP has PG inactive, and one in SETTLE, ON, DRAIN or CUTOFF has PG active (R10 to R18). -/
def Bay.powerOk (y : Bay) : Prop :=
  match y.ctx.state with
  | .ramp => y.inputs.pgLevel = false
  | .settle | .on | .drain | .cutoff => y.inputs.pgLevel = true
  | .empty | .off | .rest | .queued | .faulted => True

/-- What holds of one bay between events. -/
def State.bayOk (s : State) (b : BayId) : Prop :=
  s.entriesOk b ∧ (s.bay b).chargeOk ∧ (s.bay b).powerOk

/-- The queue stands in the order of its classes, the lowest Class number at the head (R36). -/
def queueOrdered (q : List QueueEntry) : Prop := q.Pairwise (fun x y => x.priority ≤ y.priority)

/-- Throughout INIT every bay is in REST (R30, R31). -/
def State.initOk (s : State) : Prop := s.shelf.state = .init → ∀ b, s.stateOf b = .rest

/-- A sound state. -/
structure State.Sound (s : State) : Prop where
  window : s.windowOk
  charges : s.chargesOk
  positions : s.journal.positionsOk
  loss : s.journal.lossOk
  snapshot : s.snapshotOk
  pool : s.poolOk
  filters : ∀ b, (s.bay b).filterOk
  timers : ∀ b, (s.bay b).timerOk
  bays : ∀ b, s.bayOk b
  order : queueOrdered s.queue
  init : s.initOk

/-! ## Words for claims -/

/-- Records submitted one after another. -/
def submitAll (l : List Record) (s : State) : State := l.foldl (fun t r => submit r t) s

/-- Nothing is left for the end of an event to do: the head of the queue is not admitted (R43) and no quiesce completes
(R172). -/
def State.Undisturbed (s : State) : Prop :=
  headThatFits s = none ∧ ¬(s.shelf.state = .quiescing ∧ s.allComplete = true)

/-- A bay in another state, with the µs its phase timer holds then (R3). -/
def Bay.inState (new : BayState) (timer : Nat) (y : Bay) : Bay :=
  { y with ctx := { y.ctx with state := new, phaseTimer := timer } }

/-- A bay that has reached ON from SETTLE, its charge not yet set (R12, R13; log entry 44). -/
def Bay.settled (y : Bay) : Bay := { y.inState .on 0 with settledFrom := some y.charge }

/-- A bay with its Pending set or clear (R2). -/
def Bay.withPending (p : Bool) (y : Bay) : Bay := { y with ctx := { y.ctx with pending := p } }

/-- A bay with the outcome that its transition sets while the shelf is QUIESCING (R170). -/
def Bay.quiescedAs (o : QuiesceOutcome) (shelf : ShelfState) (y : Bay) : Bay :=
  { y with quiesceOutcome := if shelf = .quiescing then o else y.quiesceOutcome }

/-- A bay in FAULTED: stopped timer, Pending and ClearRequested clear, one fault more (R25, R70). -/
def Bay.latched (y : Bay) : Bay :=
  { y with
    ctx := { y.ctx with state := .faulted, phaseTimer := 0, pending := false, clearRequested := false }
    inputs := { y.inputs with faultCount := min 255 (y.inputs.faultCount + 1) } }

/-- The ADMIT record of a bay's entry that leaves the queue with an outcome, at the position it held (R41, R57). -/
def State.leaving (s : State) (b : BayId) (o : AdmitOutcome) : List Record :=
  match queueEntryOf s.queue b with
  | some e => [.admission b e.kind o e.amount (queuePosition s.queue b) e.clipped s.pool.committed]
  | none => []

/-- The link is taking a frame from the module (R84). -/
def State.canHear (s : State) (b : BayId) : Prop :=
  (s.bay b).link.linkState ≠ .detached ∧ (s.bay b).link.lineState = .receiving

/-- A message with this Sequence is no duplicate (R90). -/
def State.isNew (s : State) (b : BayId) (seq : Sequence) : Prop :=
  (s.bay b).link.filterValid = false ∨ (s.bay b).link.lastSequence ≠ seq

/-- A bay whose link has received a module message: the line free, the message in RxBuffer (DEDUCED, log entry 40), its ACK
owed (R86, R88). -/
def Bay.owing (kind : Nat) (seq : Sequence) (payload : List Byte) (y : Bay) : Bay :=
  { y with link := { y.link with
      lineState := .idle, lineHigh := true, idleTime := 0, rxBuffer := frameBuffer kind seq payload
      pendingAck := some seq } }

/-- A bay whose link has received a module message and lets it through (R90). -/
def Bay.heard (kind : Nat) (seq : Sequence) (payload : List Byte) (y : Bay) : Bay :=
  { y.owing kind seq payload with link := { (y.owing kind seq payload).link with
      lastSequence := seq, filterValid := true } }

/-- The port takes a command of a kind: it is free, or CSn has just fallen, or it is in a transaction of that kind that these
bytes go on with (R185). -/
def State.takes (s : State) (k : SpiKind) (tx : SpiBytes) : Prop :=
  s.port = .idle ∨ s.port = .selected ∨ ∃ t, s.port = .active t ∧ t.kind = k ∧ t.bytes <+: tx.bytes

/-- The rows of the table that are a register write transaction (R188). -/
def registerWriteRows (tx : SpiBytes) : List Instr :=
  [.softReset tx, .clearOverflow tx, .clearFault tx, .clearWake tx, .attnEnableWrite tx, .droppedRegisterWrite tx]

/-! ## Runs -/

/-- The states that a state reaches: by steps, and by commands placed at the end of the queue from outside. -/
inductive Reaches (s : State) : State → Prop where
  | here : Reaches s s
  | command (t : State) (c : Instr) : Reaches s t → Reaches s (t.withPending (t.pending ++ [c]))
  | step (t u : State) : Reaches s t → Machine.step t = .next u → Reaches s u

end Sys2Proof.Machine
end

