-- ==== Sys2Proof/WellFormed.lean ====
section
/-! DEFINITION. Which terms are a row of the command table: a transaction or a frame is the row it is listed under only when
its bytes say so. `exec` does not ask; a command that names what its operands do not say has the effect the operands
give it (log entries 3 and 23). -/

namespace Sys2Proof

open Sys2Proof.Machine

/-- An unfinished byte has fewer than eight bits (R185). -/
def SpiBytes.wellFormed (tx : SpiBytes) : Bool := tx.extraBits < 8

/-- Whether a register write transaction has an effect (R188 to R190). -/
def writesSomething (tx : SpiBytes) : Bool :=
  writesSoftReset tx || writesOverflow tx || writesFault tx || writesWake tx || (writtenEnable tx).isSome

/-- A payload that a frame of a module can carry: at most 32 bytes (R82). -/
def payloadFits (payload : List Byte) : Bool := payload.length ≤ 32

/-- The payload of a completed frame is as long as its header's Length says (R85). -/
def payloadMatches (header : BitVec 16) (payload : List Byte) : Bool :=
  (FrameHeader.ofBits header).length.toNat == payload.length

/-- A command is the row it is listed under. -/
def Instr.wellFormed : Instr → Bool
  | .windowWrite tx | .windowRead tx | .registerRead tx => tx.wellFormed
  | .unknownCommand (some command) tx => tx.wellFormed && spiKindOf command == .unknown
  | .unknownCommand none tx => tx.wellFormed && tx.bytes.isEmpty
  | .softReset tx => tx.wellFormed && (!tx.ended || writesSoftReset tx)
  | .clearOverflow tx => tx.wellFormed && (!tx.ended || writesOverflow tx)
  | .clearFault tx => tx.wellFormed && (!tx.ended || writesFault tx)
  | .clearWake tx => tx.wellFormed && (!tx.ended || writesWake tx)
  | .attnEnableWrite tx => tx.wellFormed && (!tx.ended || (writtenEnable tx).isSome)
  | .droppedRegisterWrite tx => tx.wellFormed && (!tx.ended || !writesSomething tx)
  | .hello _ _ payload | .demand _ _ payload | .release _ _ payload | .trouble _ _ payload | .note _ _ payload =>
    payloadFits payload
  | .badCheckFrame _ header payload check =>
    payloadFits payload && payloadMatches header payload && frameCheck header payload != check
  | .invalidFrame _ header payload =>
    payloadFits payload && payloadMatches header payload && headerInvalid (FrameHeader.ofBits header)
  | .oversizeFrame _ header => 32 < (FrameHeader.ofBits header).length.toNat
  | .discardingEnd _ sinceEdge => Config.threeBitTimes < sinceEdge
  | .fullReset | .initTimerExpiry | .supplyLowConfirmed | .quiesceDeadlineExpiry | .holdoffTimerExpiry
  | .blinkHalfPeriodEnd | .flashMidpoint => true
  | .stableFilterEdge _ _ | .presConfirmed _ | .latchConfirmed _ | .fltEdge _ _ | .faultConfirmed _
  | .pgBecomesActive _ | .pgBecomesInactive _ | .rampExpiry _ | .settleExpiry _ | .drainExpiry _ | .dischargeExpiry _
  | .restExpiry _ | .linkTimerExpiry _ | .ackTimerExpiry _ | .collision _ | .sendingStart _ | .resendStart _
  | .ackSendStart _ | .messageFrameEnd _ | .ackFrameEnd _ | .ack _ _ | .abnormalEnd _ _ _ | .preambleFailed _ _ _
  | .receptionBegins _ | .stablePeriodExpiryUnchanged _ | .lineHighAfterCollision _ => true

end Sys2Proof
end

