-- ==== Sys2Proof/Certificates/Slice0/Obligations.lean ====
section
/-! DEFINITION. The statements for the provers, in the order of OBLIGATIONS.json. A result is given as the whole next state: what
a statement does not name is unchanged. `finish` is the end of an event, of which HeadIsEvaluated and QuiesceRuns tell: it
evaluates the head of the queue in every event that ends with it (log entry 11) and tests a quiesce for completion (log
entry 21). An expiry is a command, and has its effect once its timer has run down to 0 (R1; log entry 2). -/

open Sys2Proof Sys2Proof.Machine

/-! ## Steps -/

/-- A step takes the command at the front of the queue and is that command on the state with the queue's rest. -/
def Obligations.StepRunsFrontCommand : Prop :=
  ∀ (c : Instr) (q : List Instr) (s : State), s.pending = c :: q → step s = exec c (s.withPending q)

/-- On an empty queue a step lets 50 µs pass (the model's choice, log entries 1 and 32): the time bases of 1 ms and of
100 µs advance as they fill, Shelf Time by the first (R148) and the fault filters by the second: a tick that finds FLT
asserted is counted below the threshold, and the one that brings FltTicks to the threshold is due to FAULT_CONFIRMED; one that
was due and by its moment's end no longer does so is counted (R65, log entry 31); every timer runs by 50 µs, down to 0 at the
least, and so for its full period (R1, R3, R61, R76, R94, R101, R157, R162, R171), the phase timers in the timed states
outside INIT (R3), and IdleTime on an idle line that is high (R81, log entry 26). The moment of a bay's entry into ON is
past (log entry 44). Nothing else changes. -/
def Obligations.EmptyQueueLetsTimePass : Prop :=
  ∀ (s : State) (down : Option Nat → Option Nat), s.pending = [] → down = (fun t => t.map (fun n => n - 50)) →
    ∃ t, step s = .next t
      ∧ { t with bays := s.bays } = { s with
          timeBase := if 950 ≤ s.timeBase then s.timeBase - 950 else s.timeBase + 50
          journal := { s.journal with
            shelfTime := if 950 ≤ s.timeBase then s.journal.shelfTime + 1 else s.journal.shelfTime
            holdoffTimer := down s.journal.holdoffTimer }
          shelf := { s.shelf with
            initTimer := down s.shelf.initTimer
            deadlineTimer := down s.shelf.deadlineTimer
            blink := { s.shelf.blink with remaining := down s.shelf.blink.remaining } }
          supply := { s.supply with timer := down s.supply.timer } }
      ∧ ∀ (b : BayId) (due : Bool) (n ticks : Nat), n = faultThreshold (s.intentOf b) →
        due = ((s.bay b).inputs.fltTickDue && decide ((s.bay b).inputs.fltTicks + 1 = n)) →
        ticks = (if (s.bay b).inputs.fltTickDue ∧ (s.bay b).inputs.fltTicks + 1 < n then (s.bay b).inputs.fltTicks + 1
          else (s.bay b).inputs.fltTicks) →
        t.bay b = { s.bay b with
          ctx := { (s.bay b).ctx with
            phaseTimer := if s.stateOf b ∈ [.ramp, .settle, .drain, .cutoff, .rest] ∧ s.shelf.state ≠ .init then
              (s.bay b).ctx.phaseTimer - 50 else (s.bay b).ctx.phaseTimer }
          inputs := { (s.bay b).inputs with
            presTimer := down (s.bay b).inputs.presTimer
            latchTimer := down (s.bay b).inputs.latchTimer
            fltTicks := if (s.timeBase + 50) % 100 = 0 ∧ s.shelf.state ≠ .init ∧ (s.bay b).inputs.fltPin ∧ ticks + 1 < n then
              ticks + 1 else ticks
            fltTickDue := due || decide ((s.timeBase + 50) % 100 = 0 ∧ s.shelf.state ≠ .init
              ∧ (s.bay b).inputs.fltPin = true ∧ ticks + 1 = n) }
          link := { (s.bay b).link with
            idleTime := if (s.bay b).link.lineState = .idle ∧ (s.bay b).link.lineHigh then
              (s.bay b).link.idleTime + 50 else (s.bay b).link.idleTime
            linkTimer := down (s.bay b).link.linkTimer
            inFlight := (s.bay b).link.inFlight.map (fun m => { m with ackTimer := down m.ackTimer }) }
          settledFrom := none }

/-- Every command is taken in every state (log entry 3): it answers a next state, and the commands that wait stay as they
are, also at a full reset (log entry 6). -/
def Obligations.EveryCommandIsTaken : Prop :=
  ∀ (c : Instr) (s : State), ∃ t, exec c s = .next t ∧ t.pending = s.pending

/-! ## Resets -/

/-- A full reset puts every block in its full-reset state (R30, R58, R64, R68, R71, R104, R127, R160, R162, R164, R184,
R189), with what those rules leave out as log entry 7 has it. Input pins, line levels and waiting commands stay (log entry
6), the time base and MISO start afresh (log entries 1 and 36), the window reads 0 (log entry 8), and a transaction in
progress, from the fall of CSn on, is abandoned: the port waits for CSn to rise (R185, log entry 48). No bay has a SETTLE
charge to keep (log entry 44). -/
def Obligations.FullResetResetsBlocks : Prop :=
  ∀ s : State, ∃ t, exec .fullReset s = .next t
    ∧ t.shelf = ⟨.init, some 2000, .whole, ⟨.hold, 0, 0, 0, 0, 0, 0, false⟩, none, 0, .idle, 0, ⟨true, 500, none, false⟩, 0⟩
    ∧ t.pool = ⟨0, 0, 0, false, 0, 0, 0⟩ ∧ t.queue = []
    ∧ t.journal = ⟨0, false, 0, false, 0, false, false, 0, 0, none, none⟩
    ∧ t.attnPending = ⟨false, false, false, false⟩ ∧ t.attnEnable = ⟨false, false, false, false⟩
    ∧ t.supply = ⟨s.supply.pin, some 10000, false⟩ ∧ t.window = [] ∧ (∀ a, t.windowByte a = 0)
    ∧ t.port = (if s.port = .idle then .idle else .ignoring) ∧ t.miso = [] ∧ t.timeBase = 0 ∧ t.pending = s.pending
    ∧ ∀ b, t.enOutput b = false ∧ t.lampLit b = false ∧ t.bay b = {
        ctx := ⟨.rest, 400000, ⟨.off, .auto, 0, 0, false, false, 0, 0, 0, 0, 0, 0, 0⟩, none, false, .demand, 0, false, false⟩
        inputs := ⟨(s.bay b).inputs.presPin, some 20000, false, (s.bay b).inputs.latchPin, some 20000, false,
          (s.bay b).inputs.fltPin, 0, false, false, (s.bay b).inputs.pgLevel, 0⟩
        link := {
          linkState := .detached, lineState := .idle, lineHigh := (s.bay b).link.lineHigh, idleTime := 0, rxBuffer := []
          pendingAck := none, txList := [], inFlight := none, nextSequence := 0, lastSequence := 0, filterValid := false
          linkTimer := none, counters := ⟨0, 0, 0, 0⟩, reported := ⟨false, false, false, false⟩, txFrame := none }
        dialogue := ⟨none, .free, 0, 0, 0, [0, 0, 0, 0, 0, 0, 0, 0]⟩
        charge := 0, grantedHold := 0, settledFrom := none, applied := 0, quiesceOutcome := .none, resetOldState := .rest
        owedParcel := none }

/-- A register write that sets SOFT_RESET, whichever row it is listed under (log entry 23), puts every block in its
soft-reset state after its other bytes (R31, R59, R64, R74, R104, R127, R161, R162, R164, R184, R188 to R190), with what those
rules leave out as log entry 7 has it. The time base goes on (log entry 1), the window is kept until INIT ends (log entry
8), the PARCEL record owed for an abandoned parcel has its Length and attempts from log entries 18 and 39, and no bay has a
SETTLE charge to keep (log entry 44). -/
def Obligations.SoftResetResetsBlocks : Prop :=
  ∀ (tx : SpiBytes) (s : State), s.takes .registerWrite tx → tx.ended = true → writesSoftReset tx = true →
    ∀ i ∈ registerWriteRows tx, ∃ t, exec i s = .next t
    ∧ t.shelf = {
        state := .init
        initTimer := if s.shelf.state = .init ∧ s.shelf.clearScope = .whole then some 2000 else some 1000
        clearScope := if s.shelf.state = .init ∧ s.shelf.clearScope = .whole then .whole else .partOwned
        context := ⟨.hold, 0, 0, 0, 0, 0, 0, false⟩, deadlineTimer := none, wakeBits := 0, snapStatus := .idle
        snapCount := 0, blink := ⟨true, 500, none, false⟩, applied := 0 }
    ∧ t.pool = ⟨0, 0, 0, s.supply.confirmed, 0, 0, 0⟩ ∧ t.queue = []
    ∧ t.journal = ⟨0, false, 0, false, 0, false, false, 0, 0, none, none⟩
    ∧ t.attnPending = ⟨false, false, false, false⟩ ∧ t.attnEnable = writeEnable tx s.attnEnable
    ∧ t.supply = s.supply ∧ t.window = s.window ∧ t.pending = s.pending ∧ t.timeBase = s.timeBase
    ∧ t.port = .idle ∧ t.miso = List.replicate (tx.bytes.length + 1) 0
    ∧ ∀ b, t.enOutput b = false ∧ t.lampLit b = false ∧ t.bay b = {
        ctx := {
          state := .rest
          phaseTimer := if s.shelf.state = .init then (s.bay b).ctx.phaseTimer
            else if s.enOutput b then (s.intentOf b).restInterval * 10000 else 0
          intent := ⟨.off, .auto, 0, 0, false, false, 0, 0, 0, 0, 0, 0, 0⟩, demand := none, pending := false
          basis := .demand, admissionStamp := 0, troubleHold := false, clearRequested := false }
        inputs := ⟨(s.bay b).inputs.presPin, some 20000, false, (s.bay b).inputs.latchPin, some 20000, false,
          (s.bay b).inputs.fltPin, 0, false, false, (s.bay b).inputs.pgLevel, 0⟩
        link := {
          linkState := .detached, lineState := .idle, lineHigh := (s.bay b).link.lineHigh, idleTime := 0, rxBuffer := []
          pendingAck := none, txList := [], inFlight := none, nextSequence := 0, lastSequence := 0, filterValid := false
          linkTimer := none, counters := ⟨0, 0, 0, 0⟩, reported := ⟨false, false, false, false⟩, txFrame := none }
        dialogue := ⟨none, if (s.bay b).dialogue.slotStatus ∈ [.posted, .sending] then .abandoned
          else (s.bay b).dialogue.slotStatus, 0, 0, 0, [0, 0, 0, 0, 0, 0, 0, 0]⟩
        charge := 0, grantedHold := 0, settledFrom := none, applied := 0, quiesceOutcome := .none
        resetOldState := if s.shelf.state = .init then (s.bay b).resetOldState else s.stateOf b
        owedParcel := if (s.parcelToAbandon b).isSome then s.parcelToAbandon b else (s.bay b).owedParcel }

/-- The state right after a full reset is sound. -/
def Obligations.ResetStateIsSound : Prop := State.Sound State.reset

/-! ## Manager Port -/

/-- A register write transaction that does not set SOFT_RESET, whichever row it is listed under (log entry 23): as CSn rises
OVERFLOW, FAULT and WAKE are cleared by a 1, JOURNAL is not, ATTN_ENABLE takes what is written to it, MISO has carried 0,
and nothing else changes (R185, R188, R189). OVERFLOW, FAULT and WAKE are bits 1 to 3 of the byte written to 0006h,
ATTN_ENABLE is the byte written to 0008h, and SOFT_RESET is bit 0 of the byte written to 0002h; a transaction without a
whole address writes none of them (R185, R188 to R190). -/
def Obligations.RegisterWriteTakesItsBits : Prop :=
  (∀ (hi lo : Byte) (data : List Byte) (tx : SpiBytes) (a : Nat), tx.bytes = hi :: lo :: data →
    a = 256 * hi.toNat + lo.toNat →
    (writesOverflow tx = true ↔ a ≤ 6 ∧ (data.getD (6 - a) 0).getLsbD 1 = true)
    ∧ (writesFault tx = true ↔ a ≤ 6 ∧ (data.getD (6 - a) 0).getLsbD 2 = true)
    ∧ (writesWake tx = true ↔ a ≤ 6 ∧ (data.getD (6 - a) 0).getLsbD 3 = true)
    ∧ writtenEnable tx = (if a ≤ 8 then data[8 - a]? else none)
    ∧ (writesSoftReset tx = true ↔ a ≤ 2 ∧ (data.getD (2 - a) 0).getLsbD 0 = true))
  ∧ (∀ tx : SpiBytes, tx.bytes.length < 2 → writesOverflow tx = false ∧ writesFault tx = false ∧ writesWake tx = false
    ∧ writtenEnable tx = none ∧ writesSoftReset tx = false)
  ∧ ∀ (tx : SpiBytes) (s : State), s.takes .registerWrite tx → tx.ended = true → writesSoftReset tx = false →
    ∀ i ∈ registerWriteRows tx, exec i s = .next { s with
      attnPending := ⟨s.attnPending.journal, s.attnPending.overflow && !writesOverflow tx,
        s.attnPending.fault && !writesFault tx, s.attnPending.wake && !writesWake tx⟩
      attnEnable := (match writtenEnable tx with
        | some v => ⟨v.getLsbD 0, v.getLsbD 1, v.getLsbD 2, v.getLsbD 3⟩
        | none => s.attnEnable)
      port := .idle
      miso := List.replicate (tx.bytes.length + 1) 0 }

/-- The command byte picks the kind of a transaction, and its bytes make the command: a register write is one of its rows
(R185; log entry 23). Until the command byte is complete CSn is low and the port selected (log entry 48). Reads, unknown
commands, and window writes that INIT drops or that carry no window byte change nothing but what MISO carried: 0, and from
the first data byte of a read the bytes asked for, whose addresses run on past FFFFh (log entry 46) (R164, R185 to R188). A
transaction into which other events fall (log entry 10) changes the port and MISO alone until CSn rises, and a read takes
each aligned group of eight window bytes, and each register, from the state in which it first needs it, at the latest as the
first bit of the byte is shifted out. Between a full reset and the rise of CSn the port takes nothing (log entry 48). -/
def Obligations.TransactionsWithoutEffect : Prop :=
  ∀ s : State,
    (spiKindOf 0x00 = .windowWrite ∧ spiKindOf 0x80 = .windowRead ∧ spiKindOf 0x40 = .registerWrite
      ∧ spiKindOf 0xC0 = .registerRead ∧ ∀ c ∉ [(0x00 : Byte), 0x80, 0x40, 0xC0], spiKindOf c = .unknown)
    ∧ (∀ (c : Byte) (rest : List Byte) (n : Nat) (e : Bool), transactionOf (c :: rest) n e
      = if c = 0x00 then .windowWrite ⟨rest, n, e⟩ else if c = 0x80 then .windowRead ⟨rest, n, e⟩
        else if c = 0x40 then registerWriteOf ⟨rest, n, e⟩ else if c = 0xC0 then .registerRead ⟨rest, n, e⟩
        else .unknownCommand (some c) ⟨rest, n, e⟩)
    ∧ (∀ (n : Nat) (e : Bool), transactionOf [] n e = .unknownCommand none ⟨[], n, e⟩)
    ∧ (∀ (bytes : List Byte) (n : Nat) (e : Bool), n < 8 → (transactionOf bytes n e).wellFormed = true)
    ∧ (∀ tx : SpiBytes, registerWriteOf tx ∈ registerWriteRows tx)
    ∧ (∀ tx : SpiBytes, s.port = .idle ∨ s.port = .selected →
      exec (.unknownCommand none tx) s = .next (setMiso [] (setPort (if tx.ended then .idle else .selected) s)))
    ∧ (∀ (bytes : List Byte) (n : Nat), bytes.length ≤ 3 → s.port = .idle ∨ s.port = .selected →
      exec (.windowRead ⟨bytes, n, true⟩) s = .next (setMiso (List.replicate (bytes.length + 1) 0) (setPort .idle s))
      ∧ exec (.registerRead ⟨bytes, n, true⟩) s = .next (setMiso (List.replicate (bytes.length + 1) 0) (setPort .idle s))
      ∧ (n = 0 ∨ bytes.length ≤ 2 → exec (.windowRead ⟨bytes, n, false⟩) s = .next (setMiso
          (List.replicate (bytes.length + 1) 0) (setPort (.active ⟨.windowRead, bytes, [], none⟩) s))
        ∧ exec (.registerRead ⟨bytes, n, false⟩) s = .next (setMiso (List.replicate (bytes.length + 1) 0)
          (setPort (.active ⟨.registerRead, bytes, [], none⟩) s))))
    ∧ (∀ (hi lo x : Byte) (data : List Byte) (n : Nat), s.port = .idle ∨ s.port = .selected →
      exec (.windowRead ⟨hi :: lo :: x :: data, n, true⟩) s = .next (setMiso ([0, 0, 0, 0]
        ++ (List.range data.length).map (fun i => s.windowByte (256 * hi.toNat + lo.toNat + i))) (setPort .idle s))
      ∧ exec (.registerRead ⟨hi :: lo :: x :: data, n, true⟩) s = .next (setMiso ([0, 0, 0, 0]
        ++ (List.range data.length).map (fun i => s.registerByte (256 * hi.toNat + lo.toNat + i))) (setPort .idle s)))
    ∧ (∀ (i : Instr) (tx : SpiBytes) (t : Transfer) (hi lo x y : Byte) (data : List Byte) (a n : Nat) (read : Nat → Byte)
        (g g1 : HeldGroup),
      (i = .windowRead tx ∧ t.kind = .windowRead ∧ n = 8 ∧ read = s.windowByte)
        ∨ (i = .registerRead tx ∧ t.kind = .registerRead ∧ n = 2 ∧ read = s.registerByte) →
      s.port = .active t → t.bytes = hi :: lo :: x :: data → t.data.length = data.length → tx.bytes = t.bytes ++ [y] →
      a = 256 * hi.toNat + lo.toNat + data.length →
      (t.held = some g ∧ g.index = a / n)
        ∨ ((∀ h, t.held = some h → h.index ≠ a / n)
          ∧ g = ⟨a / n, (List.range n).map (fun k => read (n * (a / n) + k))⟩) →
      g1 = (if tx.extraBits = 0 ∨ g.index = (a + 1) / n then g
        else ⟨(a + 1) / n, (List.range n).map (fun k => read (n * ((a + 1) / n) + k))⟩) →
      exec i s = .next (setMiso ([0, 0, 0, 0] ++ (t.data ++ [g.bytes.getD (a % n) 0]))
        (setPort (if tx.ended then .idle
          else .active { t with bytes := tx.bytes, data := t.data ++ [g.bytes.getD (a % n) 0], held := some g1 }) s)))
    ∧ (∀ (i : Instr) (tx : SpiBytes) (t : Transfer) (hi lo x : Byte) (data : List Byte) (a n : Nat) (read : Nat → Byte)
        (g : HeldGroup),
      (i = .windowRead tx ∧ t.kind = .windowRead ∧ n = 8 ∧ read = s.windowByte)
        ∨ (i = .registerRead tx ∧ t.kind = .registerRead ∧ n = 2 ∧ read = s.registerByte) →
      ((s.port = .idle ∨ s.port = .selected) ∧ t.bytes = [] ∧ t.data = [] ∧ t.held = none)
        ∨ (s.port = .active t ∧ t.bytes <+: tx.bytes) →
      tx.bytes = hi :: lo :: x :: data → t.data.length = data.length → tx.extraBits ≠ 0 → tx.ended = false →
      a = 256 * hi.toNat + lo.toNat + data.length →
      (t.held = some g ∧ g.index = a / n)
        ∨ ((∀ h, t.held = some h → h.index ≠ a / n)
          ∧ g = ⟨a / n, (List.range n).map (fun k => read (n * (a / n) + k))⟩) →
      exec i s = .next (setMiso ([0, 0, 0, 0] ++ t.data)
        (setPort (.active { t with bytes := tx.bytes, held := some g }) s)))
    ∧ (∀ (c : Byte) (tx : SpiBytes), spiKindOf c = .unknown → s.takes .unknown tx → tx.ended = true →
      exec (.unknownCommand (some c) tx) s = .next (setMiso (List.replicate (tx.bytes.length + 1) 0) (setPort .idle s)))
    ∧ (∀ tx : SpiBytes, s.takes .windowWrite tx → tx.ended = true → s.shelf.state = .init ∨ windowCollected tx = [] →
      exec (.windowWrite tx) s = .next (setMiso (List.replicate (tx.bytes.length + 1) 0) (setPort .idle s)))
    ∧ (∀ (i : Instr) (k : SpiKind) (tx : SpiBytes) (t : Transfer), tx.ended = false →
      (i = .windowWrite tx ∧ k = .windowWrite) ∨ (i ∈ registerWriteRows tx ∧ k = .registerWrite)
        ∨ (∃ c, i = .unknownCommand (some c) tx ∧ spiKindOf c = .unknown ∧ k = .unknown) →
      ((s.port = .idle ∨ s.port = .selected) ∧ t = ⟨k, [], [], none⟩) ∨ (s.port = .active t ∧ t.kind = k ∧ t.bytes <+: tx.bytes) →
      exec i s = .next (setMiso (List.replicate (tx.bytes.length + 1) 0)
        (setPort (.active { t with bytes := tx.bytes }) s)))
    ∧ (∀ (i : Instr) (tx : SpiBytes), s.port = .ignoring →
      i ∈ [Instr.windowWrite tx, .windowRead tx, .registerRead tx] ∨ i ∈ registerWriteRows tx
        ∨ (∃ c, i = .unknownCommand (some c) tx ∧ spiKindOf c = .unknown) ∨ i = .unknownCommand none tx →
      exec i s = .next (if tx.ended then setPort .idle s else s))

/-- STATUS shows INIT_DONE, the shelf state code and the confirmed SUPPLY_LOW level, its other bits read 0, and it shows
them through INIT, where every window byte reads 0 (R191). -/
def Obligations.StatusShowsShelfAndSupply : Prop :=
  ∀ s : State,
    (s.register 4).getLsbD 0 = decide (s.shelf.state ≠ .init)
    ∧ ((s.register 4).extractLsb' 1 3).toNat = s.shelf.state.code
    ∧ (s.register 4).getLsbD 4 = s.supply.confirmed
    ∧ (s.register 4).extractLsb' 5 11 = 0
    ∧ s.registerByte 4 = (s.register 4).extractLsb' 0 8 ∧ s.registerByte 5 = (s.register 4).extractLsb' 8 8
    ∧ (s.shelf.state = .init → ∀ a, s.windowByte a = 0)

/-- The other registers: ID reads 1610h, CONTROL 0, ATTN_PENDING and ATTN_ENABLE their four causes in bits 0 to 3, low byte
first, and 0 from 000Ah upwards. The outputs: ATTN is driven exactly while a cause is pending and enabled, EN of a bay is
asserted exactly in RAMP, SETTLE, ON and DRAIN, and MISO is high-impedance exactly while the port is idle (R4, R185, R188 to
R190). -/
def Obligations.RegistersAndAttn : Prop :=
  ∀ s : State,
    s.registerByte 0 = 0x10 ∧ s.registerByte 1 = 0x16 ∧ s.registerByte 2 = 0 ∧ s.registerByte 3 = 0
    ∧ (s.register 6).getLsbD 0 = s.attnPending.journal ∧ (s.register 6).getLsbD 1 = s.attnPending.overflow
    ∧ (s.register 6).getLsbD 2 = s.attnPending.fault ∧ (s.register 6).getLsbD 3 = s.attnPending.wake
    ∧ (s.register 6).extractLsb' 4 12 = 0
    ∧ (s.register 8).getLsbD 0 = s.attnEnable.journal ∧ (s.register 8).getLsbD 1 = s.attnEnable.overflow
    ∧ (s.register 8).getLsbD 2 = s.attnEnable.fault ∧ (s.register 8).getLsbD 3 = s.attnEnable.wake
    ∧ (s.register 8).extractLsb' 4 12 = 0
    ∧ (∀ a ∈ [6, 8], s.registerByte a = (s.register a).extractLsb' 0 8
      ∧ s.registerByte (a + 1) = (s.register a).extractLsb' 8 8)
    ∧ (∀ a, 10 ≤ a → s.registerByte a = 0)
    ∧ (s.attnAsserted = true ↔ ∃ k, k < 4 ∧ (s.register 6).getLsbD k = true ∧ (s.register 8).getLsbD k = true)
    ∧ (∀ b, s.enOutput b = true ↔ s.stateOf b ∈ [.ramp, .settle, .on, .drain])
    ∧ (s.misoDriven = false ↔ s.port = .idle)

/-- ATTN_ENABLE changes by register writes and by a full reset alone (R189). -/
def Obligations.AttnEnableIsKept : Prop :=
  ∀ (c : Instr) (s t : State), exec c s = .next t → c ≠ .fullReset → (∀ tx, c ∉ registerWriteRows tx) →
    t.attnEnable = s.attnEnable

/-- Outside INIT a window read shows each part-written field from the block that owns it: the shelf record, the journal
control area, the status entries, Applied, the slot statuses and the directory, with the demand figures 0 while the demand
is unknown; the ring and the manager-written fields read back as they stand, and bytes of no field 0 (R109, R129, R130,
R142, R146, R176, R177, R187). The codes and the addresses of intent records and slots are those of R192's tables. -/
def Obligations.WindowShowsOwners : Prop :=
  ∀ s : State, s.shelf.state ≠ .init →
    s.windowByte 0x10 = s.shelf.applied
    ∧ s.windowByte 0x11 = BitVec.ofNat 8 s.shelf.state.code
    ∧ s.windowByte 0x12 = BitVec.ofNat 8 s.pool.effectiveBudget
    ∧ s.windowByte 0x13 = BitVec.ofNat 8 (s.pool.effectiveBudget / 256)
    ∧ s.windowByte 0x14 = BitVec.ofNat 8 s.pool.committed ∧ s.windowByte 0x15 = BitVec.ofNat 8 (s.pool.committed / 256)
    ∧ s.windowByte 0x16 = s.shelf.wakeBits.extractLsb' 0 8 ∧ s.windowByte 0x17 = s.shelf.wakeBits.extractLsb' 8 8
    ∧ s.windowByte 0x18 = (if s.shelf.snapStatus = .pending then 1 else 0)
    ∧ s.windowByte 0x1A = s.shelf.snapCount.extractLsb' 0 8 ∧ s.windowByte 0x1B = s.shelf.snapCount.extractLsb' 8 8
    ∧ s.windowByte 0x40 = BitVec.ofNat 8 s.journal.head ∧ s.windowByte 0x41 = BitVec.ofNat 8 (s.journal.head / 256)
    ∧ s.windowByte 0x42 = (if s.journal.headWrap then 1 else 0) ∧ s.windowByte 0x43 = s.journal.stamp
    ∧ s.windowByte 0x44 = BitVec.ofNat 8 s.journal.lost ∧ s.windowByte 0x45 = BitVec.ofNat 8 (s.journal.lost / 256)
    ∧ s.windowByte 0x46 = (if s.journal.overflow then 1 else 0) ∧ s.windowByte 0x47 = (if s.journal.badTail then 1 else 0)
    ∧ s.windowByte 0x48 = BitVec.ofNat 8 s.journal.tail ∧ s.windowByte 0x49 = BitVec.ofNat 8 (s.journal.tail / 256)
    ∧ s.windowByte 0x4A = (if s.journal.tailWrap then 1 else 0)
    ∧ (∀ b : BayId,
      s.windowByte (0x60 + 8 * b.val) = BitVec.ofNat 8 (s.stateOf b).code
      ∧ s.windowByte (0x61 + 8 * b.val) = BitVec.ofNat 8 (s.bay b).link.linkState.code
      ∧ s.windowByte (0x62 + 8 * b.val) = BitVec.ofNat 8 (s.bay b).charge
      ∧ s.windowByte (0x63 + 8 * b.val) = BitVec.ofNat 8 ((s.bay b).charge / 256)
      ∧ s.windowByte (0x64 + 8 * b.val) = 0#3 ++ BitVec.ofBool (s.enOutput b) ++ BitVec.ofBool (s.bay b).inputs.pgLevel
        ++ BitVec.ofBool (s.bay b).inputs.fltLevel ++ BitVec.ofBool (s.bay b).inputs.latchConfirmed
        ++ BitVec.ofBool (s.bay b).inputs.presConfirmed
      ∧ s.windowByte (0x65 + 8 * b.val) = 0#6 ++ BitVec.ofBool (s.bay b).ctx.demand.isSome
        ++ BitVec.ofBool (s.bay b).ctx.troubleHold
      ∧ s.windowByte (0x66 + 8 * b.val) = BitVec.ofNat 8 (s.bay b).inputs.faultCount
      ∧ s.windowByte (intentAddr b 3) = (s.bay b).applied
      ∧ s.windowByte (outboxAddr b 0) = BitVec.ofNat 8 (s.bay b).dialogue.slotStatus.code
      ∧ s.windowByte (0x800 + 32 * b.val) = BitVec.ofNat 8 (s.bay b).link.linkState.code
      ∧ s.windowByte (0x801 + 32 * b.val) = (s.bay b).dialogue.moduleClass
      ∧ s.windowByte (0x802 + 32 * b.val) = (s.bay b).dialogue.linkRevision
      ∧ s.windowByte (0x803 + 32 * b.val)
        = 0#6 ++ BitVec.ofBool (((s.bay b).ctx.demand.map Demand.clipped).getD false)
          ++ BitVec.ofBool (s.bay b).ctx.demand.isSome
      ∧ (∀ i, i < 8 → s.windowByte (0x804 + 32 * b.val + i) = (s.bay b).dialogue.identity.getD i 0)
      ∧ s.windowByte (0x80C + 32 * b.val) = BitVec.ofNat 8 (((s.bay b).ctx.demand.map Demand.ramp).getD 0)
      ∧ s.windowByte (0x80D + 32 * b.val) = BitVec.ofNat 8 (((s.bay b).ctx.demand.map Demand.ramp).getD 0 / 256)
      ∧ s.windowByte (0x80E + 32 * b.val) = BitVec.ofNat 8 (((s.bay b).ctx.demand.map Demand.hold).getD 0)
      ∧ s.windowByte (0x80F + 32 * b.val) = BitVec.ofNat 8 (((s.bay b).ctx.demand.map Demand.hold).getD 0 / 256)
      ∧ s.windowByte (0x810 + 32 * b.val) = BitVec.ofNat 8 (s.bay b).dialogue.malformed
      ∧ (∀ o, o ≤ 2 ∨ (4 ≤ o ∧ o ≤ 0x12) → s.windowByte (intentAddr b o) = Memory.read s.window (intentAddr b o))
      ∧ (∀ o, 0x13 ≤ o → o < 64 → s.windowByte (intentAddr b o) = 0)
      ∧ (∀ o, 1 ≤ o → o ≤ 0x21 → s.windowByte (outboxAddr b o) = Memory.read s.window (outboxAddr b o))
      ∧ (∀ o, 0x22 ≤ o → o < 48 → s.windowByte (outboxAddr b o) = 0)
      ∧ s.windowByte (0x67 + 8 * b.val) = 0
      ∧ ∀ o, 0x11 ≤ o → o < 0x20 → s.windowByte (0x800 + o + 32 * b.val) = 0)
    ∧ (∀ a, a = 0x19 ∨ (0x1C ≤ a ∧ a < 0x40) ∨ (0x4B ≤ a ∧ a < 0x60) ∨ (0xE0 ≤ a ∧ a < 0x100) ∨ (0xA00 ≤ a ∧ a < 0x1000) →
      s.windowByte a = 0)
    ∧ (∀ o, o ≤ 0x0F → s.windowByte o = Memory.read s.window o)
    ∧ (∀ a, 0x1000 ≤ a → a < 0x2000 → s.windowByte a = Memory.read s.window a)
    ∧ (∀ a, 0x2000 ≤ a → s.windowByte a = 0)
    ∧ (∀ (b : BayId) (o : Nat), intentAddr b o = 0x100 + 64 * b.val + o ∧ outboxAddr b o = 0x500 + 48 * b.val + o)
    ∧ [BayState.empty, .off, .rest, .queued, .ramp, .settle, .on, .drain, .cutoff, .faulted].map BayState.code = List.range 10
    ∧ [LinkState.detached, .unbound, .bound, .lost].map LinkState.code = List.range 4
    ∧ [ShelfState.init, .held, .run, .quiescing, .standby].map ShelfState.code = List.range 5
    ∧ [SlotStatus.free, .posted, .sending, .sent, .failed, .abandoned].map SlotStatus.code = List.range 6

/-! ## Window writes -/

/-- The bytes that a window write collects: the k-th data byte has the address 256·hi + lo + k, bytes at 2000h and above
are not collected, so none wraps past FFFFh, and a transaction without a whole address collects none (R185, R186). A window
write transaction outside INIT whose bytes all land or belong to no field, with no Commit, SnapRequest or slot Status byte
among them, changes the bytes that land and nothing else; those of no field are dropped (R130 to R132, R185, R186).
ProtectionMap tells which bytes land. The window is memory: a byte written reads back and no other changes. -/
def Obligations.WindowWriteLands : Prop :=
  (∀ (hi lo : Byte) (data : List Byte) (tx : SpiBytes) (start : Nat), tx.bytes = hi :: lo :: data →
    start = 256 * hi.toNat + lo.toNat →
    windowCollected tx
      = ((List.range data.length).map (fun k => (start + k, data.getD k 0))).filter (fun c => c.1 < 0x2000)
    ∧ ∀ a, a < 0x2000 → writtenAt (windowCollected tx) a = if start ≤ a then data[a - start]? else none)
  ∧ (∀ tx : SpiBytes, tx.bytes.length < 2 → windowCollected tx = [])
  ∧ (∀ a, (isCommit a = true ↔ a = 0x0F ∨ ∃ b, a = intentAddr b 2) ∧ (isSlotStatus a = true ↔ ∃ b, a = outboxAddr b 0))
  ∧ (∀ (m : Memory) (a x : Nat) (v : Byte) (l : List Byte), m.wf →
    Memory.read (m.write a v) x = (if x = a then v else Memory.read m x)
    ∧ Memory.read (m.writeBytes a l) x = (if a ≤ x ∧ x < a + l.length then l.getD (x - a) 0 else Memory.read m x))
  ∧ (∀ (m : Memory) (l : List (Nat × Byte)) (x : Nat), m.wf → (l.map Prod.fst).Nodup →
    Memory.read (m.writeAll l) x = (writtenAt l x).getD (Memory.read m x))
  ∧ ∀ (tx : SpiBytes) (s : State), s.windowOk → s.takes .windowWrite tx → tx.ended = true → s.shelf.state ≠ .init →
    ¬(s.shelf.state = .quiescing ∧ s.allComplete = true) →
    (∀ c ∈ windowCollected tx, (s.landing c.1 c.2 = .lands ∨ s.landing c.1 c.2 = .dropped) ∧ isCommit c.1 = false
      ∧ c.1 ≠ 0x0E ∧ isSlotStatus c.1 = false) →
    ∃ m, exec (.windowWrite tx) s
        = .next { s with window := m, port := .idle, miso := List.replicate (tx.bytes.length + 1) 0 }
      ∧ ∀ a, Memory.read m a = match writtenAt (windowCollected tx) a with
        | some v => if s.landing a v = .lands then v else Memory.read s.window a
        | none => Memory.read s.window a

/-- A window write transaction outside INIT whose bytes are all protected writes one DISCARD record, of the first byte's
bay, cause and address and the number of bytes, and changes no byte below the ring (R131, R134). The bytes that protection
discards are those that ProtectionMap names so, each with its cause. The first byte's bay is
that of an intent record or a slot; a byte of any other area, a status or directory entry among them, gives the shelf, and
their bytes of no field count too (log entry 20). -/
def Obligations.WindowWriteDiscarded : Prop :=
  (∀ (tx : SpiBytes) (s : State) (a : Nat) (cause : DiscardCause) (rest : List (Nat × DiscardCause)),
    s.takes .windowWrite tx → tx.ended = true →
    s.shelf.state ≠ .init → ¬(s.shelf.state = .quiescing ∧ s.allComplete = true) →
    discards s (windowCollected tx) = (a, cause) :: rest →
    (discards s (windowCollected tx)).length = (windowCollected tx).length →
    exec (.windowWrite tx) s = .next (setMiso (List.replicate (tx.bytes.length + 1) 0) (setPort .idle
      (submit (.discard (discardBay a) cause false a (min 65535 (windowCollected tx).length)) s))))
  ∧ (∀ (s : State) (l : List (Nat × Byte)), discards s l = l.filterMap (fun c => match s.landing c.1 c.2 with
    | .discarded cause => some (c.1, cause)
    | _ => none))
  ∧ (∀ b o, o < 64 → discardBay (intentAddr b o) = some b) ∧ (∀ b o, o < 48 → discardBay (outboxAddr b o) = some b)
  ∧ ∀ a, a < 0x100 ∨ 0x800 ≤ a → discardBay a = none

/-- What a window write transaction outside INIT hands on (R121, R131, R142, R172, R179). Its bytes are taken in seven
steps: those that land; one DISCARD record; the shelf commit; the snapshot request; the Tail write, with the bytes that were
not written as they stand; the bay commits; the hand-overs of slots, with what landed as the event began; and the event
then tests a quiesce for completion (log entry 21). So one byte hands a bay's Commit to its commit, the shelf record's
Commit to the shelf commit, SnapRequest to the snapshot request, a Tail byte to the Tail write and a slot's Status byte to
the hand-over. -/
def Obligations.WindowWriteHandsOver : Prop :=
  (∀ (hi lo v : Byte) (n : Nat) (s : State), s.takes .windowWrite ⟨[hi, lo, v], n, true⟩ → s.shelf.state ≠ .init →
    (∀ b, 256 * hi.toNat + lo.toNat = intentAddr b 2 →
      exec (.windowWrite ⟨[hi, lo, v], n, true⟩) s = .next (setMiso [0, 0, 0, 0] (setPort .idle
        (quiesceTest (commitBay b (setWindow (Memory.write s.window (intentAddr b 2) v) s))))))
    ∧ (256 * hi.toNat + lo.toNat = 0x0F →
      exec (.windowWrite ⟨[hi, lo, v], n, true⟩) s = .next (setMiso [0, 0, 0, 0] (setPort .idle
        (quiesceTest (commitShelf (setWindow (Memory.write s.window 0x0F v) s))))))
    ∧ (256 * hi.toNat + lo.toNat = 0x0E →
      exec (.windowWrite ⟨[hi, lo, v], n, true⟩) s = .next (setMiso [0, 0, 0, 0] (setPort .idle
        (quiesceTest (requestSnapshot
          (BitVec.ofNat 16 ((setWindow (Memory.write s.window 0x0E v) s).shelfWord 0x0C))
          ((setWindow (Memory.write s.window 0x0E v) s).shelfByte 0x0B == 1)
          (setWindow (Memory.write s.window 0x0E v) s))))))
    ∧ (256 * hi.toNat + lo.toNat = 0x48 →
      exec (.windowWrite ⟨[hi, lo, v], n, true⟩) s = .next (setMiso [0, 0, 0, 0] (setPort .idle
        (quiesceTest (writeTail (v.toNat + 256 * (BitVec.ofNat 8 (s.journal.tail / 256)).toNat)
          (if s.journal.tailWrap then 1 else 0) s)))))
    ∧ (∀ b, 256 * hi.toNat + lo.toNat = outboxAddr b 0 → v.toNat ≤ 1 → (s.bay b).dialogue.slotStatus ≠ .sending →
      exec (.windowWrite ⟨[hi, lo, v], n, true⟩) s = .next (setMiso [0, 0, 0, 0] (setPort .idle
        (quiesceTest (handOver b (v == 1) s))))))
  ∧ ∀ (tx : SpiBytes) (l : List (Nat × Byte)) (s s1 s2 s3 s4 s5 s6 s7 : State),
    s.takes .windowWrite tx → tx.ended = true → s.shelf.state ≠ .init → l = windowCollected tx → l ≠ [] →
    s1 = setWindow (Memory.writeAll s.window
      (l.filter (fun c => s.landing c.1 c.2 = .lands ∧ isSlotStatus c.1 = false))) s →
    s2 = (match discards s l with
      | (a, cause) :: _ => submit (.discard (discardBay a) cause (l.any (fun c => isCommit c.1)) a
        (min 65535 (discards s l).length)) s1
      | [] => s1) →
    s3 = (if (writtenAt l 0x0F).isSome then commitShelf s2 else s2) →
    s4 = (if (writtenAt l 0x0E).isSome then
        requestSnapshot (BitVec.ofNat 16 (s3.shelfWord 0x0C)) (s3.shelfByte 0x0B == 1) s3 else s3) →
    s5 = (if (writtenAt l 0x48).isSome ∨ (writtenAt l 0x49).isSome ∨ (writtenAt l 0x4A).isSome then
        writeTail (((writtenAt l 0x48).getD (BitVec.ofNat 8 s4.journal.tail)).toNat
            + 256 * ((writtenAt l 0x49).getD (BitVec.ofNat 8 (s4.journal.tail / 256))).toNat)
          ((writtenAt l 0x4A).getD (if s4.journal.tailWrap then 1 else 0)).toNat s4
      else s4) →
    s6 = (List.finRange 16).foldl (fun t b => if (writtenAt l (intentAddr b 2)).isSome then commitBay b t else t) s5 →
    s7 = (List.finRange 16).foldl (fun t b => match writtenAt l (outboxAddr b 0) with
      | some v => if v.toNat ≤ 1 ∧ (s.bay b).dialogue.slotStatus ≠ .sending then handOver b (v == 1) t else t
      | none => t) s6 →
    exec (.windowWrite tx) s
      = .next (setMiso (List.replicate (tx.bytes.length + 1) 0) (setPort .idle (quiesceTest s7)))

/-- The protection map by area; bytes that belong to no field are dropped, but those of the status table, the directory and
the ring are protected whole (R121, R130, R132, R133; log entry 20). -/
def Obligations.ProtectionMap : Prop :=
  ∀ (s : State) (v : Byte),
    (∀ b o, 4 ≤ o → o ≤ 0x12 → s.landing (intentAddr b o) v
      = if s.stateOf b ∈ [.queued, .ramp, .settle, .on, .drain, .cutoff] then .discarded .locked else .lands)
    ∧ (∀ b, s.landing (intentAddr b 0) v = .lands ∧ s.landing (intentAddr b 1) v = .lands
      ∧ s.landing (intentAddr b 2) v = .lands ∧ s.landing (intentAddr b 3) v = .discarded .partOwned)
    ∧ (∀ b o, 0x13 ≤ o → o < 64 → s.landing (intentAddr b o) v = .dropped)
    ∧ (∀ b o, o ≤ 0x21 → s.landing (outboxAddr b o) v
      = if (s.bay b).dialogue.slotStatus = .sending then .discarded .sending
        else if o = 0 ∧ 1 < v.toNat then .discarded .statusValue else .lands)
    ∧ (∀ b o, 0x22 ≤ o → o < 48 → s.landing (outboxAddr b o) v
      = if (s.bay b).dialogue.slotStatus = .sending then .discarded .sending else .dropped)
    ∧ (∀ o, o ≤ 0x0F → s.landing o v = .lands)
    ∧ (∀ o, (0x10 ≤ o ∧ o ≤ 0x18) ∨ o = 0x1A ∨ o = 0x1B → s.landing o v = .discarded .partOwned)
    ∧ (∀ o, o = 0x19 ∨ (0x1C ≤ o ∧ o < 0x40) → s.landing o v = .dropped)
    ∧ (∀ a, 0x40 ≤ a → a ≤ 0x47 → s.landing a v = .discarded .partOwned)
    ∧ (∀ a, 0x48 ≤ a → a ≤ 0x4A → s.landing a v = .heldBack)
    ∧ (∀ a, (0x60 ≤ a ∧ a < 0xE0) ∨ (0x800 ≤ a ∧ a < 0xA00) ∨ (0x1000 ≤ a ∧ a < 0x2000) →
      s.landing a v = .discarded .partOwned)
    ∧ (∀ a, (0x4B ≤ a ∧ a < 0x60) ∨ (0xE0 ≤ a ∧ a < 0x100) ∨ (0xA00 ≤ a ∧ a < 0x1000) → s.landing a v = .dropped)

/-- The validation of both records: the tests in their order, and the first that fails gives the reason, the field and
the value of the refusal (R136, R140). A field is read at its offset in its record, 16 bits with the low byte first
(R192). -/
def Obligations.CommitValidation : Prop :=
  (∀ (s : State) (b : BayId) (o : Nat), s.intentByte b o = (Memory.read s.window (intentAddr b o)).toNat
    ∧ s.intentWord b o = s.intentByte b o + 256 * s.intentByte b (o + 1)
    ∧ s.shelfByte o = (Memory.read s.window o).toNat ∧ s.shelfWord o = s.shelfByte o + 256 * s.shelfByte (o + 1))
  ∧ (∀ (s : State) (b : BayId), firstFailure (bayTests s b)
    = if s.intentByte b 2 = 0 then some ⟨.zero, 2, 0⟩
      else if 2 < s.intentByte b 0 then some ⟨.enum, 0, s.intentByte b 0⟩
      else if 3 < s.intentByte b 1 then some ⟨.enum, 1, s.intentByte b 1⟩
      else if 3 < s.intentByte b 4 then some ⟨.range, 4, s.intentByte b 4⟩
      else if 1 < s.intentByte b 5 then some ⟨.range, 5, s.intentByte b 5⟩
      else if 1 < s.intentByte b 6 then some ⟨.range, 6, s.intentByte b 6⟩
      else if s.intentWord b 0x0A < 1 ∨ 2000 < s.intentWord b 0x0A then some ⟨.range, 0x0A, s.intentWord b 0x0A⟩
      else if 2000 < s.intentWord b 0x0C then some ⟨.range, 0x0C, s.intentWord b 0x0C⟩
      else if s.intentWord b 0x0E < 1 ∨ 2000 < s.intentWord b 0x0E then some ⟨.range, 0x0E, s.intentWord b 0x0E⟩
      else if s.intentByte b 0x12 = 0 then some ⟨.range, 0x12, 0⟩
      else if 7 < s.intentByte b 7 then some ⟨.range, 7, s.intentByte b 7⟩
      else if s.intentWord b 8 = 0 ∧ s.intentByte b 0 = 1 then some ⟨.capZero, 8, 0⟩
      else none)
  ∧ (∀ s : State, firstFailure (shelfTests s)
    = if s.shelfByte 0x0F = 0 then some ⟨.zero, 0x0F, 0⟩
      else if 2 < s.shelfByte 0 then some ⟨.enum, 0, s.shelfByte 0⟩
      else if s.shelfByte 1 = 0 then some ⟨.range, 1, 0⟩
      else if s.shelfByte 9 < 2 then some ⟨.range, 9, s.shelfByte 9⟩
      else if 1 < s.shelfByte 0x0A then some ⟨.range, 0x0A, s.shelfByte 0x0A⟩
      else if s.shelfWord 2 < s.shelfWord 4 then some ⟨.budgetOrder, 4, s.shelfWord 4⟩
      else if s.shelfWord 2 < s.shelfWord 6 then some ⟨.budgetOrder, 6, s.shelfWord 6⟩
      else if s.shelf.state = .quiescing ∧ s.shelfByte 0 ≠ s.shelf.context.mode.code then
        some ⟨.modeLocked, 0, s.shelfByte 0⟩
      else none)

/-- A refused commit rewrites the record's manager-written fields from the context, keeps the Commit byte and the
context, and submits its REFUSED record (R139, R140). The bytes are those of R192's tables. -/
def Obligations.CommitRefused : Prop :=
  ∀ (s : State) (f : CommitFailure), s.windowOk →
    (∀ b, firstFailure (bayTests s b) = some f → ∃ m,
      commitBay b s = submit (.refused (some b) .intent f.reason f.field (s.intentByte b 2) f.value) (setWindow m s)
      ∧ (∀ i, i < 2 → Memory.read m (intentAddr b i) = (s.intentOf b).unlockedBytes.getD i 0)
      ∧ (∀ i, i < 15 → Memory.read m (intentAddr b (4 + i)) = (s.intentOf b).lockedBytes.getD i 0)
      ∧ ∀ a, (a < intentAddr b 0 ∨ intentAddr b 2 ≤ a) → (a < intentAddr b 4 ∨ intentAddr b 0x13 ≤ a) →
        Memory.read m a = Memory.read s.window a)
    ∧ (firstFailure (shelfTests s) = some f → ∃ m,
      commitShelf s = submit (.refused none .shelf f.reason f.field (s.shelfByte 0x0F) f.value) (setWindow m s)
      ∧ (∀ i, i < 11 → Memory.read m i = s.shelf.context.bytes.getD i 0)
      ∧ ∀ a, 11 ≤ a → Memory.read m a = Memory.read s.window a)
    ∧ (∀ i : Intent, i.unlockedBytes = [BitVec.ofNat 8 i.target.code, BitVec.ofNat 8 i.lamp.code]
      ∧ i.lockedBytes = [BitVec.ofNat 8 i.priority, if i.blind then 1 else 0, if i.latchSensed then 1 else 0,
          BitVec.ofNat 8 i.retryLimit] ++ le16 i.cap ++ le16 i.rampWindow ++ le16 i.settleDelay ++ le16 i.dischargeWindow
        ++ [BitVec.ofNat 8 i.drainWait, BitVec.ofNat 8 i.restInterval, BitVec.ofNat 8 i.faultFilter])
    ∧ (∀ c : ShelfContext, c.bytes = [BitVec.ofNat 8 c.mode.code, BitVec.ofNat 8 c.quiesceDeadline] ++ le16 c.budget
      ++ le16 c.reserve ++ le16 c.lowBudget
      ++ [BitVec.ofNat 8 c.holdoff, BitVec.ofNat 8 c.blinkHalfPeriod, if c.wakeEnable then 1 else 0])
    ∧ (∀ n, le16 n = [BitVec.ofNat 8 n, BitVec.ofNat 8 (n / 256)])
    ∧ [Target.off, .on, .cut].map Target.code = [0, 1, 2]
    ∧ [LampMode.auto, .off, .on, .blink].map LampMode.code = [0, 1, 2, 3]
    ∧ [Mode.hold, .run, .quiesce].map Mode.code = [0, 1, 2]

/-- An accepted bay commit (R114, R118, R137). The context takes the whole record, each field from its offset (R192, R130),
Applied the Commit value, and the Trouble hold is cleared; a changed FaultFilter caps FltTicks and sets FltLevel afresh, and
a level that so becomes active is a confirmed fault (R67); a changed Cap cuts a known demand and places LIMIT; then the
Target is taken, of which TargetTaken tells, and the head of the queue is evaluated (R42). A bay without an entry in the
queue is untouched. -/
def Obligations.BayCommitAccepted : Prop :=
  (∀ (s : State) (b : BayId) (byte word : Nat → Nat),
    (∀ o, byte o = (Memory.read s.window (0x100 + 64 * b.val + o)).toNat) → (∀ o, word o = byte o + 256 * byte (o + 1)) →
    s.windowIntent b = {
      target := if byte 0x00 = 1 then .on else if byte 0x00 = 2 then .cut else .off
      lamp := if byte 0x01 = 1 then .off else if byte 0x01 = 2 then .on else if byte 0x01 = 3 then .blink else .auto
      priority := byte 0x04, blind := decide (byte 0x05 = 1), latchSensed := decide (byte 0x06 = 1)
      retryLimit := byte 0x07, cap := word 0x08, rampWindow := word 0x0A, settleDelay := word 0x0C
      dischargeWindow := word 0x0E, drainWait := byte 0x10, restInterval := byte 0x11, faultFilter := byte 0x12 })
  ∧ ∀ (s : State) (b : BayId), firstFailure (bayTests s b) = none →
    (commitBay b s).intentOf b = s.windowIntent b
    ∧ ((commitBay b s).bay b).applied = Memory.read s.window (intentAddr b 2)
    ∧ ((commitBay b s).bay b).ctx.troubleHold = false
    ∧ ((commitBay b s).bay b).ctx.demand
      = (if (s.intentOf b).cap = (s.windowIntent b).cap then (s.bay b).ctx.demand
        else (s.bay b).ctx.demand.map (fun d => ⟨min (s.windowIntent b).cap d.ramp, min (s.windowIntent b).cap d.hold,
          d.clipped || decide ((s.windowIntent b).cap < d.ramp) || decide ((s.windowIntent b).cap < d.hold)⟩))
    ∧ (commitBay b s).shelf = s.shelf ∧ (commitBay b s).supply = s.supply
    ∧ (commitBay b s).pool.effectiveBudget = s.pool.effectiveBudget ∧ (commitBay b s).pending = s.pending
    ∧ (∀ c, c ≠ b → entriesOf s.queue c = [] → (commitBay b s).bay c = s.bay c)
    ∧ ∀ (old new : Intent) (u v w : State), old = s.intentOf b → new = s.windowIntent b →
      u = modBay b (fun y => { y with
        applied := Memory.read s.window (intentAddr b 2)
        ctx := { y.ctx with intent := new, troubleHold := false } }) s →
      v = (if old.faultFilter = new.faultFilter then u else
        (if (s.bay b).inputs.fltLevel = false ∧ (s.bay b).inputs.fltPin ∧ new.faultFilter ≤ (s.bay b).inputs.fltTicks then
          onFaultConfirmed b else id)
          (modBay b (fun y => { y with inputs := { y.inputs with
            fltTicks := min new.faultFilter y.inputs.fltTicks
            fltLevel := y.inputs.fltPin && decide (new.faultFilter ≤ y.inputs.fltTicks) } }) u)) →
      w = (if old.cap = new.cap then v else placeEntry b (.limit new.cap) (modBay b (fun y => { y with
        ctx := { y.ctx with demand := y.ctx.demand.map (fun d => ⟨min new.cap d.ramp, min new.cap d.hold,
          d.clipped || decide (new.cap < d.ramp) || decide (new.cap < d.hold)⟩) } }) v)) →
      commitBay b s = evaluateHead (takeTarget b w)

/-- What the committed Target does by bay state (R21): nothing where it is recorded alone; ON reconciles a bay in OFF; CUT
takes a powered bay or one in DRAIN to CUTOFF; OFF drains a bay in ON; OFF and CUT withdraw a QUEUED bay's Start, and clear
a fault with PG inactive, or ask for its clearing (R9, R26, R68). PowerDown tells of `enterCutoff` and `enterDrain`. -/
def Obligations.TargetTaken : Prop :=
  ∀ (s : State) (b : BayId),
    ((s.intentOf b).target = .on → s.stateOf b ≠ .off → takeTarget b s = s)
    ∧ ((s.intentOf b).target = .on → s.stateOf b = .off → takeTarget b s = reconcileOff b s)
    ∧ ((s.intentOf b).target ≠ .on → s.stateOf b ∈ [.empty, .off, .rest, .cutoff] → takeTarget b s = s)
    ∧ ((s.intentOf b).target = .off → s.stateOf b ∈ [.ramp, .settle, .drain] → takeTarget b s = s)
    ∧ ((s.intentOf b).target = .cut → s.stateOf b ∈ [.ramp, .settle, .on, .drain] →
      takeTarget b s = enterCutoff b .cut s)
    ∧ ((s.intentOf b).target = .off → s.stateOf b = .on → takeTarget b s = enterDrain b .target s)
    ∧ (∀ e, (s.intentOf b).target ≠ .on → s.stateOf b = .queued → queueEntryOf s.queue b = some e →
      takeTarget b s = submitAll
        [.admission b e.kind .withdrawn e.amount (queuePosition s.queue b) e.clipped s.pool.committed,
          .state b .queued .off (if (s.intentOf b).target = .cut then .cut else .target) false]
        (setQueue (queueWithout s.queue b) (modBay b (fun y => y.inState .off 0) s)))
    ∧ ((s.intentOf b).target ≠ .on → s.stateOf b = .faulted → (s.bay b).inputs.pgLevel = true →
      takeTarget b s = modBay b (fun y => { y with ctx := { y.ctx with clearRequested := true } }) s)
    ∧ ((s.intentOf b).target ≠ .on → s.stateOf b = .faulted → (s.bay b).inputs.pgLevel = false →
      takeTarget b s = restIfZero b (submitAll [.state b .faulted .rest .commit false]
        (modBay b (fun y => { (y.inState .rest ((s.intentOf b).restInterval * 10000)) with
          inputs := { y.inputs with fltTicks := 0, fltLevel := false } }) s)))

/-- An accepted shelf commit (R32, R33, R138, R166): the context takes the record, each field from its offset (R192, R128),
Applied the Commit value, and the pool its figures with the EffectiveBudget they give, which SupplyLowConfirmed tells of;
the head of the queue is evaluated; then the Mode moves the shelf. RUN reconciles all sixteen bays, whose Starts a budget
fall of the same commit may just have refused (log entry 41), and evaluates the head once (R39, R168); HOLD changes the
shelf state alone (R167); QUIESCE begins a quiesce, which QuiesceRuns tells of (R169). -/
def Obligations.ShelfCommitAccepted : Prop :=
  (∀ (s : State) (byte word : Nat → Nat), (∀ o, byte o = (Memory.read s.window o).toNat) →
    (∀ o, word o = byte o + 256 * byte (o + 1)) →
    s.windowContext = {
      mode := if byte 0x00 = 1 then .run else if byte 0x00 = 2 then .quiesce else .hold
      quiesceDeadline := byte 0x01, budget := word 0x02, reserve := word 0x04, lowBudget := word 0x06
      holdoff := byte 0x08, blinkHalfPeriod := byte 0x09, wakeEnable := decide (byte 0x0A = 1) })
  ∧ ∀ s : State, firstFailure (shelfTests s) = none →
    (commitShelf s).shelf.context = s.windowContext
    ∧ (commitShelf s).shelf.applied = Memory.read s.window 0x0F
    ∧ (commitShelf s).pool.budget = s.shelfWord 2 ∧ (commitShelf s).pool.reserve = s.shelfWord 4
    ∧ (commitShelf s).pool.lowBudget = s.shelfWord 6
    ∧ (commitShelf s).pool.effectiveBudget
      = (if s.pool.supplyLow then s.shelfWord 6 - s.shelfWord 4 else s.shelfWord 2 - s.shelfWord 4)
    ∧ (commitShelf s).shelf.blink = s.shelf.blink ∧ (commitShelf s).supply = s.supply
    ∧ (commitShelf s).pending = s.pending ∧ (commitShelf s).attnEnable = s.attnEnable
    ∧ (commitShelf s).shelf.state = (match s.shelf.state, s.windowContext.mode with
      | .held, .run => .run
      | .held, .quiesce => .quiescing
      | .run, .hold => .held
      | .run, .quiesce => .quiescing
      | .standby, .hold => .held
      | .standby, .run => .run
      | st, _ => st)
    ∧ ∀ (st : ShelfState) (m : Mode) (u : State), st = s.shelf.state → m = s.windowContext.mode →
      u = evaluateHead (recomputeBudget .commit { s with
        shelf := { s.shelf with context := s.windowContext, applied := Memory.read s.window 0x0F }
        pool := { s.pool with budget := s.shelfWord 2, reserve := s.shelfWord 4, lowBudget := s.shelfWord 6 } }) →
      (m = .run → st ∈ [.held, .standby] → commitShelf s
        = evaluateHead ((List.finRange 16).foldl (fun t b =>
          if t.stateOf b = .off then reconcileOff b t
          else if t.stateOf b = .on then
            (match drainAtOn t b with
              | some r => enterDrain b r t
              | none => t)
          else t) { u with shelf := { u.shelf with state := .run } }))
      ∧ (m = .hold → st ∈ [.run, .standby] → commitShelf s = { u with shelf := { u.shelf with state := .held } })
      ∧ (m = .quiesce → st ∈ [.held, .run] → commitShelf s = enterQuiescing u)
      ∧ ((m, st) ∉ [(.run, .held), (.run, .standby), (.hold, .run), (.hold, .standby), (.quiesce, .held), (.quiesce, .run)] →
        commitShelf s = u)

/-- A Tail write is taken when its candidate is a multiple of 8 up to 4088, with TailWrap 0 or 1, that does not pass
Head; else it sets BadTail alone. A candidate taken frees its distance, clears BadTail, and clears JOURNAL and stops the
HoldoffTimer at Unread 0; a waiting snapshot is then written where it fits (R142, R147, R156, R158). That JOURNAL goes by the
Unread that the Tail leaves, before the snapshot, is DEDUCED (log entry 22). -/
def Obligations.TailWriteTaken : Prop :=
  ∀ (offset wrap : Nat) (s : State), s.journal.positionsOk →
    (¬(offset % 8 = 0 ∧ offset ≤ 4088 ∧ wrap ≤ 1 ∧ (offset + 4096 * wrap + 8192
        - (s.journal.tail + if s.journal.tailWrap then 4096 else 0)) % 8192 ≤ s.journal.unread) →
      writeTail offset wrap s = { s with journal := { s.journal with badTail := true } })
    ∧ (∀ (n : Nat) (u : State), offset % 8 = 0 → offset ≤ 4088 → wrap ≤ 1 →
      (offset + 4096 * wrap + 8192 - (s.journal.tail + if s.journal.tailWrap then 4096 else 0)) % 8192 ≤ s.journal.unread →
      n = s.journal.unread - (offset + 4096 * wrap + 8192 - (s.journal.tail + if s.journal.tailWrap then 4096 else 0)) % 8192 →
      u = { s with
        journal := { s.journal with
          tail := offset, tailWrap := wrap == 1, badTail := false,
          holdoffTimer := if n = 0 then none else s.journal.holdoffTimer },
        attnPending := { s.attnPending with journal := s.attnPending.journal && n != 0 } } →
      u.journal.unread = n
      ∧ (s.journal.waitingSnapshot = none → writeTail offset wrap s = u)
      ∧ (∀ p, s.journal.waitingSnapshot = some p →
        (u.journal.fits p.length = true → writeTail offset wrap s = appendSnapshot p u)
        ∧ (u.journal.fits p.length = false → writeTail offset wrap s = u)))

/-- A snapshot request is ignored while SnapStatus is PENDING; while it is IDLE it latches one entry for each selected bay
in ascending order, with the bay's fields as they stand, clears the selected bays' counters where SnapClear is set, and is
written at once where it fits, else waits; the phase timer reads in whole ms, rounded up (log entry 1). A SNAPSHOT record is
written with a GAP and a PAD as any other, with the Time of its latch; Head and Stamp advance past them, SnapStatus is IDLE
and SnapCount one more (R103, R155, R179 to R182). -/
def Obligations.SnapshotTaken : Prop :=
  ∀ (s : State) (mask : BitVec 16) (clear : Bool),
    (s.shelf.snapStatus = .pending → requestSnapshot mask clear s = s)
    ∧ (s.snapshot mask).entries.map SnapEntry.bay = (List.finRange 16).filter (fun b => mask.getLsbD b.val)
    ∧ (s.shelf.snapStatus = .idle →
      (∀ b, ((requestSnapshot mask clear s).bay b) = { s.bay b with link := { (s.bay b).link with
        counters := if clear && mask.getLsbD b.val then ⟨0, 0, 0, 0⟩ else (s.bay b).link.counters,
        reported := if clear && mask.getLsbD b.val then ⟨false, false, false, false⟩ else (s.bay b).link.reported } })
      ∧ (s.journal.fits (s.snapshot mask).length = true →
        (requestSnapshot mask clear s).shelf = { s.shelf with snapCount := s.shelf.snapCount + 1 }
        ∧ (requestSnapshot mask clear s).journal.waitingSnapshot = none
        ∧ (requestSnapshot mask clear s).journal.lost = (if s.journal.overflow then 0 else s.journal.lost)
        ∧ ∃ u, requestSnapshot mask clear s = appendSnapshot (s.snapshot mask) u ∧ { u with bays := s.bays } = s)
      ∧ (s.journal.fits (s.snapshot mask).length = false →
        (requestSnapshot mask clear s).shelf = { s.shelf with snapStatus := .pending }
        ∧ (requestSnapshot mask clear s).journal = { s.journal with waitingSnapshot := some (s.snapshot mask) }
        ∧ (requestSnapshot mask clear s).window = s.window))
    ∧ (s.snapshot mask).time = s.journal.shelfTime
    ∧ (s.snapshot mask).length = 16 + 16 * (s.snapshot mask).entries.length
    ∧ (s.snapshot mask).body
      = [mask.extractLsb' 0 8, mask.extractLsb' 8 8, BitVec.ofNat 8 (s.snapshot mask).entries.length, 0, 0, 0, 0, 0]
        ++ ((List.finRange 16).filter (fun b => mask.getLsbD b.val)).flatMap (fun b =>
          [BitVec.ofNat 8 b.val, BitVec.ofNat 8 (s.stateOf b).code,
            BitVec.ofNat 8 ((s.bay b).link.linkState.code + 4 * (s.intentOf b).target.code),
            BitVec.ofNat 8 (queuePosition s.queue b)]
          ++ le16 (s.bay b).charge ++ le16 (((s.bay b).ctx.phaseTimer + 999) / 1000)
          ++ le16 (match queueEntryOf s.queue b with
            | some e => if e.kind = .raise then e.amount else 0
            | none => 0)
          ++ [0#3 ++ BitVec.ofBool (s.enOutput b) ++ BitVec.ofBool (s.bay b).inputs.pgLevel
              ++ BitVec.ofBool (s.bay b).inputs.fltLevel ++ BitVec.ofBool (s.bay b).inputs.latchConfirmed
              ++ BitVec.ofBool (s.bay b).inputs.presConfirmed,
            BitVec.ofNat 8 (s.bay b).inputs.faultCount, BitVec.ofNat 8 (s.bay b).link.counters.badCheck,
            BitVec.ofNat 8 (s.bay b).link.counters.dropped, BitVec.ofNat 8 (s.bay b).link.counters.duplicates,
            BitVec.ofNat 8 (s.bay b).link.counters.retries])
    ∧ (∀ (p : Snapshot) (j : Journal) (n : Nat), s.windowOk → j = s.journal → j.positionsOk → j.fits p.length = true →
      n = j.gapLength + j.padLength p.length + p.length →
      (appendSnapshot p s).shelf = { s.shelf with snapStatus := .idle, snapCount := s.shelf.snapCount + 1 }
      ∧ (appendSnapshot p s).journal.waitingSnapshot = none ∧ (appendSnapshot p s).journal.overflow = false
      ∧ (appendSnapshot p s).journal.lost = (if j.overflow then 0 else j.lost)
      ∧ (appendSnapshot p s).journal.unread = j.unread + n ∧ (appendSnapshot p s).journal.head = (j.head + n) % 4096
      ∧ (appendSnapshot p s).journal.stamp = j.stamp + 1 + (if j.overflow then 1 else 0)
        + (if j.padLength p.length = 0 then 0 else 1)
      ∧ (appendSnapshot p s).bays = s.bays ∧ (appendSnapshot p s).queue = s.queue ∧ (appendSnapshot p s).pool = s.pool
      ∧ Memory.readBytes (appendSnapshot p s).window (0x1000 + j.recordOffset p.length) p.length
        = recordBytes 12 255 ((appendSnapshot p s).journal.stamp - 1) p.time p.body p.length
      ∧ ∀ a, (∀ i, i < n → a ≠ 0x1000 + (j.head + i) % 4096) →
        Memory.read (appendSnapshot p s).window a = Memory.read s.window a)

/-- A post of a Length above 32 fails with a REFUSED record; else it is taken at once on a BOUND link with no PARCEL
listed or in flight, and waits as POSTED elsewhere; FREE takes a slot back. A take of a POSTED parcel, at a post or as the
link binds, reads the Length again: up to 32 the parcel is SENDING with PARCEL at the tail of the list, behind a LIMIT
listed before, and above 32 it fails with a REFUSED record (R121 to R124). -/
def Obligations.OutboxHandedOver : Prop :=
  ∀ (s : State) (b : BayId),
    ((s.bay b).dialogue.slotStatus ∈ [.free, .sent, .failed, .abandoned] →
      (32 < s.slotLength b → handOver b true s = submit (.refused (some b) .outbox .range 1 0 (s.slotLength b))
        (modBay b (fun y => { y with dialogue := { y.dialogue with slotStatus := .failed } }) s))
      ∧ (s.slotLength b ≤ 32 → ((s.bay b).link.linkState ≠ .bound ∨ txListed .parcel (s.bay b).link.txList = true
          ∨ inFlightIs .parcel (s.bay b).link = true) →
        handOver b true s = modBay b (fun y => { y with dialogue := { y.dialogue with slotStatus := .posted } }) s)
      ∧ (s.slotLength b ≤ 32 → (s.bay b).link.linkState = .bound →
        txListed .parcel (s.bay b).link.txList = false → inFlightIs .parcel (s.bay b).link = false →
        handOver b true s = modBay b (fun y => { y with
          dialogue := { y.dialogue with
            slotStatus := .sending, parcelCopy := some (s.slotPayload b (s.slotLength b)) },
          link := { y.link with txList := y.link.txList ++ [.parcel (s.slotPayload b (s.slotLength b))] } }) s))
    ∧ ((s.bay b).dialogue.slotStatus = .posted → handOver b true s = s)
    ∧ ((s.bay b).dialogue.slotStatus ≠ .sending →
      handOver b false s = modBay b (fun y => { y with dialogue := { y.dialogue with slotStatus := .free } }) s)
    ∧ ((s.bay b).dialogue.slotStatus = .posted → (s.bay b).link.linkState = .bound →
      txListed .parcel (s.bay b).link.txList = false → inFlightIs .parcel (s.bay b).link = false →
      (s.slotLength b ≤ 32 → takeParcel b s = modBay b (fun y => { y with
        dialogue := { y.dialogue with
          slotStatus := .sending, parcelCopy := some (s.slotPayload b (s.slotLength b)) },
        link := { y.link with txList := y.link.txList ++ [.parcel (s.slotPayload b (s.slotLength b))] } }) s)
      ∧ (32 < s.slotLength b → takeParcel b s = submit (.refused (some b) .outbox .range 1 0 (s.slotLength b))
        (modBay b (fun y => { y with dialogue := { y.dialogue with slotStatus := .failed } }) s)))
    ∧ ((s.bay b).dialogue.slotStatus ≠ .posted ∨ (s.bay b).link.linkState ≠ .bound
      ∨ txListed .parcel (s.bay b).link.txList = true ∨ inFlightIs .parcel (s.bay b).link = true → takeParcel b s = s)
    ∧ s.slotLength b = (Memory.read s.window (outboxAddr b 1)).toNat
    ∧ ∀ n, s.slotPayload b n = (List.range n).map (fun i => Memory.read s.window (outboxAddr b (2 + i)))

/-! ## Inputs -/

/-- An edge of a filtered input restarts its timer with the full period; an expiry with the input back at its confirmed
level stops the timer and hands nothing on (R61). -/
def Obligations.StableFilters : Prop :=
  ∀ (s : State) (level : Bool),
    (∀ b, exec (.stableFilterEdge (.pres b) level) s = .next (modBay b (fun y => { y with
      inputs := { y.inputs with presPin := level, presTimer := some 20000 } }) s))
    ∧ (∀ b, exec (.stableFilterEdge (.latch b) level) s = .next (modBay b (fun y => { y with
      inputs := { y.inputs with latchPin := level, latchTimer := some 20000 } }) s))
    ∧ exec (.stableFilterEdge .supplyLow level) s = .next { s with supply := ⟨level, some 10000, s.supply.confirmed⟩ }
    ∧ (∀ b, s.shelf.state ≠ .init → (s.bay b).inputs.presTimer = some 0 →
      (s.bay b).inputs.presPin = (s.bay b).inputs.presConfirmed →
      exec (.stablePeriodExpiryUnchanged (.pres b)) s = .next (modBay b (fun y => { y with
        inputs := { y.inputs with presTimer := none } }) s))
    ∧ (∀ b, s.shelf.state ≠ .init → (s.bay b).inputs.latchTimer = some 0 →
      (s.bay b).inputs.latchPin = (s.bay b).inputs.latchConfirmed →
      exec (.stablePeriodExpiryUnchanged (.latch b)) s = .next (modBay b (fun y => { y with
        inputs := { y.inputs with latchTimer := none } }) s))
    ∧ (s.supply.timer = some 0 → s.supply.pin = s.supply.confirmed →
      exec (.stablePeriodExpiryUnchanged .supplyLow) s = .next { s with supply := ⟨s.supply.pin, none, s.supply.confirmed⟩ })

/-- A confirmed presence: the link of a DETACHED bay becomes UNBOUND with PROBE listed, its counters and NextSequence
cleared; a bay in EMPTY enters OFF (Inserted) and is reconciled, one in REST stays (R7, R20, R23, R62, R98); in STANDBY it
wakes the shelf (R174). -/
def Obligations.PresenceConfirmed : Prop :=
  ∀ (s u : State) (b : BayId), s.shelf.state ≠ .init → (s.bay b).inputs.presTimer = some 0 →
    (s.bay b).inputs.presPin = true → (s.bay b).inputs.presConfirmed = false →
    (s.bay b).link.linkState = .detached →
    u = modBay b (fun y => { y with
      inputs := { y.inputs with presTimer := none, presConfirmed := true }
      link := { y.link with
        linkState := .unbound, counters := ⟨0, 0, 0, 0⟩, reported := ⟨false, false, false, false⟩, nextSequence := 0
        txList := if y.link.txList.any (fun e => e.slot == .probe) || inFlightIs .probe y.link then y.link.txList
          else y.link.txList ++ [.probe] } }) s →
    (s.stateOf b = .empty → exec (.presConfirmed b) s = .next (finish (wakeEvent b .presence (reconcileOff b
      (submitAll [.state b .empty .off .inserted false] (modBay b (Bay.inState .off 0) u))))))
    ∧ (s.stateOf b = .rest → exec (.presConfirmed b) s = .next (finish (wakeEvent b .presence u)))

/-- A confirmed absence. From any state but EMPTY and REST it removes the module: charge, queue entry, Pending and
TroubleHold go, the link is DETACHED, the parcel abandoned, and the bay enters EMPTY (Removed, a surprise from RAMP to
CUTOFF), with the LINK, PARCEL and STATE records in that order; a bay in EMPTY or REST stays, its link DETACHED in the same
way, and TroubleHold is cleared in REST (R24, R27, R97, R126, R127). The parcel is a POSTED one, with the Length in the window
and no attempt, or a SENDING one, with the Length of its copy and the attempts made in flight (log entries 18 and 39).
RxBuffer is emptied as the link goes DETACHED (the model's choice, log entry 53). -/
def Obligations.RemovalConfirmed : Prop :=
  (∀ (s : State) (b : BayId), s.parcelToAbandon b
    = if (s.bay b).dialogue.slotStatus = .posted then some ⟨(Memory.read s.window (outboxAddr b 1)).toNat, 0⟩
      else if (s.bay b).dialogue.slotStatus = .sending then
        some ⟨((s.bay b).dialogue.parcelCopy.getD []).length, (match (s.bay b).link.inFlight with
          | some m => if m.entry.slot ≠ .parcel then 0 else if m.phase = .awaitingResend then m.attempts - 1 else m.attempts
          | none => 0)⟩
      else none)
  ∧ ∀ (s : State) (b : BayId) (w : BayState) (gone : Bay → Bay) (records : List Record), s.shelf.state ≠ .init →
    (s.bay b).inputs.presTimer = some 0 →
    (s.bay b).inputs.presPin = false → (s.bay b).inputs.presConfirmed = true → s.stateOf b = w →
    (s.bay b).link.linkState ≠ .detached →
    gone = (fun y => { y with
      ctx := { y.ctx with demand := none }
      inputs := { y.inputs with presTimer := none, presConfirmed := false }
      link := { y.link with
        linkState := .detached, lineState := .idle, rxBuffer := [], pendingAck := none, txList := [],
        inFlight := none, filterValid := false, linkTimer := none, txFrame := none }
      dialogue := ⟨none, if y.dialogue.slotStatus ∈ [.posted, .sending] then .abandoned else y.dialogue.slotStatus,
        0, 0, 0, [0, 0, 0, 0, 0, 0, 0, 0]⟩ }) →
    records = [.link b .detached] ++ (match s.parcelToAbandon b with
      | some o => [.parcel b .abandoned .detached o.length o.attempts]
      | none => []) →
    (w ≠ .empty → w ≠ .rest → exec (.presConfirmed b) s = .next (finish (wakeEvent b .presence
      (setQueue (queueWithout s.queue b)
        (submitAll (records ++ [.state b w .empty .removed (decide (w ∈ [.ramp, .settle, .on, .drain, .cutoff]))])
          (setCharge b 0 (modBay b (fun y => (({ gone y with
            ctx := { (gone y).ctx with state := .empty, phaseTimer := 0, pending := false, troubleHold := false }
            inputs := { (gone y).inputs with
              fltTicks := if w = .faulted then 0 else y.inputs.fltTicks,
              fltLevel := if w = .faulted then false else y.inputs.fltLevel } } : Bay).quiescedAs
              .absent s.shelf.state)) s)))))))
    ∧ (w = .empty → exec (.presConfirmed b) s
      = .next (finish (wakeEvent b .presence (submitAll records (modBay b gone s)))))
    ∧ (w = .rest → exec (.presConfirmed b) s
      = .next (finish (wakeEvent b .presence (submitAll records (modBay b (fun y =>
        { gone y with ctx := { (gone y).ctx with troubleHold := false } }) s)))))

/-- A confirmed change of LATCH: with LatchSensed 0 the level alone; with LatchSensed 1 a closing reconciles a bay in OFF,
and an opening drains a bay in ON, cuts one in RAMP or SETTLE, withdraws one in QUEUED, and leaves the others; in STANDBY it
wakes the shelf whatever LatchSensed holds (R22, R63, R174). -/
def Obligations.LatchConfirmed : Prop :=
  ∀ (s : State) (b : BayId), s.shelf.state ≠ .init → (s.bay b).inputs.latchTimer = some 0 →
    (s.bay b).inputs.latchPin ≠ (s.bay b).inputs.latchConfirmed →
    ((s.intentOf b).latchSensed = false ∨ ((s.bay b).inputs.latchPin = false
        ∧ s.stateOf b ∈ [.empty, .off, .rest, .drain, .cutoff, .faulted]) →
      exec (.latchConfirmed b) s = .next (finish (wakeEvent b .latch (modBay b (fun y => { y with
        inputs := { y.inputs with latchTimer := none, latchConfirmed := y.inputs.latchPin } }) s))))
    ∧ ((s.intentOf b).latchSensed = true → (s.bay b).inputs.latchPin = true →
      exec (.latchConfirmed b) s = .next (finish (wakeEvent b .latch (reconcileOff b (modBay b (fun y => { y with
        inputs := { y.inputs with latchTimer := none, latchConfirmed := true } }) s)))))
    ∧ ((s.intentOf b).latchSensed = true → (s.bay b).inputs.latchPin = false →
      (s.stateOf b = .on → exec (.latchConfirmed b) s = .next (finish (wakeEvent b .latch (enterDrain b .latchOpen
        (modBay b (fun y => { y with
          inputs := { y.inputs with latchTimer := none, latchConfirmed := false } }) s)))))
      ∧ (s.stateOf b ∈ [.ramp, .settle] → exec (.latchConfirmed b) s = .next (finish (wakeEvent b .latch
        (enterCutoff b .latchOpen (modBay b (fun y => { y with
          inputs := { y.inputs with latchTimer := none, latchConfirmed := false } }) s)))))
      ∧ (s.stateOf b = .queued →
        exec (.latchConfirmed b) s = .next (finish (wakeEvent b .latch (setQueue (queueWithout s.queue b)
          (submitAll (s.leaving b .withdrawn ++ [.state b .queued .off .latchOpen false])
            (modBay b (fun y => { (y.inState .off 0) with
              inputs := { y.inputs with latchTimer := none, latchConfirmed := false } }) s)))))))

/-- A confirmed change of SUPPLY_LOW: the pool's SupplyLow and STATUS take the level, and the EffectiveBudget is
recomputed (R33, R73), as it is at a shelf commit. One that stays writes no record; one that rises writes BUDGET; one
that falls is set before the shedding and refusals, and BUDGET is written after them with their numbers (R52, R55).
Shed are, from the states as the fall begins (log entry 37), as many bays as bring the powered sum within the budget and
no more: bays in ON first, then those in RAMP and SETTLE, each with a charge, by Priority from the highest number, and
within a class the latest AdmissionStamp first, as long as all stamps lie within half the counter's range (log entry 19)
(R28, R35, R53). Refused is then, in queue order and with the position it held, each entry that the budget cannot serve: a
Start's bay goes to OFF, a Raise's bay gets GRANT with its charge (R54). -/
def Obligations.SupplyLowConfirmed : Prop :=
  (∀ s u : State, s.supply.timer = some 0 → s.supply.pin ≠ s.supply.confirmed →
    u = { s with supply := ⟨s.supply.pin, none, s.supply.pin⟩, pool := { s.pool with supplyLow := s.supply.pin } } →
    (∃ t, exec .supplyLowConfirmed s = .next t ∧ t.supply = u.supply ∧ t.pool.supplyLow = s.supply.pin
      ∧ t.pool.effectiveBudget = derivedBudget u.pool)
    ∧ exec .supplyLowConfirmed s
      = .next (finish (recomputeBudget (if s.supply.pin then .supplyLow else .supplyRestored) u)))
  ∧ (∀ (cause : BudgetCause) (s u v w : State) (shed : List BayId) (refused : List (QueueEntry × Nat)),
    u = { s with pool := { s.pool with effectiveBudget := derivedBudget s.pool } } → shed = shedList u →
    v = shed.foldl (fun t b =>
      if t.stateOf b = .on then enterDrain b .shed t
      else if t.stateOf b ∈ [.ramp, .settle] then enterCutoff b .shed t else t) u →
    refused = (v.queue.filter (fun e => derivedBudget s.pool
        < e.amount + (if e.kind = .raise then (v.bay e.bay).charge else 0))).map
      (fun e => (e, queuePosition v.queue e.bay)) →
    w = refused.foldl (fun t r => refuseEntry r.1 r.2 t) v →
    (derivedBudget s.pool = s.pool.effectiveBudget → recomputeBudget cause s = s)
    ∧ (s.pool.effectiveBudget < derivedBudget s.pool → recomputeBudget cause s = submitAll
      [.budget s.pool.effectiveBudget (derivedBudget s.pool) cause 0 0 s.pool.committed] u)
    ∧ (derivedBudget s.pool < s.pool.effectiveBudget → recomputeBudget cause s = submitAll
      [.budget s.pool.effectiveBudget (derivedBudget s.pool) cause shed.length refused.length w.pool.committed] w))
  ∧ (∀ s : State, ∃ on rising rest : List BayId, shedList s ++ rest = on ++ rising ∧ (on ++ rising).Nodup
    ∧ (∀ b, b ∈ on ↔ s.stateOf b = .on ∧ (s.bay b).charge ≠ 0)
    ∧ (∀ b, b ∈ rising ↔ s.stateOf b ∈ [.ramp, .settle] ∧ (s.bay b).charge ≠ 0)
    ∧ (∀ l ∈ [on, rising], l.Pairwise (fun x y => (s.intentOf y).priority ≤ (s.intentOf x).priority)
      ∧ ((∀ b ∈ l, (s.pool.arrivalCounter - (s.bay b).ctx.admissionStamp).toNat < 2147483648) →
        l.Pairwise (fun x y => (s.intentOf y).priority = (s.intentOf x).priority →
          stampEarlier (s.bay y).ctx.admissionStamp y (s.bay x).ctx.admissionStamp x = true)))
    ∧ s.poweredSum = ((List.finRange 16).map (fun b =>
      if s.stateOf b ∈ [.ramp, .settle, .on] then (s.bay b).charge else 0)).sum
    ∧ s.poweredSum ≤ s.pool.effectiveBudget + ((shedList s).map (fun b => (s.bay b).charge)).sum
    ∧ ∀ l b, shedList s = l ++ [b] → s.pool.effectiveBudget + (l.map (fun b => (s.bay b).charge)).sum < s.poweredSum)
  ∧ (∀ p : Pool, derivedBudget p = if p.supplyLow then p.lowBudget - p.reserve else p.budget - p.reserve)
  ∧ ∀ (s : State) (e : QueueEntry) (n : Nat),
    (e.kind = .start → s.stateOf e.bay = .queued → refuseEntry e n s = submitAll
      [.admission e.bay .start .refused e.amount n e.clipped s.pool.committed, .state e.bay .queued .off .shed false]
      (setQueue (queueWithout s.queue e.bay) (modBay e.bay (Bay.inState .off 0) s)))
    ∧ (e.kind = .raise → refuseEntry e n s
      = placeEntry e.bay (.grant (s.bay e.bay).charge (s.bay e.bay).charge) (setQueue (queueWithout s.queue e.bay)
        (submitAll [.admission e.bay .raise .refused e.amount n e.clipped s.pool.committed] s)))

/-- FLT: an edge sets FltLevel from FltTicks, hands on nothing while it stays, and reconciles a bay in OFF as it falls; the
tick that brings the count to the threshold, taken once it has come and not before (log entry 31), or an assertion that
finds it there, is a confirmed fault, which latches a bay in RAMP, SETTLE, ON or DRAIN with FAULT raised (R72), withdrawing
the Raise of one in ON, withdraws one in QUEUED, and leaves those without power (R9, R25, R41, R65, R66). The threshold is
FaultFilter, with 0 taken as 1 (R60). The Raise's ADMIT record follows the STATE record (log entry 13). -/
def Obligations.FaultFilter : Prop :=
  ∀ (s : State) (b : BayId),
    (∀ x, (x && (s.bay b).inputs.fltTicks == faultThreshold (s.intentOf b)) = (s.bay b).inputs.fltLevel →
      exec (.fltEdge b x) s = .next (finish (modBay b (fun y => { y with
        inputs := { y.inputs with fltPin := x, fltTickDue := x && y.inputs.fltTickDue } }) s)))
    ∧ ((s.bay b).inputs.fltLevel = true →
      exec (.fltEdge b false) s = .next (finish (reconcileOff b (modBay b (fun y => { y with
        inputs := { y.inputs with fltPin := false, fltLevel := false, fltTickDue := false } }) s))))
    ∧ (∀ i n due, (i = .fltEdge b true ∧ (s.bay b).inputs.fltTicks = faultThreshold (s.intentOf b)
        ∧ (s.bay b).inputs.fltLevel = false ∧ n = faultThreshold (s.intentOf b) ∧ due = (s.bay b).inputs.fltTickDue)
      ∨ (i = .faultConfirmed b ∧ s.shelf.state ≠ .init ∧ (s.bay b).inputs.fltPin = true
        ∧ (s.bay b).inputs.fltTickDue = true ∧ (s.bay b).inputs.fltTicks + 1 = faultThreshold (s.intentOf b)
        ∧ n = faultThreshold (s.intentOf b) ∧ due = false) →
      exec i s = .next (finish (onFaultConfirmed b (modBay b (fun y => { y with
        inputs := { y.inputs with fltPin := true, fltTicks := n, fltLevel := true, fltTickDue := due } }) s))))
    ∧ ((s.bay b).inputs.fltTickDue = false → exec (.faultConfirmed b) s = .next s)
    ∧ (s.stateOf b ∈ [.empty, .off, .rest, .cutoff, .faulted] → onFaultConfirmed b s = s)
    ∧ (∀ w, s.stateOf b = w → w ∈ [.ramp, .settle, .on, .drain] → onFaultConfirmed b s
      = (if w = .on then setQueue (queueWithout s.queue b) else id)
        (submitAll (.state b w .faulted .switchFault false :: if w = .on then s.leaving b .withdrawn else [])
          ((if (s.bay b).inputs.pgLevel then id else setCharge b 0) (modAttn (fun c => { c with fault := true }) (modBay b (fun y =>
            y.latched.quiescedAs .faulted s.shelf.state) s)))))
    ∧ (s.stateOf b = .queued → onFaultConfirmed b s = setQueue (queueWithout s.queue b)
        (submitAll (s.leaving b .withdrawn ++ [.state b .queued .off .preconditionLost false])
          (modBay b (Bay.inState .off 0) s)))
    ∧ faultThreshold (s.intentOf b) = if (s.intentOf b).faultFilter = 0 then 1 else (s.intentOf b).faultFilter

/-- PG rises: a bay in RAMP enters SETTLE, its Pending kept (log entry 12), and goes on to ON where its SettleDelay is 0;
elsewhere the level alone changes (R11, R12, R69). -/
def Obligations.PowerGoodRises : Prop :=
  ∀ (s : State) (b : BayId), (s.bay b).inputs.pgLevel = false →
    (s.stateOf b ≠ .ramp → exec (.pgBecomesActive b) s = .next (finish (modBay b (fun y => { y with
      inputs := { y.inputs with pgLevel := true } }) s)))
    ∧ (s.stateOf b = .ramp → exec (.pgBecomesActive b) s = .next (finish
      ((if (s.intentOf b).settleDelay = 0 then enterOn b else id)
        (submitAll [.state b .ramp .settle .powerGood false] (modBay b (fun y =>
          { (y.inState .settle ((s.intentOf b).settleDelay * 1000)) with inputs := { y.inputs with pgLevel := true } }) s)))))

/-- PG falls: a bay in SETTLE, ON or DRAIN is latched off with its charge released and FAULT raised (R72), and the Raise of
one in ON withdrawn, its ADMIT record after the STATE record (log entry 13); one in CUTOFF enters REST with its charge
released; one in FAULTED loses its stuck charge, and enters REST where its clearing waits; elsewhere the level alone changes
(R14, R16 to R18, R25, R26, R41, R48, R69). -/
def Obligations.PowerGoodFalls : Prop :=
  ∀ (s : State) (b : BayId), (s.bay b).inputs.pgLevel = true →
    (s.stateOf b ∈ [.empty, .off, .rest, .queued, .ramp] →
      exec (.pgBecomesInactive b) s = .next (finish (modBay b (fun y => { y with
        inputs := { y.inputs with pgLevel := false } }) s)))
    ∧ (∀ w, s.stateOf b = w → w ∈ [.settle, .on, .drain] →
      exec (.pgBecomesInactive b) s = .next (finish ((if w = .on then setQueue (queueWithout s.queue b) else id)
        (submitAll (.state b w .faulted .powerLost false :: if w = .on then s.leaving b .withdrawn else [])
          (setCharge b 0 (modAttn (fun c => { c with fault := true }) (modBay b (fun y => { (y.latched.quiescedAs .faulted s.shelf.state) with
            inputs := { y.latched.inputs with pgLevel := false } }) s)))))))
    ∧ (s.stateOf b = .cutoff →
      exec (.pgBecomesInactive b) s = .next (finish (restIfZero b (submitAll [.state b .cutoff .rest .discharged false]
        (setCharge b 0 (modBay b (fun y => { (y.inState .rest ((s.intentOf b).restInterval * 10000)) with
          inputs := { y.inputs with pgLevel := false } }) s))))))
    ∧ (s.stateOf b = .faulted → (s.bay b).ctx.clearRequested = false →
      exec (.pgBecomesInactive b) s = .next (finish (setCharge b 0 (modBay b (fun y => { y with
        inputs := { y.inputs with pgLevel := false } }) s))))
    ∧ (s.stateOf b = .faulted → (s.bay b).ctx.clearRequested = true →
      exec (.pgBecomesInactive b) s = .next (finish (restIfZero b (submitAll [.state b .faulted .rest .commit false]
        (setCharge b 0 (modBay b (fun y => { (y.inState .rest ((s.intentOf b).restInterval * 10000)) with
          inputs := { y.inputs with pgLevel := false, fltTicks := 0, fltLevel := false } }) s))))))

/-! ## Timers -/

/-- The InitTimer expires: the shelf enters HELD, the blink timer starts Lit with 500 ms, the ring is cleared with the
rest where the clearing was whole, and every bay ends its rest period of 0 in EMPTY, since no PRES is confirmed in INIT,
or starts it, without joining the queue; the records come bay by bay: an owed PARCEL, STATE Reset, STATE RestDone (R20,
R30, R76, R127, R161, R164, R165). Outside those records, of which JournalSubmission tells, the ring reads 0. -/
def Obligations.InitEnds : Prop :=
  ∀ (s : State) (records : List Record), s.shelf.state = .init → s.shelf.initTimer = some 0 →
    (∀ b, s.stateOf b = .rest ∧ (s.bay b).inputs.presConfirmed = false) →
    records = (List.finRange 16).flatMap (fun b =>
      (match (s.bay b).owedParcel with
        | some o => [.parcel b .abandoned .reset o.length o.attempts]
        | none => [])
      ++ [.state b (s.bay b).resetOldState .rest .reset false]
      ++ (if (s.bay b).ctx.phaseTimer = 0 then [.state b .rest .empty .restDone false] else [])) →
    ∃ t m, exec .initTimerExpiry s = .next t
      ∧ (∀ a, Memory.read m a = if s.shelf.clearScope = .partOwned ∧ a < 0x1000 then Memory.read s.window a else 0)
      ∧ { t with bays := s.bays } = submitAll records { s with
          shelf := { s.shelf with state := .held, initTimer := none, blink := ⟨true, 500, some 500000, false⟩ }
          window := m }
      ∧ (∀ b, t.bay b = { s.bay b with
          ctx := { (s.bay b).ctx with state := if (s.bay b).ctx.phaseTimer = 0 then .empty else .rest }
          owedParcel := none })
      ∧ ∀ a, a < 0x1000 → Memory.read t.window a = Memory.read m a

/-- RAMP expires without PG, or CUTOFF with PG: the bay is latched off, with NoPowerGood and its charge released, or with
Stuck and its charge kept; its fault count rises and FAULT is raised (R11, R18, R25, R70, R72). -/
def Obligations.FaultedByTimer : Prop :=
  ∀ (s : State) (b : BayId), (s.bay b).ctx.phaseTimer = 0 →
    (s.stateOf b = .ramp → (s.bay b).inputs.pgLevel = false →
      exec (.rampExpiry b) s = .next (finish (submitAll [.state b .ramp .faulted .noPowerGood false]
        (setCharge b 0 (modAttn (fun c => { c with fault := true }) (modBay b (fun y => y.latched.quiescedAs .faulted s.shelf.state) s))))))
    ∧ (s.stateOf b = .cutoff → (s.bay b).inputs.pgLevel = true →
      exec (.dischargeExpiry b) s = .next (finish (submitAll [.state b .cutoff .faulted .stuck false]
        (modAttn (fun c => { c with fault := true }) (modBay b (fun y => y.latched.quiescedAs .faulted s.shelf.state) s)))))

/-- SETTLE expires: the bay enters ON with its charge at GrantedHold, or as its pending demand resolves: at the pending Hold
with GRANT where the link is BOUND, or at GrantedHold with a raise asked for; where it must drain, the charge is the lower
of the two, or GrantedHold where no demand is pending, and the bay drains in the event, for the first reason that holds
(R12, R13, R47, R91). The STATE record into ON comes before the ADMIT record of the raise (log entry 49). `enterOn` is the
expiry but for the end of the event; the bay keeps its SETTLE charge for a DEMAND of the same moment (log entry 44). For a bay
that stays in ON, a DEMAND and the expiry end alike in whichever order they are taken. A HoldFigure at or below the SETTLE
charge becomes the charge, with no Raise and with GRANT, while Committed is within the EffectiveBudget, in HELD, and in the
other shelf states where no entry waits that could be given the power in between. A higher one, in HELD and with no older
demand pending, leaves the bay at its GrantedHold, with a Raise for the difference and WAIT (R112, log entry 44). -/
def Obligations.SettleEnds : Prop :=
  ∀ (s : State) (b : BayId), s.stateOf b = .settle → (s.bay b).ctx.phaseTimer = 0 →
    exec (.settleExpiry b) s = .next (finish (enterOn b s))
    ∧ ((s.bay b).ctx.pending = false → drainAtOn s b = none →
      exec (.settleExpiry b) s = .next (finish (submitAll [.state b .settle .on .settled false]
        (setCharge b (s.bay b).grantedHold (modBay b Bay.settled s)))))
    ∧ (∀ d, (s.bay b).ctx.pending = true → (s.bay b).ctx.demand = some d → drainAtOn s b = none →
      d.hold ≤ (s.bay b).charge → (s.bay b).link.linkState = .bound →
      exec (.settleExpiry b) s = .next (finish (submitAll [.state b .settle .on .settled false]
        (setCharge b d.hold (modBay b (fun y => { y.settled.withPending false with
          link := { y.link with txList := txPlace (.grant d.hold d.hold) y.link.txList } }) s)))))
    ∧ (∀ d, (s.bay b).ctx.pending = true → (s.bay b).ctx.demand = some d → drainAtOn s b = none →
      d.hold ≤ (s.bay b).charge → (s.bay b).link.linkState ≠ .bound →
      exec (.settleExpiry b) s = .next (finish (submitAll [.state b .settle .on .settled false]
        (setCharge b d.hold (modBay b (fun y => y.settled.withPending false) s)))))
    ∧ (∀ d, (s.bay b).ctx.pending = true → (s.bay b).ctx.demand = some d → drainAtOn s b = none →
      (s.bay b).charge < d.hold →
      exec (.settleExpiry b) s = .next (finish (modBay b (Bay.withPending false) (requestRaise b d.hold d.clipped
        (submitAll [.state b .settle .on .settled false]
          (setCharge b (s.bay b).grantedHold (modBay b Bay.settled s)))))))
    ∧ (∀ r, (s.bay b).ctx.pending = false → drainAtOn s b = some r →
      exec (.settleExpiry b) s = .next (finish (enterDrain b r (submitAll [.state b .settle .on .settled false]
        (setCharge b (s.bay b).grantedHold (modBay b Bay.settled s))))))
    ∧ (∀ d r, (s.bay b).ctx.pending = true → (s.bay b).ctx.demand = some d → drainAtOn s b = some r →
      exec (.settleExpiry b) s = .next (finish (enterDrain b r (submitAll [.state b .settle .on .settled false]
        (setCharge b (min d.hold (s.bay b).grantedHold) (modBay b (fun y => y.settled.withPending false) s))))))
    ∧ (∀ (seq : Sequence) (b0 b1 b2 b3 : Byte) (hold : Nat) (q : List Instr), drainAtOn s b = none →
      entriesOf s.queue b = [] → s.canHear b → s.isNew b seq → (s.bay b).link.linkState = .bound →
      hold = min (s.intentOf b).cap (b2.toNat + 256 * b3.toNat) →
      ∀ commands ∈ [[Instr.settleExpiry b, .demand b seq [b0, b1, b2, b3]],
          [Instr.demand b seq [b0, b1, b2, b3], .settleExpiry b]],
        (s.shelf.state = .held ∨ s.queue = [] → (s.bay b).charge ≤ s.pool.committed →
          s.pool.committed ≤ s.pool.effectiveBudget → hold ≤ (s.bay b).charge →
          ∃ t u, step (s.withPending (commands ++ q)) = .next t ∧ step t = .next u ∧ u.pending = q
            ∧ u.stateOf b = .on ∧ (u.bay b).charge = hold ∧ entriesOf u.queue b = []
            ∧ (TxEntry.grant hold hold) ∈ (u.bay b).link.txList)
        ∧ (s.shelf.state = .held → (s.bay b).ctx.pending = false → (s.bay b).grantedHold ≤ (s.bay b).charge →
          (s.bay b).charge < hold → hold ≤ s.pool.effectiveBudget →
          ∃ t u e, step (s.withPending (commands ++ q)) = .next t ∧ step t = .next u ∧ u.pending = q
            ∧ u.stateOf b = .on ∧ (u.bay b).charge = (s.bay b).grantedHold ∧ entriesOf u.queue b = [e]
            ∧ e.kind = .raise ∧ e.amount = hold - (s.bay b).grantedHold
            ∧ (TxEntry.wait (queuePosition u.queue b)) ∈ (u.bay b).link.txList))
    ∧ drainAtOn s b = (if (s.intentOf b).target ≠ .on then some .target
      else if (s.bay b).ctx.troubleHold then some .trouble
      else if s.shelf.state = .quiescing then some .quiesce else none)

/-- Powering down. A bay in ON drains with PREPARE on a BOUND link, and goes on to CUTOFF at once with a DrainWait of 0 or
without a BOUND link; DRAIN expires to CUTOFF; CUTOFF runs its DischargeWindow (1 or more, R136) while PG is active, and is
left for REST with the charge released where it is inactive; a Raise leaves the queue as its bay leaves ON, its ADMIT record
after the STATE record (log entry 13), Pending is cleared on leaving RAMP and SETTLE, and a quiesce takes its outcome from
the reason (R5, R15 to R17, R41, R120, R170). -/
def Obligations.PowerDown : Prop :=
  ∀ (s : State) (b : BayId),
    (s.stateOf b = .drain → (s.bay b).ctx.phaseTimer = 0 →
      exec (.drainExpiry b) s = .next (finish (enterCutoff b .drainExpired s)))
    ∧ (∀ (r : StateReason) (o : QuiesceOutcome) (w : BayState) (timer : Nat) (next : BayState → Nat → State),
      (r, o) ∈ [(StateReason.released, QuiesceOutcome.released), (.drainExpired, .expired), (.linkLost, .expired),
        (.quiesceDeadline, .cut), (.cut, .cut), (.trouble, .cut), (.latchOpen, .cut), (.shed, .cut)] →
      s.stateOf b = w → w ∈ [.ramp, .settle, .on, .drain] →
      next = (fun st n => (if w = .on then setQueue (queueWithout s.queue b) else id)
        (submitAll (.state b w .cutoff r false :: if w = .on then s.leaving b .withdrawn else [])
          (modBay b (fun y => ((y.inState st n).quiescedAs o s.shelf.state).withPending
            (if w = .ramp ∨ w = .settle then false else y.ctx.pending)) s))) →
      ((s.bay b).inputs.pgLevel = true → (s.intentOf b).dischargeWindow ≠ 0 →
        enterCutoff b r s = next .cutoff ((s.intentOf b).dischargeWindow * 1000))
      ∧ ((s.bay b).inputs.pgLevel = false → timer = (s.intentOf b).restInterval * 10000 →
        enterCutoff b r s
          = restIfZero b (submitAll [.state b .cutoff .rest .discharged false] (setCharge b 0 (next .rest timer)))))
    ∧ (∀ (r : DrainReason) (d : State), s.stateOf b = .on →
      d = setQueue (queueWithout s.queue b) (submitAll (.state b .on .drain r.toState false :: s.leaving b .withdrawn)
        (modBay b (Bay.inState .drain ((s.intentOf b).drainWait * 10000)) s)) →
      ((s.bay b).link.linkState ≠ .bound → enterDrain b r s = enterCutoff b .linkLost d)
      ∧ ((s.bay b).link.linkState = .bound → (s.intentOf b).drainWait ≠ 0 →
        enterDrain b r s = placeEntry b (.prepare (s.intentOf b).drainWait r) d)
      ∧ ((s.bay b).link.linkState = .bound → (s.intentOf b).drainWait = 0 →
        enterDrain b r s = enterCutoff b .drainExpired (placeEntry b (.prepare 0 r) d)))

/-- REST expires outside INIT, and a rest period of 0 in the event that entered REST: EMPTY with PRES confirmed inactive,
else OFF, reconciled in the same event (R3, R19, R20). RequestsToTheQueue tells of `reconcileOff`. -/
def Obligations.RestEnds : Prop :=
  ∀ (s : State) (b : BayId),
    (s.stateOf b = .rest → (s.bay b).ctx.phaseTimer = 0 → s.shelf.state ≠ .init →
      exec (.restExpiry b) s = .next (finish (endRest b s)))
    ∧ (s.stateOf b = .rest → (s.bay b).inputs.presConfirmed = false →
      endRest b s = submitAll [.state b .rest .empty .restDone false] (modBay b (Bay.inState .empty 0) s))
    ∧ (s.stateOf b = .rest → (s.bay b).inputs.presConfirmed = true → endRest b s
      = reconcileOff b (submitAll [.state b .rest .off .restDone false] (modBay b (Bay.inState .off 0) s)))
    ∧ restIfZero b s = if (s.bay b).ctx.phaseTimer = 0 then endRest b s else s

/-- The quiesce deadline: every bay in RAMP, SETTLE, ON or DRAIN enters CUTOFF with the outcome Cut, its charge kept, or
released on to REST where PG is inactive (log entry 52); the bays in the other states stay, and the timer stops (R17, R29,
R170, R171). -/
def Obligations.QuiesceDeadline : Prop :=
  ∀ s : State, s.shelf.state = .quiescing → s.shelf.deadlineTimer = some 0 →
    ∃ t, exec .quiesceDeadlineExpiry s = .next t ∧ t.shelf.deadlineTimer = none
      ∧ (∀ b, s.stateOf b ∈ [.ramp, .settle, .on, .drain] → (s.bay b).inputs.pgLevel = true →
        (s.intentOf b).dischargeWindow ≠ 0 →
        t.stateOf b = .cutoff ∧ (t.bay b).ctx.phaseTimer = (s.intentOf b).dischargeWindow * 1000
        ∧ (t.bay b).charge = (s.bay b).charge ∧ (t.bay b).quiesceOutcome = .cut)
      ∧ (∀ b, s.stateOf b ∈ [.ramp, .settle, .on, .drain] → (s.bay b).inputs.pgLevel = false →
        t.stateOf b = (if (s.intentOf b).restInterval ≠ 0 then .rest else if (s.bay b).inputs.presConfirmed then .off
          else .empty)
        ∧ (t.bay b).ctx.phaseTimer = (s.intentOf b).restInterval * 10000 ∧ (t.bay b).charge = 0 ∧ (t.bay b).quiesceOutcome = .cut)
      ∧ (∀ b, s.stateOf b ∉ [.ramp, .settle, .on, .drain] → (t.bay b).ctx = (s.bay b).ctx
        ∧ (t.bay b).charge = (s.bay b).charge ∧ (t.bay b).link = (s.bay b).link)

/-- The HoldoffTimer sets JOURNAL and stops; the blink timer turns its phase and loads the committed half-period, 500 ms
before the first shelf commit; its midpoint is marked once half the length has passed. A lamp is dark in INIT and STANDBY;
else it goes by its committed field, and with AUTO by the bay state: a BLINK lamp is lit in phase Lit, a FLASH lamp until
the midpoint (R75 to R78, R157). -/
def Obligations.ShelfTimers : Prop :=
  ∀ s : State,
    (s.journal.holdoffTimer = some 0 → exec .holdoffTimerExpiry s = .next { s with
      journal := { s.journal with holdoffTimer := none }, attnPending := { s.attnPending with journal := true } })
    ∧ (s.shelf.blink.remaining = some 0 →
      exec .blinkHalfPeriodEnd s = .next { s with shelf := { s.shelf with
        blink := ⟨!s.shelf.blink.lit,
          if s.shelf.context.blinkHalfPeriod = 0 then 500 else s.shelf.context.blinkHalfPeriod * 10,
          some (if s.shelf.context.blinkHalfPeriod = 0 then 500000 else s.shelf.context.blinkHalfPeriod * 10000), false⟩ } })
    ∧ (∀ n, s.shelf.blink.remaining = some n → 2 * n ≤ s.shelf.blink.length * 1000 →
      exec .flashMidpoint s = .next { s with shelf := { s.shelf with
        blink := { s.shelf.blink with pastMidpoint := true } } })
    ∧ (∀ n, s.shelf.blink.remaining = some n → s.shelf.blink.length * 1000 < 2 * n → exec .flashMidpoint s = .next s)
    ∧ (∀ b, s.shelf.state ∈ [.init, .standby] → s.lampLit b = false)
    ∧ ∀ b, s.shelf.state ∈ [.held, .run, .quiescing] →
      ((s.intentOf b).lamp = .off → s.lampLit b = false) ∧ ((s.intentOf b).lamp = .on → s.lampLit b = true)
      ∧ ((s.intentOf b).lamp = .blink → s.lampLit b = s.shelf.blink.lit)
      ∧ ((s.intentOf b).lamp = .auto →
        (s.stateOf b ∈ [.empty, .off, .rest] → s.lampLit b = false)
        ∧ (s.stateOf b ∈ [.queued, .ramp, .settle, .drain, .cutoff] → s.lampLit b = s.shelf.blink.lit)
        ∧ (s.stateOf b = .on → s.lampLit b = true)
        ∧ (s.stateOf b = .faulted → s.lampLit b = !s.shelf.blink.pastMidpoint))

/-! ## The bay link -/

/-- The link's timers and collisions: the LinkTimer of a LOST link starts afresh and places PROBE unless one is listed or
in flight; a failed attempt with attempts left waits to be sent again; a collision on an ACK stops the driving alone (R89,
R94, R95, R101). The line counts as driven until it is high again (log entry 25). -/
def Obligations.LinkTimersAndCollisions : Prop :=
  ∀ (s : State) (b : BayId),
    ((s.bay b).link.linkState = .lost → (s.bay b).link.linkTimer = some 0 →
      exec (.linkTimerExpiry b) s = .next (modBay b (fun y => { y with link := { y.link with
        linkTimer := some 1000000
        txList := if y.link.txList.any (fun e => e.slot == .probe) || inFlightIs .probe y.link then y.link.txList
          else y.link.txList ++ [.probe] } }) s))
    ∧ (∀ m, (s.bay b).link.inFlight = some m → m.attempts ≤ (s.intentOf b).retryLimit →
      (m.ackTimer = some 0 → exec (.ackTimerExpiry b) s = .next (finish (modBay b (fun y => { y with
        link := { y.link with inFlight := some ⟨m.entry, m.sequence, m.attempts + 1, .awaitingResend, some 3000⟩ } }) s)))
      ∧ (m.phase = .sending → (s.bay b).link.lineState = .transmitting → (s.bay b).link.txFrame.isSome = true →
        exec (.collision b) s = .next (finish (modBay b (fun y => { y with link := { y.link with
          lineHigh := false, txFrame := none
          inFlight := some ⟨m.entry, m.sequence, m.attempts + 1, .awaitingResend, some 3000⟩ } }) s))))
    ∧ ((∀ m, (s.bay b).link.inFlight = some m → m.phase ≠ .sending) → (s.bay b).link.lineState = .transmitting →
      (s.bay b).link.txFrame.isSome = true →
      exec (.collision b) s = .next (modBay b (fun y => { y with
        link := { y.link with lineHigh := false, txFrame := none } }) s))

/-- A message whose attempts are used up, by the expiry of its AckTimer or by a collision: InFlight is absent and the list
flushed; outside LOST the link goes LOST with a LINK record and the LinkTimer, a bay in DRAIN enters CUTOFF and one in
QUEUED is withdrawn unless it is Blind; a PARCEL in flight ends FAILED, a listed one ABANDONED, with its record first (log
entry 17); a resend that never began counts among the attempts made (log entry 43; log entry 18 is of messages that end
otherwise) (R9, R16, R92, R95, R96, R101, R126). The Length of a record is that of the ParcelCopy. -/
def Obligations.MessageFails : Prop :=
  (∀ d : DialogueUnit, d.parcelLength = (d.parcelCopy.getD []).length)
  ∧ ∀ (s v : State) (b : BayId) (m : InFlight) (i : Instr), (s.bay b).link.inFlight = some m →
    (s.intentOf b).retryLimit < m.attempts →
    (i = .ackTimerExpiry b ∧ m.ackTimer = some 0 ∧ v = s)
      ∨ (i = .collision b ∧ m.phase = .sending ∧ (s.bay b).link.lineState = .transmitting
        ∧ (s.bay b).link.txFrame.isSome = true
        ∧ v = modBay b (fun y => { y with link := { y.link with lineHigh := false, txFrame := none } }) s) →
    ((s.bay b).link.linkState = .lost → m.entry.slot ≠ .parcel → txListed .parcel (s.bay b).link.txList = false →
      exec i s = .next (finish (modBay b (fun y => { y with
        link := { y.link with inFlight := none, txList := [] } }) v)))
    ∧ (∀ (records : List Record) (d : DialogueUnit) (u : State), (s.bay b).link.linkState ≠ .lost →
      ((m.entry.slot ≠ .parcel ∧ txListed .parcel (s.bay b).link.txList = false ∧ records = []
          ∧ d = (s.bay b).dialogue)
        ∨ (m.entry.slot = .parcel ∧ txListed .parcel (s.bay b).link.txList = false
          ∧ records = [.parcel b .failed .failed (s.bay b).dialogue.parcelLength m.attempts]
          ∧ d = { (s.bay b).dialogue with parcelCopy := none, slotStatus := .failed })
        ∨ (m.entry.slot ≠ .parcel ∧ txListed .parcel (s.bay b).link.txList = true
          ∧ records = [.parcel b .abandoned .linkLost (s.bay b).dialogue.parcelLength 0]
          ∧ d = { (s.bay b).dialogue with parcelCopy := none, slotStatus := .abandoned })) →
      u = submitAll (records ++ [.link b (.lost m.entry.kindCode m.attempts)]) (modBay b (fun y => { y with
        dialogue := d
        link := { y.link with
          linkState := .lost, inFlight := none, txList := [], filterValid := false, linkTimer := some 1000000 } }) v) →
      (s.stateOf b ≠ .drain → (s.stateOf b = .queued → (s.intentOf b).blind = true) → exec i s = .next (finish u))
      ∧ (s.stateOf b = .drain → exec i s = .next (finish (enterCutoff b .linkLost u)))
      ∧ (s.stateOf b = .queued → (s.intentOf b).blind = false →
        exec i s = .next (finish (setQueue (queueWithout s.queue b)
          (submitAll (s.leaving b .withdrawn ++ [.state b .queued .off .preconditionLost false])
            (modBay b (Bay.inState .off 0) u))))))

/-- What the part sends, once a line free for 150 µs lets it drive: the pending ACK ahead of any message, the front of the
list with the next Sequence, a message that waits again with its own; the end of a message starts the wait of 3000 µs
for its ACK, the end of an ACK forgets it. Nothing is sent on a line that is not free, and no message while an ACK is owed
(R81, R82, R89, R93, R94). Each message has its kind and payload (R192), its check is the register of R83 after the header
and payload bits, and while it is sent the line carries its half-bits, true for high: preamble, start delimiter, header,
payload, check with bit 15 first, end delimiter (R80, R82). -/
def Obligations.PartSends : Prop :=
  ∀ (s : State) (b : BayId),
    ((s.bay b).link.linkState ≠ .detached → (s.bay b).link.lineState = .idle → 150 ≤ (s.bay b).link.idleTime →
      (∀ e rest, (s.bay b).link.txList = e :: rest → (s.bay b).link.inFlight = none →
        (s.bay b).link.pendingAck = none →
        exec (.sendingStart b) s = .next (modBay b (fun y => { y with link := { y.link with
          lineState := .transmitting, idleTime := 0, txFrame := some (e.frame y.link.nextSequence)
          txList := rest, inFlight := some ⟨e, y.link.nextSequence, 1, .sending, none⟩
          nextSequence := y.link.nextSequence + 1 } }) s))
      ∧ (∀ m, (s.bay b).link.inFlight = some m → m.phase = .awaitingResend → (s.bay b).link.pendingAck = none →
        exec (.resendStart b) s = .next (countQuality b .retries (modBay b (fun y => { y with link := { y.link with
          lineState := .transmitting, idleTime := 0, txFrame := some (m.entry.frame m.sequence)
          inFlight := some { m with phase := .sending, ackTimer := none } } }) s)))
      ∧ (∀ seq, (s.bay b).link.pendingAck = some seq →
        exec (.ackSendStart b) s = .next (modBay b (fun y => { y with link := { y.link with
          lineState := .transmitting, idleTime := 0, txFrame := some (ackFrame seq) } }) s)))
    ∧ ((s.bay b).link.linkState = .detached ∨ (s.bay b).link.lineState ≠ .idle ∨ (s.bay b).link.idleTime < 150 →
      exec (.sendingStart b) s = .next s ∧ exec (.resendStart b) s = .next s ∧ exec (.ackSendStart b) s = .next s)
    ∧ ((s.bay b).link.pendingAck.isSome = true →
      exec (.sendingStart b) s = .next s ∧ exec (.resendStart b) s = .next s)
    ∧ ((s.bay b).link.lineState = .transmitting → (s.bay b).link.txFrame.isSome = true →
      (∀ m, (s.bay b).link.inFlight = some m → m.phase = .sending →
        exec (.messageFrameEnd b) s = .next (modBay b (fun y => { y with link := { y.link with
          lineState := .idle, lineHigh := true, idleTime := 0, txFrame := none
          inFlight := some { m with phase := .awaitingAck, ackTimer := some 3000 } } }) s))
      ∧ ((∀ m, (s.bay b).link.inFlight = some m → m.phase ≠ .sending) →
        exec (.ackFrameEnd b) s = .next (modBay b (fun y => { y with link := { y.link with
          lineState := .idle, lineHigh := true, idleTime := 0, txFrame := none, pendingAck := none } }) s)))
    ∧ (∀ (e : TxEntry) (seq : Sequence), e.payload.length ≤ 32 →
      (e.frame seq).header.toNat = e.kindCode + 16 * seq.toNat + 128 * e.payload.length
      ∧ (e.frame seq).payload = e.payload ∧ (ackFrame seq).header.toNat = 16 * seq.toNat
      ∧ (e.frame seq).check = frameCheck (e.frame seq).header e.payload ∧ (ackFrame seq).payload = []
      ∧ (ackFrame seq).check = frameCheck (ackFrame seq).header [])
    ∧ (∀ e : TxEntry, (e.kindCode, e.payload) = (match e with
      | .limit cap => (8, le16 cap)
      | .grant ramp hold => (9, le16 ramp ++ le16 hold)
      | .wait position => (10, [BitVec.ofNat 8 position])
      | .prepare n reason => (11, [BitVec.ofNat 8 n, match reason with
        | .target => 5
        | .latchOpen => 12
        | .shed => 18
        | .quiesce => 19
        | .trouble => 21])
      | .parcel payload => (12, payload)
      | .probe => (13, [])))
    ∧ (∀ (header : BitVec 16) (payload : List Byte), frameCheck header payload
      = ((List.range 16).map header.getLsbD ++ payload.flatMap (fun x => (List.range 8).map x.getLsbD)).foldl
        (fun (reg : BitVec 16) bit => if bit != reg.getLsbD 15 then reg <<< 1 ^^^ 0x1021 else reg <<< 1) 0xFFFF)
    ∧ s.linkDriven b = (match (s.bay b).link.txFrame with
      | some f => (List.replicate 8 [false, true, true, false]).flatten ++ [true, true, true, true]
        ++ ((List.range 16).map f.header.getLsbD ++ f.payload.flatMap (fun x => (List.range 8).map x.getLsbD)
          ++ ((List.range 16).map f.check.getLsbD).reverse).flatMap (fun bit => if bit then [true, false] else [false, true])
        ++ [false, false, false, false]
      | none => [])

/-- Receptions without a message: a falling edge begins one on an idle line; one that fails or ends abnormally leaves the
line Idle where it is high, else Discarding, until it has been high for three bit times; a frame with a bad check, an
invalid header or a Length above 32 is dropped; each dropped frame is counted, with a QUALITY record as its counter first
reaches 128, and the counters stop at 255 (R84 to R87, R95, R103). RxBuffer then is empty but for an oversize header (log
entry 40). The level of the line goes with its edges: an edge while DETACHED sets it and IdleTime alone, and a rise after a
collision, or on an idle line held low, starts IdleTime (R81, log entry 26). -/
def Obligations.ReceptionsWithoutMessage : Prop :=
  ∀ (s : State) (b : BayId) (high : Bool) (n : Nat),
    ((s.bay b).link.linkState = .detached → exec (.receptionBegins b) s = .next (modBay b (fun y => { y with
      link := { y.link with lineHigh := false, idleTime := 0 } }) s))
    ∧ ((s.bay b).link.linkState ≠ .detached → (s.bay b).link.lineState = .idle →
      exec (.receptionBegins b) s = .next (modBay b (fun y => { y with
        link := { y.link with lineState := .receiving, lineHigh := false, idleTime := 0 } }) s))
    ∧ ((s.bay b).link.lineState = .discarding → 24 < n →
      exec (.discardingEnd b n) s = .next (modBay b (fun y => { y with
        link := { y.link with lineState := .idle, lineHigh := true, idleTime := n } }) s))
    ∧ (n ≤ 24 → exec (.discardingEnd b n) s = .next s)
    ∧ (((s.bay b).link.lineState = .transmitting ∧ (s.bay b).link.txFrame = none)
        ∨ ((s.bay b).link.lineState = .idle ∧ (s.bay b).link.lineHigh = false) →
      exec (.lineHighAfterCollision b) s = .next (modBay b (fun y => { y with
        link := { y.link with lineState := .idle, lineHigh := true, idleTime := 0 } }) s))
    ∧ (s.canHear b →
      exec (.preambleFailed b high n) s = .next (modBay b (fun y => { y with link := { y.link with
        lineState := if high then .idle else .discarding
        lineHigh := high
        idleTime := if high then n else 0
        rxBuffer := [] } }) s)
      ∧ exec (.abnormalEnd b high n) s = .next (countQuality b .dropped (modBay b (fun y => { y with link := { y.link with
        lineState := if high then .idle else .discarding
        lineHigh := high
        idleTime := if high then n else 0
        rxBuffer := [] } }) s))
      ∧ (∀ header payload check, frameCheck header payload ≠ check →
        exec (.badCheckFrame b header payload check) s = .next (countQuality b .badCheck (modBay b (fun y => { y with
          link := { y.link with lineState := .idle, lineHigh := true, idleTime := 0, rxBuffer := [] } }) s)))
      ∧ (∀ (header : BitVec 16) payload, header.extractLsb' 13 3 ≠ 0 ∨ 5 < (header.extractLsb' 0 4).toNat
          ∨ (header.extractLsb' 0 4 = 0 ∧ header.extractLsb' 7 6 ≠ 0) →
        exec (.invalidFrame b header payload) s = .next (countQuality b .dropped (modBay b (fun y => { y with
          link := { y.link with lineState := .idle, lineHigh := true, idleTime := 0, rxBuffer := [] } }) s)))
      ∧ (∀ header : BitVec 16, 32 < (header.extractLsb' 7 6).toNat →
        exec (.oversizeFrame b header) s = .next (countQuality b .dropped (modBay b (fun y => { y with
          link := { y.link with
            lineState := .discarding, idleTime := 0
            rxBuffer := [header.extractLsb' 0 8, header.extractLsb' 8 8] } }) s))))
    ∧ (∀ k, (s.bay b).link.counters.get k + 1 ≠ 128 ∨ (s.bay b).link.reported.get k = true →
      countQuality b k s = modBay b (fun y => { y with
        link := { y.link with counters := y.link.counters.bump k } }) s)
    ∧ (∀ k, (s.bay b).link.counters.get k = 127 → (s.bay b).link.reported.get k = false →
      countQuality b k s = submitAll [.quality b k ((s.bay b).link.counters.bump k)] (modBay b (fun y => { y with
        link := { y.link with counters := y.link.counters.bump k, reported := y.link.reported.mark k } }) s))
    ∧ (∀ (c : QualityCounters) k j, (c.bump k).get j = if j = k then min 255 (c.get k + 1) else c.get j)
    ∧ (∀ (r : ReportedFlags) k j, (r.mark k).get j = if j = k then true else r.get j)
    ∧ (∀ c : QualityCounters, ⟨c.get .badCheck, c.get .dropped, c.get .duplicates, c.get .retries⟩ = c)
    ∧ (∀ r : ReportedFlags, ⟨r.get .badCheck, r.get .dropped, r.get .duplicates, r.get .retries⟩ = r)

/-- An ACK that carries the Sequence of a message that is not being sent completes it, and a PARCEL ends SENT with its
record and the attempts made (log entry 18); any other ACK ends its reception alone (R93, R126).
RxBuffer keeps the frame (log entry 40). -/
def Obligations.AckCompletes : Prop :=
  ∀ (s : State) (b : BayId) (seq : Sequence) (u : State), s.canHear b →
    u = modBay b (fun y => { y with link := { y.link with
      lineState := .idle, lineHigh := true, idleTime := 0, rxBuffer := frameBuffer 0 seq [] } }) s →
    ((∀ m, (s.bay b).link.inFlight = some m → m.sequence ≠ seq ∨ m.phase = .sending) →
      exec (.ack b seq) s = .next u)
    ∧ (∀ m, (s.bay b).link.inFlight = some m → m.sequence = seq → m.phase ≠ .sending →
      (m.entry.slot ≠ .parcel →
        exec (.ack b seq) s = .next (modBay b (fun y => { y with link := { y.link with inFlight := none } }) u))
      ∧ (m.entry.slot = .parcel →
        exec (.ack b seq) s = .next (submitAll
          [.parcel b .sent .acked (s.bay b).dialogue.parcelLength
            (if m.phase = .awaitingResend then m.attempts - 1 else m.attempts)]
          (modBay b (fun y => { y with
            link := { y.link with inFlight := none }
            dialogue := { y.dialogue with parcelCopy := none, slotStatus := .sent } }) u))))

/-- An entry for the transmit list: a BOUND link takes it, any other takes PROBE alone; an entry of its kind is replaced in
place, else it goes to the tail, a PREPARE to the front, and a PREPARE takes an ANSWER off (R91). -/
def Obligations.TransmitList : Prop :=
  (∀ (s : State) (b : BayId) (e : TxEntry),
    placeEntry b e s = if (s.bay b).link.linkState = .bound ∨ e = .probe then
      modBay b (fun y => { y with link := { y.link with txList := txPlace e y.link.txList } }) s else s)
  ∧ (∀ (e : TxEntry) (l : List TxEntry), e.slot ≠ .prepare →
    txPlace e l = if l.any (fun x => x.slot == e.slot) then l.map (fun x => if x.slot = e.slot then e else x)
      else l ++ [e])
  ∧ (∀ (n : Nat) (r : DrainReason) (l m : List TxEntry), m = l.filter (fun x => x.slot != .answer) →
    txPlace (.prepare n r) l = if m.any (fun x => x.slot == .prepare) then
      m.map (fun x => if x.slot = .prepare then .prepare n r else x) else .prepare n r :: m)
  ∧ (∀ ramp hold pos, (TxEntry.grant ramp hold).slot = .answer ∧ (TxEntry.wait pos).slot = .answer)
  ∧ (∀ cap n reason payload, (TxEntry.limit cap).slot = .limit ∧ (TxEntry.prepare n reason).slot = .prepare
    ∧ (TxEntry.parcel payload).slot = .parcel ∧ TxEntry.probe.slot = .probe)
  ∧ (∀ (k : TxSlot) (l : List TxEntry), txListed k l = l.any (fun x => x.slot == k))
  ∧ (∀ (k : TxSlot) (l : LinkEngine), inFlightIs k l = true ↔ ∃ m, l.inFlight = some m ∧ m.entry.slot = k)
  ∧ ∀ (e : TxEntry) (l : List TxEntry), (l.map TxEntry.slot).Nodup → ((txPlace e l).map TxEntry.slot).Nodup

/-! ## Module messages -/

/-- Every good module message owes its ACK (R88); a duplicate is counted and not delivered (R90); a message that is no
HELLO and finds the link not BOUND places PROBE, unless one is listed or in flight, and is not delivered (R98, R99, R101).
RxBuffer keeps the frame (log entry 40). -/
def Obligations.MessagesOweAck : Prop :=
  ∀ (s : State) (b : BayId) (seq : Sequence) (payload : List Byte) (i : Instr) (k : Nat), s.canHear b →
    (i, k) ∈ [(Instr.hello b seq payload, 1), (.demand b seq payload, 2), (.release b seq payload, 3),
      (.trouble b seq payload, 4), (.note b seq payload, 5)] →
    (¬s.isNew b seq → (s.bay b).link.linkState = .bound ∨ i = .hello b seq payload →
      exec i s = .next (finish (countQuality b .duplicates (modBay b (Bay.owing k seq payload) s))))
    ∧ ((s.bay b).link.linkState ≠ .bound → i ≠ .hello b seq payload →
      exec i s = .next (finish (modBay b (fun y => { y.owing k seq payload with
        link := { (y.owing k seq payload).link with
          txList := if y.link.txList.any (fun e => e.slot == .probe) || inFlightIs .probe y.link then y.link.txList
            else y.link.txList ++ [.probe] } }) s)))
    ∧ (∃ t, exec i s = .next t ∧ (t.bay b).link.pendingAck = some seq ∧ (t.bay b).link.lineState = .idle)
    ∧ ∀ n, payload.length < 64 → n = k + 16 * seq.toNat + 128 * payload.length →
      frameBuffer k seq payload = le16 n ++ payload

/-- A HELLO. A well-formed one binds the link with a LINK record (Rebound on a BOUND link), makes the Demand unknown, writes
the directory, places LIMIT and takes a POSTED parcel, as OutboxHandedOver tells; any other is refused with a LINK record,
and drops a BOUND link to UNBOUND with its list flushed (R92, R99, R106 to R108). The LINK record comes before all that the
Dialogue Unit and the Sequencer do (log entry 17), the Demand becoming unknown is handed on even where it was unknown (log
entry 16), and an Identity that came in part is filled with 0 (log entry 51). The LINK record carries byte 0 as the
ModuleClass, bytes 1 to 8 as the Identity and byte 9 as the LinkRevision. RxBuffer keeps the frame (log entry 40). -/
def Obligations.Hello : Prop :=
  ∀ (s : State) (b : BayId) (seq : Sequence) (payload : List Byte) (h : HelloFields), s.canHear b → s.isNew b seq →
    h = helloFields payload →
    (h.moduleClass = payload.getD 0 0 ∧ h.linkRevision = payload.getD 9 0
      ∧ h.identity = (List.range 8).map (fun i => payload.getD (i + 1) 0))
    ∧ (payload.length = 10 → (byteAt payload 0).toNat ≤ 2 → byteAt payload 9 = 1 →
      exec (.hello b seq payload) s = .next (finish (takeParcel b (modBay b (fun y => { y with
        dialogue := { y.dialogue with
          moduleClass := byteAt payload 0, linkRevision := 1, identity := (payload.drop 1).take 8 }
        link := { y.link with txList := txPlace (.limit (s.intentOf b).cap) y.link.txList } })
        (makeDemandUnknown b (submitAll [.link b (if (s.bay b).link.linkState = .bound then .rebound h else .bound h)]
          (modBay b (fun y => { y.heard 1 seq payload with link := { (y.heard 1 seq payload).link with
            linkState := .bound, linkTimer := none
            txList := y.link.txList.filter (fun e => e.slot != .probe) } }) s)))))))
    ∧ (¬(payload.length = 10 ∧ (byteAt payload 0).toNat ≤ 2 ∧ byteAt payload 9 = 1) →
      ((s.bay b).link.linkState ≠ .bound → exec (.hello b seq payload) s
        = .next (finish (submitAll [.link b (.refused h)] (modBay b (Bay.heard 1 seq payload) s))))
      ∧ ((s.bay b).link.linkState = .bound → txListed .parcel (s.bay b).link.txList = false →
        exec (.hello b seq payload) s = .next (finish (makeDemandUnknown b (submitAll [.link b (.refused h)]
          (modBay b (fun y => { y.heard 1 seq payload with link := { (y.heard 1 seq payload).link with
            linkState := .unbound, txList := [] } }) s)))))
      ∧ ((s.bay b).link.linkState = .bound → txListed .parcel (s.bay b).link.txList = true →
        exec (.hello b seq payload) s = .next (finish (makeDemandUnknown b (submitAll
          [.link b (.refused h), .parcel b .abandoned .unbound (s.bay b).dialogue.parcelLength 0]
          (modBay b (fun y => { y.heard 1 seq payload with
            link := { (y.heard 1 seq payload).link with linkState := .unbound, txList := [] }
            dialogue := { y.dialogue with parcelCopy := none, slotStatus := .abandoned } }) s))))))

/-- Demand becoming unknown: Pending is cleared in RAMP and SETTLE; a QUEUED bay is withdrawn unless it is Blind, and then
asks for its Cap, with Clipped clear (log entry 38); the other states keep all else (R9, R40, R113). -/
def Obligations.DemandUnknown : Prop :=
  ∀ (s u : State) (b : BayId), u = modBay b (fun y => { y with ctx := { y.ctx with demand := none } }) s →
    (s.stateOf b ∈ [.empty, .off, .rest, .on, .drain, .cutoff, .faulted] → makeDemandUnknown b s = u)
    ∧ (s.stateOf b ∈ [.ramp, .settle] → makeDemandUnknown b s = modBay b (Bay.withPending false) u)
    ∧ (s.stateOf b = .queued → (s.intentOf b).blind = false → makeDemandUnknown b s
      = setQueue (queueWithout s.queue b) (submitAll
        (s.leaving b .withdrawn ++ [.state b .queued .off .preconditionLost false]) (modBay b (Bay.inState .off 0) u)))
    ∧ (s.stateOf b = .queued → (s.intentOf b).blind = true → makeDemandUnknown b s
      = replaceStart b (s.intentOf b).cap false (modBay b (fun y => { y with ctx := { y.ctx with basis := .blind } }) u))

/-- A DEMAND on a BOUND link: the figures are normalised against Cap and stored, and taken by bay state: nothing more where
the bay waits for no power, a Start asked for in OFF, the Start's amount replaced in QUEUED, Pending in RAMP and SETTLE, a
raise or a lower in ON; one that is not of 4 bytes is counted as malformed alone (R8, R40, R46, R49, R50, R106, R110, R111).
A HoldFigure above the charge is a raise also where it equals the stored one and a Raise waits (log entry 50). RequestsToTheQueue
tells of `takeRaise`, and SettleEnds of a DEMAND that falls together with the expiry of SETTLE (R112).
RxBuffer keeps the frame (log entry 40). -/
def Obligations.Demand : Prop :=
  ∀ (s : State) (b : BayId) (seq : Sequence) (payload : List Byte), s.canHear b → s.isNew b seq →
    (s.bay b).link.linkState = .bound →
    (payload.length ≠ 4 → exec (.demand b seq payload) s = .next (finish (modBay b (fun y => { y.heard 2 seq payload with
      dialogue := { y.dialogue with malformed := min 255 (y.dialogue.malformed + 1) } }) s)))
    ∧ (∀ (b0 b1 b2 b3 : Byte) (ramp hold : Nat) (u : State), payload = [b0, b1, b2, b3] →
      ramp = min (s.intentOf b).cap (max (b0.toNat + 256 * b1.toNat) (b2.toNat + 256 * b3.toNat)) →
      hold = min (s.intentOf b).cap (b2.toNat + 256 * b3.toNat) →
      u = modBay b (fun y => { y.heard 2 seq payload with ctx := { y.ctx with demand := some ⟨ramp, hold,
        decide ((s.intentOf b).cap < b0.toNat + 256 * b1.toNat) || decide ((s.intentOf b).cap < b2.toNat + 256 * b3.toNat)⟩ } })
        s →
      (s.stateOf b ∈ [.empty, .rest, .drain, .cutoff, .faulted] → exec (.demand b seq payload) s = .next (finish u))
      ∧ (s.stateOf b = .off → exec (.demand b seq payload) s = .next (finish (reconcileOff b u)))
      ∧ (∀ d, (u.bay b).ctx.demand = some d → s.stateOf b = .queued → exec (.demand b seq payload) s
        = .next (finish (replaceStart b ramp d.clipped
          (modBay b (fun y => { y with ctx := { y.ctx with basis := .demand } }) u))))
      ∧ (s.stateOf b ∈ [.ramp, .settle] →
        exec (.demand b seq payload) s = .next (finish (modBay b (Bay.withPending true) u)))
      ∧ (∀ d, (u.bay b).ctx.demand = some d → s.stateOf b = .on → (s.bay b).charge < hold →
        exec (.demand b seq payload) s = .next (finish (takeRaise b hold d.clipped u)))
      ∧ (s.stateOf b = .on → hold ≤ (s.bay b).charge →
        exec (.demand b seq payload) s = .next (finish (modBay b (fun y => { y with
          link := { y.link with txList := txPlace (.grant hold hold) y.link.txList } })
          (setCharge b hold (setQueue (queueWithout s.queue b) (submitAll (s.leaving b .withdrawn) u)))))))

/-- Asking the Admission Controller: a Start that may join, with all seven preconditions, does so as QUEUED, with its locked
group rewritten in the window, or is refused; a Start's new amount replaces the old in place, or the bay goes to OFF; a raise
joins, replaces, or is refused with a GRANT of the charge; each with its ADMIT record, and WAIT with the position (R6, R8,
R38, R40, R49, R133). A raise taken in the moment in which its bay reached ON, to a HoldFigure at or below the SETTLE charge,
is admitted in its event, where the new Committed fits (R34, R45, R112, log entry 44). A
refused replacement reports the amount that was held (R57, log entry 14), before the STATE record (log entry 42); a Blind
Start has Clipped clear (log entry 38). An entry joins behind those of its class and of higher classes, as long as their
Arrivals lie within half the counter's range, and positions count from 1 (R36, log entry 19). -/
def Obligations.RequestsToTheQueue : Prop :=
  ∀ (s : State) (b : BayId),
    (s.startOk b = true ↔ s.shelf.state = .run ∧ (s.intentOf b).target = .on ∧ (s.bay b).inputs.presConfirmed = true
      ∧ ((s.intentOf b).latchSensed = false ∨ (s.bay b).inputs.latchConfirmed = true)
      ∧ (s.bay b).inputs.fltLevel = false ∧ (s.bay b).ctx.troubleHold = false
      ∧ (((s.bay b).link.linkState = .bound ∧ (s.bay b).ctx.demand.isSome = true) ∨ (s.intentOf b).blind = true))
    ∧ (s.stateOf b = .off → s.startOk b = true → ∀ (figure : Nat) (clipped : Bool) (basis : Basis),
      (((s.bay b).link.linkState = .bound ∧ basis = .demand ∧ ∃ d, (s.bay b).ctx.demand = some d ∧ figure = d.ramp
          ∧ clipped = d.clipped)
        ∨ (((s.bay b).link.linkState ≠ .bound ∨ (s.bay b).ctx.demand = none) ∧ basis = .blind
          ∧ figure = (s.intentOf b).cap ∧ clipped = false)) →
      (s.pool.effectiveBudget < figure → reconcileOff b s
        = submitAll [.admission b .start .refused figure 0 clipped s.pool.committed]
          (modBay b (fun y => { y with ctx := { y.ctx with basis := basis } }) s))
      ∧ (figure ≤ s.pool.effectiveBudget → ∃ (q : List QueueEntry) (t : State),
        q = queueInsert ⟨b, .start, figure, (s.intentOf b).priority, s.pool.arrivalCounter, clipped⟩ s.queue
        ∧ t = submitAll [.state b .off .queued .commit false]
          (modBay b (fun y => { y with ctx := { y.ctx with state := .queued, phaseTimer := 0, basis := basis } }) s)
        ∧ reconcileOff b s = placeEntry b (.wait (queuePosition q b))
          (submitAll [.admission b .start .queued figure (queuePosition q b) clipped s.pool.committed]
            (modPool (fun p => { p with arrivalCounter := p.arrivalCounter + 1 }) (setQueue q
              (setWindow (Memory.writeBytes t.window (intentAddr b 4) (s.intentOf b).lockedBytes) t))))))
    ∧ (s.stateOf b ≠ .off ∨ s.startOk b = false → reconcileOff b s = s)
    ∧ (∀ (amount : Nat) (clipped : Bool), s.stateOf b = .queued →
      (amount ≤ s.pool.effectiveBudget → replaceStart b amount clipped s = placeEntry b (.wait (queuePosition s.queue b))
        (submitAll [.admission b .start .queued amount (queuePosition s.queue b) clipped s.pool.committed]
          (setQueue (queueReplace b amount clipped s.queue) s)))
      ∧ (s.pool.effectiveBudget < amount → replaceStart b amount clipped s = submitAll
        (s.leaving b .refused ++ [.state b .queued .off .shed false])
        (setQueue (queueWithout s.queue b) (modBay b (Bay.inState .off 0) s))))
    ∧ (∀ (hold : Nat) (clipped : Bool), (s.bay b).charge < hold →
      (s.pool.effectiveBudget < hold → requestRaise b hold clipped s
        = placeEntry b (.grant (s.bay b).charge (s.bay b).charge) (setQueue (queueWithout s.queue b) (submitAll
          (if (queueEntryOf s.queue b).isSome then s.leaving b .refused
            else [.admission b .raise .refused (hold - (s.bay b).charge) 0 clipped s.pool.committed]) s)))
      ∧ (hold ≤ s.pool.effectiveBudget → (queueEntryOf s.queue b).isSome = true → requestRaise b hold clipped s
        = placeEntry b (.wait (queuePosition s.queue b)) (submitAll
          [.admission b .raise .queued (hold - (s.bay b).charge) (queuePosition s.queue b) clipped s.pool.committed]
          (setQueue (queueReplace b (hold - (s.bay b).charge) clipped s.queue) s)))
      ∧ (∀ q, hold ≤ s.pool.effectiveBudget → queueEntryOf s.queue b = none →
        q = queueInsert ⟨b, .raise, hold - (s.bay b).charge, (s.intentOf b).priority, s.pool.arrivalCounter, clipped⟩ s.queue →
        requestRaise b hold clipped s = placeEntry b (.wait (queuePosition q b)) (submitAll
          [.admission b .raise .queued (hold - (s.bay b).charge) (queuePosition q b) clipped s.pool.committed]
          (modPool (fun p => { p with arrivalCounter := p.arrivalCounter + 1 }) (setQueue q s))))
      ∧ ((∃ r, (s.bay b).settledFrom = some r ∧ hold ≤ r) → hold ≤ s.pool.effectiveBudget →
        s.pool.committed + (hold - (s.bay b).charge) ≤ s.pool.effectiveBudget →
        ∀ w, w = requestRaise b hold clipped s → takeRaise b hold clipped s = placeEntry b (.grant hold hold) (submitAll
          [.admission b .raise .admitted (hold - (s.bay b).charge) 1 clipped
            (s.pool.committed + (hold - (s.bay b).charge))]
          (setCharge b hold (setQueue (queueWithout w.queue b) w))))
      ∧ ((∀ r, (s.bay b).settledFrom = some r → r < hold) ∨ s.pool.effectiveBudget < hold
          ∨ s.pool.effectiveBudget < s.pool.committed + (hold - (s.bay b).charge) →
        takeRaise b hold clipped s = requestRaise b hold clipped s))
    ∧ (∀ (e : QueueEntry) (q : List QueueEntry), queueOrdered q →
      (∀ x ∈ q, x.priority = e.priority →
        1 ≤ (e.arrival - x.arrival).toNat ∧ (e.arrival - x.arrival).toNat < 2147483648) →
      queueInsert e q = q.filter (fun x => x.priority ≤ e.priority) ++ e :: q.filter (fun x => e.priority < x.priority))
    ∧ (∀ (x y : BitVec 32) (c : BayId), stampEarlier x b y c = true
      ↔ (1 ≤ (y - x).toNat ∧ (y - x).toNat < 2147483648) ∨ ((y - x = 0 ∨ (y - x).toNat = 2147483648) ∧ b.val < c.val))
    ∧ (∀ (l r : List QueueEntry) (e : QueueEntry), (∀ x ∈ l, x.bay ≠ e.bay) →
      queuePosition (l ++ e :: r) e.bay = l.length + 1)
    ∧ (∀ q : List QueueEntry, (∀ x ∈ q, x.bay ≠ b) → queuePosition q b = 0)
    ∧ ∀ q : List QueueEntry, queueEntryOf q b = (q.filter (fun e => e.bay = b)).head?
      ∧ queueWithout q b = q.filter (fun e => e.bay ≠ b)
      ∧ ∀ amount clipped, queueReplace b amount clipped q
        = q.map (fun e => if e.bay = b then { e with amount := amount, clipped := clipped } else e)

/-- A RELEASE on a BOUND link: a bay in DRAIN enters CUTOFF with reason Released; in any other state it is discarded; one
with a payload is counted as malformed alone (R16, R106, R115).
RxBuffer keeps the frame (log entry 40). -/
def Obligations.Release : Prop :=
  ∀ (s : State) (b : BayId) (seq : Sequence) (payload : List Byte), s.canHear b → s.isNew b seq →
    (s.bay b).link.linkState = .bound →
    (payload = [] → s.stateOf b ≠ .drain →
      exec (.release b seq payload) s = .next (finish (modBay b (Bay.heard 3 seq payload) s)))
    ∧ (payload = [] → s.stateOf b = .drain →
      exec (.release b seq payload) s = .next (finish (enterCutoff b .released (modBay b (Bay.heard 3 seq payload) s))))
    ∧ (payload ≠ [] → exec (.release b seq payload) s = .next (finish (modBay b (fun y => { y.heard 3 seq payload with
      dialogue := { y.dialogue with malformed := min 255 (y.dialogue.malformed + 1) } }) s)))

/-- A TROUBLE on a BOUND link: its record, with the action taken; severity 1 does nothing, any other sets the Trouble hold;
QUEUED is withdrawn, ON drains at severity 2, and RAMP, SETTLE, ON and DRAIN are cut at 3; in STANDBY it is a wake
event; an ill-formed one is counted alone (R27, R106, R116, R174).
RxBuffer keeps the frame (log entry 40). -/
def Obligations.Trouble : Prop :=
  ∀ (s : State) (b : BayId) (seq : Sequence) (payload : List Byte), s.canHear b → s.isNew b seq →
    (s.bay b).link.linkState = .bound →
    (¬(payload.length = 3 ∧ 1 ≤ (byteAt payload 0).toNat ∧ (byteAt payload 0).toNat ≤ 3) →
      exec (.trouble b seq payload) s = .next (finish (modBay b (fun y => { y.heard 4 seq payload with
        dialogue := { y.dialogue with malformed := min 255 (y.dialogue.malformed + 1) } }) s)))
    ∧ (∀ (sev lo hi : Byte) (action : TroubleAction) (w : BayState) (u : State), payload = [sev, lo, hi] →
      1 ≤ sev.toNat → sev.toNat ≤ 3 → s.stateOf b = w →
      u = submitAll [.trouble b sev.toNat w (lo.toNat + 256 * hi.toNat) action] (modBay b (fun y =>
        { y.heard 4 seq payload with
          ctx := { y.ctx with troubleHold := y.ctx.troubleHold || decide (sev.toNat ≠ 1) } }) s) →
      ((action = .none ∧ sev.toNat = 1)
          ∨ (action = .hold ∧ sev.toNat ≠ 1 ∧ w ∈ [.empty, .off, .rest, .cutoff, .faulted])
          ∨ (action = .hold ∧ sev.toNat = 2 ∧ w ∈ [.ramp, .settle, .drain]) →
        exec (.trouble b seq payload) s = .next (finish (wakeEvent b .trouble u)))
      ∧ (action = .withdrawn → sev.toNat ≠ 1 → w = .queued →
        exec (.trouble b seq payload) s = .next (finish (wakeEvent b .trouble (setQueue (queueWithout s.queue b)
          (submitAll (s.leaving b .withdrawn ++ [.state b .queued .off .trouble false])
            (modBay b (Bay.inState .off 0) u))))))
      ∧ (action = .drain → sev.toNat = 2 → w = .on →
        exec (.trouble b seq payload) s = .next (finish (wakeEvent b .trouble (enterDrain b .trouble u))))
      ∧ (action = .cut → sev.toNat = 3 → w ∈ [.ramp, .settle, .on, .drain] →
        exec (.trouble b seq payload) s = .next (finish (wakeEvent b .trouble (enterCutoff b .trouble u)))))

/-- A NOTE on a BOUND link writes its record and is a wake event; a wake event in STANDBY sets its WakeBit, writes WAKE with
the bits as they then stand, and raises the WAKE cause where WakeEnable is 1; outside STANDBY it does nothing (R117, R174,
R175).
RxBuffer keeps the frame (log entry 40). -/
def Obligations.NotesAndWakeEvents : Prop :=
  ∀ (s : State) (b : BayId),
    (∀ (seq : Sequence) (payload : List Byte), s.canHear b → s.isNew b seq → (s.bay b).link.linkState = .bound →
      exec (.note b seq payload) s = .next (finish (wakeEvent b .note
        (submitAll [.note b payload] (modBay b (Bay.heard 5 seq payload) s)))))
    ∧ (∀ source, s.shelf.state ≠ .standby → wakeEvent b source s = s)
    ∧ (∀ source bits, s.shelf.state = .standby → bits = s.shelf.wakeBits ||| BitVec.twoPow 16 b.val →
      wakeEvent b source s = (if s.shelf.context.wakeEnable then modAttn (fun c => { c with wake := true }) else id)
        (submitAll [.wake b source bits] (modShelf (fun h => { h with wakeBits := bits }) s)))

/-! ## The journal -/

/-- A submission: lost where it does not fit or a snapshot waits, with Lost one more and OVERFLOW raised by the first loss;
else the owed GAP, the PAD, with the Time of this event (log entry 45), and the record stand in the ring with rising Stamps
from Head, nothing else of the window changes, Head advances past them, and 8 bytes stay free (R147, R150 to R155). An
append that finds nothing unread and JOURNAL clear starts the HoldoffTimer, or sets JOURNAL at once with a Holdoff of 0; one
that leaves 2048 bytes or more unread sets JOURNAL and stops the timer (R157, R158, log entry 22). Each record has the kind,
bay, length and body of R149 and R192, and the figures of the room test are those of R147 and R151. -/
def Obligations.JournalSubmission : Prop :=
  (∀ r : Record, r.length = (8 + r.body.length + 7) / 8 * 8 ∧ (r.kind, r.bay, r.body) = (match r with
    | .state b old new reason surprise => (3, some b, [BitVec.ofNat 8 old.code, BitVec.ofNat 8 new.code,
      BitVec.ofNat 8 reason.code, if surprise then 1 else 0])
    | .admission b kind outcome amount pos clipped committed => (4, some b, [BitVec.ofNat 8 kind.code,
      BitVec.ofNat 8 outcome.code] ++ le16 amount ++ [BitVec.ofNat 8 pos, if clipped then 1 else 0] ++ le16 committed)
    | .budget old new cause shed refused committed => (5, none, le16 old ++ le16 new ++ [BitVec.ofNat 8 cause.code,
      BitVec.ofNat 8 shed, BitVec.ofNat 8 refused, 0] ++ le16 committed)
    | .link b (.bound h) => (6, some b,
      [0, h.moduleClass, h.linkRevision, 0] ++ (h.identity ++ List.replicate 12 0).take 12)
    | .link b (.rebound h) => (6, some b,
      [1, h.moduleClass, h.linkRevision, 0] ++ (h.identity ++ List.replicate 12 0).take 12)
    | .link b (.refused h) => (6, some b,
      [2, h.moduleClass, h.linkRevision, 0] ++ (h.identity ++ List.replicate 12 0).take 12)
    | .link b (.lost kind attempts) => (6, some b,
      [3, BitVec.ofNat 8 kind, BitVec.ofNat 8 attempts] ++ List.replicate 13 0)
    | .link b .detached => (6, some b, 4 :: List.replicate 15 0)
    | .note b bytes => (7, some b, BitVec.ofNat 8 bytes.length :: bytes)
    | .parcel b outcome cause length attempts => (8, some b, [BitVec.ofNat 8 outcome.code, BitVec.ofNat 8 cause.code,
      BitVec.ofNat 8 length, BitVec.ofNat 8 attempts])
    | .trouble b severity st code action => (9, some b, [BitVec.ofNat 8 severity, BitVec.ofNat 8 st.code] ++ le16 code
      ++ [BitVec.ofNat 8 action.code])
    | .refused b record reason field commit value => (10, b, [BitVec.ofNat 8 record.code, BitVec.ofNat 8 reason.code,
      BitVec.ofNat 8 field, BitVec.ofNat 8 commit] ++ le16 value)
    | .discard b cause commit first count => (11, b, [BitVec.ofNat 8 cause.code, if commit then 1 else 0] ++ le16 first
      ++ le16 count)
    | .quiesced outcomes => (13, none, outcomes.map (fun o => BitVec.ofNat 8 o.code))
    | .quality b counter c => (14, some b, [BitVec.ofNat 8 counter.code, BitVec.ofNat 8 c.badCheck,
      BitVec.ofNat 8 c.dropped, BitVec.ofNat 8 c.duplicates, BitVec.ofNat 8 c.retries])
    | .wake b source bits => (15, some b, [BitVec.ofNat 8 source.code, 0] ++ le16 bits.toNat)))
  ∧ ([StateReason.commit, .admitted, .powerGood, .settled, .target, .released, .drainExpired, .discharged, .restDone,
      .removed, .inserted, .latchOpen, .switchFault, .noPowerGood, .powerLost, .stuck, .cut, .shed, .quiesce,
      .quiesceDeadline, .trouble, .linkLost, .preconditionLost, .reset].map StateReason.code = (List.range 24).map (· + 1)
    ∧ [EntryKind.start, .raise].map EntryKind.code = [0, 1]
    ∧ [AdmitOutcome.queued, .admitted, .withdrawn, .refused].map AdmitOutcome.code = List.range 4
    ∧ [BudgetCause.commit, .supplyLow, .supplyRestored].map BudgetCause.code = List.range 3
    ∧ [ParcelCause.acked, .failed, .linkLost, .unbound, .detached, .reset].map ParcelCause.code = List.range 6
    ∧ [TroubleAction.none, .hold, .withdrawn, .drain, .cut].map TroubleAction.code = List.range 5
    ∧ [RefusedRecord.shelf, .intent, .outbox].map RefusedRecord.code = List.range 3
    ∧ [RefuseReason.zero, .enum, .range, .capZero, .budgetOrder, .modeLocked].map RefuseReason.code = [1, 2, 3, 4, 5, 6]
    ∧ [DiscardCause.partOwned, .locked, .sending, .statusValue].map DiscardCause.code = List.range 4
    ∧ [QuiesceOutcome.released, .expired, .cut, .faulted, .absent, .wasOff].map QuiesceOutcome.code = [1, 2, 3, 4, 5, 6]
    ∧ [QualityKind.badCheck, .dropped, .duplicates, .retries].map QualityKind.code = List.range 4
    ∧ [WakeSource.presence, .latch, .trouble, .note].map WakeSource.code = List.range 4)
  ∧ (∀ (kind length : Nat) (bay stamp : Byte) (time : BitVec 32) (body : List Byte), 8 + body.length ≤ length →
    recordBytes kind bay stamp time body length = [BitVec.ofNat 8 kind, BitVec.ofNat 8 (length / 8), bay, stamp]
      ++ le32 time.toNat ++ body ++ List.replicate (length - (8 + body.length)) 0)
  ∧ (∀ (stamp : Byte) (lost : Nat) (time : BitVec 32),
    gapBytes stamp lost time = [2, 1, 255, stamp] ++ le16 lost ++ le16 time.toNat)
  ∧ (∀ n, le32 n = [BitVec.ofNat 8 n, BitVec.ofNat 8 (n / 256), BitVec.ofNat 8 (n / 65536), BitVec.ofNat 8 (n / 16777216)])
  ∧ (bayByte none = 255 ∧ ∀ b, bayByte (some b) = BitVec.ofNat 8 b.val)
  ∧ (∀ (j : Journal) (n start : Nat), start = (j.head + if j.overflow then 8 else 0) % 4096 →
    j.unread = (j.head + (if j.headWrap then 4096 else 0) + 8192 - (j.tail + if j.tailWrap then 4096 else 0)) % 8192
    ∧ j.free = 4096 - j.unread ∧ j.gapLength = (if j.overflow then 8 else 0)
    ∧ j.padLength n = (if n ≤ 4096 - start then 0 else 4096 - start)
    ∧ j.recordOffset n = (if j.padLength n = 0 then start else 0)
    ∧ (j.fits n = true ↔ j.gapLength + j.padLength n + n + 8 ≤ j.free))
  ∧ ∀ (r : Record) (s : State) (j : Journal), s.windowOk → j = s.journal → j.positionsOk → r.length ≤ 272 →
    (j.waitingSnapshot.isSome = true ∨ j.free < j.gapLength + j.padLength r.length + r.length + 8 →
      submit r s = { s with
        journal := { j with lost := min 65535 (j.lost + 1), overflow := true }
        attnPending := { s.attnPending with overflow := s.attnPending.overflow || !j.overflow } })
    ∧ (j.waitingSnapshot = none → j.gapLength + j.padLength r.length + r.length + 8 ≤ j.free →
      (submit r s).journal.unread = j.unread + j.gapLength + j.padLength r.length + r.length
      ∧ (submit r s).journal.head = (j.head + j.gapLength + j.padLength r.length + r.length) % 4096
      ∧ (submit r s).journal.stamp = j.stamp + 1 + (if j.overflow then 1 else 0)
        + (if j.padLength r.length = 0 then 0 else 1)
      ∧ (submit r s).journal.overflow = false ∧ (j.overflow = true → (submit r s).journal.lost = 0)
      ∧ (submit r s).journal.tail = j.tail ∧ (submit r s).journal.tailWrap = j.tailWrap
      ∧ (submit r s).bays = s.bays ∧ (submit r s).queue = s.queue ∧ (submit r s).pool = s.pool
      ∧ (submit r s).shelf = s.shelf ∧ (submit r s).pending = s.pending
      ∧ Memory.readBytes (submit r s).window (0x1000 + j.recordOffset r.length) r.length
        = recordBytes r.kind (bayByte r.bay) ((submit r s).journal.stamp - 1) j.shelfTime r.body r.length
      ∧ (j.overflow = true → Memory.readBytes (submit r s).window (0x1000 + j.head) 8
        = gapBytes j.stamp j.lost j.shelfTime)
      ∧ (j.padLength r.length ≠ 0 →
        Memory.readBytes (submit r s).window (0x1000 + (j.head + j.gapLength) % 4096) (j.padLength r.length)
          = [1, BitVec.ofNat 8 (j.padLength r.length / 8), 255, (submit r s).journal.stamp - 2]
            ++ le32 j.shelfTime.toNat ++ List.replicate (j.padLength r.length - 8) 0)
      ∧ (submit r s).attnPending = { s.attnPending with
        journal := s.attnPending.journal || (j.unread == 0 && s.shelf.context.holdoff == 0)
          || decide (2048 ≤ (submit r s).journal.unread) }
      ∧ (submit r s).journal.holdoffTimer = (if 2048 ≤ (submit r s).journal.unread then none
        else if j.unread = 0 ∧ s.attnPending.journal = false ∧ s.shelf.context.holdoff ≠ 0 then
          some (s.shelf.context.holdoff * 1000)
        else j.holdoffTimer)
      ∧ ∀ a, (∀ i, i < j.gapLength + j.padLength r.length + r.length → a ≠ 0x1000 + (j.head + i) % 4096) →
        Memory.read (submit r s).window a = Memory.read s.window a)

/-! ## The end of an event -/

/-- The head of the queue: it is evaluated until none fits (R43), and a head that fits is a Start, admitted into RAMP with
its charge, GrantedHold (the Demand HoldFigure, or Cap with Basis Blind), AdmissionStamp and GRANT, and on into SETTLE, or
ON, where PG is active already, or a Raise, admitted at the higher charge with GRANT (R2, R10 to R12, R44, R45, R68). The
end of an event is that, and then the test of a quiesce for completion (R42, R172; log entries 11 and 21). Nothing is left
to do at the end of an event where no head fits and no quiesce completes. -/
def Obligations.HeadIsEvaluated : Prop :=
  ∀ s : State, finish s = quiesceTest (evaluateHead s) ∧ headThatFits (evaluateHead s) = none
    ∧ (headThatFits s = none → evaluateHead s = s) ∧ (s.Undisturbed → finish s = s)
    ∧ (∀ (e : QueueEntry) (q : List QueueEntry), s.queue = e :: q →
      (headThatFits s = some e ↔ s.shelf.state = .run ∧ s.pool.committed + e.amount ≤ s.pool.effectiveBudget)
      ∧ (headThatFits s = some e → evaluateHead s = evaluateHead (admitEntry e s))
      ∧ (e.kind = .raise → admitEntry e s
        = placeEntry e.bay (.grant ((s.bay e.bay).charge + e.amount) ((s.bay e.bay).charge + e.amount))
          (submitAll [.admission e.bay .raise .admitted e.amount 1 e.clipped (s.pool.committed + e.amount)]
            (setCharge e.bay ((s.bay e.bay).charge + e.amount) (setQueue (queueWithout s.queue e.bay) s))))
      ∧ (∀ (u : State) (hold : Nat), e.kind = .start → s.stateOf e.bay = .queued → (s.bay e.bay).charge = 0 →
        ((s.bay e.bay).ctx.basis = .blind ∧ hold = (s.intentOf e.bay).cap)
          ∨ ((s.bay e.bay).ctx.basis = .demand ∧ ∃ d, (s.bay e.bay).ctx.demand = some d ∧ hold = d.hold) →
        u = placeEntry e.bay (.grant e.amount hold)
          (submitAll [.admission e.bay .start .admitted e.amount 1 e.clipped (s.pool.committed + e.amount),
              .state e.bay .queued .ramp .admitted false]
            (modPool (fun p => { p with arrivalCounter := p.arrivalCounter + 1 }) (setCharge e.bay e.amount
              (setQueue (queueWithout s.queue e.bay) (modBay e.bay (fun y => { y with
                grantedHold := hold
                ctx := { y.ctx with
                  state := .ramp, phaseTimer := (s.intentOf e.bay).rampWindow * 1000
                  admissionStamp := s.pool.arrivalCounter }
                inputs := { y.inputs with fltTicks := 0, fltLevel := false } }) s))))) →
        ((s.bay e.bay).inputs.pgLevel = false → (s.intentOf e.bay).rampWindow ≠ 0 → admitEntry e s = u)
        ∧ ((s.bay e.bay).inputs.pgLevel = true → admitEntry e s
          = (if (s.intentOf e.bay).settleDelay = 0 then enterOn e.bay else id)
            (submitAll [.state e.bay .ramp .settle .powerGood false]
              (modBay e.bay (Bay.inState .settle ((s.intentOf e.bay).settleDelay * 1000)) u)))))

/-- A quiesce: it begins with every outcome None, the deadline running and every entry out of the queue; then, bay by bay in
ascending order, comes the ADMIT record (Withdrawn) of the bay's entry, with the position and Committed that the removal
found (log entry 15), then a QUEUED bay's STATE record into OFF (Quiesce), or the drain of a bay in ON (Quiesce), of which
PowerDown tells; so every QUEUED bay is in OFF, none is in ON, and the bays in the other states are as they were. It
completes once every bay is in EMPTY, OFF, REST or FAULTED, with the outcomes still None taken from the states (Absent in
EMPTY, Faulted in FAULTED, WasOff in OFF and REST), the QUIESCED record, and the shelf in STANDBY with its WakeBits and
DeadlineTimer cleared (R15, R29, R56, R169, R170, R172, R173). -/
def Obligations.QuiesceRuns : Prop :=
  ∀ s : State,
    ((enterQuiescing s).shelf = { s.shelf with
        state := .quiescing, deadlineTimer := some (s.shelf.context.quiesceDeadline * 100000) }
      ∧ (enterQuiescing s).queue = []
      ∧ ∀ b, (enterQuiescing s).stateOf b ≠ .on ∧ (s.stateOf b = .queued → (enterQuiescing s).stateOf b = .off)
        ∧ (s.stateOf b ∉ [.queued, .on] → (enterQuiescing s).bay b = { s.bay b with quiesceOutcome := .none }))
    ∧ (∃ u : State, (∀ b, u.bay b = { s.bay b with quiesceOutcome := .none })
      ∧ { u with bays := s.bays } = { s with
        shelf := { s.shelf with
          state := .quiescing, deadlineTimer := some (s.shelf.context.quiesceDeadline * 100000) }
        queue := [] }
      ∧ enterQuiescing s = (List.finRange 16).foldl (fun t b =>
        if t.stateOf b = .queued then
          submitAll (s.leaving b .withdrawn ++ [.state b .queued .off .quiesce false]) (modBay b (Bay.inState .off 0) t)
        else if t.stateOf b = .on then enterDrain b .quiesce (submitAll (s.leaving b .withdrawn) t)
        else submitAll (s.leaving b .withdrawn) t) u)
    ∧ (s.allComplete = true ↔ ∀ b, s.stateOf b ∈ [.empty, .off, .rest, .faulted])
    ∧ (s.shelf.state ≠ .quiescing ∨ (∃ b, s.stateOf b ∉ [.empty, .off, .rest, .faulted]) → quiesceTest s = s)
    ∧ (∀ outcome : BayId → QuiesceOutcome, s.shelf.state = .quiescing →
      (∀ b, s.stateOf b ∈ [.empty, .off, .rest, .faulted]) →
      (∀ b, outcome b = (if (s.bay b).quiesceOutcome ≠ .none then (s.bay b).quiesceOutcome
        else if s.stateOf b = .empty then .absent else if s.stateOf b = .faulted then .faulted else .wasOff)) →
      ∃ u, (∀ b, u.bay b = { s.bay b with quiesceOutcome := outcome b })
        ∧ { u with bays := s.bays } = s
        ∧ quiesceTest s = modShelf (fun h => { h with state := .standby, deadlineTimer := none, wakeBits := 0 })
          (submitAll [.quiesced ((List.finRange 16).map outcome)] u))

/-! ## Invariants -/

/-- Every step keeps Committed the sum of the sixteen charges, and a charge that is set changes Committed by the same amount
(R34). -/
def Obligations.StepKeepsCommittedSum : Prop :=
  (∀ s t : State, s.chargesOk → step s = .next t → t.chargesOk)
  ∧ (∀ s : State, s.chargesOk ↔ s.pool.committed = ((List.finRange 16).map (fun b => (s.bay b).charge)).sum)
  ∧ ∀ (s : State) (b : BayId) (v : Nat), setCharge b v s
    = modPool (fun p => { p with committed := p.committed + v - (s.bay b).charge })
      (modBay b (fun y => { y with charge := v }) s)

/-- Every step keeps the journal's positions sound, with 8 bytes never filled, its loss flags, the waiting snapshot beside
its status, and the window in canonical form (R147, R153, R182). -/
def Obligations.StepKeepsJournal : Prop :=
  ∀ s t : State, s.windowOk → s.journal.positionsOk → s.journal.lossOk → s.snapshotOk → step s = .next t →
    t.windowOk ∧ t.journal.positionsOk ∧ t.journal.lossOk ∧ t.snapshotOk

/-- Every step keeps the pool's figures those of the shelf record, the fault filters consistent, and the phase timer at 0
outside the timed states (R3, R32, R33, R65). -/
def Obligations.StepKeepsPoolAndInputs : Prop :=
  ∀ s t : State, s.poolOk → (∀ b, (s.bay b).filterOk) → (∀ b, (s.bay b).timerOk) → step s = .next t →
    t.poolOk ∧ (∀ b, (t.bay b).filterOk) ∧ ∀ b, (t.bay b).timerOk

/-- Every step keeps each bay's queue entries, charge and PG level those of its state, every bay in REST through INIT, and
the queue in the order of its classes (R10 to R18, R30, R31, R34, R36, R37, R48). -/
def Obligations.StepKeepsBaysAndQueue : Prop :=
  ∀ s t : State, step s = .next t →
    ((∀ b, s.bayOk b) → s.initOk → (∀ b, t.bayOk b) ∧ t.initOk) ∧ (queueOrdered s.queue → queueOrdered t.queue)
end

