-- ==== Sys2Proof/Laws/Memory.lean ====
section
/-! SUPPORT. Reading after writing, and the canonical form: every memory operation keeps it. -/

namespace Sys2Proof.Machine

/-! ## One byte -/

theorem Memory.read_write_other (m : Memory) (a x : Nat) (v : Byte) (h : x ≠ a) :
    (m.write a v).read x = m.read x := by
  induction m with
  | nil => unfold Memory.write; split <;> simp [Memory.read, h.symm]
  | cons c m ih =>
    obtain ⟨k, w⟩ := c
    unfold Memory.write
    split
    · split <;> simp [Memory.read, h.symm]
    · split
      · rename_i hk
        subst hk
        split <;> simp [Memory.read, h.symm]
      · simp only [Memory.read, ih]

/-- No entry below the first address of a rising list. -/
theorem Memory.read_below (m : Memory) (a : Nat) (h : ∀ c ∈ m, a < c.1) : m.read a = 0 := by
  induction m with
  | nil => rfl
  | cons c m ih =>
    obtain ⟨k, w⟩ := c
    have hk : a < k := h (k, w) (by simp)
    have : ¬ k = a := by omega
    simp only [Memory.read, this, if_false]
    exact ih (fun d hd => h d (by simp [hd]))

theorem Memory.read_write_self (m : Memory) (a : Nat) (v : Byte) (hm : Memory.wf m) : (m.write a v).read a = v := by
  induction m with
  | nil => unfold Memory.write; split <;> simp_all [Memory.read]
  | cons c m ih =>
    obtain ⟨k, w⟩ := c
    have hlt : ∀ d ∈ m, k < d.1 := (List.pairwise_cons.mp hm.1).1
    have hm' : Memory.wf m := ⟨(List.pairwise_cons.mp hm.1).2, fun d hd => hm.2 d (by simp [hd])⟩
    unfold Memory.write
    split
    · split
      · rename_i hak hv
        have hka : ¬ k = a := by omega
        simp only [Memory.read, hka, if_false, hv]
        exact Memory.read_below m a (fun d hd => Nat.lt_trans hak (hlt d hd))
      · simp [Memory.read]
    · split
      · rename_i hka
        subst hka
        split
        · rename_i hv
          rw [hv]
          exact Memory.read_below m a hlt
        · simp [Memory.read]
      · rename_i h1 h2
        have hka : ¬ k = a := fun e => h2 e.symm
        simp only [Memory.read, hka, if_false]
        exact ih hm'

theorem Memory.mem_write (m : Memory) (a : Nat) (v : Byte) (c : Host.Cell) (h : c ∈ m.write a v) :
    c ∈ m ∨ c = (a, v) ∧ v ≠ 0 := by
  induction m with
  | nil =>
    unfold Memory.write at h
    split at h
    · simp at h
    · rename_i hv
      simp at h
      exact Or.inr ⟨h, hv⟩
  | cons d m ih =>
    obtain ⟨k, w⟩ := d
    unfold Memory.write at h
    split at h
    · split at h
      · exact Or.inl h
      · rename_i hv
        rcases List.mem_cons.mp h with h | h
        · exact Or.inr ⟨h, hv⟩
        · exact Or.inl h
    · split at h
      · split at h
        · exact Or.inl (List.mem_cons_of_mem _ h)
        · rename_i hv
          rcases List.mem_cons.mp h with h | h
          · exact Or.inr ⟨h, hv⟩
          · exact Or.inl (List.mem_cons_of_mem _ h)
      · rcases List.mem_cons.mp h with h | h
        · exact Or.inl (by simp [h])
        · rcases ih h with h | h
          · exact Or.inl (List.mem_cons_of_mem _ h)
          · exact Or.inr h

/-- A write keeps the canonical form. -/
theorem Memory.wf_write (m : Memory) (a : Nat) (v : Byte) (hm : Memory.wf m) : Memory.wf (m.write a v) := by
  refine ⟨?_, fun c hc => ?_⟩
  · induction m with
    | nil => unfold Memory.write; split <;> simp
    | cons d m ih =>
      obtain ⟨k, w⟩ := d
      have hlt : ∀ d ∈ m, k < d.1 := (List.pairwise_cons.mp hm.1).1
      have htail : List.Pairwise (fun c d : Host.Cell => c.1 < d.1) m := (List.pairwise_cons.mp hm.1).2
      have hm' : Memory.wf m := ⟨htail, fun d hd => hm.2 d (by simp [hd])⟩
      unfold Memory.write
      split
      · rename_i hak
        split
        · exact hm.1
        · refine List.pairwise_cons.mpr ⟨fun c hc => ?_, hm.1⟩
          rcases List.mem_cons.mp hc with h | h
          · rw [h]; exact hak
          · exact Nat.lt_trans hak (hlt c h)
      · split
        · rename_i hka
          subst hka
          split
          · exact htail
          · exact List.pairwise_cons.mpr ⟨hlt, htail⟩
        · rename_i h1 h2
          refine List.pairwise_cons.mpr ⟨fun c hc => ?_, ih hm'⟩
          rcases Memory.mem_write m a v c hc with h | h
          · exact hlt c h
          · rw [h.1]; show k < a; omega
  · rcases Memory.mem_write m a v c hc with h | h
    · exact hm.2 c h
    · rw [h.1]; exact h.2

/-! ## Several bytes -/

theorem Memory.wf_writeBytes (m : Memory) (a : Nat) (l : List Byte) (hm : Memory.wf m) :
    Memory.wf (m.writeBytes a l) := by
  induction l generalizing m a with
  | nil => exact hm
  | cons v l ih => exact ih _ _ (Memory.wf_write m a v hm)

theorem Memory.wf_writeAll (m : Memory) (l : List (Nat × Byte)) (hm : Memory.wf m) : Memory.wf (m.writeAll l) := by
  induction l generalizing m with
  | nil => exact hm
  | cons c l ih => exact ih _ (Memory.wf_write m c.1 c.2 hm)

theorem Memory.wf_clearFrom (m : Memory) (a : Nat) (hm : Memory.wf m) : Memory.wf (m.clearFrom a) :=
  ⟨hm.1.filter _, fun c hc => hm.2 c (List.mem_filter.mp hc).1⟩

/-- Bytes outside those written read as before. -/
theorem Memory.read_writeBytes_other (m : Memory) (a x : Nat) (l : List Byte) (h : x < a ∨ a + l.length ≤ x) :
    (m.writeBytes a l).read x = m.read x := by
  induction l generalizing m a with
  | nil => rfl
  | cons v l ih =>
    simp only [List.length_cons] at h
    show ((m.write a v).writeBytes (a + 1) l).read x = m.read x
    rw [ih (m.write a v) (a + 1) (by omega), Memory.read_write_other m a x v (by omega)]

/-- The bytes written read back. -/
theorem Memory.read_writeBytes (m : Memory) (a i : Nat) (l : List Byte) (hm : Memory.wf m) (hi : i < l.length) :
    (m.writeBytes a l).read (a + i) = l[i] := by
  induction l generalizing m a i with
  | nil => simp at hi
  | cons v l ih =>
    show ((m.write a v).writeBytes (a + 1) l).read (a + i) = (v :: l)[i]
    cases i with
    | zero =>
      rw [Memory.read_writeBytes_other _ _ _ _ (by omega)]
      simpa using Memory.read_write_self m a v hm
    | succ i =>
      have := ih (m.write a v) (a + 1) i (Memory.wf_write m a v hm) (by simpa using hi)
      rw [show a + (i + 1) = a + 1 + i by omega]
      simpa using this

/-- An address that no byte of a transaction is for reads as before. -/
theorem Memory.read_writeAll_other (m : Memory) (x : Nat) (l : List (Nat × Byte)) (h : ∀ c ∈ l, c.1 ≠ x) :
    (m.writeAll l).read x = m.read x := by
  induction l generalizing m with
  | nil => rfl
  | cons c l ih =>
    obtain ⟨a, v⟩ := c
    show ((m.write a v).writeAll l).read x = m.read x
    rw [ih (m.write a v) (fun d hd => h d (by simp [hd])),
      Memory.read_write_other m a x v (fun e => h (a, v) (by simp) e.symm)]

/-- Below the cleared bytes nothing changes, and from there up every byte reads 0. -/
theorem Memory.read_clearFrom (m : Memory) (a x : Nat) :
    (m.clearFrom a).read x = if x < a then m.read x else 0 := by
  induction m with
  | nil => simp [Memory.clearFrom, Memory.read]
  | cons c m ih =>
    obtain ⟨k, w⟩ := c
    unfold Memory.clearFrom at ih ⊢
    by_cases hk : k < a
    · simp only [List.filter_cons, hk, decide_true, if_true, Memory.read, ih]
      by_cases hx : k = x
      · subst hx; simp [hk]
      · simp [hx]
    · simp only [List.filter_cons, hk, decide_false, Bool.false_eq_true, if_false, Memory.read, ih]
      by_cases hx : x < a
      · have : ¬ k = x := by omega
        simp [hx, this]
      · simp [hx]

end Sys2Proof.Machine
end

