-- ==== Sys2Proof/Laws/State.lean ====
section
/-! SUPPORT. Each field of the state after each named update: true by definition, so that no later proof unfolds a record
update. -/

namespace Sys2Proof.Machine

/-! ## modBay -/

@[simp] theorem modBay_pool (b : BayId) (f : Bay → Bay) (s : State) : (modBay b f s).pool = s.pool := rfl
@[simp] theorem modBay_queue (b : BayId) (f : Bay → Bay) (s : State) : (modBay b f s).queue = s.queue := rfl
@[simp] theorem modBay_journal (b : BayId) (f : Bay → Bay) (s : State) : (modBay b f s).journal = s.journal := rfl
@[simp] theorem modBay_shelf (b : BayId) (f : Bay → Bay) (s : State) : (modBay b f s).shelf = s.shelf := rfl
@[simp] theorem modBay_supply (b : BayId) (f : Bay → Bay) (s : State) : (modBay b f s).supply = s.supply := rfl
@[simp] theorem modBay_attnPending (b : BayId) (f : Bay → Bay) (s : State) : (modBay b f s).attnPending = s.attnPending := rfl
@[simp] theorem modBay_attnEnable (b : BayId) (f : Bay → Bay) (s : State) : (modBay b f s).attnEnable = s.attnEnable := rfl
@[simp] theorem modBay_window (b : BayId) (f : Bay → Bay) (s : State) : (modBay b f s).window = s.window := rfl
@[simp] theorem modBay_port (b : BayId) (f : Bay → Bay) (s : State) : (modBay b f s).port = s.port := rfl
@[simp] theorem modBay_miso (b : BayId) (f : Bay → Bay) (s : State) : (modBay b f s).miso = s.miso := rfl
@[simp] theorem modBay_timeBase (b : BayId) (f : Bay → Bay) (s : State) : (modBay b f s).timeBase = s.timeBase := rfl
@[simp] theorem modBay_pending (b : BayId) (f : Bay → Bay) (s : State) : (modBay b f s).pending = s.pending := rfl

/-! ## modCtx -/

@[simp] theorem modCtx_pool (b : BayId) (f : BayContext → BayContext) (s : State) : (modCtx b f s).pool = s.pool := rfl
@[simp] theorem modCtx_queue (b : BayId) (f : BayContext → BayContext) (s : State) : (modCtx b f s).queue = s.queue := rfl
@[simp] theorem modCtx_journal (b : BayId) (f : BayContext → BayContext) (s : State) : (modCtx b f s).journal = s.journal := rfl
@[simp] theorem modCtx_shelf (b : BayId) (f : BayContext → BayContext) (s : State) : (modCtx b f s).shelf = s.shelf := rfl
@[simp] theorem modCtx_supply (b : BayId) (f : BayContext → BayContext) (s : State) : (modCtx b f s).supply = s.supply := rfl
@[simp] theorem modCtx_attnPending (b : BayId) (f : BayContext → BayContext) (s : State) : (modCtx b f s).attnPending = s.attnPending := rfl
@[simp] theorem modCtx_attnEnable (b : BayId) (f : BayContext → BayContext) (s : State) : (modCtx b f s).attnEnable = s.attnEnable := rfl
@[simp] theorem modCtx_window (b : BayId) (f : BayContext → BayContext) (s : State) : (modCtx b f s).window = s.window := rfl
@[simp] theorem modCtx_port (b : BayId) (f : BayContext → BayContext) (s : State) : (modCtx b f s).port = s.port := rfl
@[simp] theorem modCtx_miso (b : BayId) (f : BayContext → BayContext) (s : State) : (modCtx b f s).miso = s.miso := rfl
@[simp] theorem modCtx_timeBase (b : BayId) (f : BayContext → BayContext) (s : State) : (modCtx b f s).timeBase = s.timeBase := rfl
@[simp] theorem modCtx_pending (b : BayId) (f : BayContext → BayContext) (s : State) : (modCtx b f s).pending = s.pending := rfl

/-! ## modInputs -/

@[simp] theorem modInputs_pool (b : BayId) (f : BayInputs → BayInputs) (s : State) : (modInputs b f s).pool = s.pool := rfl
@[simp] theorem modInputs_queue (b : BayId) (f : BayInputs → BayInputs) (s : State) : (modInputs b f s).queue = s.queue := rfl
@[simp] theorem modInputs_journal (b : BayId) (f : BayInputs → BayInputs) (s : State) : (modInputs b f s).journal = s.journal := rfl
@[simp] theorem modInputs_shelf (b : BayId) (f : BayInputs → BayInputs) (s : State) : (modInputs b f s).shelf = s.shelf := rfl
@[simp] theorem modInputs_supply (b : BayId) (f : BayInputs → BayInputs) (s : State) : (modInputs b f s).supply = s.supply := rfl
@[simp] theorem modInputs_attnPending (b : BayId) (f : BayInputs → BayInputs) (s : State) : (modInputs b f s).attnPending = s.attnPending := rfl
@[simp] theorem modInputs_attnEnable (b : BayId) (f : BayInputs → BayInputs) (s : State) : (modInputs b f s).attnEnable = s.attnEnable := rfl
@[simp] theorem modInputs_window (b : BayId) (f : BayInputs → BayInputs) (s : State) : (modInputs b f s).window = s.window := rfl
@[simp] theorem modInputs_port (b : BayId) (f : BayInputs → BayInputs) (s : State) : (modInputs b f s).port = s.port := rfl
@[simp] theorem modInputs_miso (b : BayId) (f : BayInputs → BayInputs) (s : State) : (modInputs b f s).miso = s.miso := rfl
@[simp] theorem modInputs_timeBase (b : BayId) (f : BayInputs → BayInputs) (s : State) : (modInputs b f s).timeBase = s.timeBase := rfl
@[simp] theorem modInputs_pending (b : BayId) (f : BayInputs → BayInputs) (s : State) : (modInputs b f s).pending = s.pending := rfl

/-! ## modLink -/

@[simp] theorem modLink_pool (b : BayId) (f : LinkEngine → LinkEngine) (s : State) : (modLink b f s).pool = s.pool := rfl
@[simp] theorem modLink_queue (b : BayId) (f : LinkEngine → LinkEngine) (s : State) : (modLink b f s).queue = s.queue := rfl
@[simp] theorem modLink_journal (b : BayId) (f : LinkEngine → LinkEngine) (s : State) : (modLink b f s).journal = s.journal := rfl
@[simp] theorem modLink_shelf (b : BayId) (f : LinkEngine → LinkEngine) (s : State) : (modLink b f s).shelf = s.shelf := rfl
@[simp] theorem modLink_supply (b : BayId) (f : LinkEngine → LinkEngine) (s : State) : (modLink b f s).supply = s.supply := rfl
@[simp] theorem modLink_attnPending (b : BayId) (f : LinkEngine → LinkEngine) (s : State) : (modLink b f s).attnPending = s.attnPending := rfl
@[simp] theorem modLink_attnEnable (b : BayId) (f : LinkEngine → LinkEngine) (s : State) : (modLink b f s).attnEnable = s.attnEnable := rfl
@[simp] theorem modLink_window (b : BayId) (f : LinkEngine → LinkEngine) (s : State) : (modLink b f s).window = s.window := rfl
@[simp] theorem modLink_port (b : BayId) (f : LinkEngine → LinkEngine) (s : State) : (modLink b f s).port = s.port := rfl
@[simp] theorem modLink_miso (b : BayId) (f : LinkEngine → LinkEngine) (s : State) : (modLink b f s).miso = s.miso := rfl
@[simp] theorem modLink_timeBase (b : BayId) (f : LinkEngine → LinkEngine) (s : State) : (modLink b f s).timeBase = s.timeBase := rfl
@[simp] theorem modLink_pending (b : BayId) (f : LinkEngine → LinkEngine) (s : State) : (modLink b f s).pending = s.pending := rfl

/-! ## modDialogue -/

@[simp] theorem modDialogue_pool (b : BayId) (f : DialogueUnit → DialogueUnit) (s : State) : (modDialogue b f s).pool = s.pool := rfl
@[simp] theorem modDialogue_queue (b : BayId) (f : DialogueUnit → DialogueUnit) (s : State) : (modDialogue b f s).queue = s.queue := rfl
@[simp] theorem modDialogue_journal (b : BayId) (f : DialogueUnit → DialogueUnit) (s : State) : (modDialogue b f s).journal = s.journal := rfl
@[simp] theorem modDialogue_shelf (b : BayId) (f : DialogueUnit → DialogueUnit) (s : State) : (modDialogue b f s).shelf = s.shelf := rfl
@[simp] theorem modDialogue_supply (b : BayId) (f : DialogueUnit → DialogueUnit) (s : State) : (modDialogue b f s).supply = s.supply := rfl
@[simp] theorem modDialogue_attnPending (b : BayId) (f : DialogueUnit → DialogueUnit) (s : State) : (modDialogue b f s).attnPending = s.attnPending := rfl
@[simp] theorem modDialogue_attnEnable (b : BayId) (f : DialogueUnit → DialogueUnit) (s : State) : (modDialogue b f s).attnEnable = s.attnEnable := rfl
@[simp] theorem modDialogue_window (b : BayId) (f : DialogueUnit → DialogueUnit) (s : State) : (modDialogue b f s).window = s.window := rfl
@[simp] theorem modDialogue_port (b : BayId) (f : DialogueUnit → DialogueUnit) (s : State) : (modDialogue b f s).port = s.port := rfl
@[simp] theorem modDialogue_miso (b : BayId) (f : DialogueUnit → DialogueUnit) (s : State) : (modDialogue b f s).miso = s.miso := rfl
@[simp] theorem modDialogue_timeBase (b : BayId) (f : DialogueUnit → DialogueUnit) (s : State) : (modDialogue b f s).timeBase = s.timeBase := rfl
@[simp] theorem modDialogue_pending (b : BayId) (f : DialogueUnit → DialogueUnit) (s : State) : (modDialogue b f s).pending = s.pending := rfl

/-! ## modShelf -/

@[simp] theorem modShelf_bays (f : Shelf → Shelf) (s : State) : (modShelf f s).bays = s.bays := rfl
@[simp] theorem modShelf_pool (f : Shelf → Shelf) (s : State) : (modShelf f s).pool = s.pool := rfl
@[simp] theorem modShelf_queue (f : Shelf → Shelf) (s : State) : (modShelf f s).queue = s.queue := rfl
@[simp] theorem modShelf_journal (f : Shelf → Shelf) (s : State) : (modShelf f s).journal = s.journal := rfl
@[simp] theorem modShelf_shelf (f : Shelf → Shelf) (s : State) : (modShelf f s).shelf = f s.shelf := rfl
@[simp] theorem modShelf_supply (f : Shelf → Shelf) (s : State) : (modShelf f s).supply = s.supply := rfl
@[simp] theorem modShelf_attnPending (f : Shelf → Shelf) (s : State) : (modShelf f s).attnPending = s.attnPending := rfl
@[simp] theorem modShelf_attnEnable (f : Shelf → Shelf) (s : State) : (modShelf f s).attnEnable = s.attnEnable := rfl
@[simp] theorem modShelf_window (f : Shelf → Shelf) (s : State) : (modShelf f s).window = s.window := rfl
@[simp] theorem modShelf_port (f : Shelf → Shelf) (s : State) : (modShelf f s).port = s.port := rfl
@[simp] theorem modShelf_miso (f : Shelf → Shelf) (s : State) : (modShelf f s).miso = s.miso := rfl
@[simp] theorem modShelf_timeBase (f : Shelf → Shelf) (s : State) : (modShelf f s).timeBase = s.timeBase := rfl
@[simp] theorem modShelf_pending (f : Shelf → Shelf) (s : State) : (modShelf f s).pending = s.pending := rfl

/-! ## modPool -/

@[simp] theorem modPool_bays (f : Pool → Pool) (s : State) : (modPool f s).bays = s.bays := rfl
@[simp] theorem modPool_pool (f : Pool → Pool) (s : State) : (modPool f s).pool = f s.pool := rfl
@[simp] theorem modPool_queue (f : Pool → Pool) (s : State) : (modPool f s).queue = s.queue := rfl
@[simp] theorem modPool_journal (f : Pool → Pool) (s : State) : (modPool f s).journal = s.journal := rfl
@[simp] theorem modPool_shelf (f : Pool → Pool) (s : State) : (modPool f s).shelf = s.shelf := rfl
@[simp] theorem modPool_supply (f : Pool → Pool) (s : State) : (modPool f s).supply = s.supply := rfl
@[simp] theorem modPool_attnPending (f : Pool → Pool) (s : State) : (modPool f s).attnPending = s.attnPending := rfl
@[simp] theorem modPool_attnEnable (f : Pool → Pool) (s : State) : (modPool f s).attnEnable = s.attnEnable := rfl
@[simp] theorem modPool_window (f : Pool → Pool) (s : State) : (modPool f s).window = s.window := rfl
@[simp] theorem modPool_port (f : Pool → Pool) (s : State) : (modPool f s).port = s.port := rfl
@[simp] theorem modPool_miso (f : Pool → Pool) (s : State) : (modPool f s).miso = s.miso := rfl
@[simp] theorem modPool_timeBase (f : Pool → Pool) (s : State) : (modPool f s).timeBase = s.timeBase := rfl
@[simp] theorem modPool_pending (f : Pool → Pool) (s : State) : (modPool f s).pending = s.pending := rfl

/-! ## modJournal -/

@[simp] theorem modJournal_bays (f : Journal → Journal) (s : State) : (modJournal f s).bays = s.bays := rfl
@[simp] theorem modJournal_pool (f : Journal → Journal) (s : State) : (modJournal f s).pool = s.pool := rfl
@[simp] theorem modJournal_queue (f : Journal → Journal) (s : State) : (modJournal f s).queue = s.queue := rfl
@[simp] theorem modJournal_journal (f : Journal → Journal) (s : State) : (modJournal f s).journal = f s.journal := rfl
@[simp] theorem modJournal_shelf (f : Journal → Journal) (s : State) : (modJournal f s).shelf = s.shelf := rfl
@[simp] theorem modJournal_supply (f : Journal → Journal) (s : State) : (modJournal f s).supply = s.supply := rfl
@[simp] theorem modJournal_attnPending (f : Journal → Journal) (s : State) : (modJournal f s).attnPending = s.attnPending := rfl
@[simp] theorem modJournal_attnEnable (f : Journal → Journal) (s : State) : (modJournal f s).attnEnable = s.attnEnable := rfl
@[simp] theorem modJournal_window (f : Journal → Journal) (s : State) : (modJournal f s).window = s.window := rfl
@[simp] theorem modJournal_port (f : Journal → Journal) (s : State) : (modJournal f s).port = s.port := rfl
@[simp] theorem modJournal_miso (f : Journal → Journal) (s : State) : (modJournal f s).miso = s.miso := rfl
@[simp] theorem modJournal_timeBase (f : Journal → Journal) (s : State) : (modJournal f s).timeBase = s.timeBase := rfl
@[simp] theorem modJournal_pending (f : Journal → Journal) (s : State) : (modJournal f s).pending = s.pending := rfl

/-! ## modAttn -/

@[simp] theorem modAttn_bays (f : Causes → Causes) (s : State) : (modAttn f s).bays = s.bays := rfl
@[simp] theorem modAttn_pool (f : Causes → Causes) (s : State) : (modAttn f s).pool = s.pool := rfl
@[simp] theorem modAttn_queue (f : Causes → Causes) (s : State) : (modAttn f s).queue = s.queue := rfl
@[simp] theorem modAttn_journal (f : Causes → Causes) (s : State) : (modAttn f s).journal = s.journal := rfl
@[simp] theorem modAttn_shelf (f : Causes → Causes) (s : State) : (modAttn f s).shelf = s.shelf := rfl
@[simp] theorem modAttn_supply (f : Causes → Causes) (s : State) : (modAttn f s).supply = s.supply := rfl
@[simp] theorem modAttn_attnPending (f : Causes → Causes) (s : State) : (modAttn f s).attnPending = f s.attnPending := rfl
@[simp] theorem modAttn_attnEnable (f : Causes → Causes) (s : State) : (modAttn f s).attnEnable = s.attnEnable := rfl
@[simp] theorem modAttn_window (f : Causes → Causes) (s : State) : (modAttn f s).window = s.window := rfl
@[simp] theorem modAttn_port (f : Causes → Causes) (s : State) : (modAttn f s).port = s.port := rfl
@[simp] theorem modAttn_miso (f : Causes → Causes) (s : State) : (modAttn f s).miso = s.miso := rfl
@[simp] theorem modAttn_timeBase (f : Causes → Causes) (s : State) : (modAttn f s).timeBase = s.timeBase := rfl
@[simp] theorem modAttn_pending (f : Causes → Causes) (s : State) : (modAttn f s).pending = s.pending := rfl

/-! ## setQueue -/

@[simp] theorem setQueue_bays (q : List QueueEntry) (s : State) : (setQueue q s).bays = s.bays := rfl
@[simp] theorem setQueue_pool (q : List QueueEntry) (s : State) : (setQueue q s).pool = s.pool := rfl
@[simp] theorem setQueue_queue (q : List QueueEntry) (s : State) : (setQueue q s).queue = q := rfl
@[simp] theorem setQueue_journal (q : List QueueEntry) (s : State) : (setQueue q s).journal = s.journal := rfl
@[simp] theorem setQueue_shelf (q : List QueueEntry) (s : State) : (setQueue q s).shelf = s.shelf := rfl
@[simp] theorem setQueue_supply (q : List QueueEntry) (s : State) : (setQueue q s).supply = s.supply := rfl
@[simp] theorem setQueue_attnPending (q : List QueueEntry) (s : State) : (setQueue q s).attnPending = s.attnPending := rfl
@[simp] theorem setQueue_attnEnable (q : List QueueEntry) (s : State) : (setQueue q s).attnEnable = s.attnEnable := rfl
@[simp] theorem setQueue_window (q : List QueueEntry) (s : State) : (setQueue q s).window = s.window := rfl
@[simp] theorem setQueue_port (q : List QueueEntry) (s : State) : (setQueue q s).port = s.port := rfl
@[simp] theorem setQueue_miso (q : List QueueEntry) (s : State) : (setQueue q s).miso = s.miso := rfl
@[simp] theorem setQueue_timeBase (q : List QueueEntry) (s : State) : (setQueue q s).timeBase = s.timeBase := rfl
@[simp] theorem setQueue_pending (q : List QueueEntry) (s : State) : (setQueue q s).pending = s.pending := rfl

/-! ## setWindow -/

@[simp] theorem setWindow_bays (m : Memory) (s : State) : (setWindow m s).bays = s.bays := rfl
@[simp] theorem setWindow_pool (m : Memory) (s : State) : (setWindow m s).pool = s.pool := rfl
@[simp] theorem setWindow_queue (m : Memory) (s : State) : (setWindow m s).queue = s.queue := rfl
@[simp] theorem setWindow_journal (m : Memory) (s : State) : (setWindow m s).journal = s.journal := rfl
@[simp] theorem setWindow_shelf (m : Memory) (s : State) : (setWindow m s).shelf = s.shelf := rfl
@[simp] theorem setWindow_supply (m : Memory) (s : State) : (setWindow m s).supply = s.supply := rfl
@[simp] theorem setWindow_attnPending (m : Memory) (s : State) : (setWindow m s).attnPending = s.attnPending := rfl
@[simp] theorem setWindow_attnEnable (m : Memory) (s : State) : (setWindow m s).attnEnable = s.attnEnable := rfl
@[simp] theorem setWindow_window (m : Memory) (s : State) : (setWindow m s).window = m := rfl
@[simp] theorem setWindow_port (m : Memory) (s : State) : (setWindow m s).port = s.port := rfl
@[simp] theorem setWindow_miso (m : Memory) (s : State) : (setWindow m s).miso = s.miso := rfl
@[simp] theorem setWindow_timeBase (m : Memory) (s : State) : (setWindow m s).timeBase = s.timeBase := rfl
@[simp] theorem setWindow_pending (m : Memory) (s : State) : (setWindow m s).pending = s.pending := rfl

/-! ## setMiso -/

@[simp] theorem setMiso_bays (l : List Byte) (s : State) : (setMiso l s).bays = s.bays := rfl
@[simp] theorem setMiso_pool (l : List Byte) (s : State) : (setMiso l s).pool = s.pool := rfl
@[simp] theorem setMiso_queue (l : List Byte) (s : State) : (setMiso l s).queue = s.queue := rfl
@[simp] theorem setMiso_journal (l : List Byte) (s : State) : (setMiso l s).journal = s.journal := rfl
@[simp] theorem setMiso_shelf (l : List Byte) (s : State) : (setMiso l s).shelf = s.shelf := rfl
@[simp] theorem setMiso_supply (l : List Byte) (s : State) : (setMiso l s).supply = s.supply := rfl
@[simp] theorem setMiso_attnPending (l : List Byte) (s : State) : (setMiso l s).attnPending = s.attnPending := rfl
@[simp] theorem setMiso_attnEnable (l : List Byte) (s : State) : (setMiso l s).attnEnable = s.attnEnable := rfl
@[simp] theorem setMiso_window (l : List Byte) (s : State) : (setMiso l s).window = s.window := rfl
@[simp] theorem setMiso_port (l : List Byte) (s : State) : (setMiso l s).port = s.port := rfl
@[simp] theorem setMiso_miso (l : List Byte) (s : State) : (setMiso l s).miso = l := rfl
@[simp] theorem setMiso_timeBase (l : List Byte) (s : State) : (setMiso l s).timeBase = s.timeBase := rfl
@[simp] theorem setMiso_pending (l : List Byte) (s : State) : (setMiso l s).pending = s.pending := rfl

/-! ## setPort -/

@[simp] theorem setPort_bays (p : SpiPort) (s : State) : (setPort p s).bays = s.bays := rfl
@[simp] theorem setPort_pool (p : SpiPort) (s : State) : (setPort p s).pool = s.pool := rfl
@[simp] theorem setPort_queue (p : SpiPort) (s : State) : (setPort p s).queue = s.queue := rfl
@[simp] theorem setPort_journal (p : SpiPort) (s : State) : (setPort p s).journal = s.journal := rfl
@[simp] theorem setPort_shelf (p : SpiPort) (s : State) : (setPort p s).shelf = s.shelf := rfl
@[simp] theorem setPort_supply (p : SpiPort) (s : State) : (setPort p s).supply = s.supply := rfl
@[simp] theorem setPort_attnPending (p : SpiPort) (s : State) : (setPort p s).attnPending = s.attnPending := rfl
@[simp] theorem setPort_attnEnable (p : SpiPort) (s : State) : (setPort p s).attnEnable = s.attnEnable := rfl
@[simp] theorem setPort_window (p : SpiPort) (s : State) : (setPort p s).window = s.window := rfl
@[simp] theorem setPort_port (p : SpiPort) (s : State) : (setPort p s).port = p := rfl
@[simp] theorem setPort_miso (p : SpiPort) (s : State) : (setPort p s).miso = s.miso := rfl
@[simp] theorem setPort_timeBase (p : SpiPort) (s : State) : (setPort p s).timeBase = s.timeBase := rfl
@[simp] theorem setPort_pending (p : SpiPort) (s : State) : (setPort p s).pending = s.pending := rfl

/-! ## The bays -/

theorem bay_of_bays {s t : State} (h : t.bays = s.bays) (b : BayId) : t.bay b = s.bay b := by
  unfold State.bay; rw [h]

@[simp] theorem modBay_bay_self (b : BayId) (f : Bay → Bay) (s : State) : (modBay b f s).bay b = f (s.bay b) := by
  simp [modBay, State.bay]

@[simp] theorem modBay_bay_ne {b c : BayId} (h : c ≠ b) (f : Bay → Bay) (s : State) :
    (modBay b f s).bay c = s.bay c := by
  have : (b : Nat) ≠ (c : Nat) := fun e => h (Fin.ext e.symm)
  simp [modBay, State.bay, Vector.getElem_set_ne, this]

theorem modBay_bay (b c : BayId) (f : Bay → Bay) (s : State) :
    (modBay b f s).bay c = if c = b then f (s.bay b) else s.bay c := by
  by_cases h : c = b
  · subst h; simp
  · simp [h]

/-- Two changes of one bay are one. -/
theorem modBay_modBay (b : BayId) (g f : Bay → Bay) (s : State) :
    modBay b g (modBay b f s) = modBay b (fun y => g (f y)) s := by
  unfold modBay
  have h : ({ s with bays := s.bays.set b (f (s.bay b)) } : State).bay b = f (s.bay b) := modBay_bay_self b f s
  rw [h]
  simp [Vector.set_set]

@[simp] theorem modCtx_bay_self (b : BayId) (f : BayContext → BayContext) (s : State) :
    (modCtx b f s).bay b = { s.bay b with ctx := f (s.bay b).ctx } := modBay_bay_self b _ s

@[simp] theorem modCtx_bay_ne {b c : BayId} (h : c ≠ b) (f : BayContext → BayContext) (s : State) :
    (modCtx b f s).bay c = s.bay c := modBay_bay_ne h _ s

@[simp] theorem modInputs_bay_self (b : BayId) (f : BayInputs → BayInputs) (s : State) :
    (modInputs b f s).bay b = { s.bay b with inputs := f (s.bay b).inputs } := modBay_bay_self b _ s

@[simp] theorem modInputs_bay_ne {b c : BayId} (h : c ≠ b) (f : BayInputs → BayInputs) (s : State) :
    (modInputs b f s).bay c = s.bay c := modBay_bay_ne h _ s

@[simp] theorem modLink_bay_self (b : BayId) (f : LinkEngine → LinkEngine) (s : State) :
    (modLink b f s).bay b = { s.bay b with link := f (s.bay b).link } := modBay_bay_self b _ s

@[simp] theorem modLink_bay_ne {b c : BayId} (h : c ≠ b) (f : LinkEngine → LinkEngine) (s : State) :
    (modLink b f s).bay c = s.bay c := modBay_bay_ne h _ s

@[simp] theorem modDialogue_bay_self (b : BayId) (f : DialogueUnit → DialogueUnit) (s : State) :
    (modDialogue b f s).bay b = { s.bay b with dialogue := f (s.bay b).dialogue } := modBay_bay_self b _ s

@[simp] theorem modDialogue_bay_ne {b c : BayId} (h : c ≠ b) (f : DialogueUnit → DialogueUnit) (s : State) :
    (modDialogue b f s).bay c = s.bay c := modBay_bay_ne h _ s

@[simp] theorem modShelf_bay (f : Shelf → Shelf) (s : State) (c : BayId) : (modShelf f s).bay c = s.bay c := rfl
@[simp] theorem modPool_bay (f : Pool → Pool) (s : State) (c : BayId) : (modPool f s).bay c = s.bay c := rfl
@[simp] theorem modJournal_bay (f : Journal → Journal) (s : State) (c : BayId) : (modJournal f s).bay c = s.bay c := rfl
@[simp] theorem modAttn_bay (f : Causes → Causes) (s : State) (c : BayId) : (modAttn f s).bay c = s.bay c := rfl
@[simp] theorem setQueue_bay (q : List QueueEntry) (s : State) (c : BayId) : (setQueue q s).bay c = s.bay c := rfl
@[simp] theorem setWindow_bay (m : Memory) (s : State) (c : BayId) : (setWindow m s).bay c = s.bay c := rfl
@[simp] theorem setMiso_bay (l : List Byte) (s : State) (c : BayId) : (setMiso l s).bay c = s.bay c := rfl
@[simp] theorem setPort_bay (p : SpiPort) (s : State) (c : BayId) : (setPort p s).bay c = s.bay c := rfl

end Sys2Proof.Machine
end

