-- ==== Sys2Proof/Laws/Journal.lean ====
section
/-! SUPPORT. What submitting a record can do, said once: everything outside the Journal Writer, the ring and the JOURNAL and
OVERFLOW causes is untouched, and the Writer's invariants are kept. -/

namespace Sys2Proof.Machine

/-! ## Lengths -/

theorem roundUp8_mod (n : Nat) : roundUp8 n % 8 = 0 := by unfold roundUp8; omega

theorem le_roundUp8 (n : Nat) : n ≤ roundUp8 n := by unfold roundUp8; omega

theorem Record.length_mod (r : Record) : r.length % 8 = 0 := roundUp8_mod _

theorem Snapshot.length_mod (p : Snapshot) : p.length % 8 = 0 := by unfold Snapshot.length; omega

theorem padTo_length (n : Nat) (l : List Byte) : (padTo n l).length = n := by
  unfold padTo
  rw [List.length_take, List.length_append, List.length_replicate]
  omega

/-! ## Head moved (R147) -/

theorem ringPosition_lt (o : Nat) (w : Bool) (h : o < Config.ringSize) : ringPosition o w < 2 * Config.ringSize := by
  unfold ringPosition
  split <;> omega

theorem Journal.position_advance (n : Nat) (j : Journal) :
    ringPosition (j.advance n).head (j.advance n).headWrap
      = (ringPosition j.head j.headWrap + n) % (2 * Config.ringSize) := by
  unfold Journal.advance
  generalize ringPosition j.head j.headWrap + n = p
  have hp : p % (2 * Config.ringSize) < 2 * Config.ringSize := Nat.mod_lt _ (by decide)
  generalize p % (2 * Config.ringSize) = q at hp
  show q % 4096 + (if decide (4096 ≤ q) = true then 4096 else 0) = q
  have hq : q < 8192 := hp
  by_cases h : 4096 ≤ q
  · rw [decide_eq_true h, if_pos rfl]; omega
  · rw [decide_eq_false h, if_neg (by decide)]; omega

/-- Head advanced within the room: Unread grows by the bytes written. -/
theorem Journal.unread_advance (n : Nat) (j : Journal) (hj : j.positionsOk) (hn : n + j.unread < 2 * Config.ringSize) :
    (j.advance n).unread = j.unread + n := by
  have hp := j.position_advance n
  have ht := ringPosition_lt j.tail j.tailWrap hj.2.2.2.1
  have hh := ringPosition_lt j.head j.headWrap hj.2.1
  unfold Journal.unread at hn ⊢
  rw [hp]
  show (_ + 2 * Config.ringSize - ringPosition j.tail j.tailWrap) % _ = _
  generalize ringPosition j.tail j.tailWrap = t at *
  generalize ringPosition j.head j.headWrap = h at *
  simp only [Config.ringSize] at *
  omega

theorem Journal.positionsOk_advance (n : Nat) (j : Journal) (hj : j.positionsOk) (h8 : n % 8 = 0)
    (hn : n + j.unread ≤ 4088) : (j.advance n).positionsOk := by
  have hu := Journal.unread_advance n j hj (by simp only [Config.ringSize]; omega)
  obtain ⟨h1, h2, h3, h4, h5⟩ := hj
  refine ⟨?_, ?_, h3, h4, by omega⟩
  · unfold Journal.advance ringPosition
    simp only [Config.ringSize] at *
    split <;> omega
  · unfold Journal.advance
    simp only [Config.ringSize]
    omega

theorem Journal.gapLength_mod (j : Journal) : j.gapLength % 8 = 0 := by unfold Journal.gapLength; split <;> rfl

theorem Journal.recordStart_mod (j : Journal) (hj : j.positionsOk) : j.recordStart % 8 = 0 := by
  have h := j.gapLength_mod
  have h1 := hj.1
  show ((j.head + j.gapLength) % 4096) % 8 = 0
  omega

theorem Journal.padLength_mod (j : Journal) (n : Nat) (hj : j.positionsOk) : j.padLength n % 8 = 0 := by
  have h := j.recordStart_mod hj
  have hs : Config.ringSize = 4096 := rfl
  unfold Journal.padLength
  split <;> omega

/-- A record that fits leaves Unread at most 4088 (R151). -/
theorem Journal.fits_room (j : Journal) (n : Nat) (h : j.fits n = true) :
    j.gapLength + j.padLength n + n + j.unread ≤ 4088 := by
  unfold Journal.fits Journal.free at h
  simp only [Config.ringSize] at h
  have := of_decide_eq_true h
  omega

/-! ## The effect -/

/-- Everything that a submission can do. -/
structure Journaled (s t : State) : Prop where
  bays : t.bays = s.bays
  pool : t.pool = s.pool
  queue : t.queue = s.queue
  shelf : t.shelf = s.shelf
  supply : t.supply = s.supply
  enable : t.attnEnable = s.attnEnable
  miso : t.miso = s.miso
  timeBase : t.timeBase = s.timeBase
  pending : t.pending = s.pending
  tail : t.journal.tail = s.journal.tail
  tailWrap : t.journal.tailWrap = s.journal.tailWrap
  badTail : t.journal.badTail = s.journal.badTail
  shelfTime : t.journal.shelfTime = s.journal.shelfTime
  waiting : t.journal.waitingSnapshot = s.journal.waitingSnapshot
  fault : t.attnPending.fault = s.attnPending.fault
  wake : t.attnPending.wake = s.attnPending.wake
  journalSet : s.attnPending.journal = true → t.attnPending.journal = true
  overflowSet : s.attnPending.overflow = true → t.attnPending.overflow = true
  below : ∀ a, a < Config.ringBase → t.window.read a = s.window.read a
  window : s.windowOk → t.windowOk
  positions : s.journal.positionsOk → t.journal.positionsOk
  loss : s.journal.lossOk → t.journal.lossOk

theorem Journaled.refl (s : State) : Journaled s s := by
  constructor <;> simp

theorem Journaled.trans {s t u : State} (h : Journaled s t) (k : Journaled t u) : Journaled s u where
  bays := k.bays.trans h.bays
  pool := k.pool.trans h.pool
  queue := k.queue.trans h.queue
  shelf := k.shelf.trans h.shelf
  supply := k.supply.trans h.supply
  enable := k.enable.trans h.enable
  miso := k.miso.trans h.miso
  timeBase := k.timeBase.trans h.timeBase
  pending := k.pending.trans h.pending
  tail := k.tail.trans h.tail
  tailWrap := k.tailWrap.trans h.tailWrap
  badTail := k.badTail.trans h.badTail
  shelfTime := k.shelfTime.trans h.shelfTime
  waiting := k.waiting.trans h.waiting
  fault := k.fault.trans h.fault
  wake := k.wake.trans h.wake
  journalSet := fun x => k.journalSet (h.journalSet x)
  overflowSet := fun x => k.overflowSet (h.overflowSet x)
  below := fun a ha => (k.below a ha).trans (h.below a ha)
  window := fun x => k.window (h.window x)
  positions := fun x => k.positions (h.positions x)
  loss := fun x => k.loss (h.loss x)

/-- Bytes written into the ring. -/
theorem journaled_ringWrite (o : Nat) (l : List Byte) (s : State) : Journaled s (ringWrite o l s) := by
  constructor <;> try simp [ringWrite]
  · intro a ha
    exact Memory.read_writeBytes_other _ _ _ _ (Or.inl (by omega))
  · intro h
    exact Memory.wf_writeBytes _ _ _ h

/-- A change of the Writer that leaves its positions and its account of losses alone. -/
theorem journaled_modJournal (f : Journal → Journal) (s : State)
    (hf : ∀ j : Journal, (f j).head = j.head ∧ (f j).headWrap = j.headWrap ∧ (f j).tail = j.tail
      ∧ (f j).tailWrap = j.tailWrap ∧ (f j).lost = j.lost ∧ (f j).overflow = j.overflow ∧ (f j).badTail = j.badTail
      ∧ (f j).shelfTime = j.shelfTime ∧ (f j).waitingSnapshot = j.waitingSnapshot) :
    Journaled s (modJournal f s) := by
  obtain ⟨h1, h2, h3, h4, h5, h6, h7, h8, h9⟩ := hf s.journal
  constructor <;> try simp [modJournal, h3, h4, h7, h8, h9, Journal.lossOk, h5, h6]
  · exact fun h => h
  · intro h
    simpa only [Journal.positionsOk, Journal.unread, h1, h2, h3, h4] using h

theorem journaled_setJournal (s : State) : Journaled s (modAttn (fun c => { c with journal := true }) s) := by
  constructor <;> first | rfl | exact fun h => h | exact fun _ _ => rfl | exact fun _ => rfl

theorem journaled_writeGap (s : State) : Journaled s (writeGap s) := by
  unfold writeGap
  split
  · exact (journaled_ringWrite _ _ _).trans (journaled_modJournal _ _ (fun _ => ⟨rfl, rfl, rfl, rfl, rfl, rfl, rfl, rfl, rfl⟩))
  · exact Journaled.refl s

theorem journaled_writePad (o n : Nat) (s : State) : Journaled s (writePad o n s) := by
  unfold writePad
  split
  · exact Journaled.refl s
  · exact (journaled_ringWrite _ _ _).trans (journaled_modJournal _ _ (fun _ => ⟨rfl, rfl, rfl, rfl, rfl, rfl, rfl, rfl, rfl⟩))

theorem journaled_writeRecord (k : Nat) (b : Byte) (t : BitVec 32) (l : List Byte) (n o : Nat) (s : State) :
    Journaled s (writeRecord k b t l n o s) :=
  (journaled_ringWrite _ _ _).trans (journaled_modJournal _ _ (fun _ => ⟨rfl, rfl, rfl, rfl, rfl, rfl, rfl, rfl, rfl⟩))

theorem journaled_startHoldoff (s : State) : Journaled s (startHoldoff s) := by
  unfold startHoldoff
  split
  · exact journaled_setJournal s
  · exact journaled_modJournal _ _ (fun _ => ⟨rfl, rfl, rfl, rfl, rfl, rfl, rfl, rfl, rfl⟩)

theorem journaled_stopHoldoff (s : State) : Journaled s (modJournal (fun j => { j with holdoffTimer := none }) s) :=
  journaled_modJournal _ _ (fun _ => ⟨rfl, rfl, rfl, rfl, rfl, rfl, rfl, rfl, rfl⟩)

theorem journaled_causeAfterAppend (u : Nat) (s : State) : Journaled s (causeAfterAppend u s) := by
  unfold causeAfterAppend
  have h1 : Journaled s (if u = 0 ∧ 0 < s.journal.unread ∧ s.attnPending.journal = false then startHoldoff s else s) := by
    split
    · exact journaled_startHoldoff s
    · exact Journaled.refl s
  generalize (if u = 0 ∧ 0 < s.journal.unread ∧ s.attnPending.journal = false then startHoldoff s else s) = t at h1
  refine h1.trans ?_
  show Journaled t (if _ then _ else _)
  split
  · exact (journaled_stopHoldoff _).trans (journaled_setJournal _)
  · exact Journaled.refl _

/-- The positions and the account of losses of the Writer, as an append finds them. -/
def Journal.sameAccount (j k : Journal) : Prop :=
  k.head = j.head ∧ k.headWrap = j.headWrap ∧ k.tail = j.tail ∧ k.tailWrap = j.tailWrap ∧ k.lost = j.lost
    ∧ k.overflow = j.overflow

theorem account_writeGap (s : State) : s.journal.sameAccount (writeGap s).journal := by
  unfold writeGap
  split <;> exact ⟨rfl, rfl, rfl, rfl, rfl, rfl⟩

theorem account_writePad (o n : Nat) (s : State) : s.journal.sameAccount (writePad o n s).journal := by
  unfold writePad
  split <;> exact ⟨rfl, rfl, rfl, rfl, rfl, rfl⟩

theorem account_written (j : Journal) (k : Nat) (b : Byte) (t : BitVec 32) (l : List Byte) (n : Nat) (s : State) :
    s.journal.sameAccount
      (writeRecord k b t l n (j.recordOffset n) (writePad j.recordStart (j.padLength n) (writeGap s))).journal := by
  have h1 := account_writeGap s
  have h2 := account_writePad j.recordStart (j.padLength n) (writeGap s)
  unfold Journal.sameAccount at *
  obtain ⟨a1, a2, a3, a4, a5, a6⟩ := h1
  obtain ⟨b1, b2, b3, b4, b5, b6⟩ := h2
  exact ⟨b1.trans a1, b2.trans a2, b3.trans a3, b4.trans a4, b5.trans a5, b6.trans a6⟩

/-- Head moved past what was written, with the loss account settled (R152, R154). -/
theorem journaled_moveHead (n : Nat) (j : Journal) (s : State) (hs : j.sameAccount s.journal) (h8 : j.positionsOk → n % 8 = 0)
    (hn : n + j.unread ≤ 4088) :
    Journaled s (modJournal (fun k =>
      { Journal.advance n k with lost := if j.overflow then 0 else k.lost, overflow := false }) s) := by
  obtain ⟨e1, e2, e3, e4, e5, e6⟩ := hs
  have hp : s.journal.positionsOk ↔ j.positionsOk := by
    simp only [Journal.positionsOk, Journal.unread, e1, e2, e3, e4]
  have hu : s.journal.unread = j.unread := by simp only [Journal.unread, e1, e2, e3, e4]
  constructor <;> try (first | rfl | exact fun h => h | exact fun _ _ => rfl)
  · intro h
    have := Journal.positionsOk_advance n s.journal h (h8 (hp.mp h)) (by omega)
    exact this
  · intro h
    unfold Journal.lossOk at h ⊢
    rw [e5, e6] at h
    show false = true ↔ 0 < (if j.overflow = true then 0 else s.journal.lost)
    cases hj : j.overflow
    · rw [hj] at h
      simpa [e5] using h
    · simp

/-- An append of a record that fits. -/
theorem journaled_appendAt (kind : Nat) (bay : Byte) (time : BitVec 32) (body : List Byte) (n : Nat) (s : State)
    (hfit : s.journal.fits n = true) (h8 : n % 8 = 0) :
    Journaled s (appendAt s.journal kind bay time body n s) := by
  unfold appendAt
  have hroom := s.journal.fits_room n hfit
  refine Journaled.trans ?_ (journaled_causeAfterAppend _ _)
  have h1 := journaled_writeGap s
  have h2 := journaled_writePad s.journal.recordStart (s.journal.padLength n) (writeGap s)
  have h3 := journaled_writeRecord kind bay time body n (s.journal.recordOffset n)
    (writePad s.journal.recordStart (s.journal.padLength n) (writeGap s))
  refine ((h1.trans h2).trans h3).trans ?_
  refine journaled_moveHead _ s.journal _ (account_written s.journal _ _ _ _ _ s) (fun hp => ?_) hroom
  have h1 := s.journal.gapLength_mod
  have h2 := s.journal.padLength_mod n hp
  omega

theorem journaled_loseRecord (s : State) : Journaled s (loseRecord s) := by
  constructor <;> try simp [loseRecord, modJournal, modAttn]
  · intro h; exact Or.inl h
  · exact fun h => h
  · intro h; exact h
  · intro _; simp only [Journal.lossOk, true_iff]; omega

/-- The one lemma about a submission. -/
theorem journaled_submit (r : Record) (s : State) : Journaled s (submit r s) := by
  unfold submit
  split
  · rename_i h
    exact journaled_appendAt _ _ _ _ _ s (by simp_all) r.length_mod
  · exact journaled_loseRecord s

/-! ## Field by field -/

@[simp] theorem submit_bays (r : Record) (s : State) : (submit r s).bays = s.bays := (journaled_submit r s).bays
@[simp] theorem submit_bay (r : Record) (s : State) (b : BayId) : (submit r s).bay b = s.bay b := by
  simp only [State.bay, submit_bays]
@[simp] theorem submit_pool (r : Record) (s : State) : (submit r s).pool = s.pool := (journaled_submit r s).pool
@[simp] theorem submit_queue (r : Record) (s : State) : (submit r s).queue = s.queue := (journaled_submit r s).queue
@[simp] theorem submit_shelf (r : Record) (s : State) : (submit r s).shelf = s.shelf := (journaled_submit r s).shelf
@[simp] theorem submit_supply (r : Record) (s : State) : (submit r s).supply = s.supply := (journaled_submit r s).supply
@[simp] theorem submit_attnEnable (r : Record) (s : State) : (submit r s).attnEnable = s.attnEnable :=
  (journaled_submit r s).enable
@[simp] theorem submit_miso (r : Record) (s : State) : (submit r s).miso = s.miso := (journaled_submit r s).miso
@[simp] theorem submit_timeBase (r : Record) (s : State) : (submit r s).timeBase = s.timeBase :=
  (journaled_submit r s).timeBase
@[simp] theorem submit_pending (r : Record) (s : State) : (submit r s).pending = s.pending :=
  (journaled_submit r s).pending
@[simp] theorem submit_stateOf (r : Record) (s : State) (b : BayId) : (submit r s).stateOf b = s.stateOf b := by
  simp only [State.stateOf, submit_bay]
@[simp] theorem submit_intentOf (r : Record) (s : State) (b : BayId) : (submit r s).intentOf b = s.intentOf b := by
  simp only [State.intentOf, submit_bay]

end Sys2Proof.Machine
end

