-- ==== Sys2Proof/Laws/Effects.lean ====
section
/-! SUPPORT. What an operation for some bays can do, said once: `Touches B s t` holds of every operation of the Sequencer and
the Admission Controller made for bays of `B`, and it gives the frame (the other bays, their queue entries, the window
outside the ring and the locked groups of `B`) together with the invariants that the operation keeps. -/

namespace Sys2Proof.Machine

/-! ## Kept invariants -/

/-- The invariants that single blocks keep; and an operation that is not a reset leads into no INIT. -/
structure Keeps (s t : State) : Prop where
  order : queueOrdered s.queue → queueOrdered t.queue
  window : s.windowOk → t.windowOk
  charges : s.chargesOk → t.chargesOk
  positions : s.journal.positionsOk → t.journal.positionsOk
  loss : s.journal.lossOk → t.journal.lossOk
  snapshot : s.snapshotOk → t.snapshotOk
  pool : s.poolOk → t.poolOk
  filters : (∀ b, (s.bay b).filterOk) → ∀ b, (t.bay b).filterOk
  timers : (∀ b, (s.bay b).timerOk) → ∀ b, (t.bay b).timerOk
  notInit : s.shelf.state ≠ .init → t.shelf.state ≠ .init
  enable : t.attnEnable = s.attnEnable
  pending : t.pending = s.pending

theorem Keeps.refl (s : State) : Keeps s s := by constructor <;> first | rfl | exact fun h => h

theorem Keeps.trans {s t u : State} (h : Keeps s t) (k : Keeps t u) : Keeps s u where
  order := k.order ∘ h.order
  window := k.window ∘ h.window
  charges := k.charges ∘ h.charges
  positions := k.positions ∘ h.positions
  loss := k.loss ∘ h.loss
  snapshot := k.snapshot ∘ h.snapshot
  pool := k.pool ∘ h.pool
  filters := k.filters ∘ h.filters
  timers := k.timers ∘ h.timers
  notInit := k.notInit ∘ h.notInit
  enable := k.enable.trans h.enable
  pending := k.pending.trans h.pending

/-! ## The frame -/

/-- Everything that operations made for the bays of `B` can do. -/
structure Touches (B : BayId → Prop) (s t : State) : Prop where
  others : ∀ b, ¬ B b → t.bay b = s.bay b
  entries : ∀ b, ¬ B b → entriesOf t.queue b = entriesOf s.queue b
  order : queueOrdered s.queue → queueOrdered t.queue
  shelf : t.shelf = s.shelf
  budget : t.pool.budget = s.pool.budget
  reserve : t.pool.reserve = s.pool.reserve
  lowBudget : t.pool.lowBudget = s.pool.lowBudget
  supplyLow : t.pool.supplyLow = s.pool.supplyLow
  effective : t.pool.effectiveBudget = s.pool.effectiveBudget
  supply : t.supply = s.supply
  enable : t.attnEnable = s.attnEnable
  miso : t.miso = s.miso
  timeBase : t.timeBase = s.timeBase
  pending : t.pending = s.pending
  tail : t.journal.tail = s.journal.tail
  tailWrap : t.journal.tailWrap = s.journal.tailWrap
  badTail : t.journal.badTail = s.journal.badTail
  shelfTime : t.journal.shelfTime = s.journal.shelfTime
  waiting : t.journal.waitingSnapshot = s.journal.waitingSnapshot
  wake : t.attnPending.wake = s.attnPending.wake
  faultSet : s.attnPending.fault = true → t.attnPending.fault = true
  journalSet : s.attnPending.journal = true → t.attnPending.journal = true
  overflowSet : s.attnPending.overflow = true → t.attnPending.overflow = true
  below : ∀ a, a < Config.ringBase → (∀ b, B b → a < intentAddr b 4 ∨ intentAddr b 0x13 ≤ a) →
    t.window.read a = s.window.read a
  window : s.windowOk → t.windowOk
  charges : s.chargesOk → t.chargesOk
  positions : s.journal.positionsOk → t.journal.positionsOk
  loss : s.journal.lossOk → t.journal.lossOk
  filters : (∀ b, (s.bay b).filterOk) → ∀ b, (t.bay b).filterOk
  timers : (∀ b, (s.bay b).timerOk) → ∀ b, (t.bay b).timerOk

variable {B : BayId → Prop} {r s : State} {b : BayId}

theorem Touches.refl (B : BayId → Prop) (s : State) : Touches B s s where
  others := fun _ _ => rfl
  entries := fun _ _ => rfl
  order := fun k => k
  shelf := rfl
  budget := rfl
  reserve := rfl
  lowBudget := rfl
  supplyLow := rfl
  effective := rfl
  supply := rfl
  enable := rfl
  miso := rfl
  timeBase := rfl
  pending := rfl
  tail := rfl
  tailWrap := rfl
  badTail := rfl
  shelfTime := rfl
  waiting := rfl
  wake := rfl
  faultSet := fun k => k
  journalSet := fun k => k
  overflowSet := fun k => k
  below := fun _ _ _ => rfl
  window := fun k => k
  charges := fun k => k
  positions := fun k => k
  loss := fun k => k
  filters := fun k => k
  timers := fun k => k

theorem Touches.trans {t : State} (h : Touches B r s) (k : Touches B s t) : Touches B r t where
  others := fun b hb => (k.others b hb).trans (h.others b hb)
  entries := fun b hb => (k.entries b hb).trans (h.entries b hb)
  order := k.order ∘ h.order
  shelf := k.shelf.trans h.shelf
  budget := k.budget.trans h.budget
  reserve := k.reserve.trans h.reserve
  lowBudget := k.lowBudget.trans h.lowBudget
  supplyLow := k.supplyLow.trans h.supplyLow
  effective := k.effective.trans h.effective
  supply := k.supply.trans h.supply
  enable := k.enable.trans h.enable
  miso := k.miso.trans h.miso
  timeBase := k.timeBase.trans h.timeBase
  pending := k.pending.trans h.pending
  tail := k.tail.trans h.tail
  tailWrap := k.tailWrap.trans h.tailWrap
  badTail := k.badTail.trans h.badTail
  shelfTime := k.shelfTime.trans h.shelfTime
  waiting := k.waiting.trans h.waiting
  wake := k.wake.trans h.wake
  faultSet := k.faultSet ∘ h.faultSet
  journalSet := k.journalSet ∘ h.journalSet
  overflowSet := k.overflowSet ∘ h.overflowSet
  below := fun a ha ho => (k.below a ha ho).trans (h.below a ha ho)
  window := k.window ∘ h.window
  charges := k.charges ∘ h.charges
  positions := k.positions ∘ h.positions
  loss := k.loss ∘ h.loss
  filters := k.filters ∘ h.filters
  timers := k.timers ∘ h.timers

theorem Touches.mono {C : BayId → Prop} (h : Touches B r s) (hBC : ∀ b, B b → C b) : Touches C r s :=
  { h with
    others := fun b hb => h.others b (fun x => hb (hBC b x))
    entries := fun b hb => h.entries b (fun x => hb (hBC b x))
    below := fun a ha ho => h.below a ha (fun b hb => ho b (hBC b hb)) }

theorem Touches.keeps (h : Touches B r s) : Keeps r s where
  order := h.order
  window := h.window
  charges := h.charges
  positions := h.positions
  loss := h.loss
  snapshot := by
    intro k
    unfold State.snapshotOk at k ⊢
    rw [h.shelf, h.waiting]
    exact k
  pool := by
    intro k
    unfold State.poolOk derivedBudget at k ⊢
    rw [h.shelf, h.budget, h.reserve, h.lowBudget, h.supplyLow, h.effective, h.supply]
    exact k
  filters := h.filters
  timers := h.timers
  notInit := fun k => by rw [h.shelf]; exact k
  enable := h.enable
  pending := h.pending

/-! ## Charges -/

theorem chargeSum_eq (s : State) : s.chargeSum = ∑ b : BayId, (s.bay b).charge := by
  unfold State.chargeSum allBays
  exact (Fin.sum_univ_def _).symm

theorem chargeSum_congr {s t : State} (h : ∀ b, (t.bay b).charge = (s.bay b).charge) : t.chargeSum = s.chargeSum := by
  rw [chargeSum_eq, chargeSum_eq]
  exact Finset.sum_congr rfl (fun b _ => h b)

theorem chargeSum_setOne {s t : State} (b : BayId) (h : ∀ c, c ≠ b → (t.bay c).charge = (s.bay c).charge) :
    t.chargeSum + (s.bay b).charge = s.chargeSum + (t.bay b).charge := by
  rw [chargeSum_eq, chargeSum_eq, ← Finset.add_sum_erase _ _ (Finset.mem_univ b),
    ← Finset.add_sum_erase (a := b) Finset.univ (fun c => (s.bay c).charge) (Finset.mem_univ b)]
  have : ∑ x ∈ Finset.univ.erase b, (t.bay x).charge = ∑ x ∈ Finset.univ.erase b, (s.bay x).charge :=
    Finset.sum_congr rfl (fun c hc => h c (Finset.ne_of_mem_erase hc))
  omega

/-! ## Single updates -/

theorem ne_of_not {c : BayId} (hb : B b) (hc : ¬ B c) : c ≠ b := fun e => hc (e ▸ hb)

/-- A change of one bay that keeps its charge and its own invariants. -/
theorem touches_modBay (hb : B b) (f : Bay → Bay) (s : State)
    (hc : (f (s.bay b)).charge = (s.bay b).charge) (hf : (s.bay b).filterOk → (f (s.bay b)).filterOk)
    (ht : (s.bay b).timerOk → (f (s.bay b)).timerOk) : Touches B s (modBay b f s) where
  others := fun c hc => modBay_bay_ne (ne_of_not hb hc) f s
  entries := fun _ _ => rfl
  order := fun k => k
  shelf := rfl
  budget := rfl
  reserve := rfl
  lowBudget := rfl
  supplyLow := rfl
  effective := rfl
  supply := rfl
  enable := rfl
  miso := rfl
  timeBase := rfl
  pending := rfl
  tail := rfl
  tailWrap := rfl
  badTail := rfl
  shelfTime := rfl
  waiting := rfl
  wake := rfl
  faultSet := fun k => k
  journalSet := fun k => k
  overflowSet := fun k => k
  below := fun _ _ _ => rfl
  window := fun k => k
  charges := by
    intro h
    unfold State.chargesOk at h ⊢
    rw [modBay_pool, h]
    refine (chargeSum_congr (fun c => ?_)).symm
    by_cases e : c = b
    · subst e; rw [modBay_bay_self, hc]
    · rw [modBay_bay_ne e f s]
  positions := fun k => k
  loss := fun k => k
  filters := by
    intro h c
    by_cases e : c = b
    · subst e; rw [modBay_bay_self]; exact hf (h c)
    · rw [modBay_bay_ne e f s]; exact h c
  timers := by
    intro h c
    by_cases e : c = b
    · subst e; rw [modBay_bay_self]; exact ht (h c)
    · rw [modBay_bay_ne e f s]; exact h c

theorem touches_modCtx (hb : B b) (f : BayContext → BayContext) (s : State)
    (hi : (f (s.bay b).ctx).intent = (s.bay b).ctx.intent)
    (ht : (f (s.bay b).ctx).state = (s.bay b).ctx.state ∧ (f (s.bay b).ctx).phaseTimer = (s.bay b).ctx.phaseTimer) :
    Touches B s (modCtx b f s) := by
  refine touches_modBay hb _ s rfl (fun h => ?_) (fun h => ?_)
  · simpa only [Bay.filterOk, hi] using h
  · simpa only [Bay.timerOk, ht.1, ht.2] using h

theorem touches_modLink (hb : B b) (f : LinkEngine → LinkEngine) (s : State) : Touches B s (modLink b f s) :=
  touches_modBay hb _ s rfl (fun h => h) (fun h => h)

theorem touches_modDialogue (hb : B b) (f : DialogueUnit → DialogueUnit) (s : State) : Touches B s (modDialogue b f s) :=
  touches_modBay hb _ s rfl (fun h => h) (fun h => h)

theorem touches_modInputs (hb : B b) (f : BayInputs → BayInputs) (s : State)
    (hf : (s.bay b).filterOk → ({ s.bay b with inputs := f (s.bay b).inputs } : Bay).filterOk) :
    Touches B s (modInputs b f s) :=
  touches_modBay hb _ s rfl hf (fun h => h)

theorem setCharge_bay_self (b : BayId) (v : Nat) (s : State) :
    (setCharge b v s).bay b = { s.bay b with charge := v } :=
  modBay_bay_self b (fun y => { y with charge := v }) s

theorem setCharge_bay_ne (b c : BayId) (v : Nat) (s : State) (h : c ≠ b) : (setCharge b v s).bay c = s.bay c :=
  modBay_bay_ne h (fun y => { y with charge := v }) s

theorem touches_setCharge (hb : B b) (v : Nat) (s : State) : Touches B s (setCharge b v s) where
  others := fun c hc => setCharge_bay_ne b c v s (ne_of_not hb hc)
  entries := fun _ _ => rfl
  order := fun k => k
  shelf := rfl
  budget := rfl
  reserve := rfl
  lowBudget := rfl
  supplyLow := rfl
  effective := rfl
  supply := rfl
  enable := rfl
  miso := rfl
  timeBase := rfl
  pending := rfl
  tail := rfl
  tailWrap := rfl
  badTail := rfl
  shelfTime := rfl
  waiting := rfl
  wake := rfl
  faultSet := fun k => k
  journalSet := fun k => k
  overflowSet := fun k => k
  below := fun _ _ _ => rfl
  window := fun k => k
  charges := by
    intro h
    have hsum := chargeSum_setOne (s := s) (t := setCharge b v s) b
      (fun c hc => by rw [setCharge_bay_ne b c v s hc])
    rw [setCharge_bay_self] at hsum
    unfold State.chargesOk at h ⊢
    show s.pool.committed + v - (s.bay b).charge = _
    simp only at hsum
    omega
  positions := fun k => k
  loss := fun k => k
  filters := by
    intro h c
    by_cases e : c = b
    · subst e; rw [setCharge_bay_self]; exact h c
    · rw [setCharge_bay_ne b c v s e]; exact h c
  timers := by
    intro h c
    by_cases e : c = b
    · subst e; rw [setCharge_bay_self]; exact h c
    · rw [setCharge_bay_ne b c v s e]; exact h c

theorem touches_setQueue (q : List QueueEntry) (s : State)
    (hq : ∀ c, ¬ B c → entriesOf q c = entriesOf s.queue c) (ho : queueOrdered s.queue → queueOrdered q) :
    Touches B s (setQueue q s) where
  others := fun _ _ => rfl
  entries := hq
  order := ho
  shelf := rfl
  budget := rfl
  reserve := rfl
  lowBudget := rfl
  supplyLow := rfl
  effective := rfl
  supply := rfl
  enable := rfl
  miso := rfl
  timeBase := rfl
  pending := rfl
  tail := rfl
  tailWrap := rfl
  badTail := rfl
  shelfTime := rfl
  waiting := rfl
  wake := rfl
  faultSet := fun k => k
  journalSet := fun k => k
  overflowSet := fun k => k
  below := fun _ _ _ => rfl
  window := fun k => k
  charges := fun k => k
  positions := fun k => k
  loss := fun k => k
  filters := fun k => k
  timers := fun k => k

theorem touches_advance (s : State) :
    Touches B s (modPool (fun p => { p with arrivalCounter := p.arrivalCounter + 1 }) s) where
  others := fun _ _ => rfl
  entries := fun _ _ => rfl
  order := fun k => k
  shelf := rfl
  budget := rfl
  reserve := rfl
  lowBudget := rfl
  supplyLow := rfl
  effective := rfl
  supply := rfl
  enable := rfl
  miso := rfl
  timeBase := rfl
  pending := rfl
  tail := rfl
  tailWrap := rfl
  badTail := rfl
  shelfTime := rfl
  waiting := rfl
  wake := rfl
  faultSet := fun k => k
  journalSet := fun k => k
  overflowSet := fun k => k
  below := fun _ _ _ => rfl
  window := fun k => k
  charges := fun k => k
  positions := fun k => k
  loss := fun k => k
  filters := fun k => k
  timers := fun k => k

theorem touches_raiseFault (s : State) : Touches B s (raiseFault s) where
  others := fun _ _ => rfl
  entries := fun _ _ => rfl
  order := fun k => k
  shelf := rfl
  budget := rfl
  reserve := rfl
  lowBudget := rfl
  supplyLow := rfl
  effective := rfl
  supply := rfl
  enable := rfl
  miso := rfl
  timeBase := rfl
  pending := rfl
  tail := rfl
  tailWrap := rfl
  badTail := rfl
  shelfTime := rfl
  waiting := rfl
  wake := rfl
  faultSet := fun _ => rfl
  journalSet := fun k => k
  overflowSet := fun k => k
  below := fun _ _ _ => rfl
  window := fun k => k
  charges := fun k => k
  positions := fun k => k
  loss := fun k => k
  filters := fun k => k
  timers := fun k => k

theorem touches_submit (x : Record) (s : State) : Touches B s (submit x s) where
  others := fun c _ => submit_bay x s c
  entries := fun c _ => by rw [submit_queue]
  order := fun k => by rw [submit_queue]; exact k
  shelf := submit_shelf x s
  budget := by rw [submit_pool]
  reserve := by rw [submit_pool]
  lowBudget := by rw [submit_pool]
  supplyLow := by rw [submit_pool]
  effective := by rw [submit_pool]
  supply := submit_supply x s
  enable := submit_attnEnable x s
  miso := submit_miso x s
  timeBase := submit_timeBase x s
  pending := submit_pending x s
  tail := (journaled_submit x s).tail
  tailWrap := (journaled_submit x s).tailWrap
  badTail := (journaled_submit x s).badTail
  shelfTime := (journaled_submit x s).shelfTime
  waiting := (journaled_submit x s).waiting
  wake := (journaled_submit x s).wake
  faultSet := fun k => by rw [(journaled_submit x s).fault]; exact k
  journalSet := (journaled_submit x s).journalSet
  overflowSet := (journaled_submit x s).overflowSet
  below := fun a ha _ => (journaled_submit x s).below a ha
  window := (journaled_submit x s).window
  charges := by
    intro h
    unfold State.chargesOk at h ⊢
    rw [submit_pool, h]
    exact (chargeSum_congr (fun c => by rw [submit_bay])).symm
  positions := (journaled_submit x s).positions
  loss := (journaled_submit x s).loss
  filters := fun k c => by rw [submit_bay]; exact k c
  timers := fun k c => by rw [submit_bay]; exact k c

theorem touches_lockedBytes (hb : B b) (l : List Byte) (hl : l.length = 15) (s : State) :
    Touches B s (setWindow (Memory.writeBytes s.window (intentAddr b 4) l) s) where
  others := fun _ _ => rfl
  entries := fun _ _ => rfl
  order := fun k => k
  shelf := rfl
  budget := rfl
  reserve := rfl
  lowBudget := rfl
  supplyLow := rfl
  effective := rfl
  supply := rfl
  enable := rfl
  miso := rfl
  timeBase := rfl
  pending := rfl
  tail := rfl
  tailWrap := rfl
  badTail := rfl
  shelfTime := rfl
  waiting := rfl
  wake := rfl
  faultSet := fun k => k
  journalSet := fun k => k
  overflowSet := fun k => k
  below := by
    intro a _ ho
    have h := ho b hb
    refine Memory.read_writeBytes_other _ _ _ _ ?_
    rw [hl]
    unfold intentAddr at *
    omega
  window := fun k => Memory.wf_writeBytes _ _ _ k
  charges := fun k => k
  positions := fun k => k
  loss := fun k => k
  filters := fun k => k
  timers := fun k => k

/-! ## The queue of one bay -/

theorem entriesOf_without (q : List QueueEntry) (b c : BayId) (h : c ≠ b) :
    entriesOf (queueWithout q b) c = entriesOf q c := by
  unfold entriesOf queueWithout
  rw [List.filter_filter]
  refine List.filter_congr (fun e _ => ?_)
  by_cases hc : e.bay = c
  · subst hc; simp [h]
  · simp [hc]

theorem entriesOf_without_self (q : List QueueEntry) (b : BayId) : entriesOf (queueWithout q b) b = [] := by
  unfold entriesOf queueWithout
  rw [List.filter_filter]
  refine List.filter_eq_nil_iff.mpr (fun e _ => ?_)
  by_cases h : e.bay = b <;> simp [h]

theorem entriesOf_replace (q : List QueueEntry) (b c : BayId) (amount : Nat) (clipped : Bool) (h : c ≠ b) :
    entriesOf (queueReplace b amount clipped q) c = entriesOf q c := by
  unfold entriesOf queueReplace
  induction q with
  | nil => rfl
  | cons e q ih =>
    rw [List.map_cons, List.filter_cons, List.filter_cons, ih]
    by_cases hb : e.bay = b
    · simp [hb, Ne.symm h]
    · simp [hb]

theorem entriesOf_insert (e : QueueEntry) (q : List QueueEntry) (c : BayId) (h : c ≠ e.bay) :
    entriesOf (queueInsert e q) c = entriesOf q c := by
  unfold entriesOf
  induction q with
  | nil => simp [queueInsert, Ne.symm h]
  | cons x q ih =>
    unfold queueInsert
    split
    · simp [List.filter_cons, Ne.symm h]
    · rw [List.filter_cons, List.filter_cons, ih]

theorem queueOrdered_without (b : BayId) {q : List QueueEntry} (h : queueOrdered q) : queueOrdered (queueWithout q b) :=
  List.Pairwise.filter _ h

theorem queueOrdered_replace (b : BayId) (amount : Nat) (clipped : Bool) {q : List QueueEntry} (h : queueOrdered q) :
    queueOrdered (queueReplace b amount clipped q) := by
  have hp : ∀ e : QueueEntry, (if e.bay == b then { e with amount := amount, clipped := clipped } else e).priority
      = e.priority := fun e => by split <;> rfl
  unfold queueOrdered queueReplace at *
  refine List.pairwise_map.mpr (h.imp (fun hxy => ?_))
  rw [hp, hp]
  exact hxy

/-- What may stand in the queue after an insertion. -/
theorem mem_queueInsert {e x : QueueEntry} {q : List QueueEntry} (h : x ∈ queueInsert e q) : x = e ∨ x ∈ q := by
  induction q with
  | nil => exact List.mem_cons.mp h
  | cons y q ih =>
    unfold queueInsert at h
    split at h
    · exact List.mem_cons.mp h
    · rcases List.mem_cons.mp h with rfl | h
      · exact .inr List.mem_cons_self
      · exact (ih h).imp_right (List.mem_cons_of_mem _)

theorem queueOrdered_insert (e : QueueEntry) {q : List QueueEntry} (h : queueOrdered q) : queueOrdered (queueInsert e q) := by
  unfold queueOrdered at *
  induction q with
  | nil => exact List.pairwise_singleton _ _
  | cons y q ih =>
    rw [List.pairwise_cons] at h
    unfold queueInsert
    split
    · rename_i ha
      have hy : e.priority ≤ y.priority := by
        simp only [QueueEntry.ahead, Bool.or_eq_true, decide_eq_true_eq, Bool.and_eq_true, beq_iff_eq] at ha
        omega
      refine List.pairwise_cons.mpr ⟨fun x hx => ?_, List.pairwise_cons.mpr h⟩
      rcases List.mem_cons.mp hx with rfl | hx
      · exact hy
      · exact Nat.le_trans hy (h.1 x hx)
    · rename_i ha
      have hy : y.priority ≤ e.priority := by
        simp only [QueueEntry.ahead, Bool.or_eq_true, decide_eq_true_eq, Bool.and_eq_true, beq_iff_eq] at ha
        omega
      refine List.pairwise_cons.mpr ⟨fun x hx => ?_, ih h.2⟩
      rcases mem_queueInsert hx with rfl | hx
      · exact hy
      · exact h.1 x hx

theorem queueEntryOf_eq (q : List QueueEntry) (b : BayId) : queueEntryOf q b = (entriesOf q b).head? := by
  unfold queueEntryOf entriesOf
  exact List.head?_filter.symm

theorem queueEntryOf_bay {q : List QueueEntry} {e : QueueEntry} (h : queueEntryOf q b = some e) : e.bay = b := by
  simpa using List.find?_some h

/-! ## The operations, each after what came before it -/

section
variable (hb : B b) (h : Touches B r s)
include h

theorem Touches.submit (x : Record) : Touches B r (Machine.submit x s) := h.trans (touches_submit x s)

theorem Touches.submitAdmit (c : BayId) (k : EntryKind) (o : AdmitOutcome) (n p : Nat) (x : Bool) :
    Touches B r (Machine.submitAdmit c k o n p x s) := h.submit _

include hb

theorem Touches.placeEntry (e : TxEntry) : Touches B r (Machine.placeEntry b e s) := by
  unfold Machine.placeEntry
  split
  · exact h.trans (touches_modLink hb _ s)
  · exact h

theorem Touches.grantCharge : Touches B r (Machine.grantCharge b s) := h.placeEntry hb _

theorem Touches.announceQueued (k : EntryKind) (n : Nat) (x : Bool) : Touches B r (Machine.announceQueued b k n x s) :=
  (h.submitAdmit _ _ _ _ _ _).placeEntry hb _

theorem Touches.without : Touches B r (setQueue (queueWithout s.queue b) s) :=
  h.trans (touches_setQueue _ s (fun _ hc => entriesOf_without _ _ _ (ne_of_not hb hc))
    (queueOrdered_without b))

theorem Touches.replace (n : Nat) (x : Bool) : Touches B r (setQueue (queueReplace b n x s.queue) s) :=
  h.trans (touches_setQueue _ s (fun _ hc => entriesOf_replace _ _ _ _ _ (ne_of_not hb hc))
    (queueOrdered_replace b n x))

theorem Touches.joinQueue (k : EntryKind) (n : Nat) (x : Bool) : Touches B r (Machine.joinQueue b k n x s) :=
  (h.trans (touches_setQueue _ s (fun c hc => entriesOf_insert _ _ c (ne_of_not hb hc))
    (queueOrdered_insert _))).trans (touches_advance _)

theorem Touches.leaveQueue (o : AdmitOutcome) : Touches B r (Machine.leaveQueue b o s) := by
  unfold Machine.leaveQueue
  split
  · exact (h.without hb).submitAdmit _ _ _ _ _ _
  · exact h

theorem Touches.setCharge (v : Nat) : Touches B r (Machine.setCharge b v s) := h.trans (touches_setCharge hb v s)

theorem Touches.noteQuiesce (new : BayState) (x : StateReason) : Touches B r (Machine.noteQuiesce b new x s) := by
  unfold Machine.noteQuiesce
  split
  · split
    · exact h.trans (touches_modBay hb _ s rfl (fun k => k) (fun k => k))
    · exact h
  · exact h

theorem Touches.rewriteLocked (old new : BayState) : Touches B r (Machine.rewriteLocked b old new s) := by
  unfold Machine.rewriteLocked
  split
  · exact h.trans (touches_lockedBytes hb _ rfl s)
  · exact h

theorem Touches.leaveOn (old : BayState) : Touches B r (Machine.leaveOn b old s) := by
  unfold Machine.leaveOn
  split
  · exact h.leaveQueue hb _
  · exact h

/-- Every change of bay state. -/
theorem Touches.changeState (new : BayState) (x : StateReason) (p : Bool) (n : Nat) (hn : new.timed = false → n = 0) :
    Touches B r (Machine.changeState b new x p n s) := by
  unfold Machine.changeState
  have h1 := h.submit (.state b (s.stateOf b) new x p)
  have h2 := h1.trans (touches_modBay hb
    (fun y => { y with ctx := { y.ctx with
      state := new, phaseTimer := ms n, pending := pendingAfter y.ctx.state new y.ctx.pending } }) _ rfl (fun k => k)
    (fun _ ht => by rw [show ms n = ms 0 from congrArg ms (hn ht)]; rfl))
  exact ((h2.rewriteLocked hb _ _).noteQuiesce hb _ _).leaveOn hb _

theorem Touches.chooseBasis : Touches B r (Machine.chooseBasis b s) := h.trans (touches_modCtx hb _ s rfl ⟨rfl, rfl⟩)

theorem Touches.joinStart : Touches B r (Machine.joinStart b s) := by
  unfold Machine.joinStart
  split
  · exact h.submitAdmit _ _ _ _ _ _
  · exact ((h.changeState hb .queued _ _ 0 (fun _ => rfl)).joinQueue hb _ _ _).announceQueued hb _ _ _

theorem Touches.reconcileOff : Touches B r (Machine.reconcileOff b s) := by
  unfold Machine.reconcileOff
  split
  · exact (h.chooseBasis hb).joinStart hb
  · exact h

theorem Touches.withdrawStart (x : StateReason) : Touches B r (Machine.withdrawStart b x s) :=
  (h.leaveQueue hb _).changeState hb .off _ _ 0 (fun _ => rfl)

theorem Touches.endRest : Touches B r (Machine.endRest b s) := by
  unfold Machine.endRest
  split
  · exact (h.changeState hb .off _ _ 0 (fun _ => rfl)).reconcileOff hb
  · exact h.changeState hb .empty _ _ 0 (fun _ => rfl)

theorem Touches.restIfZero : Touches B r (Machine.restIfZero b s) := by
  unfold Machine.restIfZero
  split
  · exact h.endRest hb
  · exact h

theorem Touches.discharge : Touches B r (Machine.discharge b s) :=
  ((h.changeState hb .rest _ _ _ (fun k => nomatch k)).setCharge hb 0).restIfZero hb

theorem Touches.clearFilter : Touches B r (Machine.clearFilter b s) :=
  h.trans (touches_modInputs hb _ s (fun _ => by
    refine ⟨Nat.zero_le _, ?_⟩
    have : 1 ≤ faultThreshold (s.bay b).ctx.intent := Nat.le_max_left _ _
    constructor
    · exact fun k => nomatch k
    · rintro ⟨_, k⟩
      change 0 = faultThreshold (s.bay b).ctx.intent at k
      omega))

theorem Touches.leaveFaulted : Touches B r (Machine.leaveFaulted b s) :=
  ((h.changeState hb .rest _ _ _ (fun k => nomatch k)).clearFilter hb).restIfZero hb

theorem Touches.releaseIfDown : Touches B r (Machine.releaseIfDown b s) := by
  unfold Machine.releaseIfDown
  split
  · exact h
  · exact h.setCharge hb 0

theorem Touches.enterFaulted (x : StateReason) : Touches B r (Machine.enterFaulted b x s) := by
  have h1 := h.changeState hb .faulted x false 0 (fun _ => rfl)
  have h2 := h1.trans (touches_modCtx hb (fun c => { c with clearRequested := false, pending := false }) _ rfl ⟨rfl, rfl⟩)
  have h3 := h2.trans (touches_modInputs hb (fun i => { i with faultCount := min 255 (i.faultCount + 1) }) _ (fun k => k))
  exact (h3.trans (touches_raiseFault _)).releaseIfDown hb

theorem Touches.cutoffNext : Touches B r (Machine.cutoffNext b s) := by
  unfold Machine.cutoffNext
  split
  · exact h.discharge hb
  · split
    · exact h.enterFaulted hb _
    · exact h

theorem Touches.enterCutoff (x : StateReason) : Touches B r (Machine.enterCutoff b x s) :=
  (h.changeState hb .cutoff _ _ _ (fun k => nomatch k)).cutoffNext hb

theorem Touches.drainNext (x : DrainReason) : Touches B r (Machine.drainNext b x s) := by
  unfold Machine.drainNext
  split
  · split
    · exact (h.placeEntry hb _).enterCutoff hb _
    · exact h.placeEntry hb _
  · exact h.enterCutoff hb _

theorem Touches.enterDrain (x : DrainReason) : Touches B r (Machine.enterDrain b x s) :=
  (h.changeState hb .drain _ _ _ (fun k => nomatch k)).drainNext hb _

theorem Touches.requestRaise (n : Nat) (x : Bool) : Touches B r (Machine.requestRaise b n x s) := by
  unfold Machine.requestRaise
  split
  · split
    · exact (h.leaveQueue hb _).grantCharge hb
    · exact (h.submitAdmit _ _ _ _ _ _).grantCharge hb
  · split
    · exact (h.replace hb _ _).announceQueued hb _ _ _
    · exact (h.joinQueue hb _ _ _).announceQueued hb _ _ _

theorem Touches.admitRaise (e : QueueEntry) (he : e.bay = b) : Touches B r (Machine.admitRaise e s) := by
  subst he
  exact (((h.without hb).setCharge hb _).submitAdmit _ _ _ _ _ _).grantCharge hb

theorem Touches.admitAtOnce : Touches B r (Machine.admitAtOnce b s) := by
  unfold Machine.admitAtOnce
  split
  · rename_i he
    split
    · exact h.admitRaise hb _ (queueEntryOf_bay he)
    · exact h
  · exact h

theorem Touches.takeRaise (n : Nat) (x : Bool) : Touches B r (Machine.takeRaise b n x s) := by
  unfold Machine.takeRaise
  split
  · exact (h.requestRaise hb _ _).admitAtOnce hb
  · exact h.requestRaise hb _ _

theorem Touches.takeLower (n : Nat) : Touches B r (Machine.takeLower b n s) :=
  ((h.leaveQueue hb _).setCharge hb _).grantCharge hb

theorem Touches.resolvePending (d : Demand) : Touches B r (Machine.resolvePending b d s) := by
  unfold Machine.resolvePending
  split
  · exact h.setCharge hb _
  · split
    · exact (h.setCharge hb _).grantCharge hb
    · exact (h.setCharge hb _).requestRaise hb _ _

theorem Touches.settleCharge : Touches B r (Machine.settleCharge b s) := by
  unfold Machine.settleCharge
  split
  · exact h.resolvePending hb _
  · exact h.setCharge hb _

theorem Touches.keepSettled : Touches B r (Machine.keepSettled b s) :=
  h.trans (touches_modBay hb (fun y => { y with settledFrom := some y.charge }) s rfl (fun k => k) (fun k => k))

theorem Touches.clearPending : Touches B r (Machine.clearPending b s) := h.trans (touches_modCtx hb _ s rfl ⟨rfl, rfl⟩)


theorem Touches.reconcileOn : Touches B r (Machine.reconcileOn b s) := by
  unfold Machine.reconcileOn
  split
  · exact h.enterDrain hb _
  · exact h

theorem Touches.enterOn : Touches B r (Machine.enterOn b s) :=
  ((((h.changeState hb .on _ _ 0 (fun _ => rfl)).keepSettled hb).settleCharge hb).clearPending hb).reconcileOn hb

theorem Touches.settleNext : Touches B r (Machine.settleNext b s) := by
  unfold Machine.settleNext
  split
  · exact h.enterOn hb
  · exact h

theorem Touches.enterSettle : Touches B r (Machine.enterSettle b s) :=
  (h.changeState hb .settle _ _ _ (fun k => nomatch k)).settleNext hb

theorem Touches.rampNext : Touches B r (Machine.rampNext b s) := by
  unfold Machine.rampNext
  split
  · exact h.enterSettle hb
  · split
    · exact h.enterFaulted hb _
    · exact h

theorem Touches.enterRamp (n : Nat) : Touches B r (Machine.enterRamp b n s) :=
  (((h.changeState hb .ramp _ _ _ (fun k => nomatch k)).clearFilter hb).placeEntry hb _).rampNext hb

theorem Touches.onFaultConfirmed : Touches B r (Machine.onFaultConfirmed b s) := by
  unfold Machine.onFaultConfirmed
  split <;> first | exact h.enterFaulted hb _ | exact h.withdrawStart hb _ | exact h

theorem Touches.onPgActive : Touches B r (Machine.onPgActive b s) := by
  unfold Machine.onPgActive
  split <;> first | exact h.enterSettle hb | exact h

theorem Touches.onPgInactive : Touches B r (Machine.onPgInactive b s) := by
  unfold Machine.onPgInactive Machine.onPgInactiveFaulted
  split <;> try (first | exact h.enterFaulted hb _ | exact h.discharge hb | exact h)
  split
  · exact (h.setCharge hb _).leaveFaulted hb
  · exact h.setCharge hb _

theorem Touches.onLatchOpen : Touches B r (Machine.onLatchOpen b s) := by
  unfold Machine.onLatchOpen
  split <;> first | exact h.enterDrain hb _ | exact h.enterCutoff hb _ | exact h.withdrawStart hb _ | exact h

theorem Touches.clearFault : Touches B r (Machine.clearFault b s) := by
  unfold Machine.clearFault
  split
  · exact h.trans (touches_modCtx hb _ s rfl ⟨rfl, rfl⟩)
  · exact h.leaveFaulted hb

theorem Touches.takeTarget : Touches B r (Machine.takeTarget b s) := by
  unfold Machine.takeTarget
  split <;> first
    | exact h.reconcileOff hb | exact h.withdrawStart hb _ | exact h.enterDrain hb _ | exact h.clearFault hb
    | exact h.enterCutoff hb _ | exact h

theorem Touches.onDeadline : Touches B r (Machine.onDeadline b s) := by
  unfold Machine.onDeadline
  split <;> first | exact h.enterCutoff hb _ | exact h

theorem Touches.withdrawUnlessBlind : Touches B r (Machine.withdrawUnlessBlind b s) := by
  unfold Machine.withdrawUnlessBlind
  split
  · exact h.withdrawStart hb _
  · exact h

theorem Touches.onLinkLost : Touches B r (Machine.onLinkLost b s) := by
  unfold Machine.onLinkLost
  split
  · exact h.enterCutoff hb _
  · exact h.withdrawUnlessBlind hb

theorem Touches.replaceStart (n : Nat) (x : Bool) : Touches B r (Machine.replaceStart b n x s) := by
  unfold Machine.replaceStart
  split
  · exact (h.leaveQueue hb _).changeState hb .off _ _ 0 (fun _ => rfl)
  · exact (h.replace hb _ _).announceQueued hb _ _ _

theorem Touches.onDemandUnknown : Touches B r (Machine.onDemandUnknown b s) := by
  unfold Machine.onDemandUnknown
  split <;> try (first | exact h.clearPending hb | exact h)
  split
  · exact (h.trans (touches_modCtx hb _ s rfl ⟨rfl, rfl⟩)).replaceStart hb _ _
  · exact h.withdrawStart hb _

theorem Touches.makeDemandUnknown : Touches B r (Machine.makeDemandUnknown b s) :=
  (h.trans (touches_modCtx hb (fun c => { c with demand := none }) s rfl ⟨rfl, rfl⟩)).onDemandUnknown hb

theorem Touches.onDemand (d : Demand) : Touches B r (Machine.onDemand b d s) := by
  unfold Machine.onDemand
  split
  · exact h.reconcileOff hb
  · exact (h.trans (touches_modCtx hb _ s rfl ⟨rfl, rfl⟩)).replaceStart hb _ _
  · exact h.trans (touches_modCtx hb _ s rfl ⟨rfl, rfl⟩)
  · exact h.trans (touches_modCtx hb _ s rfl ⟨rfl, rfl⟩)
  · split
    · exact h.takeRaise hb _ _
    · exact h.takeLower hb _
  all_goals exact h

theorem Touches.onRelease : Touches B r (Machine.onRelease b s) := by
  unfold Machine.onRelease
  split
  · exact h.enterCutoff hb _
  · exact h

theorem Touches.onTrouble (n : Nat) : Touches B r (Machine.onTrouble b n s) := by
  have k := h.trans (touches_modCtx hb (fun c => { c with troubleHold := true }) s rfl ⟨rfl, rfl⟩)
  unfold Machine.onTrouble
  split
  · exact h
  · exact k
  · exact k.withdrawStart hb _
  · exact k.enterDrain hb _
  · exact k.enterCutoff hb _

end

end Sys2Proof.Machine
end

