-- ==== Sys2Proof/Laws/Events.lean ====
section
/-! SUPPORT. The effects of the operations of the Admission Controller, the Dialogue Unit and the Link Engine, and of what
ends an event. -/

namespace Sys2Proof.Machine

variable {B : BayId → Prop} {r s : State} {b : BayId}

/-! ## The Admission Controller -/

section
variable (hb : B b) (h : Touches B r s)
include hb h

theorem Touches.admitStart (e : QueueEntry) (he : e.bay = b) : Touches B r (Machine.admitStart e s) := by
  subst he
  have h1 := ((h.without hb).setCharge hb e.amount).trans
    (touches_modBay hb (fun y => { y with
      grantedHold := holdFigure y.ctx, ctx := { y.ctx with admissionStamp := s.pool.arrivalCounter } }) _ rfl
      (fun k => k) (fun k => k))
  exact ((h1.trans (touches_advance _)).submitAdmit _ _ _ _ _ _).enterRamp hb _

theorem Touches.admitEntry (e : QueueEntry) (he : e.bay = b) : Touches B r (Machine.admitEntry e s) := by
  unfold Machine.admitEntry
  split
  · exact h.admitStart hb e he
  · exact h.admitRaise hb e he

end

theorem mem_entriesOf {q : List QueueEntry} {e : QueueEntry} (he : e ∈ q) : e ∈ entriesOf q e.bay := by
  unfold entriesOf
  rw [List.mem_filter]
  exact ⟨he, by simp⟩

theorem of_mem_entriesOf {q : List QueueEntry} {e : QueueEntry} (he : e ∈ entriesOf q b) : e ∈ q ∧ e.bay = b := by
  unfold entriesOf at he
  rw [List.mem_filter] at he
  exact ⟨he.1, by simpa using he.2⟩

/-- Operations for bays of `B` add entries of `B` alone. -/
theorem Touches.queueIn (h : Touches B r s) (hq : ∀ e ∈ r.queue, B e.bay) : ∀ e ∈ s.queue, B e.bay := by
  intro e he
  by_contra hn
  have h1 := mem_entriesOf he
  rw [h.entries e.bay hn] at h1
  exact hn (hq e (of_mem_entriesOf h1).1)

theorem headThatFits_mem {e : QueueEntry} (h : headThatFits s = some e) : e ∈ s.queue := by
  unfold headThatFits at h
  split at h
  · cases h
  · rename_i hq
    split at h
    · cases h; rw [hq]; simp
    · cases h

theorem Touches.evaluateLoop (n : Nat) (h : Touches B r s) (hq : ∀ e ∈ r.queue, B e.bay) :
    Touches B r (Machine.evaluateLoop n s) := by
  induction n generalizing s with
  | zero => exact h
  | succ n ih =>
    unfold Machine.evaluateLoop
    split
    · rename_i e he
      exact ih (h.admitEntry (h.queueIn hq e (headThatFits_mem he)) e rfl)
    · exact h

theorem Touches.evaluateHead (h : Touches B r s) (hq : ∀ e ∈ r.queue, B e.bay) :
    Touches B r (Machine.evaluateHead s) := h.evaluateLoop _ hq

/-- An operation made for every bay of `B`, in turn. -/
theorem Touches.foldBays {α : Type} (f : State → α → State) (bay : α → BayId) (l : List α) (h : Touches B r s)
    (hl : ∀ x ∈ l, B (bay x)) (hf : ∀ x t, B (bay x) → Touches B r t → Touches B r (f t x)) :
    Touches B r (l.foldl f s) := by
  induction l generalizing s with
  | nil => exact h
  | cons x l ih =>
    exact ih (hf x s (hl x (by simp)) h) (fun y hy => hl y (by simp [hy]))

/-- Every bay. -/
def everyBay : BayId → Prop := fun _ => True

theorem Touches.forBays (f : BayId → State → State) (h : Touches everyBay r s)
    (hf : ∀ b t, Touches everyBay r t → Touches everyBay r (f b t)) : Touches everyBay r (Machine.forBays f s) :=
  h.foldBays (fun t b => f b t) id allBays (fun _ _ => trivial) (fun b t _ k => hf b t k)

theorem Touches.shedBay (hb : B b) (h : Touches B r s) : Touches B r (Machine.shedBay b s) := by
  unfold Machine.shedBay
  split <;> first | exact h.enterDrain hb _ | exact h.enterCutoff hb _ | exact h

theorem Touches.refuseEntry (e : QueueEntry) (p : Nat) (hb : B e.bay) (h : Touches B r s) :
    Touches B r (Machine.refuseEntry e p s) := by
  unfold Machine.refuseEntry
  split
  · exact ((h.without hb).submitAdmit _ _ _ _ _ _).changeState hb .off _ _ 0 (fun _ => rfl)
  · exact ((h.without hb).submitAdmit _ _ _ _ _ _).grantCharge hb

theorem Touches.budgetFall (old : Nat) (c : BudgetCause) (h : Touches everyBay r s) :
    Touches everyBay r (Machine.budgetFall old c s) := by
  have h1 : Touches everyBay r (shedAll (shedList s) s) :=
    h.foldBays (fun t b => Machine.shedBay b t) id _ (fun _ _ => trivial) (fun b t _ k => k.shedBay trivial)
  have h2 : Touches everyBay r (refuseAll (refusalList (shedAll (shedList s) s)) (shedAll (shedList s) s)) :=
    h1.foldBays (fun t (x : QueueEntry × Nat) => Machine.refuseEntry x.1 x.2 t) (fun x => x.1.bay) _ (fun _ _ => trivial)
      (fun x t _ k => k.refuseEntry x.1 x.2 trivial)
  exact h2.submit _

/-- What a recomputation does after the new EffectiveBudget is set (R33). -/
theorem touches_recompute (c : BudgetCause) (s : State) :
    Touches everyBay (setEffective (derivedBudget s.pool) s) (recomputeBudget c s) := by
  unfold recomputeBudget
  split
  · rename_i h
    have : setEffective (derivedBudget s.pool) s = s := by
      unfold setEffective modPool
      rw [h]
    rw [this]
    exact Touches.refl _ _
  · split
    · exact (Touches.refl _ _).submit _
    · exact (Touches.refl _ _).budgetFall _ _

/-! ## The Dialogue Unit -/

section
variable (hb : B b) (h : Touches B r s)
include hb h

theorem Touches.setSlot (st : SlotStatus) : Touches B r (Machine.setSlot b st s) := h.trans (touches_modDialogue hb _ s)

theorem Touches.endParcel (o : SlotStatus) (c : ParcelCause) (n : Nat) : Touches B r (Machine.endParcel b o c n s) :=
  (h.trans (touches_modDialogue hb _ s)).submit _

theorem Touches.abandonListed (c : ParcelCause) : Touches B r (Machine.abandonListed b c s) := by
  unfold Machine.abandonListed
  split
  · exact h.endParcel hb _ _ _
  · exact h

theorem Touches.refuseParcel : Touches B r (Machine.refuseParcel b s) := (h.setSlot hb _).submit _

theorem Touches.copyParcel (l : List Byte) : Touches B r (Machine.copyParcel b l s) :=
  (h.trans (touches_modDialogue hb (fun d => { d with parcelCopy := some l, slotStatus := .sending }) s)).placeEntry hb _

theorem Touches.takeParcel : Touches B r (Machine.takeParcel b s) := by
  unfold Machine.takeParcel
  split
  · split
    · exact h.refuseParcel hb
    · exact h.copyParcel hb _
  · exact h

theorem Touches.post : Touches B r (Machine.post b s) := by
  unfold Machine.post
  split
  · exact h.refuseParcel hb
  · exact (h.setSlot hb _).takeParcel hb

theorem Touches.handOver (x : Bool) : Touches B r (Machine.handOver b x s) := by
  unfold Machine.handOver
  split <;> first | exact h.post hb | exact h.setSlot hb _ | exact h

theorem Touches.placeLimit : Touches B r (Machine.placeLimit b s) := h.placeEntry hb _

theorem Touches.placeProbe : Touches B r (Machine.placeProbe b s) := by
  unfold Machine.placeProbe
  split
  · exact h
  · exact h.placeEntry hb _

/-! ## The Link Engine -/

theorem Touches.countQuality (k : QualityKind) : Touches B r (Machine.countQuality b k s) := by
  unfold Machine.countQuality Machine.reportQuality
  have h1 := h.trans (touches_modLink hb (fun l => { l with counters := l.counters.bump k }) s)
  split
  · exact (h1.trans (touches_modLink hb _ _)).submit _
  · exact h1

theorem Touches.flushList (c : ParcelCause) : Touches B r (Machine.flushList b c s) :=
  (h.abandonListed hb c).trans (touches_modLink hb _ _)

theorem Touches.enterLost (k n : Nat) : Touches B r (Machine.enterLost b k n s) := by
  have h1 := (h.abandonListed hb .linkLost).trans (touches_modLink hb LinkEngine.lose _)
  exact (h1.submit (.link b (.lost k n))).onLinkLost hb

theorem Touches.failNext (k n : Nat) : Touches B r (Machine.failNext b k n s) := by
  unfold Machine.failNext
  split
  · exact h.flushList hb _
  · exact h.enterLost hb _ _

theorem Touches.reportParcel (e : TxEntry) (o : SlotStatus) (c : ParcelCause) (n : Nat) :
    Touches B r (Machine.reportParcel b e o c n s) := by
  unfold Machine.reportParcel
  split <;> first | exact h.endParcel hb _ _ _ | exact h

theorem Touches.failMessage (e : TxEntry) (n : Nat) : Touches B r (Machine.failMessage b e n s) := by
  have h1 : Touches B r (Machine.clearInFlight b s) := h.trans (touches_modLink hb _ _)
  exact (h1.reportParcel hb _ _ _ _).failNext hb _ _

theorem Touches.attemptFailed (m : InFlight) : Touches B r (Machine.attemptFailed b m s) := by
  unfold Machine.attemptFailed
  split
  · exact h.trans (touches_modLink hb _ _)
  · exact h.failMessage hb _ _

theorem Touches.completeMessage (m : InFlight) : Touches B r (Machine.completeMessage b m s) := by
  have h1 : Touches B r (Machine.clearInFlight b s) := h.trans (touches_modLink hb _ _)
  exact h1.reportParcel hb _ _ _ _

omit hb in
theorem Touches.submitAbandoned (c : ParcelCause) (p : Option OwedParcel) :
    Touches B r (Machine.submitAbandoned b c p s) := by
  unfold Machine.submitAbandoned
  split
  · exact h.submit _
  · exact h

theorem Touches.detachLink : Touches B r (Machine.detachLink b s) := by
  unfold Machine.detachLink
  split
  · exact h
  · have h1 := h.trans (touches_modBay hb (fun y => { y with
      link := y.link.detach, dialogue := .cleared y.dialogue.slotStatus.dropped,
      ctx := { y.ctx with demand := none } }) s rfl (fun k => k) (fun k => k))
    exact (h1.submit (.link b .detached)).submitAbandoned _ _

theorem Touches.attachLink : Touches B r (Machine.attachLink b s) := by
  unfold Machine.attachLink
  split
  · exact (h.trans (touches_modLink hb _ _)).placeProbe hb
  · exact h

theorem Touches.insertModule : Touches B r (Machine.insertModule b s) := by
  unfold Machine.insertModule
  split <;> first | exact h.changeState hb .off _ _ 0 (fun _ => rfl) | exact h

theorem Touches.onPresent : Touches B r (Machine.onPresent b s) :=
  ((h.insertModule hb).attachLink hb).reconcileOff hb

theorem Touches.clearIfFaulted (was : BayState) : Touches B r (Machine.clearIfFaulted b was s) := by
  unfold Machine.clearIfFaulted
  split
  · exact h.clearFilter hb
  · exact h

theorem Touches.removeModule : Touches B r (Machine.removeModule b s) := by
  have h1 : Touches B r (setQueue (queueWithout s.queue b) (Machine.setCharge b 0 s)) := (h.setCharge hb 0).without hb
  have h2 := h1.trans (touches_modCtx hb (fun c => { c with pending := false, troubleHold := false }) _ rfl ⟨rfl, rfl⟩)
  exact ((h2.detachLink hb).changeState hb .empty _ _ 0 (fun _ => rfl)).clearIfFaulted hb _

theorem Touches.onAbsent : Touches B r (Machine.onAbsent b s) := by
  unfold Machine.onAbsent
  split
  · exact h.detachLink hb
  · exact (h.trans (touches_modCtx hb (fun c => { c with troubleHold := false }) s rfl ⟨rfl, rfl⟩)).detachLink hb
  all_goals exact h.removeModule hb

theorem Touches.acceptHello (x : HelloFields) : Touches B r (Machine.acceptHello b x s) := by
  have h1 := (h.trans (touches_modLink hb LinkEngine.bind s)).submit (.link b (bindEvent (s.bay b).link.linkState x))
  have h2 : Touches B r (Machine.writeDirectory b x _) := (h1.makeDemandUnknown hb).trans (touches_modDialogue hb _ _)
  exact (h2.placeLimit hb).takeParcel hb

theorem Touches.unbindLink : Touches B r (Machine.unbindLink b s) := by
  have h1 := h.trans (touches_modLink hb (fun l => { l with linkState := .unbound }) s)
  exact (h1.flushList hb _).makeDemandUnknown hb

theorem Touches.deliverHello (l : List Byte) : Touches B r (Machine.deliverHello b l s) := by
  unfold Machine.deliverHello Machine.refuseHello
  split
  · exact h.acceptHello hb _
  · split
    · exact (h.submit (.link b (.refused (helloFields l)))).unbindLink hb
    · exact h.submit _

theorem Touches.countMalformed : Touches B r (Machine.countMalformed b s) := h.trans (touches_modDialogue hb _ s)

theorem Touches.deliverDemand (l : List Byte) : Touches B r (Machine.deliverDemand b l s) := by
  unfold Machine.deliverDemand
  split
  · exact (h.trans (touches_modCtx hb _ s rfl ⟨rfl, rfl⟩)).onDemand hb _
  · exact h.countMalformed hb

theorem Touches.deliverRelease (l : List Byte) : Touches B r (Machine.deliverRelease b l s) := by
  unfold Machine.deliverRelease
  split
  · exact h.onRelease hb
  · exact h.countMalformed hb

theorem Touches.endReception (l : List Byte) : Touches B r (Machine.endReception b l s) := h.trans (touches_modLink hb _ s)

theorem Touches.oweAck (q : Sequence) : Touches B r (Machine.oweAck b q s) := h.trans (touches_modLink hb _ s)

theorem Touches.noteSequence (q : Sequence) : Touches B r (Machine.noteSequence b q s) := h.trans (touches_modLink hb _ s)

theorem Touches.dropFrame (k : QualityKind) : Touches B r (Machine.dropFrame b k s) :=
  (h.endReception hb []).countQuality hb k

theorem Touches.matchAck (q : Sequence) : Touches B r (Machine.matchAck b q s) := by
  unfold Machine.matchAck
  split
  · split
    · exact h.completeMessage hb _
    · exact h
  · exact h

end

/-! ## Shelf-level operations -/

/-- A change of the Shelf Controller that leaves the context and SnapStatus alone. -/
theorem keeps_modShelf (f : Shelf → Shelf) (s : State)
    (hf : (f s.shelf).snapStatus = s.shelf.snapStatus ∧ (f s.shelf).context = s.shelf.context)
    (hi : s.shelf.state ≠ .init → (f s.shelf).state ≠ .init) :
    Keeps s (modShelf f s) where
  order := fun k => k
  window := fun k => k
  charges := fun k => k
  positions := fun k => k
  loss := fun k => k
  snapshot := fun k => by
    unfold State.snapshotOk at k ⊢
    rw [show (modShelf f s).shelf = f s.shelf from rfl, hf.1]
    exact k
  pool := fun k => by
    unfold State.poolOk at k ⊢
    rw [show (modShelf f s).shelf = f s.shelf from rfl, hf.2]
    exact k
  filters := fun k => k
  timers := fun k => k
  notInit := hi
  enable := rfl
  pending := rfl

theorem keeps_modAttn (f : Causes → Causes) (s : State) : Keeps s (modAttn f s) := by
  constructor <;> first | rfl | exact fun k => k

theorem keeps_setMiso (l : List Byte) (s : State) : Keeps s (setMiso l s) := by
  constructor <;> first | rfl | exact fun k => k

theorem keeps_setPort (p : SpiPort) (s : State) : Keeps s (setPort p s) := by
  constructor <;> first | rfl | exact fun k => k

theorem keeps_setWindow (m : Memory) (s : State) (hm : s.windowOk → Memory.wf m) : Keeps s (setWindow m s) where
  order := fun k => k
  window := hm
  charges := fun k => k
  positions := fun k => k
  loss := fun k => k
  snapshot := fun k => k
  pool := fun k => k
  filters := fun k => k
  timers := fun k => k
  notInit := fun k => k
  enable := rfl
  pending := rfl

theorem keeps_wakeEvent (b : BayId) (w : WakeSource) (s : State) : Keeps s (wakeEvent b w s) := by
  unfold wakeEvent raiseWake
  split
  · have h1 := (keeps_modShelf (fun x => { x with wakeBits := x.wakeBits ||| bayBit b }) s ⟨rfl, rfl⟩ (fun k => k)).trans
      (touches_submit (B := everyBay) (.wake b w (s.shelf.wakeBits ||| bayBit b)) _).keeps
    split
    · exact h1.trans (keeps_modAttn _ _)
    · exact h1
  · exact Keeps.refl s

theorem touches_everyBay {t : State} (h : Touches B s t) : Touches everyBay s t := h.mono (fun _ _ => trivial)

theorem touches_evaluateHead (s : State) : Touches everyBay s (evaluateHead s) :=
  (Touches.refl _ s).evaluateHead (fun _ _ => trivial)

theorem touches_forBays (f : BayId → State → State)
    (hf : ∀ r b t, Touches everyBay r t → Touches everyBay r (f b t)) (s : State) :
    Touches everyBay s (forBays f s) :=
  (Touches.refl _ s).forBays f (fun b t k => hf s b t k)

theorem touches_settleOutcomes (s : State) : Touches everyBay s (settleOutcomes s) :=
  touches_forBays _ (fun _ _ t k => k.trans (touches_modBay trivial _ t rfl (fun x => x) (fun x => x))) s

theorem keeps_quiesceTest (s : State) : Keeps s (quiesceTest s) := by
  unfold quiesceTest enterStandby submitQuiesced
  split
  · exact ((touches_settleOutcomes s).submit _).keeps.trans (keeps_modShelf _ _ ⟨rfl, rfl⟩ (fun _ k => nomatch k))
  · exact Keeps.refl s

theorem keeps_finish (s : State) : Keeps s (finish s) := (touches_evaluateHead s).keeps.trans (keeps_quiesceTest _)

theorem keeps_enterQuiescing (s : State) : Keeps s (enterQuiescing s) := by
  have h1 : Touches everyBay s (forBays (fun b => modBay b (fun y => { y with quiesceOutcome := .none })) s) :=
    touches_forBays _ (fun _ _ t k => k.trans (touches_modBay trivial _ t rfl (fun x => x) (fun x => x))) s
  have h2 := h1.keeps.trans (keeps_modShelf (fun x => { x with
    state := .quiescing, deadlineTimer := some (ms (deadlineMs x.context)) }) _ ⟨rfl, rfl⟩ (fun _ k => nomatch k))
  have h3 : Touches everyBay _ (beginQuiesce s) := touches_setQueue [] _ (fun _ hc => absurd trivial hc) (fun _ => List.Pairwise.nil)
  refine (h2.trans h3.keeps).trans (touches_forBays _ (fun r b t k => ?_) _).keeps
  have h4 : Touches everyBay r (quiesceAdmit s.queue s.pool.committed b t) := by
    unfold quiesceAdmit
    split
    · exact k.submit _
    · exact k
  unfold quiesceBay
  split <;> first
    | exact h4.changeState trivial .off _ _ 0 (fun _ => rfl) | exact h4.enterDrain trivial _ | exact h4

theorem keeps_takeMode (m : Mode) (s : State) : Keeps s (takeMode m s) := by
  have hrun : Keeps s (enterRun s) := by
    refine (keeps_modShelf (fun h => { h with state := .run }) s ⟨rfl, rfl⟩ (fun _ k => nomatch k)).trans ?_
    refine (touches_forBays reconcile (fun r b t k => ?_) _).keeps.trans (touches_evaluateHead _).keeps
    unfold reconcile
    split <;> first | exact k.reconcileOff trivial | exact k.reconcileOn trivial | exact k
  have hheld : Keeps s (enterHeld s) :=
    keeps_modShelf (fun h => { h with state := .held }) s ⟨rfl, rfl⟩ (fun _ k => nomatch k)
  unfold takeMode
  split
  · exact hrun
  · exact hrun
  · exact hheld
  · exact hheld
  · exact keeps_enterQuiescing s
  · exact keeps_enterQuiescing s
  · exact Keeps.refl s

theorem keeps_deadlineExpiry (s : State) : Keeps s (deadlineExpiry s) :=
  ((keeps_modShelf (fun h => { h with deadlineTimer := none }) s ⟨rfl, rfl⟩ (fun k => k)).trans
    (touches_forBays onDeadline (fun _ _ _ k => k.onDeadline trivial) _).keeps).trans (keeps_finish _)

/-! ## Snapshots and the Tail -/

/-- A submission as far as the invariants go. -/
theorem Journaled.keeps {t : State} (h : Journaled s t) : Keeps s t where
  order := fun k => by rw [h.queue]; exact k
  window := h.window
  charges := fun k => by
    unfold State.chargesOk at k ⊢
    rw [h.pool, k]
    exact (chargeSum_congr (fun b => by rw [State.bay, h.bays]; rfl)).symm
  positions := h.positions
  loss := h.loss
  snapshot := fun k => by
    unfold State.snapshotOk at k ⊢
    rw [h.shelf, h.waiting]
    exact k
  pool := fun k => by
    unfold State.poolOk derivedBudget at k ⊢
    rw [h.shelf, h.pool, h.supply]
    exact k
  filters := fun k b => by rw [State.bay, h.bays]; exact k b
  timers := fun k b => by rw [State.bay, h.bays]; exact k b
  notInit := fun k => by rw [h.shelf]; exact k
  enable := h.enable
  pending := h.pending

theorem keeps_appendSnapshot (p : Snapshot) (s : State) (hfit : s.journal.fits p.length = true) :
    Keeps s (appendSnapshot p s) := by
  have h := (journaled_appendAt snapshotKind 255 p.time p.body p.length s hfit p.length_mod).keeps
  unfold appendSnapshot
  generalize appendAt s.journal snapshotKind 255 p.time p.body p.length s = t at h
  exact {
    order := h.order
    window := h.window
    charges := h.charges
    positions := h.positions
    loss := h.loss
    snapshot := fun _ => by simp [State.snapshotOk, modShelf, modJournal]
    pool := h.pool
    filters := h.filters
    timers := h.timers
    notInit := h.notInit
    enable := h.enable
    pending := h.pending }

theorem keeps_submitSnapshot (p : Snapshot) (s : State) : Keeps s (submitSnapshot p s) := by
  unfold submitSnapshot
  split
  · rename_i h; exact keeps_appendSnapshot p s h
  · exact { Keeps.refl s with snapshot := fun _ => by simp [State.snapshotOk, modShelf, modJournal] }

theorem keeps_retrySnapshot (s : State) : Keeps s (retrySnapshot s) := by
  unfold retrySnapshot
  split
  · split
    · rename_i h; exact keeps_appendSnapshot _ s h
    · exact Keeps.refl s
  · exact Keeps.refl s

theorem keeps_requestSnapshot (mask : BitVec 16) (clear : Bool) (s : State) : Keeps s (requestSnapshot mask clear s) := by
  unfold requestSnapshot snapClear
  split
  · exact Keeps.refl s
  · refine Keeps.trans ?_ (keeps_submitSnapshot _ _)
    split
    · exact ((Touches.refl everyBay s).foldBays (fun t b => clearCounters b t) id _ (fun _ _ => trivial)
        (fun b t _ k => k.trans (touches_modLink trivial _ t))).keeps
    · exact Keeps.refl s

/-- A candidate position within the unread bytes leaves fewer unread (R142). -/
theorem unread_after_tail (j : Journal) (o : Nat) (w : Bool) (hj : j.positionsOk) (ho : o < Config.ringSize)
    (hd : j.distance o w ≤ j.unread) : ({ j with tail := o, tailWrap := w } : Journal).unread ≤ j.unread := by
  have h1 := ringPosition_lt j.head j.headWrap hj.2.1
  have h2 := ringPosition_lt j.tail j.tailWrap hj.2.2.2.1
  have h3 := ringPosition_lt o w ho
  unfold Journal.unread Journal.distance at *
  show (ringPosition j.head j.headWrap + 2 * Config.ringSize - ringPosition o w) % (2 * Config.ringSize) ≤ _
  generalize ringPosition j.head j.headWrap = h at *
  generalize ringPosition j.tail j.tailWrap = t at *
  generalize ringPosition o w = p at *
  simp only [Config.ringSize] at *
  omega

theorem keeps_causeAfterTail (s : State) : Keeps s (causeAfterTail s) := by
  unfold causeAfterTail
  split
  · exact (journaled_stopHoldoff s).keeps.trans (keeps_modAttn _ _)
  · exact Keeps.refl s

theorem keeps_writeTail (o w : Nat) (s : State) : Keeps s (writeTail o w s) := by
  unfold writeTail takeTail
  split
  · rename_i h
    refine Keeps.trans ?_ ((keeps_causeAfterTail _).trans (keeps_retrySnapshot _))
    refine { Keeps.refl s with positions := fun k => ?_ }
    simp only [Journal.tailValid, Bool.and_eq_true, decide_eq_true_eq, beq_iff_eq] at h
    obtain ⟨⟨⟨h8, hle⟩, _⟩, hd⟩ := h
    have ho : o < Config.ringSize := by simp only [Config.ringSize]; omega
    have hu := unread_after_tail s.journal o (w == 1) k ho hd
    exact ⟨k.1, k.2.1, h8, ho, Nat.le_trans hu k.2.2.2.2⟩
  · exact { Keeps.refl s with positions := fun k => k, loss := fun k => k, snapshot := fun k => k }

end Sys2Proof.Machine
end

