-- ==== Sys2Proof/Laws/Commits.lean ====
section
/-! SUPPORT. The effects of commits, of a window write transaction, of the resets, of the end of INIT, and of a tick. -/

namespace Sys2Proof.Machine

variable {B : BayId → Prop} {r s : State} {b : BayId}

/-! ## Bay commits -/

/-- Steps 1 to 3 of an accepted bay commit: the threshold and the filter change together (R67, R137). -/
theorem touches_copyAndRetune (hb : B b) (i : Intent) (v : Byte) (s : State) :
    Touches B s (applyFaultFilter b (s.intentOf b) (copyIntent b i v s)) := by
  have hint : (copyIntent b i v s).intentOf b = i := by
    unfold copyIntent State.intentOf
    rw [modBay_bay_self]
  unfold applyFaultFilter
  split
  · rename_i h
    rw [hint] at h
    refine touches_modBay hb _ s rfl (fun k => ?_) (fun k => k)
    have ht : faultThreshold i = faultThreshold (s.bay b).ctx.intent := by
      unfold faultThreshold
      rw [← h]
      rfl
    unfold Bay.filterOk at k ⊢
    simp only [ht]
    exact k
  · have hm : Touches B s (modInputs b (BayInputs.retune (faultThreshold ((copyIntent b i v s).intentOf b)))
        (copyIntent b i v s)) := by
      rw [hint]
      have he : modInputs b (BayInputs.retune (faultThreshold i)) (copyIntent b i v s)
          = modBay b (fun y => { y with
              applied := v, ctx := { y.ctx with intent := i, troubleHold := false },
              inputs := y.inputs.retune (faultThreshold i) }) s := by
        unfold copyIntent modInputs
        rw [modBay_modBay]
      rw [he]
      refine touches_modBay hb _ s rfl (fun _ => ?_) (fun k => k)
      refine ⟨Nat.min_le_left _ _, ?_⟩
      show (decide (faultThreshold i ≤ (s.bay b).inputs.fltTicks) && (s.bay b).inputs.fltPin) = true ↔
        (s.bay b).inputs.fltPin = true ∧ min (faultThreshold i) (s.bay b).inputs.fltTicks = faultThreshold i
      rw [Bool.and_eq_true, decide_eq_true_iff, min_eq_left_iff]
      exact And.comm
    unfold retuneNext
    split
    · exact hm.onFaultConfirmed hb
    · exact hm

theorem touches_acceptBay (hb : B b) (hq : ∀ e ∈ s.queue, B e.bay) : Touches B s (acceptBay b s) := by
  have h1 := touches_copyAndRetune hb (s.windowIntent b) (Memory.read s.window (intentAddr b 2)) s
  have h2 : Touches B s (applyCap b (s.intentOf b) (applyFaultFilter b (s.intentOf b)
      (copyIntent b (s.windowIntent b) (Memory.read s.window (intentAddr b 2)) s))) := by
    unfold applyCap renormalise
    split
    · exact h1
    · exact (h1.trans (touches_modCtx hb _ _ rfl ⟨rfl, rfl⟩)).placeLimit hb
  exact (h2.takeTarget hb).evaluateHead hq

theorem keeps_commitBay (b : BayId) (s : State) : Keeps s (commitBay b s) := by
  unfold commitBay refuseBay rewriteIntent
  split
  · exact (keeps_setWindow _ s (fun k => Memory.wf_writeBytes _ _ _ (Memory.wf_writeBytes _ _ _ k))).trans
      (touches_submit (B := everyBay) _ _).keeps
  · exact (touches_acceptBay (B := everyBay) trivial (fun _ _ => trivial)).keeps

/-! ## Shelf commits -/

/-- The figures copied and the EffectiveBudget derived from them (R32, R33). -/
theorem keeps_newFigures (c : ShelfContext) (v : Byte) (s : State) :
    Keeps s (setEffective (derivedBudget (copyContext c v s).pool) (copyContext c v s)) where
  order := fun k => k
  window := fun k => k
  charges := fun k => k
  positions := fun k => k
  loss := fun k => k
  snapshot := fun k => k
  pool := fun k => ⟨rfl, rfl, rfl, k.2.2.2.1, rfl⟩
  filters := fun k => k
  timers := fun k => k
  notInit := fun k => k
  enable := rfl
  pending := rfl

theorem keeps_acceptShelf (s : State) : Keeps s (acceptShelf s) := by
  unfold acceptShelf
  refine Keeps.trans ?_ (keeps_takeMode _ _)
  refine Keeps.trans ?_ (touches_evaluateHead _).keeps
  exact (keeps_newFigures _ _ s).trans (touches_recompute .commit _).keeps

theorem keeps_commitShelf (s : State) : Keeps s (commitShelf s) := by
  unfold commitShelf refuseShelf rewriteShelf
  split
  · exact (keeps_setWindow _ s (fun k => Memory.wf_writeBytes _ _ _ k)).trans
      (touches_submit (B := everyBay) _ _).keeps
  · exact keeps_acceptShelf s

/-! ## One window write transaction -/

theorem keeps_forBays (f : BayId → State → State) (hf : ∀ b t, Keeps t (f b t)) (s : State) : Keeps s (forBays f s) := by
  unfold forBays
  induction allBays generalizing s with
  | nil => exact Keeps.refl s
  | cons b l ih => exact (hf b s).trans (ih (f b s))

theorem keeps_intake (l : List (Nat × Byte)) (s : State) : Keeps s (intake l s) := by
  have h1 : Keeps s (stepLand l s) := keeps_setWindow _ s (fun k => Memory.wf_writeAll _ _ k)
  have h2 : ∀ t, Keeps t (submitDiscard l (discards s l) t) := by
    intro t
    unfold submitDiscard
    split
    · exact Keeps.refl t
    · exact (touches_submit (B := everyBay) _ t).keeps
  have h3 : ∀ t, Keeps t (stepShelf l t) := by
    intro t
    unfold stepShelf
    split
    · exact keeps_commitShelf t
    · exact Keeps.refl t
  have h4 : ∀ t, Keeps t (stepSnapshot l t) := by
    intro t
    unfold stepSnapshot
    split
    · exact keeps_requestSnapshot _ _ t
    · exact Keeps.refl t
  have h5 : ∀ t, Keeps t (stepTail l t) := by
    intro t
    unfold stepTail
    split
    · exact keeps_writeTail _ _ t
    · exact Keeps.refl t
  have h6 : ∀ b t, Keeps t (stepBay l b t) := by
    intro b t
    unfold stepBay
    split
    · exact keeps_commitBay b t
    · exact Keeps.refl t
  have h7 : ∀ b t, Keeps t (stepSlot (landedStatus s l b) b t) := by
    intro b t
    unfold stepSlot
    split
    · exact ((Touches.refl everyBay t).handOver trivial _).keeps
    · exact Keeps.refl t
  unfold intake
  exact ((((((h1.trans (h2 _)).trans (h3 _)).trans (h4 _)).trans (h5 _)).trans (keeps_forBays _ h6 _)).trans
    (keeps_forBays _ h7 _)).trans (keeps_quiesceTest _)

/-! ## The end of INIT -/

theorem keeps_endInit (s : State) : Keeps s (endInit s) := by
  have h1 : Keeps s (leaveInit s) := by
    refine Keeps.trans (keeps_setWindow (clearedWindow s.shelf.clearScope s.window) s (fun k => ?_))
      (keeps_modShelf (fun h => { h with state := .held, initTimer := none, blink := .start }) _ ⟨rfl, rfl⟩ (fun _ k => nomatch k))
    unfold clearedWindow
    split
    · exact ⟨List.Pairwise.nil, fun _ h => nomatch h⟩
    · exact Memory.wf_clearFrom _ _ k
  refine h1.trans (keeps_forBays _ (fun b t => ?_) _)
  unfold startRest submitReset submitOwed
  have k := (((Touches.refl everyBay t).submitAbandoned (b := b) .reset (t.bay b).owedParcel).trans
    (touches_modBay (b := b) trivial (fun y => { y with owedParcel := none }) _ rfl (fun x => x) (fun x => x)))
  exact ((k.submit _).restIfZero (b := b) trivial).keeps

/-! ## A tick -/

theorem tickBy_bay (k : TickBases) (s : State) (b : BayId) : (tickBy k s).bay b = (s.bay b).tick k s.inInit := by
  show (s.bays.map (Bay.tick k s.inInit))[b] = _
  simp [State.bay]

/-- What a tick does to FltTicks: nothing, or counts that stay below the threshold (R65). -/
theorem tickFlt_cases (k : TickBases) (x : Bool) (n : Nat) (i : BayInputs) :
    (i.tickFlt k x n).fltTicks = i.fltTicks ∨ i.fltTicks < (i.tickFlt k x n).fltTicks ∧ (i.tickFlt k x n).fltTicks < n := by
  unfold BayInputs.tickFlt BayInputs.countFlt BayInputs.settleDue
  split <;> dsimp only <;> split <;> (try split) <;> simp_all

/-- A tick leaves the pin and the level of the fault filter as they are (R65). -/
theorem tickFlt_levels (k : TickBases) (x : Bool) (n : Nat) (i : BayInputs) :
    (i.tickFlt k x n).fltPin = i.fltPin ∧ (i.tickFlt k x n).fltLevel = i.fltLevel := by
  unfold BayInputs.tickFlt
  split <;> exact ⟨rfl, rfl⟩

theorem keeps_tickBy (k : TickBases) (s : State) : Keeps s (tickBy k s) where
  order := fun x => x
  notInit := fun x => x
  enable := rfl
  pending := rfl
  window := fun x => x
  charges := fun x => by
    unfold State.chargesOk at x ⊢
    show s.pool.committed = _
    rw [x]
    exact (chargeSum_congr (fun b => by rw [tickBy_bay]; rfl)).symm
  positions := fun x => x
  loss := fun x => x
  snapshot := fun x => x
  pool := fun x => x
  filters := fun x b => by
    rw [tickBy_bay]
    obtain ⟨h1, h2⟩ := x b
    unfold Bay.filterOk Bay.tick BayInputs.tick BayContext.tick
    obtain ⟨e1, e2⟩ := tickFlt_levels k s.inInit (faultThreshold (s.bay b).ctx.intent) (s.bay b).inputs
    rcases tickFlt_cases k s.inInit (faultThreshold (s.bay b).ctx.intent) (s.bay b).inputs with e | ⟨hgt, hlt⟩
    · simp only [e, e1, e2]; exact ⟨h1, h2⟩
    · simp only [e1, e2]
      refine ⟨by omega, ?_⟩
      constructor
      · intro hl
        have := (h2.mp hl).2
        omega
      · rintro ⟨_, he⟩
        omega
  timers := fun x b => by
    rw [tickBy_bay]
    have h := x b
    intro hn
    have hs : (s.bay b).ctx.state.timed = false := hn
    simp only [Bay.tick, BayContext.tick, hs, Bool.false_and, Bool.false_eq_true, if_false]
    exact h hs

end Sys2Proof.Machine
end

