-- ==== Sys2Proof/Laws/Coherence.lean ====
section
/-! SUPPORT. The bays and the queue together (R34, R37): what each operation does to a bay's view, and that every operation
leaves a bay coherent whose view is as the operation expects it. -/

namespace Sys2Proof.Machine

/-! ## The view -/

/-- What the coherence of a bay depends on. -/
structure BayView where
  state : BayState
  kinds : List EntryKind
  charge : Nat
  pg : Bool

/-- The view of a bay. -/
def State.view (s : State) (b : BayId) : BayView where
  state := s.stateOf b
  kinds := (entriesOf s.queue b).map (fun e => e.kind)
  charge := (s.bay b).charge
  pg := (s.bay b).inputs.pgLevel

/-- Coherence, said of the view. -/
def BayView.ok (v : BayView) : Prop :=
  match v.state with
  | .queued => v.kinds = [.start] ∧ v.charge = 0
  | .on => (v.kinds = [] ∨ v.kinds = [.raise]) ∧ v.pg = true
  | .empty | .off | .rest => v.kinds = [] ∧ v.charge = 0
  | .ramp => v.kinds = [] ∧ v.pg = false
  | .settle | .drain | .cutoff => v.kinds = [] ∧ v.pg = true
  | .faulted => v.kinds = [] ∧ (v.pg = false → v.charge = 0)

theorem bayOk_iff (s : State) (b : BayId) : s.bayOk b ↔ (s.view b).ok := by
  unfold State.bayOk State.entriesOk Bay.chargeOk Bay.powerOk BayView.ok State.view
  simp only
  have e : (s.bay b).ctx.state = s.stateOf b := rfl
  rw [e]
  cases s.stateOf b <;> simp [List.map_eq_nil_iff]

theorem BayView.ok_kinds {v : BayView} (h : v.ok) (hq : v.state ≠ .queued) : v.kinds = [] ∨ v.state = .on := by
  unfold BayView.ok at h
  split at h <;> simp_all

/-! ## What the primitive operations do to a view -/

variable {s : State} {b : BayId}

theorem view_touches {B : BayId → Prop} {t : State} (h : Touches B s t) (hb : ¬ B b) : t.view b = s.view b := by
  unfold State.view State.stateOf
  rw [h.others b hb, h.entries b hb]

@[simp] theorem view_submit (x : Record) (s : State) (b : BayId) : (submit x s).view b = s.view b := by
  simp only [State.view, submit_stateOf, submit_queue, submit_bay]

@[simp] theorem view_submitAdmit (c : BayId) (k : EntryKind) (o : AdmitOutcome) (n p : Nat) (x : Bool) (s : State)
    (b : BayId) : (submitAdmit c k o n p x s).view b = s.view b := view_submit _ _ _

/-- A change of one bay that leaves its view alone. -/
theorem view_modBay (b : BayId) (f : Bay → Bay) (s : State)
    (hf : (f (s.bay b)).ctx.state = (s.bay b).ctx.state ∧ (f (s.bay b)).charge = (s.bay b).charge
      ∧ (f (s.bay b)).inputs.pgLevel = (s.bay b).inputs.pgLevel) (c : BayId) :
    (modBay b f s).view c = s.view c := by
  by_cases h : c = b
  · subst h
    simp only [State.view, State.stateOf, modBay_bay_self, modBay_queue, hf.1, hf.2.1, hf.2.2]
  · simp only [State.view, State.stateOf, modBay_bay_ne h, modBay_queue]

@[simp] theorem view_modLink (b : BayId) (f : LinkEngine → LinkEngine) (s : State) (c : BayId) :
    (modLink b f s).view c = s.view c := view_modBay b _ s ⟨rfl, rfl, rfl⟩ c

@[simp] theorem view_modDialogue (b : BayId) (f : DialogueUnit → DialogueUnit) (s : State) (c : BayId) :
    (modDialogue b f s).view c = s.view c := view_modBay b _ s ⟨rfl, rfl, rfl⟩ c

@[simp] theorem view_placeEntry (b : BayId) (e : TxEntry) (s : State) (c : BayId) :
    (placeEntry b e s).view c = s.view c := by
  unfold placeEntry
  split
  · exact view_modLink _ _ _ _
  · rfl

@[simp] theorem view_grantCharge (b : BayId) (s : State) (c : BayId) : (grantCharge b s).view c = s.view c :=
  view_placeEntry _ _ _ _

@[simp] theorem view_announce (b : BayId) (k : EntryKind) (n : Nat) (x : Bool) (s : State) (c : BayId) :
    (announceQueued b k n x s).view c = s.view c := by
  unfold announceQueued
  rw [view_placeEntry, view_submitAdmit]

@[simp] theorem view_noteQuiesce (b : BayId) (n : BayState) (x : StateReason) (s : State) (c : BayId) :
    (noteQuiesce b n x s).view c = s.view c := by
  unfold noteQuiesce
  split
  · split
    · exact view_modBay b _ s ⟨rfl, rfl, rfl⟩ c
    · rfl
  · rfl

@[simp] theorem view_rewriteLocked (b : BayId) (o n : BayState) (s : State) (c : BayId) :
    (rewriteLocked b o n s).view c = s.view c := by
  unfold rewriteLocked
  split <;> rfl

@[simp] theorem view_clearFilter (b : BayId) (s : State) (c : BayId) : (clearFilter b s).view c = s.view c :=
  view_modBay b _ s ⟨rfl, rfl, rfl⟩ c

@[simp] theorem view_raiseFault (s : State) (c : BayId) : (raiseFault s).view c = s.view c := rfl

@[simp] theorem view_chooseBasis (b : BayId) (s : State) (c : BayId) : (chooseBasis b s).view c = s.view c :=
  view_modBay b _ s ⟨rfl, rfl, rfl⟩ c

@[simp] theorem view_clearPending (b : BayId) (s : State) (c : BayId) : (clearPending b s).view c = s.view c :=
  view_modBay b _ s ⟨rfl, rfl, rfl⟩ c

theorem view_modCtx (b : BayId) (f : BayContext → BayContext) (s : State)
    (hf : (f (s.bay b).ctx).state = (s.bay b).ctx.state) (c : BayId) : (modCtx b f s).view c = s.view c :=
  view_modBay b _ s ⟨hf, rfl, rfl⟩ c

@[simp] theorem view_setCharge (b : BayId) (v : Nat) (s : State) :
    (setCharge b v s).view b = { s.view b with charge := v } := by
  simp only [State.view, State.stateOf, setCharge_bay_self]
  rfl

@[simp] theorem view_without (b : BayId) (s : State) :
    (setQueue (queueWithout s.queue b) s).view b = { s.view b with kinds := [] } := by
  simp only [State.view, State.stateOf, setQueue_bay]
  show BayView.mk _ ((entriesOf (queueWithout s.queue b) b).map _) _ _ = _
  rw [entriesOf_without_self]
  rfl

theorem kinds_replace (q : List QueueEntry) (b : BayId) (n : Nat) (x : Bool) :
    (entriesOf (queueReplace b n x q) b).map (fun e => e.kind) = (entriesOf q b).map (fun e => e.kind) := by
  unfold entriesOf queueReplace
  induction q with
  | nil => rfl
  | cons e q ih =>
    rw [List.map_cons, List.filter_cons, List.filter_cons]
    simp only [beq_iff_eq] at ih
    by_cases h : e.bay = b
    · simp [h, ih]
    · simp [h, ih]

@[simp] theorem view_replace (b : BayId) (n : Nat) (x : Bool) (s : State) :
    (setQueue (queueReplace b n x s.queue) s).view b = s.view b := by
  simp only [State.view, State.stateOf, setQueue_bay]
  show BayView.mk _ ((entriesOf (queueReplace b n x s.queue) b).map _) _ _ = _
  rw [kinds_replace]

theorem entriesOf_insert_self (e : QueueEntry) (q : List QueueEntry) (h : entriesOf q e.bay = []) :
    entriesOf (queueInsert e q) e.bay = [e] := by
  unfold entriesOf at *
  induction q with
  | nil => simp [queueInsert]
  | cons x q ih =>
    rw [List.filter_cons] at h
    by_cases hx : x.bay = e.bay
    · simp [hx] at h
    · simp only [beq_eq_false_iff_ne.mpr hx, Bool.false_eq_true, if_false] at h
      unfold queueInsert
      split
      · rw [List.filter_cons, List.filter_cons]; simp [hx, h]
      · rw [List.filter_cons]; simp [hx, ih h]

theorem view_join (b : BayId) (k : EntryKind) (n : Nat) (x : Bool) (s : State) (h : (s.view b).kinds = []) :
    (joinQueue b k n x s).view b = { s.view b with kinds := [k] } := by
  have he : entriesOf s.queue b = [] := List.map_eq_nil_iff.mp h
  have hi := entriesOf_insert_self ⟨b, k, n, (s.intentOf b).priority, s.pool.arrivalCounter, x⟩ s.queue he
  show BayView.mk _ ((entriesOf (queueInsert _ s.queue) b).map _) _ _ = _
  rw [hi]
  rfl

theorem kinds_nil_of_none (s : State) (b : BayId) (h : queueEntryOf s.queue b = none) : (s.view b).kinds = [] := by
  rw [queueEntryOf_eq, List.head?_eq_none_iff] at h
  simp [State.view, h]

@[simp] theorem view_leaveQueue (b : BayId) (o : AdmitOutcome) (s : State) :
    (leaveQueue b o s).view b = { s.view b with kinds := [] } := by
  unfold leaveQueue
  split
  · rw [view_submitAdmit, view_without]
  · rename_i h
    rw [← kinds_nil_of_none s b h]

theorem stateOf_eq_view (s : State) (b : BayId) : s.stateOf b = (s.view b).state := rfl

/-- The view after a change of state: a bay that leaves ON leaves the queue. -/
@[simp] theorem view_changeState (b : BayId) (new : BayState) (x : StateReason) (p : Bool) (n : Nat) (s : State) :
    (changeState b new x p n s).view b
      = { s.view b with state := new, kinds := if (s.view b).state = .on then [] else (s.view b).kinds } := by
  have h1 : ∀ t : State, (modCtx b (fun c => { c with
      state := new, phaseTimer := ms n, pending := pendingAfter c.state new c.pending }) t).view b
      = { t.view b with state := new } := by
    intro t
    simp only [State.view, State.stateOf, modCtx_bay_self, modCtx_queue]
  unfold changeState leaveOn
  split
  · rename_i h
    rw [view_leaveQueue, view_noteQuiesce, view_rewriteLocked, h1, view_submit, ← stateOf_eq_view, h]
    simp
  · rename_i h
    rw [view_noteQuiesce, view_rewriteLocked, h1, view_submit, ← stateOf_eq_view, if_neg h]

/-! ## Operations on one bay -/

/-- What an operation that ends a bay's stay in the queue expects: no entry but a Raise of a bay in ON. -/
def BayView.free (v : BayView) : Prop := v.kinds = [] ∨ v.state = .on

theorem free_kinds {v : BayView} (h : v.free) : (if v.state = .on then [] else v.kinds) = [] := by
  rcases h with h | h <;> simp [h]

theorem ok_reconcileOff (h : (s.view b).ok) : ((reconcileOff b s).view b).ok := by
  unfold reconcileOff
  split
  · rename_i hc
    have ho : (s.view b).state = .off := hc.1
    unfold joinStart
    split
    · rw [view_submitAdmit, view_chooseBasis]; exact h
    · have hk : (s.view b).kinds = [] ∧ (s.view b).charge = 0 := by simpa [BayView.ok, ho] using h
      rw [view_announce, view_join _ _ _ _ _ (by simp [ho, hk]), view_changeState, view_chooseBasis]
      simp [BayView.ok, hk]
  · exact h

theorem ok_endRest (hk : (s.view b).kinds = []) (hc : (s.view b).charge = 0) : ((endRest b s).view b).ok := by
  unfold endRest
  split
  · refine ok_reconcileOff ?_
    rw [view_changeState]
    simp [BayView.ok, hk, hc]
  · rw [view_changeState]
    simp [BayView.ok, hk, hc]

theorem ok_restIfZero (hs : (s.view b).state = .rest) (hk : (s.view b).kinds = []) (hc : (s.view b).charge = 0) :
    ((restIfZero b s).view b).ok := by
  unfold restIfZero
  split
  · exact ok_endRest hk hc
  · simp [BayView.ok, hs, hk, hc]

theorem ok_discharge (h : (s.view b).free) : ((discharge b s).view b).ok := by
  unfold discharge
  refine ok_restIfZero ?_ ?_ ?_ <;> rw [view_setCharge, view_changeState]
  exact free_kinds h

theorem ok_leaveFaulted (hk : (s.view b).kinds = []) (hc : (s.view b).charge = 0) : ((leaveFaulted b s).view b).ok := by
  unfold leaveFaulted
  refine ok_restIfZero ?_ ?_ ?_ <;> rw [view_clearFilter, view_changeState]
  · simp [hk]
  · exact hc

theorem ok_enterFaulted (x : StateReason) (h : (s.view b).free) : ((enterFaulted b x s).view b).ok := by
  have key : (raiseFault (modInputs b (fun i => { i with faultCount := min 255 (i.faultCount + 1) })
      (modCtx b (fun c => { c with clearRequested := false, pending := false })
        (changeState b .faulted x false 0 s)))).view b
      = { s.view b with state := .faulted, kinds := [] } := by
    rw [view_raiseFault, show ∀ t : State, (modInputs b (fun i => { i with
      faultCount := min 255 (i.faultCount + 1) }) t).view b = t.view b from
        fun t => view_modBay b _ t ⟨rfl, rfl, rfl⟩ b, view_modCtx _ _ _ rfl, view_changeState, free_kinds h]
  unfold enterFaulted releaseIfDown
  split
  · rename_i hp
    rw [key]
    have h2 : (s.view b).pg = true := (congrArg BayView.pg key).symm.trans hp
    simp [BayView.ok, h2]
  · rw [view_setCharge, key]
    simp [BayView.ok]

theorem ok_enterCutoff (x : StateReason) (h : (s.view b).free) : ((enterCutoff b x s).view b).ok := by
  have key := view_changeState b .cutoff x false (s.intentOf b).dischargeWindow s
  rw [free_kinds h] at key
  unfold enterCutoff cutoffNext
  split
  · exact ok_discharge (Or.inl (by rw [key]))
  · split
    · exact ok_enterFaulted _ (Or.inl (by rw [key]))
    · rename_i hp _
      have hp' : ((changeState b .cutoff x false (s.intentOf b).dischargeWindow s).view b).pg = true := by
        simpa [State.view] using hp
      rw [key] at hp' ⊢
      exact ⟨rfl, hp'⟩

theorem ok_drainNext (x : DrainReason) (hs : (s.view b).state = .drain) (hk : (s.view b).kinds = [])
    (hp : (s.view b).pg = true) : ((drainNext b x s).view b).ok := by
  unfold drainNext
  split
  · split
    · exact ok_enterCutoff _ (Or.inl (by rw [view_placeEntry]; exact hk))
    · rw [view_placeEntry]
      simp [BayView.ok, hs, hk, hp]
  · exact ok_enterCutoff _ (Or.inl hk)

theorem ok_enterDrain (x : DrainReason) (h : (s.view b).free) (hp : (s.view b).pg = true) :
    ((enterDrain b x s).view b).ok := by
  unfold enterDrain
  refine ok_drainNext x ?_ ?_ ?_ <;> rw [view_changeState]
  · exact free_kinds h
  · exact hp

theorem ok_withdrawStart (x : StateReason) (hc : (s.view b).charge = 0) : ((withdrawStart b x s).view b).ok := by
  unfold withdrawStart
  rw [view_changeState, view_leaveQueue]
  simp [BayView.ok, hc]

/-- A bay in ON that holds no entry or one Raise, with PG active. -/
def BayView.onOk (v : BayView) : Prop := v.state = .on ∧ (v.kinds = [] ∨ v.kinds = [.raise]) ∧ v.pg = true

theorem BayView.onOk.ok {v : BayView} (h : v.onOk) : v.ok := by
  obtain ⟨h1, h2, h3⟩ := h
  simp [BayView.ok, h1, h2, h3]

theorem onOk_requestRaise (n : Nat) (x : Bool) (h : (s.view b).onOk) : ((requestRaise b n x s).view b).onOk := by
  obtain ⟨h1, h2, h3⟩ := h
  unfold requestRaise
  split
  · rw [view_grantCharge]
    split
    · rw [view_leaveQueue]; exact ⟨h1, Or.inl rfl, h3⟩
    · rw [view_submitAdmit]; exact ⟨h1, h2, h3⟩
  · rw [view_announce]
    split
    · rw [view_replace]; exact ⟨h1, h2, h3⟩
    · rename_i hn
      have hk : (s.view b).kinds = [] := kinds_nil_of_none s b (by simpa using hn)
      rw [view_join _ _ _ _ _ hk]
      exact ⟨h1, Or.inr rfl, h3⟩

theorem onOk_admitRaise (e : QueueEntry) (h : (s.view e.bay).onOk) : ((admitRaise e s).view e.bay).onOk := by
  unfold admitRaise
  rw [view_grantCharge, view_submitAdmit, view_setCharge, view_without]
  exact ⟨h.1, Or.inl rfl, h.2.2⟩

theorem onOk_takeRaise (n : Nat) (x : Bool) (h : (s.view b).onOk) : ((takeRaise b n x s).view b).onOk := by
  have h1 := onOk_requestRaise n x h
  unfold takeRaise admitAtOnce
  split
  · split
    · rename_i e he
      obtain rfl := queueEntryOf_bay he
      split
      · exact onOk_admitRaise e h1
      · exact h1
    · exact h1
  · exact h1

theorem onOk_takeLower (n : Nat) (h : (s.view b).onOk) : ((takeLower b n s).view b).onOk := by
  unfold takeLower
  rw [view_grantCharge, view_setCharge, view_leaveQueue]
  exact ⟨h.1, Or.inl rfl, h.2.2⟩

theorem onOk_setCharge (n : Nat) (h : (s.view b).onOk) : ((setCharge b n s).view b).onOk := by
  rw [view_setCharge]; exact h

theorem onOk_resolvePending (d : Demand) (h : (s.view b).onOk) : ((resolvePending b d s).view b).onOk := by
  unfold resolvePending
  split
  · exact onOk_setCharge _ h
  · split
    · rw [view_grantCharge]; exact onOk_setCharge _ h
    · exact onOk_requestRaise _ _ (onOk_setCharge _ h)

theorem ok_reconcileOn (h : (s.view b).onOk) : ((reconcileOn b s).view b).ok := by
  unfold reconcileOn
  split
  · exact ok_enterDrain _ (Or.inr h.1) h.2.2
  · exact h.ok

theorem ok_enterOn (hk : (s.view b).kinds = []) (hp : (s.view b).pg = true) : ((enterOn b s).view b).ok := by
  have h0 : ((changeState b .on .settled false 0 s).view b).onOk := by
    rw [view_changeState]
    exact ⟨rfl, Or.inl (by simp [hk]), hp⟩
  have h1 : ((settleCharge b (keepSettled b (changeState b .on .settled false 0 s))).view b).onOk := by
    have h2 : ((keepSettled b (changeState b .on .settled false 0 s)).view b).onOk := by
      unfold keepSettled
      rw [view_modBay b _ _ ⟨rfl, rfl, rfl⟩]
      exact h0
    generalize keepSettled b (changeState b .on .settled false 0 s) = t at h2
    unfold settleCharge
    split
    · exact onOk_resolvePending _ h2
    · exact onOk_setCharge _ h2
  exact ok_reconcileOn (by rw [view_clearPending]; exact h1)

theorem ok_enterSettle (h : (s.view b).free) (hp : (s.view b).pg = true) : ((enterSettle b s).view b).ok := by
  have key := view_changeState b .settle .powerGood false (s.intentOf b).settleDelay s
  rw [free_kinds h] at key
  unfold enterSettle
  generalize changeState b .settle .powerGood false (s.intentOf b).settleDelay s = t at key ⊢
  unfold settleNext
  split
  · exact ok_enterOn (congrArg BayView.kinds key) ((congrArg BayView.pg key).trans hp)
  · rw [key]; exact ⟨rfl, hp⟩

theorem ok_rampNext (hs : (s.view b).state = .ramp) (hk : (s.view b).kinds = []) : ((rampNext b s).view b).ok := by
  unfold rampNext
  split
  · rename_i hp
    exact ok_enterSettle (Or.inl hk) hp
  · split
    · exact ok_enterFaulted _ (Or.inl hk)
    · rename_i hp _
      have hp' : (s.view b).pg = false := by simpa [State.view] using hp
      simp [BayView.ok, hs, hk, hp']

theorem ok_enterRamp (n : Nat) (h : (s.view b).free) : ((enterRamp b n s).view b).ok := by
  unfold enterRamp
  refine ok_rampNext ?_ ?_ <;> rw [view_placeEntry, view_clearFilter, view_changeState]
  exact free_kinds h

/-! ## Events of one bay: a coherent bay stays so -/

theorem free_of_ok (h : (s.view b).ok) (hq : s.stateOf b ≠ .queued) : (s.view b).free := BayView.ok_kinds h hq

theorem free_of_state {st : BayState} (h : (s.view b).ok) (hs : s.stateOf b = st) (hq : st ≠ .queued := by decide) :
    (s.view b).free := free_of_ok h (by rw [hs]; exact hq)

theorem charge_of_queued (h : (s.view b).ok) (hq : s.stateOf b = .queued) : (s.view b).charge = 0 := by
  have hq' : (s.view b).state = .queued := hq
  simp only [BayView.ok, hq'] at h
  exact h.2

theorem onOk_of_ok (h : (s.view b).ok) (hq : s.stateOf b = .on) : (s.view b).onOk := by
  have hq' : (s.view b).state = .on := hq
  simp only [BayView.ok, hq'] at h
  exact ⟨hq', h⟩

theorem ok_onFaultConfirmed (h : (s.view b).ok) : ((onFaultConfirmed b s).view b).ok := by
  unfold onFaultConfirmed
  split <;> rename_i hs
  iterate 4 exact ok_enterFaulted _ (free_of_state h hs)
  · exact ok_withdrawStart _ (charge_of_queued h hs)
  all_goals exact h

theorem view_setPg (b : BayId) (p : Bool) (s : State) :
    (modInputs b (fun i => { i with pgLevel := p }) s).view b = { s.view b with pg := p } := by
  simp only [State.view, State.stateOf, modInputs_bay_self, modInputs_queue]

/-- PG rises (R69). -/
theorem ok_pgRise (h : (s.view b).ok) (hp : (s.view b).pg = false) :
    ((onPgActive b (modInputs b (fun i => { i with pgLevel := true }) s)).view b).ok := by
  have key := view_setPg b true s
  have hk : s.stateOf b = .ramp → (s.view b).kinds = [] := by
    intro e
    have e' : (s.view b).state = .ramp := e
    simp only [BayView.ok, e'] at h
    exact h.1
  unfold onPgActive
  split <;> rename_i hs
  · have hr : s.stateOf b = .ramp := by
      have := congrArg BayView.state key
      exact this.symm.trans hs
    exact ok_enterSettle (Or.inl (by rw [key]; exact hk hr)) (by rw [key])
  all_goals
    rw [key]
    have e : (s.view b).state = _ := (congrArg BayView.state key).symm.trans hs
    simp only [BayView.ok, e, hp] at h ⊢
    simp_all

/-- PG falls (R69). -/
theorem ok_pgFall (h : (s.view b).ok) :
    ((onPgInactive b (modInputs b (fun i => { i with pgLevel := false }) s)).view b).ok := by
  have key := view_setPg b false s
  have hfree : s.stateOf b ≠ .queued →
      ((modInputs b (fun i => { i with pgLevel := false }) s).view b).free := by
    intro e
    rw [key]
    exact free_of_ok h e
  have hst : (modInputs b (fun i => { i with pgLevel := false }) s).stateOf b = s.stateOf b := congrArg BayView.state key
  unfold onPgInactive
  split <;> rename_i hs <;> rw [hst] at hs
  iterate 3 exact ok_enterFaulted _ (hfree (by simp [hs]))
  · exact ok_discharge (hfree (by simp [hs]))
  · have e : (s.view b).state = .faulted := hs
    have hk : (s.view b).kinds = [] := by
      simp only [BayView.ok, e] at h
      exact h.1
    unfold onPgInactiveFaulted
    split
    · refine ok_leaveFaulted ?_ ?_ <;> rw [view_setCharge]
      rw [key]; exact hk
    · rw [view_setCharge, key]
      simp [BayView.ok, e, hk]
  all_goals
    rw [key]
    have e : (s.view b).state = _ := hs
    simp only [BayView.ok, e] at h ⊢
    simp_all

theorem ok_onLatchOpen (h : (s.view b).ok) : ((onLatchOpen b s).view b).ok := by
  unfold onLatchOpen
  split <;> rename_i hs
  · exact ok_enterDrain _ (Or.inr hs) (onOk_of_ok h hs).2.2
  iterate 2 exact ok_enterCutoff _ (free_of_state h hs)
  · exact ok_withdrawStart _ (charge_of_queued h hs)
  all_goals exact h

theorem ok_clearFault (h : (s.view b).ok) (hs : s.stateOf b = .faulted) : ((clearFault b s).view b).ok := by
  have e : (s.view b).state = .faulted := hs
  have h' : (s.view b).kinds = [] ∧ ((s.view b).pg = false → (s.view b).charge = 0) := by
    simpa only [BayView.ok, e] using h
  unfold clearFault
  split
  · rw [view_modCtx _ _ _ rfl]; exact h
  · rename_i hp
    have hp' : (s.view b).pg = false := by simpa [State.view] using hp
    exact ok_leaveFaulted h'.1 (h'.2 hp')

theorem ok_takeTarget (h : (s.view b).ok) : ((takeTarget b s).view b).ok := by
  unfold takeTarget
  split
  · exact ok_reconcileOff h
  · rename_i hs; exact ok_withdrawStart _ (charge_of_queued h hs)
  · rename_i hs; exact ok_enterDrain _ (Or.inr hs) (onOk_of_ok h hs).2.2
  · rename_i hs; exact ok_clearFault h hs
  · rename_i hs; exact ok_withdrawStart _ (charge_of_queued h hs)
  iterate 4 (rename_i hs; exact ok_enterCutoff _ (free_of_state h hs))
  · rename_i hs; exact ok_clearFault h hs
  · exact h

theorem ok_onDeadline (h : (s.view b).ok) : ((onDeadline b s).view b).ok := by
  unfold onDeadline
  split <;> rename_i hs
  iterate 4 exact ok_enterCutoff _ (free_of_state h hs)
  all_goals exact h

theorem ok_onLinkLost (h : (s.view b).ok) : ((onLinkLost b s).view b).ok := by
  unfold onLinkLost withdrawUnlessBlind
  split
  · rename_i hs; exact ok_enterCutoff _ (free_of_ok h (by simp [hs]))
  · split
    · rename_i hs; exact ok_withdrawStart _ (charge_of_queued h hs.1)
    · exact h

theorem ok_replaceStart (n : Nat) (x : Bool) (h : (s.view b).ok) (hs : s.stateOf b = .queued) :
    ((replaceStart b n x s).view b).ok := by
  have hc := charge_of_queued h hs
  unfold replaceStart
  split
  · rw [view_changeState, view_leaveQueue]
    simp [BayView.ok, hc]
  · rw [view_announce, view_replace]; exact h

theorem ok_onDemandUnknown (h : (s.view b).ok) : ((onDemandUnknown b s).view b).ok := by
  unfold onDemandUnknown
  split <;> rename_i hs
  · split
    · refine ok_replaceStart _ _ (by rw [view_modCtx _ _ _ rfl]; exact h) ?_
      exact (congrArg BayView.state (view_modCtx b _ s rfl b)).trans hs
    · exact ok_withdrawStart _ (charge_of_queued h hs)
  · rw [view_clearPending]; exact h
  · rw [view_clearPending]; exact h
  all_goals exact h

theorem ok_makeDemandUnknown (h : (s.view b).ok) : ((makeDemandUnknown b s).view b).ok :=
  ok_onDemandUnknown (by rw [view_modCtx _ _ _ rfl]; exact h)

theorem ok_onDemand (d : Demand) (h : (s.view b).ok) : ((onDemand b d s).view b).ok := by
  unfold onDemand
  split <;> rename_i hs
  · exact ok_reconcileOff h
  · refine ok_replaceStart _ _ (by rw [view_modCtx _ _ _ rfl]; exact h) ?_
    exact (congrArg BayView.state (view_modCtx b _ s rfl b)).trans hs
  · rw [view_modCtx _ _ _ rfl]; exact h
  · rw [view_modCtx _ _ _ rfl]; exact h
  · split
    · exact (onOk_takeRaise _ _ (onOk_of_ok h hs)).ok
    · exact (onOk_takeLower _ (onOk_of_ok h hs)).ok
  all_goals exact h

theorem ok_onRelease (h : (s.view b).ok) : ((onRelease b s).view b).ok := by
  unfold onRelease
  split
  · rename_i hs; exact ok_enterCutoff _ (free_of_ok h (by simp [hs]))
  · exact h

theorem troubleActionOf_withdrawn {n : Nat} {st : BayState} (h : troubleActionOf n st = .withdrawn) : st = .queued := by
  unfold troubleActionOf at h
  split at h
  · cases h
  · cases st <;> simp_all <;> split at h <;> cases h

theorem troubleActionOf_drain {n : Nat} {st : BayState} (h : troubleActionOf n st = .drain) : st = .on := by
  unfold troubleActionOf at h
  split at h
  · cases h
  · cases st <;> simp_all <;> split at h <;> cases h

theorem troubleActionOf_cut {n : Nat} {st : BayState} (h : troubleActionOf n st = .cut) : st ≠ .queued := by
  rintro rfl
  unfold troubleActionOf at h
  split at h <;> cases h

theorem ok_onTrouble (n : Nat) (h : (s.view b).ok) : ((onTrouble b n s).view b).ok := by
  have key : (modCtx b (fun c => { c with troubleHold := true }) s).view b = s.view b := view_modCtx _ _ _ rfl _
  have hst : (modCtx b (fun c => { c with troubleHold := true }) s).stateOf b = s.stateOf b := congrArg BayView.state key
  rw [← key] at h
  unfold onTrouble
  split <;> rename_i ha
  · rw [key] at h; exact h
  · exact h
  · exact ok_withdrawStart _ (charge_of_queued h (hst.trans (troubleActionOf_withdrawn ha)))
  · have hon := hst.trans (troubleActionOf_drain ha)
    exact ok_enterDrain _ (Or.inr hon) (onOk_of_ok h hon).2.2
  · exact ok_enterCutoff _ (free_of_ok h (by rw [hst]; exact troubleActionOf_cut ha))

/-! ## The queue's events -/

theorem kinds_of_mem {e : QueueEntry} (he : e ∈ s.queue) : e.kind ∈ (s.view e.bay).kinds :=
  List.mem_map.mpr ⟨e, mem_entriesOf he, rfl⟩

theorem BayView.queued_of_start {v : BayView} (hm : EntryKind.start ∈ v.kinds) (h : v.ok) : v.state = .queued := by
  obtain ⟨st, ks, ch, pg⟩ := v
  cases st <;> simp_all [BayView.ok]
  rcases h.1 with h1 | h1 <;> simp_all

theorem BayView.on_of_raise {v : BayView} (hm : EntryKind.raise ∈ v.kinds) (h : v.ok) : v.state = .on := by
  obtain ⟨st, ks, ch, pg⟩ := v
  cases st <;> simp_all [BayView.ok]

theorem queued_of_start {e : QueueEntry} (he : e ∈ s.queue) (hk : e.kind = .start) (h : (s.view e.bay).ok) :
    s.stateOf e.bay = .queued := BayView.queued_of_start (hk ▸ kinds_of_mem he) h

theorem on_of_raise {e : QueueEntry} (he : e ∈ s.queue) (hk : e.kind = .raise) (h : (s.view e.bay).ok) :
    s.stateOf e.bay = .on := BayView.on_of_raise (hk ▸ kinds_of_mem he) h

@[simp] theorem view_advanceCounter (s : State) (c : BayId) : (advanceCounter s).view c = s.view c := rfl

@[simp] theorem view_grantStamp (b : BayId) (n : BitVec 32) (s : State) (c : BayId) :
    (grantStamp b n s).view c = s.view c := view_modBay b _ s ⟨rfl, rfl, rfl⟩ c

theorem ok_admitEntry (e : QueueEntry) (he : e ∈ s.queue) (h : (s.view e.bay).ok) :
    ((admitEntry e s).view e.bay).ok := by
  unfold admitEntry
  split
  · unfold admitStart
    apply ok_enterRamp
    left
    rw [view_submitAdmit, view_advanceCounter, view_grantStamp, view_setCharge, view_without]
  · rename_i hk
    exact (onOk_admitRaise e (onOk_of_ok h (on_of_raise he hk h))).ok

/-- One bay alone. -/
def only (b : BayId) : BayId → Prop := fun c => c = b

theorem only_self (b : BayId) : only b b := rfl

/-- All bays coherent. -/
structure State.allOk (s : State) : Prop where
  bay : ∀ b, (s.view b).ok

/-- An operation for one bay that leaves that bay coherent leaves all so. -/
theorem allOk_one {t : State} (b : BayId) (hT : Touches (only b) s t) (h : s.allOk) (hb : (t.view b).ok) :
    t.allOk := by
  refine ⟨fun c => ?_⟩
  by_cases hc : c = b
  · subst hc; exact hb
  · rw [view_touches hT hc]; exact h.bay c

theorem allOk_evaluateLoop (n : Nat) (h : s.allOk) : (evaluateLoop n s).allOk := by
  induction n generalizing s with
  | zero => exact h
  | succ n ih =>
    unfold evaluateLoop
    split
    · rename_i e he
      have hm := headThatFits_mem he
      exact ih (allOk_one e.bay ((Touches.refl (only e.bay) s).admitEntry (only_self _) e rfl) h (ok_admitEntry e hm (h.bay e.bay)))
    · exact h

theorem allOk_evaluateHead (h : s.allOk) : (evaluateHead s).allOk := allOk_evaluateLoop _ h

/-- The same operation for every bay in turn: each bay's own turn makes it coherent. -/
theorem allOk_forBays (f : BayId → State → State) (pre : BayView → Prop)
    (hT : ∀ b t, Touches (only b) t (f b t)) (hf : ∀ b t, pre (t.view b) → ((f b t).view b).ok)
    (h : ∀ b, pre (s.view b)) : (forBays f s).allOk := by
  have key : ∀ (l : List BayId) (t : State), l.Nodup → (∀ b ∈ l, pre (t.view b)) → (∀ b, b ∉ l → (t.view b).ok) →
      (l.foldl (fun u b => f b u) t).allOk := by
    intro l
    induction l with
    | nil => intro t _ _ h2; exact ⟨fun b => h2 b (by simp)⟩
    | cons x l ih =>
      intro t hn h1 h2
      have hx := List.nodup_cons.mp hn
      refine ih (f x t) hx.2 (fun b hb => ?_) (fun b hb => ?_)
      · have hne : b ≠ x := fun e => hx.1 (e ▸ hb)
        rw [view_touches (hT x t) hne]
        exact h1 b (by simp [hb])
      · by_cases e : b = x
        · subst e; exact hf b t (h1 b (by simp))
        · rw [view_touches (hT x t) e]
          exact h2 b (by simp [hb, e])
  refine key allBays s (List.nodup_finRange 16) (fun b _ => h b) (fun b hb => absurd (List.mem_finRange b) hb)

theorem ok_shedBay (h : (s.view b).ok) : ((shedBay b s).view b).ok := by
  unfold shedBay
  split <;> rename_i hs
  · exact ok_enterDrain _ (Or.inr hs) (onOk_of_ok h hs).2.2
  iterate 2 exact ok_enterCutoff _ (free_of_state h hs)
  all_goals exact h

theorem allOk_shedAll (l : List BayId) (h : s.allOk) : (shedAll l s).allOk := by
  unfold shedAll
  induction l generalizing s with
  | nil => exact h
  | cons b l ih => exact ih (allOk_one b ((Touches.refl _ s).shedBay (only_self _)) h (ok_shedBay (h.bay b)))

theorem ok_refuseEntry (e : QueueEntry) (p : Nat) (he : e ∈ s.queue) (h : (s.view e.bay).ok) :
    ((refuseEntry e p s).view e.bay).ok := by
  unfold refuseEntry
  split
  · rename_i hk
    have hc := charge_of_queued h (queued_of_start he hk h)
    rw [view_changeState, view_submitAdmit, view_without]
    simp [BayView.ok, hc]
  · rename_i hk
    have hon := onOk_of_ok h (on_of_raise he hk h)
    rw [view_grantCharge, view_submitAdmit, view_without]
    exact BayView.onOk.ok ⟨hon.1, Or.inl rfl, hon.2.2⟩

/-- In a coherent state two entries of the queue are of two bays. -/
theorem bays_nodup (h : s.allOk) : (s.queue.map (fun e => e.bay)).Nodup := by
  rw [List.nodup_iff_count_le_one]
  intro b
  have hle : (entriesOf s.queue b).length ≤ 1 := by
    have hk := h.bay b
    have hlen : ((s.view b).kinds).length = (entriesOf s.queue b).length := by simp [State.view]
    rw [← hlen]
    unfold BayView.ok at hk
    split at hk <;> first | (rcases hk with ⟨hk | hk, _⟩ <;> simp [hk]) | (simp [hk.1])
  have hc : List.count b (s.queue.map (fun e => e.bay)) = (entriesOf s.queue b).length := by
    unfold entriesOf
    induction s.queue with
    | nil => rfl
    | cons e q ih =>
      rw [List.map_cons, List.count_cons, List.filter_cons, ih]
      by_cases hb : e.bay = b <;> simp [hb]
  omega

theorem allOk_refuseAll (l : List (QueueEntry × Nat)) (h : s.allOk) (hn : (l.map (fun x => x.1.bay)).Nodup)
    (hm : ∀ x ∈ l, x.1 ∈ s.queue) : (refuseAll l s).allOk := by
  unfold refuseAll
  induction l generalizing s with
  | nil => exact h
  | cons x l ih =>
    have hx := List.nodup_cons.mp hn
    have hT : Touches (only x.1.bay) s (refuseEntry x.1 x.2 s) :=
      (Touches.refl _ s).refuseEntry x.1 x.2 (only_self _)
    refine ih (allOk_one _ hT h (ok_refuseEntry x.1 x.2 (hm x (by simp)) (h.bay _))) hx.2 (fun y hy => ?_)
    have hne : y.1.bay ≠ x.1.bay := fun e => hx.1 (List.mem_map.mpr ⟨y, hy, e⟩)
    have h1 := mem_entriesOf (hm y (by simp [hy]))
    rw [← hT.entries y.1.bay hne] at h1
    exact (of_mem_entriesOf h1).1

theorem allOk_budgetFall (old : Nat) (c : BudgetCause) (h : s.allOk) : (budgetFall old c s).allOk := by
  have h1 := allOk_shedAll (shedList s) h
  unfold budgetFall fallNext submitBudget
  generalize shedAll (shedList s) s = t at h1
  have hsub : ((refusalList t).map (fun x => x.1)).Sublist t.queue := by
    unfold refusalList
    rw [List.map_map]
    have : (fun x : QueueEntry × Nat => x.1) ∘ (fun e => (e, queuePosition t.queue e.bay)) = id := rfl
    rw [this, List.map_id]
    exact List.filter_sublist
  have hn : ((refusalList t).map (fun x => x.1.bay)).Nodup := by
    have := (hsub.map (fun e => e.bay)).nodup (bays_nodup h1)
    simpa [List.map_map, Function.comp_def] using this
  have h2 := allOk_refuseAll (refusalList t) h1 hn
    (fun x hx => hsub.subset (List.mem_map.mpr ⟨x, hx, rfl⟩))
  refine ⟨fun b => ?_⟩
  rw [view_submit]
  exact h2.bay b

theorem allOk_recompute (c : BudgetCause) (h : s.allOk) : (recomputeBudget c s).allOk := by
  unfold recomputeBudget
  split
  · exact h
  · split
    · exact ⟨fun b => by rw [submitBudget, view_submit]; exact h.bay b⟩
    · exact allOk_budgetFall _ _ ⟨h.bay⟩

/-! ## The link's events -/

@[simp] theorem view_setSlot (b : BayId) (st : SlotStatus) (s : State) (c : BayId) :
    (setSlot b st s).view c = s.view c := view_modDialogue _ _ _ _

@[simp] theorem view_endParcel (b : BayId) (o : SlotStatus) (x : ParcelCause) (n : Nat) (s : State) (c : BayId) :
    (endParcel b o x n s).view c = s.view c := by
  unfold endParcel
  rw [view_submit, view_modDialogue]

@[simp] theorem view_abandonListed (b : BayId) (x : ParcelCause) (s : State) (c : BayId) :
    (abandonListed b x s).view c = s.view c := by
  unfold abandonListed
  split
  · exact view_endParcel _ _ _ _ _ _
  · rfl

@[simp] theorem view_takeParcel (b : BayId) (s : State) (c : BayId) : (takeParcel b s).view c = s.view c := by
  unfold takeParcel refuseParcel copyParcel
  split
  · split
    · rw [view_submit, view_setSlot]
    · rw [view_placeEntry, view_modDialogue]
  · rfl

@[simp] theorem view_placeLimit (b : BayId) (s : State) (c : BayId) : (placeLimit b s).view c = s.view c :=
  view_placeEntry _ _ _ _

@[simp] theorem view_placeProbe (b : BayId) (s : State) (c : BayId) : (placeProbe b s).view c = s.view c := by
  unfold placeProbe
  split
  · rfl
  · exact view_placeEntry _ _ _ _

@[simp] theorem view_countQuality (b : BayId) (k : QualityKind) (s : State) (c : BayId) :
    (countQuality b k s).view c = s.view c := by
  unfold countQuality reportQuality
  split
  · rw [view_submit, view_modLink, view_modLink]
  · exact view_modLink _ _ _ _

@[simp] theorem view_submitLink (b : BayId) (e : LinkEvent) (s : State) (c : BayId) :
    (submitLink b e s).view c = s.view c := view_submit _ _ _

@[simp] theorem view_flushList (b : BayId) (x : ParcelCause) (s : State) (c : BayId) :
    (flushList b x s).view c = s.view c := by
  unfold flushList
  rw [view_modLink, view_abandonListed]

@[simp] theorem view_clearInFlight (b : BayId) (s : State) (c : BayId) : (clearInFlight b s).view c = s.view c :=
  view_modLink _ _ _ _

@[simp] theorem view_reportParcel (b : BayId) (e : TxEntry) (o : SlotStatus) (x : ParcelCause) (n : Nat) (s : State)
    (c : BayId) : (reportParcel b e o x n s).view c = s.view c := by
  unfold reportParcel
  split <;> first | exact view_endParcel _ _ _ _ _ _ | rfl

theorem ok_attemptFailed (m : InFlight) (h : (s.view b).ok) : ((attemptFailed b m s).view b).ok := by
  unfold attemptFailed failMessage failNext enterLost awaitResend
  split
  · rw [view_modLink]; exact h
  · split
    · rw [view_flushList, view_reportParcel, view_clearInFlight]; exact h
    · refine ok_onLinkLost ?_
      rw [view_submitLink, view_modLink, view_abandonListed, view_reportParcel, view_clearInFlight]
      exact h

@[simp] theorem view_completeMessage (b : BayId) (m : InFlight) (s : State) (c : BayId) :
    (completeMessage b m s).view c = s.view c := by
  unfold completeMessage
  rw [view_reportParcel, view_clearInFlight]

@[simp] theorem view_detachLink (b : BayId) (s : State) (c : BayId) : (detachLink b s).view c = s.view c := by
  have h : (submitLink b .detached (detachFields b s)).view c = s.view c := by
    rw [view_submitLink]
    exact view_modBay b _ s ⟨rfl, rfl, rfl⟩ c
  unfold detachLink submitAbandoned
  split
  · rfl
  · split
    · rw [view_submit, h]
    · exact h

@[simp] theorem view_attachLink (b : BayId) (s : State) (c : BayId) : (attachLink b s).view c = s.view c := by
  unfold attachLink
  split
  · rw [view_placeProbe, view_modLink]
  · rfl

theorem ok_onPresent (h : (s.view b).ok) : ((onPresent b s).view b).ok := by
  refine ok_reconcileOff ?_
  rw [view_attachLink]
  unfold insertModule
  split <;> rename_i hs
  · have e : (s.view b).state = .empty := hs
    simp only [BayView.ok, e] at h
    rw [view_changeState, e]
    simp [BayView.ok, h]
  all_goals exact h

theorem ok_onAbsent (h : (s.view b).ok) : ((onAbsent b s).view b).ok := by
  unfold onAbsent
  split
  · rw [view_detachLink]; exact h
  · rw [view_detachLink, view_modCtx _ _ _ rfl]; exact h
  all_goals
    have key : (detachLink b (modCtx b (fun c => { c with pending := false, troubleHold := false })
        (setQueue (queueWithout s.queue b) (setCharge b 0 s)))).view b = { s.view b with kinds := [], charge := 0 } := by
      rw [view_detachLink, view_modCtx _ _ _ rfl]
      exact (view_without b (setCharge b 0 s)).trans (by rw [view_setCharge])
    have hc : ∀ was t, (clearIfFaulted b was t).view b = t.view b := by
      intro was t
      unfold clearIfFaulted
      split
      · exact view_clearFilter _ _ _
      · rfl
    unfold removeModule
    rw [hc, view_changeState, key]
    simp [BayView.ok]

theorem ok_deliverHello (l : List Byte) (h : (s.view b).ok) : ((deliverHello b l s).view b).ok := by
  unfold deliverHello refuseHello acceptHello unbindLink writeDirectory
  split
  · rw [view_takeParcel, view_placeLimit, view_modDialogue]
    refine ok_makeDemandUnknown ?_
    rw [view_submitLink, view_modLink]; exact h
  · split
    · refine ok_makeDemandUnknown ?_
      rw [view_flushList, view_modLink, view_submitLink]; exact h
    · rw [view_submitLink]; exact h

theorem ok_deliverDemand (l : List Byte) (h : (s.view b).ok) : ((deliverDemand b l s).view b).ok := by
  unfold deliverDemand countMalformed storeDemand
  split
  · refine ok_onDemand _ ?_
    rw [view_modCtx _ _ _ rfl]; exact h
  · rw [view_modDialogue]; exact h

theorem ok_deliverRelease (l : List Byte) (h : (s.view b).ok) : ((deliverRelease b l s).view b).ok := by
  unfold deliverRelease countMalformed
  split
  · exact ok_onRelease h
  · rw [view_modDialogue]; exact h

@[simp] theorem view_wakeEvent (b : BayId) (w : WakeSource) (s : State) (c : BayId) :
    (wakeEvent b w s).view c = s.view c := by
  unfold wakeEvent raiseWake
  split
  · split <;> exact view_submit _ _ _
  · rfl

theorem ok_deliverTrouble (l : List Byte) (h : (s.view b).ok) : ((deliverTrouble b l s).view b).ok := by
  unfold deliverTrouble countMalformed
  split
  · rw [view_wakeEvent]
    refine ok_onTrouble _ ?_
    rw [view_submit]; exact h
  · rw [view_modDialogue]; exact h

/-! ## The shelf's events -/

theorem view_setOutcomes (f : Bay → QuiesceOutcome) (l : List BayId) (s : State) (c : BayId) :
    (l.foldl (fun u b => modBay b (fun y => { y with quiesceOutcome := f y }) u) s).view c = s.view c := by
  induction l generalizing s with
  | nil => rfl
  | cons b l ih =>
    rw [List.foldl_cons, ih]
    exact view_modBay b _ s ⟨rfl, rfl, rfl⟩ c

@[simp] theorem view_settleOutcomes (s : State) (c : BayId) : (settleOutcomes s).view c = s.view c :=
  view_setOutcomes finalOutcome allBays s c

@[simp] theorem view_modShelf (f : Shelf → Shelf) (s : State) (c : BayId) : (modShelf f s).view c = s.view c := rfl

@[simp] theorem view_quiesceTest (s : State) (c : BayId) : (quiesceTest s).view c = s.view c := by
  unfold quiesceTest submitQuiesced enterStandby
  split
  · rw [view_modShelf, view_submit, view_settleOutcomes]
  · rfl

theorem allOk_finish (h : s.allOk) : (finish s).allOk := by
  refine ⟨fun b => ?_⟩
  unfold finish
  rw [view_quiesceTest]
  exact (allOk_evaluateHead h).bay b

theorem allOk_enterRun (h : s.allOk) : (enterRun s).allOk := by
  unfold enterRun
  refine allOk_evaluateHead ?_
  refine allOk_forBays reconcile BayView.ok (fun b t => ?_) (fun b t k => ?_) (fun b => ?_)
  · unfold reconcile
    split <;> first | exact (Touches.refl _ t).reconcileOff (only_self _) | exact (Touches.refl _ t).reconcileOn (only_self _) | exact Touches.refl _ t
  · unfold reconcile
    split <;> rename_i hs
    · exact ok_reconcileOff k
    · exact ok_reconcileOn (onOk_of_ok k hs)
    all_goals exact k
  · unfold setShelfState
    rw [view_modShelf]
    exact h.bay b

theorem view_setQueue_nil (s : State) (b : BayId) : (setQueue [] s).view b = { s.view b with kinds := [] } := rfl

theorem allOk_enterQuiescing (h : s.allOk) : (enterQuiescing s).allOk := by
  have hview : ∀ b, (beginQuiesce s).view b = { s.view b with kinds := [] } := by
    intro b
    unfold beginQuiesce
    rw [view_setQueue_nil, view_modShelf]
    unfold forBays
    rw [view_setOutcomes (fun _ => .none) allBays s b]
  have hq : ∀ (b : BayId) (t : State), (quiesceAdmit s.queue s.pool.committed b t).view b = t.view b := by
    intro b t
    unfold quiesceAdmit
    split
    · exact view_submit _ _ _
    · rfl
  unfold enterQuiescing
  refine allOk_forBays _ (fun v => v.kinds = [] ∧ (v.state = .queued → v.charge = 0) ∧ (v.state ≠ .queued → v.ok))
    (fun b t => ?_) (fun b t k => ?_) (fun b => ?_)
  · have h1 : Touches (only b) t (quiesceAdmit s.queue s.pool.committed b t) := by
      unfold quiesceAdmit
      split
      · exact (Touches.refl _ t).submit _
      · exact Touches.refl _ t
    unfold quiesceBay
    split <;> first | exact h1.changeState (only_self _) .off _ _ 0 (fun _ => rfl) | exact h1.enterDrain (only_self _) _ | exact h1
  · rw [← hq b t] at k
    generalize quiesceAdmit s.queue s.pool.committed b t = u at k
    obtain ⟨k1, k2, k3⟩ := k
    unfold quiesceBay
    split <;> rename_i hs
    · rw [view_changeState]
      simp [BayView.ok, k1, k2 hs]
    · exact ok_enterDrain _ (Or.inl k1) (onOk_of_ok (k3 (by rw [← stateOf_eq_view, hs]; simp)) hs).2.2
    all_goals exact k3 (by rw [← stateOf_eq_view, hs]; simp)
  · rw [hview b]
    refine ⟨rfl, fun e => charge_of_queued (h.bay b) e, fun e => ?_⟩
    have hb := h.bay b
    generalize s.view b = v at *
    obtain ⟨st, ks, ch, pg⟩ := v
    cases st <;> simp_all [BayView.ok]

theorem allOk_takeMode (m : Mode) (h : s.allOk) : (takeMode m s).allOk := by
  unfold takeMode
  split
  · exact allOk_enterRun h
  · exact allOk_enterRun h
  · exact ⟨h.bay⟩
  · exact ⟨h.bay⟩
  · exact allOk_enterQuiescing h
  · exact allOk_enterQuiescing h
  · exact h

theorem allOk_deadlineExpiry (h : s.allOk) : (deadlineExpiry s).allOk := by
  unfold deadlineExpiry
  refine allOk_finish ?_
  refine allOk_forBays onDeadline BayView.ok (fun b t => (Touches.refl _ t).onDeadline (only_self _)) (fun b t k => ok_onDeadline k)
    (fun b => ?_)
  rw [view_modShelf]
  exact h.bay b

end Sys2Proof.Machine
end

