-- ==== Sys2Proof/Laws/Commands.lean ====
section
/-! SUPPORT. The invariants of single blocks that the resets, the Manager Port and the commands of inputs and of frames keep. -/

namespace Sys2Proof.Machine

variable {s : State}

/-- The invariants of `Keeps`, of an event that may be a reset. -/
structure KeepsBlocks (s t : State) : Prop where
  order : queueOrdered s.queue → queueOrdered t.queue
  window : s.windowOk → t.windowOk
  charges : s.chargesOk → t.chargesOk
  positions : s.journal.positionsOk → t.journal.positionsOk
  loss : s.journal.lossOk → t.journal.lossOk
  snapshot : s.snapshotOk → t.snapshotOk
  pool : s.poolOk → t.poolOk
  filters : (∀ b, (s.bay b).filterOk) → ∀ b, (t.bay b).filterOk
  timers : (∀ b, (s.bay b).timerOk) → ∀ b, (t.bay b).timerOk

theorem Keeps.blocks {s t} (h : Keeps s t) : KeepsBlocks s t := { h with }
theorem KeepsBlocks.trans {s t u : State} (h : KeepsBlocks s t) (k : KeepsBlocks t u) : KeepsBlocks s u where
  order := k.order ∘ h.order
  window := k.window ∘ h.window
  charges := k.charges ∘ h.charges
  positions := k.positions ∘ h.positions
  loss := k.loss ∘ h.loss
  snapshot := k.snapshot ∘ h.snapshot
  pool := k.pool ∘ h.pool
  filters := k.filters ∘ h.filters
  timers := k.timers ∘ h.timers

theorem keeps_modLink (b : BayId) (f : LinkEngine → LinkEngine) (s : State) : Keeps s (modLink b f s) :=
  (touches_modLink (B := everyBay) trivial f s).keeps

theorem keeps_modInputs (b : BayId) (f : BayInputs → BayInputs) (s : State)
    (hf : ∀ i, (f i).fltPin = i.fltPin ∧ (f i).fltTicks = i.fltTicks ∧ (f i).fltLevel = i.fltLevel) :
    Keeps s (modInputs b f s) :=
  (touches_modInputs (B:=everyBay) trivial f s (fun k => by
    obtain ⟨a,b,c⟩ := hf (s.bay ‹_›).inputs
    simpa [Bay.filterOk, a,b,c] using k)).keeps

theorem keeps_modSupply (f : SupplyInput → SupplyInput) (s : State) (hf : (f s.supply).confirmed = s.supply.confirmed) :
    Keeps s { s with supply := f s.supply } :=
  { Keeps.refl s with
    pool := fun k => by unfold State.poolOk at *; simpa [hf] using k
    filters := fun k => k
    timers := fun k => k
    charges := fun k => k
    notInit := fun k => k }

theorem Bay.fullReset_ok (y : Bay) : y.fullReset.filterOk ∧ y.fullReset.timerOk := by
  refine ⟨⟨?_, ?_⟩, ?_⟩ <;> simp [Bay.fullReset, Bay.reset, BayInputs.reset, faultThreshold, BayContext.cleared, Intent.zero, Bay.timerOk, BayState.timed]

theorem fullReset_bay (s : State) (b : BayId) : (fullReset s).bay b = (s.bay b).fullReset := by
  simp [fullReset, State.bay]

theorem keeps_fullReset (s : State) : KeepsBlocks s (fullReset s) where
  order := fun _ => List.Pairwise.nil
  window := fun _ => ⟨List.Pairwise.nil, fun _ h => nomatch h⟩
  charges := fun _ => by
    show 0 = _
    rw [chargeSum_eq]; symm
    apply Finset.sum_eq_zero; intro b _; rw [fullReset_bay]; rfl
  positions := fun _ => by show Journal.positionsOk Journal.reset; unfold Journal.positionsOk; decide
  loss := fun _ => by simp [Journal.lossOk, fullReset, State.reset, Journal.reset]
  snapshot := fun _ => by simp [State.snapshotOk, fullReset, State.reset, Journal.reset, Shelf.reset]
  pool := fun _ => ⟨rfl,rfl,rfl,rfl,rfl⟩
  filters := fun _ b => by rw [fullReset_bay]; exact (Bay.fullReset_ok _).1
  timers := fun _ b => by rw [fullReset_bay]; exact (Bay.fullReset_ok _).2

theorem softReset_bay (s : State) (b : BayId) : (softReset s).bay b = (s.bay b).softReset s.inInit (s.parcelToAbandon b) := by
  simp [softReset, State.bay]

theorem keeps_softReset (s : State) : KeepsBlocks s (softReset s) where
  order := fun _ => List.Pairwise.nil
  window := fun k => k
  charges := fun _ => by
    show 0 = _
    rw [chargeSum_eq]; symm
    apply Finset.sum_eq_zero; intro b _; rw [softReset_bay]; rfl
  positions := fun _ => by show Journal.positionsOk Journal.reset; unfold Journal.positionsOk; decide
  loss := fun _ => by simp [Journal.lossOk, softReset, Journal.reset]
  snapshot := fun _ => by
    simp [State.snapshotOk, softReset, Journal.reset, softShelf]
    split <;> simp [Shelf.reset]
  pool := fun _ => by
    refine ⟨?_,?_,?_,rfl,?_⟩ <;> simp [softReset, softShelf, Pool.reset, derivedBudget] <;> (try split) <;> rfl
  filters := fun _ b => by
    rw [softReset_bay]; simp [Bay.softReset, Bay.filterOk, BayInputs.reset, faultThreshold, BayContext.cleared, Intent.zero]
  timers := fun _ b => by
    rw [softReset_bay]; simp [Bay.softReset, Bay.timerOk, BayContext.cleared, BayState.timed]

theorem keeps_writeRegisters (tx) (s : State) : KeepsBlocks s (writeRegisters tx s) := by constructor <;> exact fun k => k

/-! ## Transactions -/

/-- All that a command of a transaction can do: nothing, the port set free, or the action on a transfer it goes on with. -/
theorem onPort_cases (k : SpiKind) (tx : SpiBytes) (act : Transfer → State → State) (s : State) :
    onPort k tx act s = s ∨ onPort k tx act s = setPort .idle s ∨ ∃ t, onPort k tx act s = act t s := by
  unfold onPort
  split
  · exact .inr (.inr ⟨_, rfl⟩)
  · split
    · exact .inr (.inl rfl)
    · exact .inl rfl

/-- A transaction that begins on a free port. -/
theorem onPort_idle (k : SpiKind) (tx : SpiBytes) (act : Transfer → State → State) (s : State) (h : s.port = .idle) :
    onPort k tx act s = act ⟨k, [], [], none⟩ s := by
  unfold onPort
  rw [h]
  rfl

/-- The effect of a whole write transaction on a free port, with the port free again. -/
theorem writeTransfer_whole (tx : SpiBytes) (f : State → State) (t : Transfer) (s : State) (h : tx.ended = true) :
    writeTransfer tx f t s = setMiso (misoOfWrite tx) (setPort .idle (f s)) := by
  simp [writeTransfer, portAfter, h]

/-- A transaction keeps what its effect keeps. -/
theorem keeps_onPort_write (k) (tx : SpiBytes) (f : State → State) (s : State) (hf : KeepsBlocks s (f s)) :
    KeepsBlocks s (onPort k tx (writeTransfer tx f) s) := by
  rcases onPort_cases k tx (writeTransfer tx f) s with e | e | ⟨t, e⟩ <;> rw [e]
  · exact (Keeps.refl s).blocks
  · exact (keeps_setPort _ _).blocks
  · unfold writeTransfer
    refine KeepsBlocks.trans ?_ (keeps_setMiso _ _).blocks
    refine KeepsBlocks.trans ?_ (keeps_setPort _ _).blocks
    split
    · exact hf
    · exact (Keeps.refl s).blocks

theorem keeps_onPort_read (k) (tx : SpiBytes) (n : Nat) (g : Nat → Byte) (s : State) :
    Keeps s (onPort k tx (readTransfer n tx g) s) := by
  rcases onPort_cases k tx (readTransfer n tx g) s with e | e | ⟨t, e⟩ <;> rw [e]
  · exact Keeps.refl s
  · exact keeps_setPort _ _
  · exact (keeps_setPort _ _).trans (keeps_setMiso _ _)

theorem keeps_takeRegisterWrite (tx) (s : State) : KeepsBlocks s (takeRegisterWrite tx s) := by
  unfold takeRegisterWrite
  have h := keeps_writeRegisters tx s
  split
  · exact h.trans (keeps_softReset _)
  · exact h

theorem keeps_registerWrite (tx) (s : State) : KeepsBlocks s (registerWrite tx s) :=
  keeps_onPort_write _ _ _ _ (keeps_takeRegisterWrite tx s)

/-- A register write that is no soft reset leads into no INIT. -/
theorem registerWrite_shelf (tx) (s : State) (h : writesSoftReset tx = false) : (registerWrite tx s).shelf = s.shelf := by
  unfold registerWrite
  rcases onPort_cases (spiKindOf 0x40) tx (writeTransfer tx (takeRegisterWrite tx)) s with e | e | ⟨t, e⟩ <;> rw [e]
  · rfl
  · unfold writeTransfer takeRegisterWrite
    rw [h]
    cases tx.ended <;> rfl

theorem keeps_filterEdge (i l) (s : State) : Keeps s (filterEdge i l s) := by
  unfold filterEdge
  split
  · exact keeps_modInputs _ _ s (fun _ => ⟨rfl,rfl,rfl⟩)
  · exact keeps_modInputs _ _ s (fun _ => ⟨rfl,rfl,rfl⟩)
  · exact keeps_modSupply (fun x => { x with pin := l, timer := some (ms Config.supplyPeriod) }) s rfl

theorem keeps_filterUnchanged (i) (s : State) : Keeps s (filterUnchanged i s) := by
  unfold filterUnchanged
  split <;> split
  · exact keeps_modInputs _ _ s (fun _ => ⟨rfl,rfl,rfl⟩)
  · exact Keeps.refl s
  · exact keeps_modInputs _ _ s (fun _ => ⟨rfl,rfl,rfl⟩)
  · exact Keeps.refl s
  · exact keeps_modSupply (fun x => { x with timer := none }) s rfl
  · exact Keeps.refl s

theorem keeps_pres (b) (s : State) : Keeps s (presExpiry b s) := by
  unfold presExpiry
  split
  · have h := keeps_modInputs b (fun x => { x with presTimer := none, presConfirmed := x.presPin }) s (fun _ => ⟨rfl,rfl,rfl⟩)
    refine Keeps.trans (h.trans ?_) (keeps_finish _)
    refine Keeps.trans ?_ (keeps_wakeEvent _ _ _)
    unfold handPres
    split
    · exact ((Touches.refl everyBay _).onPresent (b:=b) trivial).keeps
    · exact ((Touches.refl everyBay _).onAbsent (b:=b) trivial).keeps
  · exact Keeps.refl s

theorem keeps_latch (b) (s : State) : Keeps s (latchExpiry b s) := by
  unfold latchExpiry
  split
  · have h := keeps_modInputs b (fun x => { x with latchTimer := none, latchConfirmed := x.latchPin }) s (fun _ => ⟨rfl,rfl,rfl⟩)
    refine Keeps.trans (h.trans ?_) (keeps_finish _)
    refine Keeps.trans ?_ (keeps_wakeEvent _ _ _)
    unfold handLatch
    split
    · split
      · exact ((Touches.refl everyBay _).reconcileOff (b:=b) trivial).keeps
      · exact ((Touches.refl everyBay _).onLatchOpen (b:=b) trivial).keeps
    · exact Keeps.refl _
  · exact Keeps.refl s

theorem keeps_supplyExpiry (s : State) : Keeps s (supplyExpiry s) := by
  unfold supplyExpiry
  split
  · refine Keeps.trans ?_ (keeps_finish _)
    refine Keeps.trans ?_ (touches_recompute _ _).keeps
    exact { window := fun k => k, charges := fun k => k, positions := fun k => k, loss := fun k => k, snapshot := fun k => k,
            pool := fun k => ⟨k.1, k.2.1, k.2.2.1, rfl, rfl⟩, filters := fun k => k, timers := fun k => k,
            order := fun k => k, notInit := fun k => k, enable := rfl, pending := rfl }
  · exact Keeps.refl s

theorem keeps_flt (b x) (s : State) : Keeps s (fltChange b x s) := by
  unfold fltChange
  refine Keeps.trans ?_ (keeps_finish _)
  have h : Touches everyBay s (modInputs b (BayInputs.fltEdge (faultThreshold (s.intentOf b)) x) s) := by
    refine touches_modInputs trivial _ s (fun k => ?_)
    refine ⟨k.1, ?_⟩
    show (x && (s.bay b).inputs.fltTicks == faultThreshold (s.intentOf b)) = true ↔ x = true ∧ (s.bay b).inputs.fltTicks = faultThreshold (s.bay b).ctx.intent
    simp [State.intentOf]
  unfold handFlt
  split
  · exact (h.onFaultConfirmed (b:=b) trivial).keeps
  · exact (h.reconcileOff (b:=b) trivial).keeps
  · exact h.keeps
  · exact h.keeps

theorem keeps_faultTick (b) (s : State) : Keeps s (faultTick b s) := by
  unfold faultTick
  split
  · rename_i hd
    refine Keeps.trans ?_ (keeps_finish _)
    have h : Touches everyBay s (modInputs b (fun i => { i with fltTicks := i.fltTicks + 1, fltLevel := true, fltTickDue := false }) s) := by
      refine touches_modInputs trivial _ s (fun k => ?_)
      simp [State.faultDue, State.intentOf] at hd
      obtain ⟨⟨_, h1⟩, h2⟩ := hd
      refine ⟨?_, ?_⟩
      · exact Nat.le_of_eq h2
      · show true = true ↔ (s.bay b).inputs.fltPin = true ∧ (s.bay b).inputs.fltTicks + 1 = _
        simp [h1, h2]
    exact (h.onFaultConfirmed (b:=b) trivial).keeps
  · exact Keeps.refl s

theorem keeps_receive (b k h q p d) (s : State) (hd : ∀ r t, Touches everyBay r t → Keeps r (d t)) : Keeps s (receiveMessage b k h q p d s) := by
  unfold receiveMessage
  split
  · refine Keeps.trans ?_ (keeps_finish _)
    have h1 := ((Touches.refl everyBay s).endReception (b:=b) trivial (frameBuffer k q p)).oweAck (b:=b) trivial q
    unfold takeByLinkState
    split
    · unfold filterMessage
      split
      · exact (h1.countQuality (b:=b) trivial _).keeps
      · exact hd _ _ (h1.noteSequence (b:=b) trivial _)
    · exact (h1.placeProbe (b:=b) trivial).keeps
  · exact Keeps.refl s

end Sys2Proof.Machine
end

