-- ==== Sys2Proof/Laws/Commute.lean ====
section
/-! SUPPORT. A submission commutes with every update of fields that the Journal Writer neither reads nor writes, so the
records of an event can be drawn together before the rest of its effect; and the updates commute with each other. -/

namespace Sys2Proof.Machine

/-! ## Updates aside from the Writer -/

/-- An update that the Journal Writer neither sees nor disturbs. -/
structure Aside (g : State → State) : Prop where
  journal : ∀ s, (g s).journal = s.journal
  window : ∀ s, (g s).window = s.window
  cause : ∀ s, (g s).attnPending.journal = s.attnPending.journal
  holdoff : ∀ s, (g s).shelf.context.holdoff = s.shelf.context.holdoff
  modJournal : ∀ f s, g (modJournal f s) = Machine.modJournal f (g s)
  setWindow : ∀ m s, g (setWindow m s) = Machine.setWindow m (g s)
  setCause : ∀ s, g (modAttn (fun c => { c with journal := true }) s) = modAttn (fun c => { c with journal := true }) (g s)
  setOverflow : ∀ x s, g (modAttn (fun c => { c with overflow := c.overflow || x }) s)
    = modAttn (fun c => { c with overflow := c.overflow || x }) (g s)

variable {g : State → State}

theorem Aside.ringWrite (h : Aside g) (o : Nat) (l : List Byte) (s : State) :
    Machine.ringWrite o l (g s) = g (Machine.ringWrite o l s) := by
  unfold Machine.ringWrite
  rw [h.window, h.setWindow]

theorem Aside.writeGap (h : Aside g) (s : State) : Machine.writeGap (g s) = g (Machine.writeGap s) := by
  unfold Machine.writeGap
  rw [h.journal, h.ringWrite, ← h.modJournal]
  exact (apply_ite g _ _ _).symm

theorem Aside.writePad (h : Aside g) (o n : Nat) (s : State) : Machine.writePad o n (g s) = g (Machine.writePad o n s) := by
  unfold Machine.writePad
  rw [h.journal, h.ringWrite, ← h.modJournal]
  exact (apply_ite g _ _ _).symm

theorem Aside.writeRecord (h : Aside g) (k : Nat) (b : Byte) (t : BitVec 32) (l : List Byte) (n o : Nat) (s : State) :
    Machine.writeRecord k b t l n o (g s) = g (Machine.writeRecord k b t l n o s) := by
  unfold Machine.writeRecord
  rw [h.journal, h.ringWrite, ← h.modJournal]

theorem Aside.startHoldoff (h : Aside g) (s : State) : Machine.startHoldoff (g s) = g (Machine.startHoldoff s) := by
  unfold Machine.startHoldoff
  rw [h.holdoff, ← h.modJournal, ← h.setCause]
  exact (apply_ite g _ _ _).symm

theorem Aside.causeAfterAppend (h : Aside g) (n : Nat) (s : State) :
    Machine.causeAfterAppend n (g s) = g (Machine.causeAfterAppend n s) := by
  unfold Machine.causeAfterAppend
  rw [h.journal, h.cause, h.startHoldoff, ← apply_ite g]
  dsimp only
  rw [h.journal, ← h.modJournal, ← h.setCause, ← apply_ite g]

theorem Aside.appendAt (h : Aside g) (j : Journal) (k : Nat) (b : Byte) (t : BitVec 32) (l : List Byte) (n : Nat) (s : State) :
    Machine.appendAt j k b t l n (g s) = g (Machine.appendAt j k b t l n s) := by
  unfold Machine.appendAt
  rw [h.writeGap, h.writePad, h.writeRecord, ← h.modJournal, h.causeAfterAppend]

/-- A submission commutes with an update aside from the Writer. -/
theorem Aside.submit (h : Aside g) (r : Record) (s : State) : Machine.submit r (g s) = g (Machine.submit r s) := by
  unfold Machine.submit Machine.loseRecord
  rw [h.journal, h.appendAt, ← h.modJournal, ← h.setOverflow]
  exact (apply_ite g _ _ _).symm

/-! ## The updates that stand aside -/

theorem aside_modBay (b : BayId) (f : Bay → Bay) : Aside (modBay b f) := by constructor <;> intros <;> rfl
theorem aside_setQueue (q : List QueueEntry) : Aside (setQueue q) := by constructor <;> intros <;> rfl
theorem aside_modPool (f : Pool → Pool) : Aside (modPool f) := by constructor <;> intros <;> rfl
theorem aside_raiseFault : Aside raiseFault := by constructor <;> intros <;> rfl
theorem aside_setMiso (l : List Byte) : Aside (setMiso l) := by constructor <;> intros <;> rfl
theorem aside_setPort (p : SpiPort) : Aside (setPort p) := by constructor <;> intros <;> rfl
theorem aside_raiseWake : Aside (modAttn (fun c => { c with wake := true })) := by constructor <;> intros <;> rfl

theorem aside_modShelf (f : Shelf → Shelf) (hf : ∀ h, (f h).context.holdoff = h.context.holdoff) : Aside (modShelf f) where
  journal := fun _ => rfl
  window := fun _ => rfl
  cause := fun _ => rfl
  holdoff := fun s => hf s.shelf
  modJournal := fun _ _ => rfl
  setWindow := fun _ _ => rfl
  setCause := fun _ => rfl
  setOverflow := fun _ _ => rfl

theorem submit_modBay (r : Record) (b : BayId) (f : Bay → Bay) (s : State) :
    submit r (modBay b f s) = modBay b f (submit r s) := (aside_modBay b f).submit r s
theorem submit_setQueue (r : Record) (q : List QueueEntry) (s : State) :
    submit r (setQueue q s) = setQueue q (submit r s) := (aside_setQueue q).submit r s
theorem submit_modPool (r : Record) (f : Pool → Pool) (s : State) :
    submit r (modPool f s) = modPool f (submit r s) := (aside_modPool f).submit r s
theorem submit_raiseFault (r : Record) (s : State) : submit r (raiseFault s) = raiseFault (submit r s) :=
  aside_raiseFault.submit r s
theorem submit_setMiso (r : Record) (l : List Byte) (s : State) :
    submit r (setMiso l s) = setMiso l (submit r s) := (aside_setMiso l).submit r s

/-! ## One order for the other updates: queue, pool, FAULT, then the bays -/

theorem modBay_setQueue (b : BayId) (f : Bay → Bay) (q : List QueueEntry) (s : State) :
    modBay b f (setQueue q s) = setQueue q (modBay b f s) := rfl
theorem modBay_modPool (b : BayId) (f : Bay → Bay) (p : Pool → Pool) (s : State) :
    modBay b f (modPool p s) = modPool p (modBay b f s) := rfl
theorem modBay_raiseFault (b : BayId) (f : Bay → Bay) (s : State) :
    modBay b f (raiseFault s) = raiseFault (modBay b f s) := rfl
theorem modPool_setQueue (p : Pool → Pool) (q : List QueueEntry) (s : State) :
    modPool p (setQueue q s) = setQueue q (modPool p s) := rfl
theorem raiseFault_setQueue (q : List QueueEntry) (s : State) :
    raiseFault (setQueue q s) = setQueue q (raiseFault s) := rfl
theorem raiseFault_modPool (p : Pool → Pool) (s : State) : raiseFault (modPool p s) = modPool p (raiseFault s) := rfl

/-! ## The fields after FAULT is raised -/

@[simp] theorem raiseFault_bay (s : State) (c : BayId) : (raiseFault s).bay c = s.bay c := rfl
@[simp] theorem raiseFault_stateOf (s : State) (c : BayId) : (raiseFault s).stateOf c = s.stateOf c := rfl
@[simp] theorem raiseFault_intentOf (s : State) (c : BayId) : (raiseFault s).intentOf c = s.intentOf c := rfl
@[simp] theorem raiseFault_pool (s : State) : (raiseFault s).pool = s.pool := rfl
@[simp] theorem raiseFault_queue (s : State) : (raiseFault s).queue = s.queue := rfl
@[simp] theorem raiseFault_shelf (s : State) : (raiseFault s).shelf = s.shelf := rfl
@[simp] theorem raiseFault_journal (s : State) : (raiseFault s).journal = s.journal := rfl
@[simp] theorem raiseFault_window (s : State) : (raiseFault s).window = s.window := rfl

/-- Two changes that agree on the bay as it stands. -/
theorem modBay_congr (b : BayId) (f h : Bay → Bay) (s : State) (e : f (s.bay b) = h (s.bay b)) :
    modBay b f s = modBay b h s := by
  unfold modBay
  rw [e]

/-- A change that changes nothing. -/
theorem modBay_id (b : BayId) (s : State) : modBay b (fun y => y) s = s := by
  unfold modBay State.bay
  congr 1
  exact Vector.set_getElem_self b.isLt

end Sys2Proof.Machine
end

