-- ==== Sys2Proof/Laws/Exact.lean ====
section
/-! SUPPORT. What the shared operations of the Bay Sequencer, and the entry into QUIESCING, leave, as the whole state: a record
and one changed bay. -/

namespace Sys2Proof.Machine

variable {s : State} {b : BayId}

theorem stateOf_eq (s : State) (b : BayId) : s.stateOf b = (s.bay b).ctx.state := rfl
theorem intentOf_eq (s : State) (b : BayId) : s.intentOf b = (s.bay b).ctx.intent := rfl

/-! ## The queue -/

theorem queueWithout_of_none (q : List QueueEntry) (b : BayId) (h : queueEntryOf q b = none) : queueWithout q b = q := by
  unfold queueEntryOf at h
  unfold queueWithout
  rw [List.filter_eq_self]
  intro e he
  have := List.find?_eq_none.mp h e he
  simpa using this

theorem queueEntryOf_none (q : List QueueEntry) (b : BayId) (h : entriesOf q b = []) : queueEntryOf q b = none := by
  unfold entriesOf at h
  unfold queueEntryOf
  rw [List.find?_eq_none]
  intro e he
  have := List.filter_eq_nil_iff.mp h e he
  exact this

theorem setQueue_self (s : State) : setQueue s.queue s = s := rfl
theorem setQueue_setQueue (p q : List QueueEntry) (s : State) : setQueue p (setQueue q s) = setQueue p s := rfl

/-- A bay's entry leaves the queue (R41). -/
theorem leaveQueue_eq (b : BayId) (o : AdmitOutcome) (s : State) :
    leaveQueue b o s = setQueue (queueWithout s.queue b) (submitAll (s.leaving b o) s) := by
  unfold leaveQueue State.leaving
  cases h : queueEntryOf s.queue b with
  | none =>
    rw [queueWithout_of_none _ _ h]
    rfl
  | some e => exact submit_setQueue _ _ _

theorem submitAll_modBay (l : List Record) (b : BayId) (f : Bay → Bay) (s : State) :
    submitAll l (modBay b f s) = modBay b f (submitAll l s) := by
  unfold submitAll
  induction l generalizing s with
  | nil => rfl
  | cons r l ih => rw [List.foldl_cons, submit_modBay, ih, List.foldl_cons]

theorem submitAll_append (l m : List Record) (s : State) : submitAll (l ++ m) s = submitAll m (submitAll l s) :=
  List.foldl_append

theorem submitAll_cons (r : Record) (l : List Record) (s : State) : submitAll (r :: l) s = submitAll l (submit r s) := rfl
theorem submitAll_nil (s : State) : submitAll [] s = s := rfl

theorem journaled_submitAll (l : List Record) (s : State) : Journaled s (submitAll l s) := by
  unfold submitAll
  induction l generalizing s with
  | nil => exact Journaled.refl s
  | cons r l ih => exact (journaled_submit r s).trans (ih _)

@[simp] theorem submitAll_bay (l : List Record) (s : State) (c : BayId) : (submitAll l s).bay c = s.bay c := by
  unfold State.bay
  rw [(journaled_submitAll l s).bays]
@[simp] theorem submitAll_queue (l : List Record) (s : State) : (submitAll l s).queue = s.queue := (journaled_submitAll l s).queue
@[simp] theorem submitAll_pool (l : List Record) (s : State) : (submitAll l s).pool = s.pool := (journaled_submitAll l s).pool
@[simp] theorem submitAll_shelf (l : List Record) (s : State) : (submitAll l s).shelf = s.shelf := (journaled_submitAll l s).shelf

theorem submitAll_setQueue (l : List Record) (q : List QueueEntry) (s : State) :
    submitAll l (setQueue q s) = setQueue q (submitAll l s) := by
  unfold submitAll
  induction l generalizing s with
  | nil => rfl
  | cons r l ih => rw [List.foldl_cons, submit_setQueue, ih, List.foldl_cons]

theorem submitAll_modPool (l : List Record) (p : Pool → Pool) (s : State) :
    submitAll l (modPool p s) = modPool p (submitAll l s) := by
  unfold submitAll
  induction l generalizing s with
  | nil => rfl
  | cons r l ih => rw [List.foldl_cons, submit_modPool, ih, List.foldl_cons]

theorem submitAll_raiseFault (l : List Record) (s : State) : submitAll l (raiseFault s) = raiseFault (submitAll l s) := by
  unfold submitAll
  induction l generalizing s with
  | nil => rfl
  | cons r l ih => rw [List.foldl_cons, submit_raiseFault, ih, List.foldl_cons]

/-! ## Changes of state (R5) -/

/-- A bay after a change of state: state, timer (loaded in ms), Pending and the quiesce
outcome (R3, R5, R170). -/
def Bay.changed (shelf : ShelfState) (old new : BayState) (reason : StateReason) (timer : Nat) (y : Bay) : Bay :=
  { y with
    ctx := { y.ctx with state := new, phaseTimer := ms timer, pending := pendingAfter old new y.ctx.pending }
    quiesceOutcome := if shelf = .quiescing then (quiesceOutcomeOf new reason).getD y.quiesceOutcome
      else y.quiesceOutcome }

/-- A change of state that locks nothing, but for a Raise that leaves. -/
theorem changeState_notLocking (old new : BayState) (reason : StateReason) (x : Bool) (n : Nat) (s : State)
    (h : s.stateOf b = old) (hl : (!old.locked && new.locked) = false) :
    changeState b new reason x n s = leaveOn b old
      (modBay b (Bay.changed s.shelf.state old new reason n) (submit (.state b old new reason x) s)) := by
  unfold changeState rewriteLocked
  rw [h, hl, if_neg (by decide)]
  congr 1
  have hb : ((submit (.state b old new reason x) s).bay b).ctx.state = old := by rw [submit_bay]; exact h
  unfold noteQuiesce modCtx
  simp only [modBay_shelf, submit_shelf]
  by_cases hq : s.shelf.state = .quiescing
  · rw [if_pos hq]
    cases ho : quiesceOutcomeOf new reason with
    | none =>
      refine modBay_congr _ _ _ _ ?_
      simp only [Bay.changed, hb, hq, ho, if_true, Option.getD_none]
    | some o =>
      simp only [modBay_modBay]
      refine modBay_congr _ _ _ _ ?_
      simp only [Bay.changed, hb, hq, ho, if_true, Option.getD_some]
  · rw [if_neg hq]
    refine modBay_congr _ _ _ _ ?_
    simp only [Bay.changed, hb, hq, if_false]

/-- A change of state from any state but ON. -/
theorem changeState_plain (old new : BayState) (reason : StateReason) (x : Bool) (n : Nat) (s : State)
    (h : s.stateOf b = old) (hl : (!old.locked && new.locked) = false) (ho : old ≠ .on) :
    changeState b new reason x n s =
      modBay b (Bay.changed s.shelf.state old new reason n) (submit (.state b old new reason x) s) := by
  rw [changeState_notLocking old new reason x n s h hl]
  unfold leaveOn
  rw [if_neg ho]

/-- A change of state from ON: a Raise of the bay leaves the queue after the STATE record (R41). -/
theorem changeState_fromOn (new : BayState) (reason : StateReason) (x : Bool) (n : Nat) (s : State)
    (h : s.stateOf b = .on) :
    changeState b new reason x n s = setQueue (queueWithout s.queue b)
      (modBay b (Bay.changed s.shelf.state .on new reason n)
        (submitAll (.state b .on new reason x :: s.leaving b .withdrawn) s)) := by
  rw [changeState_notLocking .on new reason x n s h rfl]
  unfold leaveOn
  rw [if_pos rfl, leaveQueue_eq, submitAll_modBay]
  have : (modBay b (Bay.changed s.shelf.state .on new reason n) (submit (.state b .on new reason x) s)).leaving b .withdrawn
      = s.leaving b .withdrawn := by
    unfold State.leaving
    simp only [modBay_queue, submit_queue, modBay_pool, submit_pool]
  rw [this, modBay_queue, submit_queue]
  rfl

/-! ## Reaching ON -/

/-- Why a bay that reaches ON drains (R13). -/
theorem drainAtOn_eq (s : State) (b : BayId) : drainAtOn s b
    = if (s.intentOf b).target ≠ .on then some .target
      else if (s.bay b).ctx.troubleHold then some .trouble
      else if s.shelf.state = .quiescing then some .quiesce else none := by
  unfold drainAtOn
  cases (s.intentOf b).target <;> rfl

/-! ## Entry into QUIESCING (R169) -/

/-- One function of every bay applied to bay after bay: nothing but the bays changes, and each of them once. -/
theorem foldl_modBay (f : Bay → Bay) (l : List BayId) (hl : l.Nodup) (s : State) :
    (∀ b, (l.foldl (fun t b => modBay b f t) s).bay b = if b ∈ l then f (s.bay b) else s.bay b)
      ∧ ∃ v, l.foldl (fun t b => modBay b f t) s = { s with bays := v } := by
  induction l generalizing s with
  | nil => exact ⟨fun b => by simp, s.bays, rfl⟩
  | cons a l ih =>
    obtain ⟨h1, v, h2⟩ := ih (List.nodup_cons.mp hl).2 (modBay a f s)
    refine ⟨fun b => ?_, v, by rw [List.foldl_cons, h2]; rfl⟩
    rw [List.foldl_cons, h1]
    by_cases hb : b = a
    · subst hb
      rw [if_neg (List.nodup_cons.mp hl).1]
      simp
    · simp [hb]

/-- The ADMIT record of an entry that the quiesce removes (R56). -/
theorem quiesceAdmit_eq (s t : State) (b : BayId) :
    quiesceAdmit s.queue s.pool.committed b t = submitAll (s.leaving b .withdrawn) t := by
  unfold quiesceAdmit State.leaving
  cases queueEntryOf s.queue b <;> rfl

/-- A bay's part of the entry: a QUEUED bay to OFF, one in ON drained, any other as it is (R169). -/
theorem quiesceBay_eq (b : BayId) (s : State) : quiesceBay b s
    = if s.stateOf b = .queued then submitAll [.state b .queued .off .quiesce false] (modBay b (Bay.inState .off 0) s)
      else if s.stateOf b = .on then enterDrain b .quiesce s else s := by
  unfold quiesceBay
  split
  · rename_i h
    rw [if_pos h, changeState_plain .queued .off _ _ _ _ h (by decide) (by decide), submitAll_modBay]
    refine modBay_congr _ _ _ _ ?_
    unfold Bay.changed Bay.inState quiesceOutcomeOf pendingAfter ms
    simp only [Option.getD_none, ite_self]
  all_goals
    rename_i h
    rw [h]
    rfl

end Sys2Proof.Machine
end

