-- ==== Sys2Proof/Laws/Frames.lean ====
section
/-! SUPPORT. What the frames of a link leave, as the whole state: entries of the transmit list, RxBuffer, and a module message
that is let through. -/

namespace Sys2Proof.Machine

variable {s : State} {b : BayId} {seq : Sequence}

/-- An entry that the link takes (R91). -/
theorem placeEntry_eq (b : BayId) (e : TxEntry) (s : State) (h : (s.bay b).link.linkState = .bound ∨ e.slot = .probe) :
    placeEntry b e s = modBay b (fun y => { y with link := { y.link with txList := txPlace e y.link.txList } }) s := by
  unfold placeEntry
  rw [if_pos h]
  rfl

/-- PROBE is placed at the tail, unless one is listed or in flight (R98, R101). -/
theorem placeProbe_eq (b : BayId) (s : State) :
    placeProbe b s = modBay b (fun y => { y with link := { y.link with
      txList := if y.link.txList.any (fun e => e.slot == .probe) || inFlightIs .probe y.link then y.link.txList
        else y.link.txList ++ [.probe] } }) s := by
  unfold placeProbe txListed
  by_cases h : ((s.bay b).link.txList.any (fun e => e.slot == .probe) || inFlightIs .probe (s.bay b).link) = true
  · rw [if_pos h]
    refine (modBay_id b s).symm.trans (modBay_congr _ _ _ _ ?_)
    rw [if_pos h]
  · rw [if_neg h, placeEntry_eq _ _ _ (Or.inr rfl)]
    refine modBay_congr _ _ _ _ ?_
    rw [if_neg h]
    have hl : (s.bay b).link.txList.any (fun e => e.slot == .probe) = false :=
      (Bool.or_eq_false_iff.mp (Bool.eq_false_of_not_eq_true h)).1
    unfold txPlace txListed
    simp only [TxEntry.slot] at hl ⊢
    simp only [hl]
    rfl

/-- RxBuffer after a frame of a kind: the header, low byte first, and the payload (R79, R82). -/
theorem frameBuffer_eq (k n : Nat) (seq : Sequence) (payload : List Byte) (hk : k < 16) (hp : payload.length < 64)
    (hn : n = k + 16 * seq.toNat + 128 * payload.length) : frameBuffer k seq payload = le16 n ++ payload := by
  have h : (mkFrame k seq payload).header.toNat = n := by
    have hs := seq.isLt
    show ((0 : BitVec 3) ++ BitVec.ofNat 6 payload.length ++ seq ++ BitVec.ofNat 4 k).toNat = n
    rw [BitVec.toNat_append, BitVec.toNat_append, BitVec.toNat_append, ← Nat.shiftLeft_add_eq_or_of_lt (BitVec.isLt _),
      ← Nat.shiftLeft_add_eq_or_of_lt (BitVec.isLt _), ← Nat.shiftLeft_add_eq_or_of_lt (BitVec.isLt _)]
    simp only [Nat.shiftLeft_eq, BitVec.toNat_ofNat]
    simp
    omega
  unfold frameBuffer
  rw [h]

/-- SlotStatus after a detachment or a soft reset (R127). -/
theorem dropped_eq (st : SlotStatus) : st.dropped = if st ∈ [.posted, .sending] then .abandoned else st := by
  cases st <;> rfl

/-- A link that takes a frame may receive its completion (R84). -/
theorem mayReceive_of_canHear (h : s.canHear b) : (s.bay b).link.mayReceive = true := by
  unfold LinkEngine.mayReceive
  simp [h.1, h.2]

theorem duplicate_of_isNew (h : s.isNew b seq) : (s.bay b).link.duplicate seq = false := by
  unfold LinkEngine.duplicate
  rcases h with h | h <;> simp [h]

/-- A module message that is new, a HELLO or on a BOUND link: it is delivered with its ACK owed (R86 to R90). -/
theorem receiveMessage_new (k : Nat) (isHello : Bool) (payload : List Byte) (deliver : State → State) (h : s.canHear b)
    (hn : s.isNew b seq) (hb : isHello = true ∨ (s.bay b).link.linkState = .bound) :
    receiveMessage b k isHello seq payload deliver s = finish (deliver (modBay b (Bay.heard k seq payload) s)) := by
  have hd : ((oweAck b seq (endReception b (frameBuffer k seq payload) s)).bay b).link.duplicate seq = false := by
    have := duplicate_of_isNew hn
    unfold LinkEngine.duplicate at this ⊢
    unfold oweAck endReception
    rw [modLink_bay_self, modLink_bay_self]
    exact this
  have hl : ((oweAck b seq (endReception b (frameBuffer k seq payload) s)).bay b).link.linkState
      = (s.bay b).link.linkState := by
    unfold oweAck endReception
    rw [modLink_bay_self, modLink_bay_self]
  have ht : noteSequence b seq (oweAck b seq (endReception b (frameBuffer k seq payload) s))
      = modBay b (Bay.heard k seq payload) s := by
    unfold noteSequence oweAck endReception modLink
    simp only [modBay_modBay]
    rfl
  unfold receiveMessage takeByLinkState filterMessage
  rw [if_pos (mayReceive_of_canHear h), if_pos (by rw [hl]; exact hb), hd, if_neg (by decide), ht]

/-- The messages of a module to a BOUND link (R106). -/
theorem exec_message (payload : List Byte) (h : s.canHear b) (hn : s.isNew b seq)
    (hb : (s.bay b).link.linkState = .bound) :
    exec (.demand b seq payload) s = .next (finish (deliverDemand b payload (modBay b (Bay.heard 2 seq payload) s)))
    ∧ exec (.release b seq payload) s = .next (finish (deliverRelease b payload (modBay b (Bay.heard 3 seq payload) s)))
    ∧ exec (.trouble b seq payload) s = .next (finish (deliverTrouble b payload (modBay b (Bay.heard 4 seq payload) s)))
    ∧ exec (.note b seq payload) s = .next (finish (deliverNote b payload (modBay b (Bay.heard 5 seq payload) s))) :=
  ⟨congrArg _ (receiveMessage_new 2 false payload _ h hn (Or.inr hb)),
    congrArg _ (receiveMessage_new 3 false payload _ h hn (Or.inr hb)),
    congrArg _ (receiveMessage_new 4 false payload _ h hn (Or.inr hb)),
    congrArg _ (receiveMessage_new 5 false payload _ h hn (Or.inr hb))⟩

/-- A HELLO is delivered on every link that is not DETACHED (R99). -/
theorem exec_hello (payload : List Byte) (h : s.canHear b) (hn : s.isNew b seq) :
    exec (.hello b seq payload) s = .next (finish (deliverHello b payload (modBay b (Bay.heard 1 seq payload) s))) :=
  congrArg _ (receiveMessage_new 1 true payload _ h hn (Or.inl rfl))

end Sys2Proof.Machine
end

