-- ==== Sys2Proof/Laws/Port.lean ====
section
/-! SUPPORT. What a transaction does on a port that takes it, what a write collects and a read returns, and the area of each
entry of a table of the window, with the address that an area gives. -/

namespace Sys2Proof.Machine

variable {s : State} {k : SpiKind} {tx : SpiBytes} {t : Transfer}

/-! ## Transactions -/

/-- A port that takes a command of a kind has a transaction for it (R185). -/
theorem joined_of_takes (h : s.takes k tx) : ∃ t, s.port.joined k tx = some t := by
  rcases h with h | h | ⟨t, h, hk, hp⟩
  · exact ⟨_, by rw [h]; rfl⟩
  · exact ⟨_, by rw [h]; rfl⟩
  · exact ⟨t, by rw [h]; simp [SpiPort.joined, hk, List.isPrefixOf_iff_prefix, hp]⟩

/-- A command begins a transaction on a free port or after the fall of CSn, or goes on with the one in progress. -/
theorem onPort_joined (act : Transfer → State → State)
    (h : ((s.port = .idle ∨ s.port = .selected) ∧ t = ⟨k, [], [], none⟩) ∨ (s.port = .active t ∧ t.kind = k ∧ t.bytes <+: tx.bytes)) :
    onPort k tx act s = act t s := by
  unfold onPort
  rcases h with ⟨h | h, rfl⟩ | ⟨h, hk, hp⟩ <;> rw [h]
  iterate 2 rfl
  · simp [SpiPort.joined, hk, List.isPrefixOf_iff_prefix, hp]

/-- A write transaction that has ended has its effect, leaves the port free, and MISO has carried 0 (R185, R186, R188). -/
theorem onPort_ended (f : State → State) (h : s.takes k tx) (he : tx.ended = true) :
    onPort k tx (writeTransfer tx f) s = setMiso (List.replicate (tx.bytes.length + 1) 0) (setPort .idle (f s)) := by
  obtain ⟨t, ht⟩ := joined_of_takes h
  unfold onPort writeTransfer portAfter misoOfWrite
  rw [ht]
  simp only [he, if_true]

/-- A free port, or one with CSn low and no command byte yet, stays so until the command byte is complete (R185). -/
theorem portSelected_free (ended : Bool) (h : s.port = .idle ∨ s.port = .selected) :
    portSelected ended s = setMiso [] (setPort (if ended then .idle else .selected) s) := by
  unfold portSelected
  rcases h with h | h <;> rw [h]

/-- The byte that numbered bytes hold at an address: the one as far into them as the address is past their start. -/
theorem writtenAt_numberBytes (a x : Nat) (l : List Byte) (hx : x < 65536) :
    writtenAt (numberBytes a l) x = if a ≤ x then l[x - a]? else none := by
  induction l generalizing a with
  | nil => simp [numberBytes, writtenAt]
  | cons v l ih =>
    unfold numberBytes
    by_cases ha : a < 65536
    · rw [if_pos ha]
      by_cases e : a = x
      · simp [writtenAt, e]
      · have hs : writtenAt ((a, v) :: numberBytes (a + 1) l) x = writtenAt (numberBytes (a + 1) l) x := by
          simp [writtenAt, e]
        rw [hs, ih]
        by_cases hle : a ≤ x
        · rw [if_pos (by omega), if_pos hle, show x - a = x - (a + 1) + 1 by omega, List.getElem?_cons_succ]
        · rw [if_neg (by omega), if_neg hle]
    · rw [if_neg ha, if_neg (by omega)]
      rfl

/-- The byte that a write transaction with a whole address holds for an address (R186, R188). -/
theorem writtenAt_spiCollected (hi lo : Byte) (data : List Byte) (h : tx.bytes = hi :: lo :: data) (x : Nat)
    (hx : x < 65536) : writtenAt (spiCollected tx) x
      = if 256 * hi.toNat + lo.toNat ≤ x then data[x - (256 * hi.toNat + lo.toNat)]? else none := by
  unfold spiCollected spiStart
  rw [h]
  exact writtenAt_numberBytes _ _ _ hx

/-- Numbered bytes below a bound within the address space: byte k of them has the address k past their start. -/
theorem numberBytes_filter (a n : Nat) (hn : n ≤ 65536) (l : List Byte) :
    (numberBytes a l).filter (fun c => c.1 < n)
      = ((List.range l.length).map (fun k => (a + k, l.getD k 0))).filter (fun c => c.1 < n) := by
  induction l generalizing a with
  | nil => rfl
  | cons v l ih =>
    rw [List.length_cons, List.range_succ_eq_map, List.map_cons, List.map_map]
    have hm : (List.range l.length).map ((fun k => (a + k, (v :: l).getD k 0)) ∘ Nat.succ)
        = (List.range l.length).map (fun k => (a + 1 + k, l.getD k 0)) :=
      List.map_congr_left fun k _ => by simp [Nat.add_assoc, Nat.add_comm 1]
    rw [hm]
    unfold numberBytes
    by_cases h : a < 65536
    · rw [if_pos h, List.filter_cons, List.filter_cons, ih]
      rfl
    · rw [if_neg h, eq_comm]
      refine List.filter_eq_nil_iff.mpr fun c hc => ?_
      rcases List.mem_cons.mp hc with rfl | hc
      · simp; omega
      · obtain ⟨k, _, rfl⟩ := List.mem_map.mp hc
        simp; omega

/-- The bytes that a window write with a whole address collects (R186). -/
theorem windowCollected_eq (hi lo : Byte) (data : List Byte) (h : tx.bytes = hi :: lo :: data) : windowCollected tx
    = ((List.range data.length).map (fun k => (256 * hi.toNat + lo.toNat + k, data.getD k 0))).filter
      (fun c => c.1 < 0x2000) := by
  unfold windowCollected spiCollected spiStart
  rw [h]
  exact numberBytes_filter _ 8192 (by omega) data

/-- Dropping the bytes from a bound upwards leaves what was written below it. -/
theorem writtenAt_filter (l : List (Nat × Byte)) (n a : Nat) (h : a < n) :
    writtenAt (l.filter (fun c => c.1 < n)) a = writtenAt l a := by
  unfold writtenAt
  rw [List.find?_filter]
  congr 2
  funext c
  by_cases hc : c.1 = a
  · simp [hc, h]
  · simp [hc]

/-- Memory after bytes written each at its own address, no two at the same. -/
theorem Memory.read_writeAll (m : Memory) (l : List (Nat × Byte)) (x : Nat) (hm : m.wf) (hl : (l.map Prod.fst).Nodup) :
    Memory.read (m.writeAll l) x = (writtenAt l x).getD (Memory.read m x) := by
  induction l generalizing m with
  | nil => rfl
  | cons c l ih =>
    obtain ⟨a, v⟩ := c
    rw [List.map_cons, List.nodup_cons] at hl
    show Memory.read (Memory.writeAll (m.write a v) l) x = _
    rw [ih _ (Memory.wf_write m a v hm) hl.2]
    by_cases h : a = x
    · subst h
      have hn : writtenAt l a = none := by
        unfold writtenAt
        rw [List.find?_eq_none.mpr, Option.map_none]
        intro c hc e
        exact hl.1 (List.mem_map.mpr ⟨c, hc, by simpa using e⟩)
      rw [hn, Option.getD_none, Memory.read_write_self m a v hm]
      simp [writtenAt]
    · rw [Memory.read_write_other m a x v (Ne.symm h)]
      simp [writtenAt, h]

/-- Every register write row is the register write transaction (R188). -/
theorem exec_registerWriteRows {i : Instr} (h : i ∈ registerWriteRows tx) (s : State) :
    exec i s = .next (registerWrite tx s) := by
  simp only [registerWriteRows, List.mem_cons, List.not_mem_nil, or_false] at h
  rcases h with h | h | h | h | h | h <;> subst h <;> rfl

/-- A read from one state returns what each of its addresses reads as then (R187, R188). -/
theorem readGroups_data (size : Nat) (hs : 0 < size) (read : Nat → Byte) (l : List Nat) (t : Transfer)
    (ht : ∀ g, t.held = some g → g = takeGroup size read (g.index * size)) :
    (readGroups size read l t).data = t.data ++ l.map read := by
  induction l generalizing t with
  | nil => simp [readGroups]
  | cons a l ih =>
    have hg : groupFor size read t.held a = takeGroup size read a := by
      unfold groupFor
      split
      · rename_i g hg
        split
        · rename_i hi
          rw [ht g hg, hi]
          unfold takeGroup
          rw [Nat.mul_div_cancel _ hs]
        · rfl
      · rfl
    have hb : byteAt (takeGroup size read a).bytes (a % size) = read a := by
      have := Nat.mod_lt a hs
      unfold byteAt takeGroup
      simp only [List.getD, List.getElem?_map, List.getElem?_range this, Option.map_some, Option.getD_some]
      rw [Nat.div_add_mod]
    unfold readGroups
    rw [ih, hg, hb]
    · simp
    · intro g h
      rw [Option.some.injEq, hg] at h
      rw [← h]
      unfold takeGroup
      simp only [Nat.mul_div_cancel _ hs]

/-- The group of an address is the one held, where it is the address's, and otherwise the one taken now (R187, R188). -/
theorem groupFor_eq {size a : Nat} {read : Nat → Byte} {held : Option HeldGroup} {g : HeldGroup}
    (h : (held = some g ∧ g.index = a / size) ∨ ((∀ x, held = some x → x.index ≠ a / size) ∧ g = takeGroup size read a)) :
    groupFor size read held a = g := by
  unfold groupFor
  rcases h with ⟨h, hg⟩ | ⟨h, hg⟩
  · rw [h]
    exact if_pos hg
  · cases held with
    | some x => exact (if_neg (h x rfl)).trans hg.symm
    | none => exact hg.symm

/-- A byte that has begun changes the group held alone (R187). -/
theorem readBegun_data (size : Nat) (read : Nat → Byte) (tx : SpiBytes) (t : Transfer) :
    (t.readBegun size read tx).data = t.data ∧ (t.readBegun size read tx).bytes = t.bytes
      ∧ (t.readBegun size read tx).kind = t.kind := by
  unfold Transfer.readBegun
  split <;> exact ⟨rfl, rfl, rfl⟩

/-- No data byte has begun between two bytes, or before the dummy byte is complete (R185). -/
theorem readBegun_none (size : Nat) (read : Nat → Byte) {tx : SpiBytes} (t : Transfer)
    (h : tx.extraBits = 0 ∨ tx.bytes.length ≤ 2) : t.readBegun size read tx = t := by
  unfold Transfer.readBegun spiBegunAddress
  rw [if_neg (by omega)]

/-- A data byte that has begun has its group taken (R187, R188). -/
theorem readBegun_some (size : Nat) (read : Nat → Byte) {tx : SpiBytes} (t : Transfer) {hi lo x : Byte} {data : List Byte}
    (hb : tx.bytes = hi :: lo :: x :: data) (h : tx.extraBits ≠ 0) :
    t.readBegun size read tx
      = { t with held := some (groupFor size read t.held (256 * hi.toNat + lo.toNat + data.length)) } := by
  unfold Transfer.readBegun spiBegunAddress spiStart
  rw [hb, if_pos ⟨h, by simp⟩]
  rfl

/-! ## Areas (10, section 10.4) -/

/-- The entry of a bay and the offset in it, in a table that begins at a base. -/
theorem tableEntry_eq (base size : Nat) (b : BayId) (o : Nat) (h : o < size) :
    tableEntry base size (base + size * b.val + o) = (b, o) := by
  have hs : 0 < size := by omega
  have h1 : (base + size * b.val + o - base) / size = b.val := by
    rw [Nat.add_assoc, Nat.add_sub_cancel_left, Nat.mul_add_div hs, Nat.div_eq_of_lt h, Nat.add_zero]
  have h2 : (base + size * b.val + o - base) % size = o := by
    rw [Nat.add_assoc, Nat.add_sub_cancel_left, Nat.mul_add_mod, Nat.mod_eq_of_lt h]
  unfold tableEntry
  rw [h1, h2]
  exact congrArg (fun c => (c, o)) (Fin.ext (Nat.mod_eq_of_lt b.isLt))

theorem areaOf_status (b : BayId) (o : Nat) (h : o < 8) : areaOf (0x60 + 8 * b.val + o) = .status b o := by
  have hb := b.isLt
  unfold areaOf
  repeat rw [if_neg (by omega)]
  rw [if_pos (by omega), show statusBase = 0x60 from rfl, tableEntry_eq _ _ _ _ h]

theorem areaOf_intent (b : BayId) (o : Nat) (h : o < 64) : areaOf (intentAddr b o) = .intent b o := by
  have hb := b.isLt
  have ha : intentAddr b o = 0x100 + 64 * b.val + o := rfl
  unfold areaOf
  repeat rw [if_neg (by omega)]
  rw [if_pos (by omega), ha, show intentBase = 0x100 from rfl, tableEntry_eq _ _ _ _ h]

theorem areaOf_outbox (b : BayId) (o : Nat) (h : o < 48) : areaOf (outboxAddr b o) = .outbox b o := by
  have hb := b.isLt
  have ha : outboxAddr b o = 0x500 + 48 * b.val + o := rfl
  unfold areaOf
  repeat rw [if_neg (by omega)]
  rw [if_pos (by omega), ha, show outboxBase = 0x500 from rfl, tableEntry_eq _ _ _ _ h]

theorem areaOf_directory (b : BayId) (o : Nat) (h : o < 32) : areaOf (0x800 + 32 * b.val + o) = .directory b o := by
  have hb := b.isLt
  unfold areaOf
  repeat rw [if_neg (by omega)]
  rw [if_pos (by omega), show directoryBase = 0x800 from rfl, tableEntry_eq _ _ _ _ h]

/-- An address of an entry of a table is the base, the entries before it and the offset. -/
theorem tableEntry_addr (base size a : Nat) (h1 : base ≤ a) (h2 : a < base + size * 16) :
    base + size * (tableEntry base size a).1.val + (tableEntry base size a).2 = a := by
  unfold tableEntry
  have hd : (a - base) / size < 16 := Nat.div_lt_of_lt_mul (by omega)
  simp only [Fin.val_ofNat, Nat.mod_eq_of_lt hd, Nat.add_assoc, Nat.div_add_mod]
  omega

theorem eq_of_areaOf_shelf {a o : Nat} (h : areaOf a = .shelf o) : a = o := by
  unfold areaOf at h
  split_ifs at h
  exact Area.shelf.inj h

theorem eq_of_areaOf_intent {a o : Nat} {b : BayId} (h : areaOf a = .intent b o) : a = intentAddr b o := by
  unfold areaOf at h
  split_ifs at h
  rw [Area.intent.injEq] at h
  obtain ⟨rfl, rfl⟩ := h
  exact (tableEntry_addr intentBase 64 a (show 0x100 ≤ a by omega) (show a < 0x100 + 1024 by omega)).symm

theorem eq_of_areaOf_outbox {a o : Nat} {b : BayId} (h : areaOf a = .outbox b o) : a = outboxAddr b o := by
  unfold areaOf at h
  split_ifs at h
  rw [Area.outbox.injEq] at h
  obtain ⟨rfl, rfl⟩ := h
  exact (tableEntry_addr outboxBase 48 a (show 0x500 ≤ a by omega) (show a < 0x500 + 768 by omega)).symm

end Sys2Proof.Machine
end

