-- ==== Sys2Proof/Laws/Rest.lean ====
section
/-! SUPPORT. The bays and the queue stay together through commits, window write transactions, resets, deliveries and the end of
INIT; and in INIT an event leaves every bay in REST. -/

namespace Sys2Proof.Machine

variable {s : State}

theorem allOk_congr {s t : State} (h : s.allOk) (he : ∀ b, t.view b = s.view b) : t.allOk := ⟨fun b => by rw [he]; exact h.bay b⟩

theorem allOk_oneBay {t : State} (b : BayId) (hT : Touches (only b) s t) (h : s.allOk) (hb : (s.view b).ok → (t.view b).ok) : t.allOk :=
  allOk_one b hT h (hb (h.bay b))

theorem allOk_acceptBay (b) (h : s.allOk) : (acceptBay b s).allOk := by
  unfold acceptBay
  apply allOk_evaluateHead
  have h1 := touches_copyAndRetune (only_self b) (s.windowIntent b) (Memory.read s.window (intentAddr b 2)) s
  have v1 : ∀ i v, ((copyIntent b i v s).view b) = s.view b := fun i v => view_modBay b _ s ⟨rfl,rfl,rfl⟩ b
  have hok : ((applyFaultFilter b (s.intentOf b) (copyIntent b (s.windowIntent b) (Memory.read s.window (intentAddr b 2)) s)).view b).ok := by
    unfold applyFaultFilter retuneNext
    have hm : ∀ f, ((modInputs b (BayInputs.retune f) (copyIntent b (s.windowIntent b) (Memory.read s.window (intentAddr b 2)) s)).view b).ok := by
      intro f
      rw [show ∀ t : State, (modInputs b (BayInputs.retune f) t).view b = t.view b from fun t => view_modBay b _ t ⟨rfl,rfl,rfl⟩ b, v1]
      exact h.bay b
    split
    · rw [v1]; exact h.bay b
    · split
      · apply ok_onFaultConfirmed; exact hm _
      · exact hm _
  have h2 := allOk_one b h1 h hok
  generalize applyFaultFilter b (s.intentOf b) (copyIntent b (s.windowIntent b) (Memory.read s.window (intentAddr b 2)) s) = t at h2
  have h3 : (applyCap b (s.intentOf b) t).allOk := by
    unfold applyCap renormalise
    split
    · exact h2
    · refine allOk_congr h2 (fun c => ?_)
      rw [view_placeLimit, view_modCtx]; rfl
  exact allOk_oneBay b ((Touches.refl _ _).takeTarget (only_self b)) h3 ok_takeTarget

theorem view_setWindow (m : Memory) (s : State) (c : BayId) : (setWindow m s).view c = s.view c := rfl

theorem allOk_commitBay (b) (h : s.allOk) : (commitBay b s).allOk := by
  unfold commitBay
  split
  · exact allOk_congr h fun c => (view_submit _ _ _).trans (view_setWindow _ _ c)
  · exact allOk_acceptBay b h

theorem allOk_acceptShelf (h : s.allOk) : (acceptShelf s).allOk := by
  unfold acceptShelf
  apply allOk_takeMode
  apply allOk_evaluateHead
  apply allOk_recompute
  exact ⟨h.bay⟩

theorem allOk_fold (f : BayId → State → State) (hf : ∀ b t, t.allOk → (f b t).allOk) (h : s.allOk) : (forBays f s).allOk := by
  unfold forBays
  induction allBays generalizing s with
  | nil => exact h
  | cons b l ih => exact ih (hf b s h)

theorem view_snapClear (m) (s : State) (c) : (snapClear m s).view c = s.view c := by
  unfold snapClear
  induction maskBays m generalizing s with
  | nil => rfl
  | cons b l ih => rw [List.foldl_cons, ih]; exact view_modLink _ _ _ _

theorem view_appendSnapshot (p) (s : State) (hf : s.journal.fits p.length = true) (c) : (appendSnapshot p s).view c = s.view c := by
  have j := journaled_appendAt snapshotKind 255 p.time p.body p.length s hf p.length_mod
  unfold appendSnapshot
  rw [view_modShelf]
  generalize appendAt s.journal snapshotKind 255 p.time p.body p.length s = t at j
  show t.view c = _
  unfold State.view State.stateOf State.bay
  rw [j.bays, j.queue]

theorem view_writeTail (o w) (s : State) (c) : (writeTail o w s).view c = s.view c := by
  unfold writeTail takeTail
  split
  · have h1 : ∀ t : State, (retrySnapshot t).view c = t.view c := by
      intro t; unfold retrySnapshot; split
      · split
        · exact view_appendSnapshot _ _ ‹_› _
        · rfl
      · rfl
    rw [h1]; unfold causeAfterTail; split <;> rfl
  · rfl

theorem view_handOver (b x) (s : State) (c) : (handOver b x s).view c = s.view c := by
  unfold handOver post refuseParcel
  split <;> (try split) <;> simp

theorem allOk_intake (l) (h : s.allOk) : (intake l s).allOk := by
  unfold intake
  refine allOk_congr (s := forBays _ _) ?_ (fun c => view_quiesceTest _ c)
  apply allOk_fold
  · intro b t k
    unfold stepSlot
    split
    · exact allOk_congr k (view_handOver _ _ _)
    · exact k
  apply allOk_fold
  · intro b t k
    unfold stepBay
    split
    · exact allOk_commitBay b k
    · exact k
  have h1 : (submitDiscard l (discards s l) (stepLand l s)).allOk := by
    refine allOk_congr h (fun c => ?_)
    unfold submitDiscard
    split
    · rfl
    · rw [view_submit]; rfl
  have h2 : (stepShelf l (submitDiscard l (discards s l) (stepLand l s))).allOk := by
    unfold stepShelf commitShelf refuseShelf rewriteShelf
    split
    · split
      · refine allOk_congr h1 (fun c => ?_); rw [view_submit]; rfl
      · exact allOk_acceptShelf h1
    · exact h1
  generalize stepShelf l (submitDiscard l (discards s l) (stepLand l s)) = t at h2
  have h3 : (stepSnapshot l t).allOk := by
    unfold stepSnapshot requestSnapshot submitSnapshot
    split
    · split
      · exact h2
      · refine allOk_congr h2 (fun c => ?_)
        have : ∀ (u : State), u.view c = t.view c → (if u.journal.fits (t.snapshot (BitVec.ofNat 16 (t.shelfWord 12))).length then appendSnapshot (t.snapshot (BitVec.ofNat 16 (t.shelfWord 12))) u else modShelf (fun h => { h with snapStatus := .pending }) (modJournal (fun j => { j with waitingSnapshot := some (t.snapshot (BitVec.ofNat 16 (t.shelfWord 12))) }) u)).view c = t.view c := by
          intro u hu
          split
          · rw [view_appendSnapshot _ _ ‹_›, hu]
          · exact hu
        apply this
        split
        · exact view_snapClear _ _ _
        · rfl
    · exact h2
  generalize stepSnapshot l t = u at h3
  refine allOk_congr h3 (fun c => ?_)
  unfold stepTail
  split
  · exact view_writeTail _ _ _ _
  · rfl

theorem allOk_ite {P : Prop} [Decidable P] {f : State} (h : s.allOk) (hf : P → f.allOk) : (if P then f else s).allOk := by
  split
  · exact hf ‹_›
  · exact h

theorem allOk_ofRest : (∀ b, s.view b = ⟨.rest, [], 0, (s.bay b).inputs.pgLevel⟩) → s.allOk := fun h => ⟨fun b => by rw [h]; exact ⟨rfl, rfl⟩⟩

theorem view_setMiso (l) (s : State) (b) : (setMiso l s).view b = s.view b := rfl

theorem allOk_softReset (s : State) : (softReset s).allOk := by
  apply allOk_ofRest
  intro b
  unfold State.view State.stateOf
  rw [softReset_bay]; rfl

theorem view_setPort (p) (s : State) (b) : (setPort p s).view b = s.view b := rfl

theorem allOk_onPort_write (k) (tx : SpiBytes) (f : State → State) (h : s.allOk) (hf : (f s).allOk) :
    (onPort k tx (writeTransfer tx f) s).allOk := by
  rcases onPort_cases k tx (writeTransfer tx f) s with e | e | ⟨t, e⟩ <;> rw [e]
  · exact h
  · exact allOk_congr h (fun b => view_setPort _ _ b)
  · unfold writeTransfer
    refine allOk_congr (s := if tx.ended then f s else s) ?_ (fun b => (view_setMiso _ _ b).trans (view_setPort _ _ b))
    split
    · exact hf
    · exact h

theorem allOk_onPort_read (k) (tx : SpiBytes) (n : Nat) (g : Nat → Byte) (h : s.allOk) :
    (onPort k tx (readTransfer n tx g) s).allOk := by
  rcases onPort_cases k tx (readTransfer n tx g) s with e | e | ⟨t, e⟩ <;> rw [e]
  · exact h
  · exact allOk_congr h (fun b => view_setPort _ _ b)
  · exact allOk_congr h (fun b => (view_setMiso _ _ b).trans (view_setPort _ _ b))

theorem allOk_registerWrite (tx) (h : s.allOk) : (registerWrite tx s).allOk := by
  refine allOk_onPort_write _ _ _ h ?_
  unfold takeRegisterWrite
  split
  · exact allOk_softReset _
  · exact allOk_congr h (fun _ => rfl)

/-! ## INIT: every bay rests, and events keep it so -/
/-- Every bay is in REST. -/
def rests (s : State) : Prop := ∀ b, (s.view b).state = .rest

theorem queue_nil_of_rests (h : s.allOk) (hr : rests s) : s.queue = [] := by
  by_contra hq
  obtain ⟨e, he⟩ := List.exists_mem_of_ne_nil _ hq
  have := kinds_of_mem he
  have hk := h.bay e.bay
  have hs := hr e.bay
  simp only [BayView.ok, hs] at hk
  rw [hk.1] at this
  simp at this

section
variable {b : BayId} (hr : (s.view b).state = .rest)
include hr
theorem rest_onFaultConfirmed : (onFaultConfirmed b s).view b = s.view b := by
  have hs : s.stateOf b = .rest := hr
  unfold onFaultConfirmed; rw [hs]
theorem rest_reconcileOff : (reconcileOff b s).view b = s.view b := by
  have hs : s.stateOf b = .rest := hr
  unfold reconcileOff; rw [hs]; simp
theorem rest_onLinkLost : (onLinkLost b s).view b = s.view b := by
  have hs : s.stateOf b = .rest := hr
  unfold onLinkLost withdrawUnlessBlind; rw [hs]; simp
theorem rest_attemptFailed (m) : (attemptFailed b m s).view b = s.view b := by
  unfold attemptFailed failMessage failNext enterLost awaitResend
  split
  · rw [view_modLink]
  · split
    · rw [view_flushList, view_reportParcel, view_clearInFlight]
    · rw [rest_onLinkLost]
      · rw [view_submitLink, view_modLink, view_abandonListed, view_reportParcel, view_clearInFlight]
      · rw [view_submitLink, view_modLink, view_abandonListed, view_reportParcel, view_clearInFlight]; exact hr
theorem rest_makeDemandUnknown : (makeDemandUnknown b s).view b = s.view b := by
  unfold makeDemandUnknown onDemandUnknown
  have hs : (modCtx b (fun c => { c with demand := none }) s).stateOf b = .rest := (congrArg BayView.state (view_modCtx b _ s rfl b)).trans hr
  rw [hs]; exact view_modCtx b _ s rfl b
theorem rest_deliverHello (l) : (deliverHello b l s).view b = s.view b := by
  unfold deliverHello refuseHello acceptHello unbindLink writeDirectory
  split
  · rw [view_takeParcel, view_placeLimit, view_modDialogue, rest_makeDemandUnknown, view_submitLink, view_modLink]
    rw [view_submitLink, view_modLink]; exact hr
  · split
    · rw [rest_makeDemandUnknown, view_flushList, view_modLink, view_submitLink]
      rw [view_flushList, view_modLink, view_submitLink]; exact hr
    · rw [view_submitLink]
theorem rest_deliverDemand (l) : (deliverDemand b l s).view b = s.view b := by
  unfold deliverDemand countMalformed storeDemand onDemand
  split
  · rw [show (modCtx b _ s).stateOf b = .rest from (congrArg BayView.state (view_modCtx b _ s rfl b)).trans hr]
    exact view_modCtx b _ s rfl b
  · rw [view_modDialogue]
theorem rest_deliverRelease (l) : (deliverRelease b l s).view b = s.view b := by
  have hs : s.stateOf b = .rest := hr
  unfold deliverRelease countMalformed onRelease
  rw [hs]
  split
  · simp
  · rw [view_modDialogue]
theorem rest_deliverTrouble (l) : (deliverTrouble b l s).view b = s.view b := by
  unfold deliverTrouble countMalformed onTrouble
  split
  · rw [view_wakeEvent]
    have hs : (submit (.trouble b (troubleSeverity l) (s.stateOf b) (troubleCode l)
          (troubleActionOf (troubleSeverity l) (s.stateOf b))) s).stateOf b = .rest := (submit_stateOf _ _ _).trans hr
    rw [hs]
    unfold troubleActionOf
    split
    · rename_i h; split at h <;> exact view_submit _ _ _
    · rename_i h; split at h <;> exact (view_modCtx b _ _ rfl b).trans (view_submit _ _ _)
    · rename_i h; split at h <;> cases h
    · rename_i h; split at h <;> cases h
    · rename_i h; split at h <;> cases h
  · rw [view_modDialogue]
theorem rest_onPgActive (p) : ((onPgActive b (modInputs b (fun i => { i with pgLevel := p }) s)).view b).state = .rest := by
  have key := view_setPg b p s
  have hs : (modInputs b (fun i => { i with pgLevel := p }) s).stateOf b = .rest := (congrArg BayView.state key).trans hr
  unfold onPgActive; rw [hs]; exact hs
theorem rest_onPgInactive (p) : ((onPgInactive b (modInputs b (fun i => { i with pgLevel := p }) s)).view b).state = .rest := by
  have key := view_setPg b p s
  have hs : (modInputs b (fun i => { i with pgLevel := p }) s).stateOf b = .rest := (congrArg BayView.state key).trans hr
  unfold onPgInactive; rw [hs]; exact hs
end

theorem rests_one {t : State} (b : BayId) (hT : Touches (only b) s t) (h : rests s) (hb : (t.view b).state = .rest) : rests t := by
  intro c
  by_cases hc : c = b
  · subst hc; exact hb
  · rw [view_touches hT hc]; exact h c

theorem rests_congr {t : State} (h : rests s) (he : ∀ b, t.view b = s.view b) : rests t := fun b => by rw [he]; exact h b

theorem evaluateHead_init (h : s.shelf.state = .init) : evaluateHead s = s := by
  unfold evaluateHead
  cases 2 * s.queue.length with
  | zero => rfl
  | succ n => unfold evaluateLoop headThatFits; cases s.queue <;> simp [h]

theorem finish_init (h : s.shelf.state = .init) : finish s = s := by
  unfold finish quiesceTest
  rw [evaluateHead_init h]; simp [h]

theorem recompute_init (c) (h : s.allOk) (hr : rests s) : ∀ b, (recomputeBudget c s).view b = s.view b := by
  intro b
  unfold recomputeBudget
  split
  · rfl
  · split
    · rw [submitBudget, view_submit]; rfl
    · have hq := queue_nil_of_rests h hr
      have hl : ∀ am, am BayState.rest = false → shedOrder (setEffective (derivedBudget s.pool) s) am = [] := by
        intro am ha
        unfold shedOrder
        rw [List.filter_eq_nil_iff.mpr]
        · rfl
        · intro c _
          have : (setEffective (derivedBudget s.pool) s).stateOf c = .rest := hr c
          simp [this, ha]
      unfold budgetFall fallNext shedAll shedList shedCandidates
      rw [hl _ rfl, hl _ rfl]
      rw [submitBudget, view_submit]
      unfold refusalList refuseAll
      simp only [List.append_nil, shedChoice, List.foldl_nil]
      have hq' : (setEffective (derivedBudget s.pool) s).queue = [] := hq
      rw [hq']; rfl

theorem allOk_receive (b k hh q p d) (h : s.allOk) (hd : ∀ t, t.allOk → (d t).allOk) : (receiveMessage b k hh q p d s).allOk := by
  unfold receiveMessage
  refine allOk_ite h (fun _ => ?_)
  apply allOk_finish
  unfold takeByLinkState filterMessage
  have h0 : (oweAck b q (endReception b (frameBuffer k q p) s)).allOk := allOk_congr h (fun c => by
    unfold oweAck endReception; rw [view_modLink, view_modLink])
  split
  · split
    · exact allOk_congr h0 (fun c => view_countQuality _ _ _ _)
    · apply hd; exact allOk_congr h0 (fun c => view_modLink _ _ _ _)
  · exact allOk_congr h0 (fun c => view_placeProbe _ _ _)

theorem view_modInputs (b : BayId) (f) (s : State) (hf : ∀ i, (f i).pgLevel = i.pgLevel) (c) : (modInputs b f s).view c = s.view c :=
  view_modBay b _ s ⟨rfl, rfl, hf _⟩ c

theorem allOk_deliver (b) (d : State → State) (h : s.allOk) (hT : Touches (only b) s (d s)) (hd : (s.view b).ok → ((d s).view b).ok) : (d s).allOk := allOk_oneBay b hT h hd

theorem view_submitAbandoned (b x o) (s : State) (c) : (submitAbandoned b x o s).view c = s.view c := by
  unfold submitAbandoned
  split
  · exact view_submit _ _ _
  · rfl

theorem allOk_endInit (h : s.allOk) (hr : rests s) : (endInit s).allOk := by
  unfold endInit
  refine allOk_forBays startRest (fun v => v.state = .rest ∧ v.ok) (fun b t => ?_) (fun b t k => ?_) (fun b => ?_)
  · unfold startRest submitReset submitOwed
    have k := (((Touches.refl (only b) t).submitAbandoned (b := b) .reset (t.bay b).owedParcel).trans
      (touches_modBay (b := b) (only_self b) (fun y => { y with owedParcel := none }) _ rfl (fun x => x) (fun x => x)))
    exact (k.submit _).restIfZero (only_self b)
  · unfold startRest submitReset submitOwed
    have hv : (submit (Record.state b ((modBay b (fun y => { y with owedParcel := none }) (submitAbandoned b ParcelCause.reset (t.bay b).owedParcel t)).bay b).resetOldState .rest .reset false)
        (modBay b (fun y => { y with owedParcel := none }) (submitAbandoned b ParcelCause.reset (t.bay b).owedParcel t))).view b = t.view b := by
      rw [view_submit, view_modBay _ _ _ ⟨rfl,rfl,rfl⟩, view_submitAbandoned]
    obtain ⟨k1, k2⟩ := k
    simp only [BayView.ok, k1] at k2
    apply ok_restIfZero
    · rw [hv]; exact k1
    · rw [hv]; exact k2.1
    · rw [hv]; exact k2.2
  · exact ⟨hr b, h.bay b⟩

theorem rests_receive (b k hh q p d) (h : rests s) (hi : s.shelf.state = .init) (hTT : ∀ t : State, t.shelf.state = .init → (d t).shelf.state = .init)
    (hd : ∀ t, rests t → t.shelf.state = .init → rests (d t)) : rests (receiveMessage b k hh q p d s) := by
  unfold receiveMessage
  split
  · have h0 : rests (oweAck b q (endReception b (frameBuffer k q p) s)) := rests_congr h (fun c => by
      unfold oweAck endReception; rw [view_modLink, view_modLink])
    have hi0 : (oweAck b q (endReception b (frameBuffer k q p) s)).shelf.state = .init := hi
    generalize oweAck b q (endReception b (frameBuffer k q p) s) = t at h0 hi0
    have hT0 : Touches (only b) t (placeProbe b t) := (Touches.refl _ t).placeProbe (only_self b)
    unfold takeByLinkState filterMessage
    split
    · split
      · have := ((Touches.refl (only b) t).countQuality (only_self b) .duplicates).shelf
        rw [finish_init (by rw [this]; exact hi0)]
        exact rests_congr h0 (fun c => view_countQuality _ _ _ _)
      · rw [finish_init (hTT (noteSequence b q t) hi0)]
        exact hd _ (rests_congr h0 (fun c => view_modLink _ _ _ _)) hi0
    · rw [finish_init (by rw [hT0.shelf]; exact hi0)]
      exact rests_congr h0 (fun c => view_placeProbe _ _ _)
  · exact h

theorem wakeEvent_shelf (b w) (s : State) : (wakeEvent b w s).shelf.state = s.shelf.state := by
  unfold wakeEvent raiseWake
  split
  · split <;> (show (submit _ _).shelf.state = _; rw [submit_shelf]; rfl)
  · rfl

theorem rests_deliver (b) (d : State → State) (hT : ∀ t, Touches (only b) t (d t)) (hv : ∀ t, (t.view b).state = .rest → (d t).view b = t.view b) :
   ∀ t, rests t → t.shelf.state = .init → rests (d t) := fun t h _ => rests_one b (hT t) h (by rw [hv t (h b)]; exact h b)

theorem rests_ite {P : Prop} [Decidable P] {f : State} (h : rests s) (hf : P → rests f) : rests (if P then f else s) := by
  split
  · exact hf ‹_›
  · exact h

end Sys2Proof.Machine
end

