-- ==== Sys2Proof/Laws/Settle.lean ====
section
/-! SUPPORT. The entry into ON from SETTLE and the charge it leaves, as the whole state that comes of it; a raise taken in ON,
also together with that entry; and an event's end for a bay that has no entry in the queue. -/

namespace Sys2Proof.Machine

variable {s t : State} {b : BayId}

/-! ## The end of an event -/

/-- While no quiesce runs, the end of an event leaves alone the shelf, the queue of commands and a bay without an entry. -/
theorem finish_apart (b : BayId) (s : State) (hq : entriesOf s.queue b = []) (hs : s.shelf.state ≠ .quiescing) :
    (finish s).bay b = s.bay b ∧ entriesOf (finish s).queue b = [] ∧ (finish s).shelf = s.shelf
      ∧ (finish s).pending = s.pending := by
  have h : Touches (fun c => c ≠ b) s (evaluateHead s) := (Touches.refl _ s).evaluateHead fun e he hb => by
    simpa [hb] using List.filter_eq_nil_iff.mp hq e he
  have hb : ¬ (b ≠ b) := fun k => k rfl
  have hf : finish s = evaluateHead s := by
    unfold finish quiesceTest
    rw [if_neg (fun k => hs (h.shelf ▸ k.1))]
  rw [hf]
  exact ⟨h.others b hb, (h.entries b hb).trans hq, h.shelf, h.pending⟩

/-- A bay without an entry has none to leave the queue with. -/
theorem leaveQueue_none (o : AdmitOutcome) (h : entriesOf s.queue b = []) : leaveQueue b o s = s := by
  unfold leaveQueue
  rw [queueEntryOf_none _ _ h]

theorem placeEntry_ctx (e : TxEntry) : ((placeEntry b e s).bay b).ctx = (s.bay b).ctx := by
  unfold placeEntry
  split
  · rw [modLink_bay_self]
  · rfl

theorem leaveQueue_ctx (o : AdmitOutcome) : ((leaveQueue b o s).bay b).ctx = (s.bay b).ctx := by
  rw [leaveQueue_eq]
  show ((submitAll _ s).bay b).ctx = _
  rw [submitAll_bay]

/-- A raise asked for leaves the bay's context alone (R49). -/
theorem requestRaise_ctx (n : Nat) (x : Bool) : ((requestRaise b n x s).bay b).ctx = (s.bay b).ctx := by
  have h : ∀ (k : EntryKind) (o : AdmitOutcome) (m p : Nat) (y : Bool) (u : State),
      (submitAdmit b k o m p y u).bay b = u.bay b := fun _ _ _ _ _ u => submit_bay _ u b
  unfold requestRaise
  split
  · unfold grantCharge
    rw [placeEntry_ctx]
    split
    · exact leaveQueue_ctx _
    · rw [h]
  · unfold announceQueued
    rw [placeEntry_ctx, h]
    split <;> rfl

/-! ## What the charge is chosen from -/

theorem drainAtOn_congr (hi : t.intentOf b = s.intentOf b) (ht : (t.bay b).ctx.troubleHold = (s.bay b).ctx.troubleHold)
    (hs : t.shelf.state = s.shelf.state) : drainAtOn t b = drainAtOn s b := by
  unfold drainAtOn
  rw [hi, ht, hs]

/-! ## The bay in ON, its charge not yet set -/

/-- The bay changed from SETTLE to ON with its STATE record. -/
abbrev State.reachedOn (s : State) (b : BayId) : State :=
  submitAll [.state b .settle .on .settled false] (modBay b Bay.settled s)

theorem reachedOn_bay : (s.reachedOn b).bay b = (s.bay b).settled := by
  rw [submitAll_bay, modBay_bay_self]

theorem reachedOn_drains : drainAtOn (s.reachedOn b) b = drainAtOn s b :=
  drainAtOn_congr (by rw [intentOf_eq, reachedOn_bay]; rfl) (by rw [reachedOn_bay]; rfl)
    (congrArg Shelf.state (submitAll_shelf _ _))

/-- Entry into ON (R13). -/
theorem enterOn_eq (hs : s.stateOf b = .settle) :
    enterOn b s = reconcileOn b (clearPending b (settleCharge b (s.reachedOn b))) := by
  unfold enterOn keepSettled
  rw [changeState_plain .settle .on _ _ _ _ hs (by decide) (by decide), modBay_modBay, State.reachedOn, submitAll_modBay]
  congr 3
  refine modBay_congr _ _ _ _ ?_
  unfold Bay.changed Bay.settled Bay.inState quiesceOutcomeOf pendingAfter ms
  simp only [Option.getD_none, ite_self]

/-! ## The charge beside the records and the bay -/

theorem setCharge_modBay (v : Nat) (f : Bay → Bay) (hf : ∀ y, (f y).charge = y.charge)
    (hc : ∀ y, f { y with charge := v } = { f y with charge := v }) :
    modBay b f (setCharge b v s) = setCharge b v (modBay b f s) := by
  unfold setCharge
  rw [modBay_modPool, modBay_modBay, modBay_modBay]
  congr 2
  · funext p
    rw [modBay_bay_self, hf]
  · exact funext hc

theorem setCharge_submitAll (v : Nat) (l : List Record) :
    setCharge b v (submitAll l s) = submitAll l (setCharge b v s) := by
  unfold setCharge
  rw [submitAll_modPool, submitAll_modBay, submitAll_bay]

/-- Pending cleared beside the charge and the records. -/
theorem clearPending_setCharge (v : Nat) (f : Bay → Bay) (l : List Record) :
    clearPending b (submitAll l (setCharge b v (modBay b f s)))
      = submitAll l (setCharge b v (modBay b (fun y => (f y).withPending false) s)) := by
  unfold clearPending modCtx
  rw [← submitAll_modBay, setCharge_modBay v _ ?_ ?_, modBay_modBay]
  · rfl
  · exact fun _ => rfl
  · exact fun _ => rfl

/-- Neither the charge nor a record changes why a bay drains. -/
theorem drainAtOn_setCharge (v : Nat) (f : Bay → Bay) (l : List Record)
    (hi : (f (s.bay b)).ctx.intent = (s.bay b).ctx.intent) (ht : (f (s.bay b)).ctx.troubleHold = (s.bay b).ctx.troubleHold) :
    drainAtOn (submitAll l (setCharge b v (modBay b f s))) b = drainAtOn s b :=
  drainAtOn_congr (by rw [intentOf_eq, submitAll_bay, setCharge_bay_self, modBay_bay_self]; exact hi)
    (by rw [submitAll_bay, setCharge_bay_self, modBay_bay_self]; exact ht) (congrArg Shelf.state (submitAll_shelf _ _))

/-! ## The whole entry -/

/-- Entry into ON with no demand pending (R47, first row). -/
theorem enterOn_clear (hs : s.stateOf b = .settle) (hp : (s.bay b).ctx.pending = false) :
    enterOn b s = reconcileOn b (submitAll [.state b .settle .on .settled false]
      (setCharge b (s.bay b).grantedHold (modBay b Bay.settled s))) := by
  have hb : (s.reachedOn b).bay b = (s.bay b).settled := reachedOn_bay
  have h : settleCharge b (s.reachedOn b) = setCharge b (s.bay b).grantedHold (s.reachedOn b) := by
    unfold settleCharge
    rw [hb, show (s.bay b).settled.ctx.pending = false from hp]
    rfl
  rw [enterOn_eq hs, h, setCharge_submitAll, clearPending_setCharge]
  congr 3
  refine modBay_congr _ _ _ _ ?_
  unfold Bay.withPending Bay.settled Bay.inState
  dsimp only
  rw [hp]

/-- Entry into ON with a demand pending (R47). -/
theorem enterOn_pending (hs : s.stateOf b = .settle) (hp : (s.bay b).ctx.pending = true)
    (d : Demand) (hd : (s.bay b).ctx.demand = some d) :
    enterOn b s = reconcileOn b (clearPending b (resolvePending b d (s.reachedOn b))) := by
  rw [enterOn_eq hs]
  congr 2
  unfold settleCharge
  rw [reachedOn_bay, show (s.bay b).settled.ctx.pending = true from hp, show (s.bay b).settled.ctx.demand = some d from hd]

/-! ## A raise in ON (R49, R112) -/

/-- A raise that does not fall together with the expiry of SETTLE, or is above the SETTLE charge, is asked for alone. -/
theorem takeRaise_apart (n : Nat) (x : Bool) (h : (s.bay b).settledAbove n = false) :
    takeRaise b n x s = requestRaise b n x s := by
  unfold takeRaise
  rw [h]
  rfl

theorem settledAbove_iff {n : Nat} : (s.bay b).settledAbove n = true ↔ ∃ r, (s.bay b).settledFrom = some r ∧ n ≤ r := by
  unfold Bay.settledAbove
  cases (s.bay b).settledFrom with
  | none => simp
  | some r => simp

theorem queueEntryOf_insert (e : QueueEntry) (q : List QueueEntry) (h : queueEntryOf q e.bay = none) :
    queueEntryOf (queueInsert e q) e.bay = some e := by
  induction q with
  | nil => simp [queueInsert, queueEntryOf]
  | cons y q ih =>
    have hy : (y.bay == e.bay) = false := by simpa using List.find?_eq_none.mp h y (by simp)
    unfold queueInsert
    split
    · simp [queueEntryOf]
    · unfold queueEntryOf at h ih ⊢
      rw [List.find?_cons, hy] at h ⊢
      exact ih h

theorem queueEntryOf_replace (n : Nat) (x : Bool) (q : List QueueEntry) :
    queueEntryOf (queueReplace b n x q) b
      = (queueEntryOf q b).map (fun e => { e with amount := n, clipped := x }) := by
  unfold queueEntryOf queueReplace
  rw [List.find?_map]
  have hf : ((fun e : QueueEntry => e.bay == b) ∘ fun e => if e.bay == b then { e with amount := n, clipped := x } else e)
      = fun e => e.bay == b := by
    funext e
    dsimp only [Function.comp]
    split <;> rfl
  rw [hf]
  cases h : q.find? (fun e => e.bay == b) with
  | none => rfl
  | some e =>
    have he : (e.bay == b) = true := by simpa using List.find?_some h
    simp only [Option.map_some, he, if_true]

/-- The Raise that a request within the EffectiveBudget leaves in the queue: of the amount asked for (R49). -/
theorem requestRaise_entry (n : Nat) (x : Bool) (h : (s.bay b).charge < n) (hb : n ≤ s.pool.effectiveBudget) :
    ∃ e, queueEntryOf (requestRaise b n x s).queue b = some e ∧ e.bay = b ∧ e.amount = n - (s.bay b).charge
      ∧ e.clipped = x := by
  have key : ∀ t : State, (announceQueued b .raise (n - (s.bay b).charge) x t).queue = t.queue := fun t => by
    unfold announceQueued placeEntry submitAdmit
    split <;> simp
  unfold requestRaise
  rw [if_neg (by omega), key]
  split
  · rename_i hq
    obtain ⟨e, he⟩ := Option.isSome_iff_exists.mp hq
    have hbay : e.bay = b := queueEntryOf_bay he
    exact ⟨{ e with amount := n - (s.bay b).charge, clipped := x }, (queueEntryOf_replace _ _ _).trans (by rw [he]; rfl),
      hbay, rfl, rfl⟩
  · rename_i hq
    exact ⟨_, queueEntryOf_insert _ _ (by simpa using hq), rfl, rfl, rfl⟩

/-- A raise that falls together with the expiry of SETTLE, not above the SETTLE charge, is admitted in its event where the
new Committed fits (R34, R45, R112). -/
theorem takeRaise_together (n : Nat) (x : Bool) (h : (s.bay b).settledAbove n = true) (hc : (s.bay b).charge < n)
    (hb : n ≤ s.pool.effectiveBudget) :
    ∃ e, e.bay = b ∧ e.amount = n - (s.bay b).charge ∧ e.clipped = x ∧ takeRaise b n x s
      = if (requestRaise b n x s).pool.committed + (n - (s.bay b).charge) ≤ (requestRaise b n x s).pool.effectiveBudget then
          admitRaise e (requestRaise b n x s) else requestRaise b n x s := by
  obtain ⟨e, he, hbay, ha, hx⟩ := requestRaise_entry n x hc hb
  refine ⟨e, hbay, ha, hx, ?_⟩
  unfold takeRaise admitAtOnce
  rw [h, if_pos rfl, he, ← ha]

end Sys2Proof.Machine
end

