-- ==== Sys2Proof/Laws/Shedding.lean ====
section
/-! SUPPORT. The shedding order and the choice that it makes (R53), and the place an entry takes in the queue (R36). -/

namespace Sys2Proof.Machine

/-! ## The order -/

theorem shedInsert_perm (s : State) (b : BayId) (l : List BayId) : (shedInsert s b l).Perm (b :: l) := by
  induction l with
  | nil => exact List.Perm.refl _
  | cons x l ih =>
    unfold shedInsert
    split
    · exact List.Perm.refl _
    · exact (ih.cons x).trans (List.Perm.swap b x l)

theorem foldr_shedInsert_perm (s : State) (l : List BayId) : (l.foldr (shedInsert s) []).Perm l := by
  induction l with
  | nil => exact List.Perm.refl _
  | cons x l ih => exact (shedInsert_perm s x _).trans (ih.cons x)

/-- The bays of the given states that hold a charge, each once. -/
theorem mem_shedOrder (s : State) (among : BayState → Bool) (b : BayId) :
    b ∈ shedOrder s among ↔ among (s.stateOf b) = true ∧ (s.bay b).charge ≠ 0 := by
  unfold shedOrder allBays
  rw [(foldr_shedInsert_perm s _).mem_iff]
  simp

theorem nodup_shedOrder (s : State) (among : BayState → Bool) : (shedOrder s among).Nodup := by
  unfold shedOrder
  rw [(foldr_shedInsert_perm s _).nodup_iff]
  exact (List.nodup_finRange 16).filter _

/-- A list put in order by a relation that the insertion tells of. -/
theorem pairwise_shedInsert (s : State) (R : BayId → BayId → Prop) (htrans : ∀ x y z, R x y → R y z → R x z)
    (b : BayId) (l : List BayId) (hl : l.Pairwise R) (ha : ∀ x ∈ l, shedAhead s b x = true → R b x)
    (hb : ∀ x ∈ l, shedAhead s b x = false → R x b) : (shedInsert s b l).Pairwise R := by
  induction l with
  | nil => exact List.pairwise_singleton R b
  | cons x l ih =>
    rw [List.pairwise_cons] at hl
    unfold shedInsert
    split
    · rename_i h
      have hx := ha x (by simp) h
      refine List.pairwise_cons.mpr ⟨fun y hy => ?_, List.pairwise_cons.mpr hl⟩
      rcases List.mem_cons.mp hy with rfl | hy
      · exact hx
      · exact htrans _ _ _ hx (hl.1 y hy)
    · rename_i h
      have hx := hb x (by simp) (Bool.eq_false_of_not_eq_true h)
      refine List.pairwise_cons.mpr ⟨fun y hy => ?_, ih hl.2 (fun y hy => ha y (by simp [hy])) (fun y hy => hb y (by simp [hy]))⟩
      rcases List.mem_cons.mp ((shedInsert_perm s b l).mem_iff.mp hy) with rfl | hy
      · exact hx
      · exact hl.1 y hy

/-- The order of classes: the highest Priority number first (R53). -/
theorem shedOrder_priority (s : State) (among : BayState → Bool) :
    (shedOrder s among).Pairwise (fun x y => (s.intentOf y).priority ≤ (s.intentOf x).priority) := by
  unfold shedOrder
  generalize allBays.filter _ = l
  induction l with
  | nil => exact List.Pairwise.nil
  | cons b l ih =>
    refine pairwise_shedInsert s (fun x y => (s.intentOf y).priority ≤ (s.intentOf x).priority)
      (fun _ _ _ h k => le_trans k h) b _ ih (fun x _ h => ?_) (fun x _ h => ?_)
    · unfold shedAhead at h
      simp only [Bool.or_eq_true, Bool.and_eq_true, decide_eq_true_eq, beq_iff_eq] at h
      omega
    · unfold shedAhead at h
      simp only [Bool.or_eq_false_iff, decide_eq_false_iff_not] at h
      omega

/-! ## Stamps -/

/-- How long ago, in admissions, a bay's stamp was given (R36). -/
def stampAge (s : State) (b : BayId) : Nat := (s.pool.arrivalCounter - (s.bay b).ctx.admissionStamp).toNat

/-- Between stamps within half the counter's range the earlier is the older, and of two equal ones the lower-numbered bay's
(R36). -/
theorem stampEarlier_iff_age (s : State) (x y : BayId) (hx : stampAge s x < 2147483648) (hy : stampAge s y < 2147483648) :
    stampEarlier (s.bay x).ctx.admissionStamp x (s.bay y).ctx.admissionStamp y = true
      ↔ stampAge s y < stampAge s x ∨ (stampAge s y = stampAge s x ∧ x.val < y.val) := by
  unfold stampAge at *
  unfold stampEarlier
  generalize (s.bay x).ctx.admissionStamp = p at *
  generalize (s.bay y).ctx.admissionStamp = q at *
  generalize s.pool.arrivalCounter = c at *
  simp only [beq_iff_eq, Bool.or_eq_true]
  have hp := p.isLt
  have hq := q.isLt
  have hc := c.isLt
  rw [BitVec.toNat_sub] at hx hy ⊢
  simp only [BitVec.toNat_sub] at *
  split <;> simp only [decide_eq_true_eq] <;> omega

/-- Bays of one class in the shedding order: the latest stamp first (R53). -/
theorem shedOrder_stamps (s : State) (among : BayState → Bool) (h : ∀ b ∈ shedOrder s among, stampAge s b < 2147483648) :
    (shedOrder s among).Pairwise (fun x y => (s.intentOf y).priority = (s.intentOf x).priority →
      stampEarlier (s.bay y).ctx.admissionStamp y (s.bay x).ctx.admissionStamp x = true) := by
  have key : (shedOrder s among).Pairwise (fun x y => (s.intentOf y).priority < (s.intentOf x).priority
      ∨ ((s.intentOf y).priority = (s.intentOf x).priority
        ∧ (stampAge s x < stampAge s y ∨ (stampAge s x = stampAge s y ∧ y.val < x.val)))) := by
    have hn := nodup_shedOrder s among
    unfold shedOrder at h hn ⊢
    generalize allBays.filter _ = l at h hn ⊢
    rw [(foldr_shedInsert_perm s l).nodup_iff] at hn
    replace h : ∀ b ∈ l, stampAge s b < 2147483648 := fun b hb => h b ((foldr_shedInsert_perm s l).mem_iff.mpr hb)
    induction l with
    | nil => exact List.Pairwise.nil
    | cons b l ih =>
      rw [List.nodup_cons] at hn
      refine pairwise_shedInsert s _ (fun x y z h k => by omega) b _ (ih hn.2 (fun x hx => h x (by simp [hx])))
        (fun x hx ha => ?_) (fun x hx ha => ?_)
      all_goals
        have hx := (foldr_shedInsert_perm s l).mem_iff.mp hx
        have hne : b.val ≠ x.val := fun e => hn.1 (Fin.ext e ▸ hx)
        have hs := stampEarlier_iff_age s x b (h x (by simp [hx])) (h b (by simp))
        unfold shedAhead at ha
      · simp only [Bool.or_eq_true, Bool.and_eq_true, decide_eq_true_eq, beq_iff_eq, hs] at ha
        omega
      · rw [← Bool.not_eq_true] at ha
        simp only [Bool.or_eq_true, Bool.and_eq_true, decide_eq_true_eq, beq_iff_eq, hs] at ha
        omega
  refine key.imp_of_mem (fun {x y} hx hy hxy hp => ?_)
  rw [stampEarlier_iff_age s y x (h y hy) (h x hx)]
  omega

/-! ## The choice (R53) -/

/-- The choice is the front of the list. -/
theorem shedChoice_prefix (budget : Nat) (charge : BayId → Nat) (l : List BayId) (sum : Nat) :
    shedChoice budget charge l sum <+: l := by
  induction l generalizing sum with
  | nil => exact List.nil_prefix
  | cons b l ih =>
    unfold shedChoice
    split
    · exact (List.prefix_cons_inj b).mpr (ih _)
    · exact List.nil_prefix

/-- The choice brings the sum within the budget where the whole list does. -/
theorem shedChoice_enough (budget : Nat) (charge : BayId → Nat) (l : List BayId) (sum : Nat)
    (h : sum ≤ budget + (l.map charge).sum) : sum ≤ budget + ((shedChoice budget charge l sum).map charge).sum := by
  induction l generalizing sum with
  | nil => exact h
  | cons b l ih =>
    unfold shedChoice
    split
    · rw [List.map_cons, List.sum_cons] at h ⊢
      have := ih (sum - charge b) (by omega)
      omega
    · simp only [List.map_nil, List.sum_nil]
      omega

/-- The choice takes no bay more than it must. -/
theorem shedChoice_least (budget : Nat) (charge : BayId → Nat) (l m : List BayId) (b : BayId) (sum : Nat)
    (h : shedChoice budget charge l sum = m ++ [b]) : budget + (m.map charge).sum < sum := by
  induction l generalizing sum m with
  | nil => simp [shedChoice] at h
  | cons x l ih =>
    unfold shedChoice at h
    split at h
    · rename_i hs
      cases m with
      | nil => simpa using hs
      | cons y m =>
        rw [List.cons_append, List.cons.injEq] at h
        obtain ⟨rfl, h⟩ := h
        have := ih m (sum - charge x) h
        rw [List.map_cons, List.sum_cons]
        omega
    · simp at h

/-! ## The queue (R36) -/

/-- An entry joins behind those of its class and of higher classes, as long as their Arrivals are earlier ones within half
the counter's range. -/
theorem queueInsert_eq (e : QueueEntry) (q : List QueueEntry) (ho : queueOrdered q)
    (h : ∀ x ∈ q, x.priority = e.priority →
      1 ≤ (e.arrival - x.arrival).toNat ∧ (e.arrival - x.arrival).toNat < 2147483648) :
    queueInsert e q = q.filter (fun x => x.priority ≤ e.priority) ++ e :: q.filter (fun x => e.priority < x.priority) := by
  induction q with
  | nil => rfl
  | cons x q ih =>
    unfold queueOrdered at ho
    rw [List.pairwise_cons] at ho
    have ha : e.ahead x = decide (e.priority < x.priority) := by
      unfold QueueEntry.ahead
      by_cases hp : e.priority = x.priority
      · have hx := h x (by simp) hp.symm
        have hq := e.arrival.isLt
        have hr := x.arrival.isLt
        rw [BitVec.toNat_sub] at hx
        have hs : stampEarlier e.arrival e.bay x.arrival x.bay = false := by
          unfold stampEarlier
          rw [BitVec.toNat_sub]
          simp only [beq_iff_eq, Bool.or_eq_true]
          rw [if_neg (by omega)]
          exact decide_eq_false (by omega)
        simp [hp, hs]
      · simp [hp]
    unfold queueInsert
    rw [ha]
    by_cases hp : e.priority < x.priority
    · have h1 : ∀ y ∈ x :: q, e.priority < y.priority := fun y hy => by
        rcases List.mem_cons.mp hy with rfl | hy
        · exact hp
        · exact lt_of_lt_of_le hp (ho.1 y hy)
      have f1 : (x :: q).filter (fun y => decide (y.priority ≤ e.priority)) = [] :=
        List.filter_eq_nil_iff.mpr (fun y hy => by have := h1 y hy; simp only [decide_eq_true_eq]; omega)
      have f2 : (x :: q).filter (fun y => decide (e.priority < y.priority)) = x :: q :=
        List.filter_eq_self.mpr (fun y hy => decide_eq_true (h1 y hy))
      rw [if_pos (decide_eq_true hp), f1, f2]
      rfl
    · rw [if_neg (by simp only [decide_eq_true_eq]; exact hp), ih ho.2 (fun y hy => h y (by simp [hy]))]
      rw [List.filter_cons_of_pos (by simp only [decide_eq_true_eq]; omega),
        List.filter_cons_of_neg (by simp only [decide_eq_true_eq]; exact hp)]
      rfl

end Sys2Proof.Machine
end

