-- ==== Sys2Proof/Tests/Slice0.lean ====
section
/-! SUPPORT. Tests: ill-formed terms that WellFormed refuses, single steps with the values of chapter 11, and for each statement
with hypotheses a state and operands that meet them, clause by clause where a statement has several. -/

namespace Sys2Proof.Tests

open Sys2Proof Sys2Proof.Machine

-- One theorem after the other: each waits for the kernel, and a waiting thread holds its stack.
set_option Elab.async false

/-! ## WellFormed -/

theorem test_refusesUnfinishedByteOfEightBits :
    (Instr.windowWrite ⟨[], 8, true⟩).wellFormed = false ∧ (Instr.windowRead ⟨[], 8, true⟩).wellFormed = false
    ∧ (Instr.registerRead ⟨[], 8, true⟩).wellFormed = false ∧ (Instr.windowWrite ⟨[], 7, true⟩).wellFormed = true := by decide

theorem test_refusesKnownCommandAsUnknown :
    (∀ c ∈ [(0x00 : Byte), 0x80, 0x40, 0xC0], (Instr.unknownCommand (some c) ⟨[], 0, true⟩).wellFormed = false)
    ∧ (Instr.unknownCommand (some 0x41) ⟨[], 8, true⟩).wellFormed = false
    ∧ (Instr.unknownCommand (some 0x41) ⟨[], 0, true⟩).wellFormed = true := by decide

theorem test_refusesBytesBeforeTheCommandByte :
    (Instr.unknownCommand none ⟨[0], 0, false⟩).wellFormed = false ∧ (Instr.unknownCommand none ⟨[], 8, false⟩).wellFormed = false
    ∧ (Instr.unknownCommand none ⟨[], 7, false⟩).wellFormed = true := by decide

theorem test_refusesRegisterWriteUnderAnotherRow :
    (Instr.softReset ⟨[0, 2, 0], 0, true⟩).wellFormed = false ∧ (Instr.softReset ⟨[0, 2, 1], 0, true⟩).wellFormed = true
    ∧ (Instr.clearOverflow ⟨[0, 6, 4], 0, true⟩).wellFormed = false ∧ (Instr.clearOverflow ⟨[0, 6, 2], 0, true⟩).wellFormed = true
    ∧ (Instr.clearFault ⟨[0, 6, 8], 0, true⟩).wellFormed = false ∧ (Instr.clearFault ⟨[0, 6, 4], 0, true⟩).wellFormed = true
    ∧ (Instr.clearWake ⟨[0, 6, 2], 0, true⟩).wellFormed = false ∧ (Instr.clearWake ⟨[0, 6, 8], 0, true⟩).wellFormed = true
    ∧ (Instr.attnEnableWrite ⟨[0, 9, 2], 0, true⟩).wellFormed = false
    ∧ (Instr.attnEnableWrite ⟨[0, 8, 2], 0, true⟩).wellFormed = true
    ∧ (Instr.droppedRegisterWrite ⟨[0, 8, 0], 0, true⟩).wellFormed = false
    ∧ (Instr.droppedRegisterWrite ⟨[0, 0, 1], 0, true⟩).wellFormed = true := by decide

theorem test_refusesUnfinishedByteInRegisterWrites :
    (Instr.softReset ⟨[0, 2, 1], 8, true⟩).wellFormed = false ∧ (Instr.clearOverflow ⟨[0, 6, 2], 8, true⟩).wellFormed = false
    ∧ (Instr.clearFault ⟨[0, 6, 4], 8, true⟩).wellFormed = false ∧ (Instr.clearWake ⟨[0, 6, 8], 8, true⟩).wellFormed = false
    ∧ (Instr.attnEnableWrite ⟨[0, 8, 2], 8, true⟩).wellFormed = false
    ∧ (Instr.droppedRegisterWrite ⟨[], 8, true⟩).wellFormed = false := by decide

theorem test_acceptsTransactionsInProgress :
    (Instr.softReset ⟨[0, 2], 3, false⟩).wellFormed = true ∧ (Instr.clearFault ⟨[], 0, false⟩).wellFormed = true
    ∧ (Instr.attnEnableWrite ⟨[0], 8, false⟩).wellFormed = false := by decide

theorem test_refusesLongPayloads :
    ∀ message ∈ [Instr.hello 0 0, .demand 0 0, .release 0 0, .trouble 0 0, .note 0 0],
      (message (List.replicate 33 0)).wellFormed = false ∧ (message (List.replicate 32 0)).wellFormed = true := by decide

theorem test_refusesFramesThatAreNotTheirRow :
    (Instr.badCheckFrame 0 0 [] (frameCheck 0 [])).wellFormed = false
    ∧ (Instr.badCheckFrame 0 0 [] (frameCheck 0 [] + 1)).wellFormed = true
    ∧ (Instr.badCheckFrame 0 0x80 [] 0).wellFormed = false
    ∧ (Instr.invalidFrame 0 1 []).wellFormed = false ∧ (Instr.invalidFrame 0 6 []).wellFormed = true
    ∧ (Instr.invalidFrame 0 6 [0]).wellFormed = false
    ∧ (Instr.oversizeFrame 0 0x1000).wellFormed = false ∧ (Instr.oversizeFrame 0 0x1080).wellFormed = true
    ∧ (Instr.discardingEnd 0 24).wellFormed = false ∧ (Instr.discardingEnd 0 25).wellFormed = true := by decide +kernel

/-! ## States -/

/-- The part after reset, with the shelf in another state and the timers of bays and inputs run down. -/
def shelfIn (w : ShelfState) : State :=
  { State.reset with
    shelf := { State.reset.shelf with state := w, initTimer := none }
    supply := ⟨false, some 0, false⟩
    bays := State.reset.bays.map (fun y => { y with
      ctx := { y.ctx with phaseTimer := 0 }
      inputs := { y.inputs with presTimer := some 0, latchTimer := some 0 } }) }

/-- The part in INIT as its InitTimer expires. -/
def initDue (scope : ClearScope) : State :=
  { State.reset with shelf := { State.reset.shelf with initTimer := some 0, clearScope := scope } }

/-- The part with a transaction in progress. -/
def transacting (k : SpiKind) (bytes data : List Byte) (g : Option HeldGroup) : State :=
  setPort (.active ⟨k, bytes, data, g⟩) (shelfIn .run)

/-- Bay 15 changed, in a shelf in RUN. -/
def bay15 (f : Bay → Bay) : State := modBay 15 f (shelfIn .run)

/-- Bay 15 in a state. -/
def inState (w : BayState) : State := bay15 (Bay.inState w 0)

/-- Bay 15 in a state, with PG active. -/
def powered (w : BayState) : State :=
  bay15 (fun y => { y.inState w 0 with inputs := { y.inputs with pgLevel := true } })

/-- Bay 15 in a state, with another intent. -/
def intending (w : BayState) (f : Intent → Intent) : State :=
  modBay 15 (fun y => { y with ctx := { y.ctx with intent := f y.ctx.intent } }) (powered w)

/-- Bay 15 in a state, with another Link Engine. -/
def linked (w : BayState) (f : LinkEngine → LinkEngine) : State :=
  modBay 15 (fun y => { y with link := f y.link }) (inState w)

/-- Bay 15 in a state, taking a frame on a BOUND link. -/
def hearing (w : BayState) : State := linked w (fun l => { l with linkState := .bound, lineState := .receiving })

/-- A message in flight that waits for its ACK. -/
def waiting (e : TxEntry) (attempts : Nat) : InFlight := ⟨e, 5, attempts, .awaitingAck, some 0⟩

/-- The queue with a Start of bay 15. -/
def withStart (s : State) : State := setQueue [⟨15, .start, 450, 2, 22, false⟩] s

/-- The queue with a Raise of bay 15. -/
def withRaise (s : State) : State := setQueue [⟨15, .raise, 1, 0, 0, false⟩] s

/-- The next state of a command. -/
def after (c : Instr) (s : State) : State :=
  match exec c s with
  | .next t => t
  | .fault _ => s
  | .refused _ => s

/-! ## Single steps -/

theorem test_resetReadsAsZero :
    State.reset.shelf.state = .init ∧ State.reset.windowByte 0x11 = 0 ∧ State.reset.register 4 = 0
    ∧ State.reset.attnAsserted = false := by decide +kernel

theorem test_idIsRead : (after (.registerRead ⟨[0, 0, 0, 0, 0], 0, true⟩) State.reset).miso = [0, 0, 0, 0, 0x10, 0x16] := by
  decide +kernel

theorem test_initEndsInHeld :
    (after .initTimerExpiry (initDue .whole)).shelf.state = .held
    ∧ (after .initTimerExpiry (initDue .whole)).register 4 = 3
    ∧ (after .initTimerExpiry (initDue .whole)).attnPending.journal = true
    ∧ after .initTimerExpiry State.reset = State.reset := by decide +kernel

theorem test_noWordSpellsACommand : decodeTableWord 8 0x80 = none := rfl

theorem test_transactionsAreDecoded :
    transactionOf [0x00, 0x01, 0x00, 7] 0 true = .windowWrite ⟨[0x01, 0x00, 7], 0, true⟩
    ∧ transactionOf [0x80, 0x10, 0x00] 3 false = .windowRead ⟨[0x10, 0x00], 3, false⟩
    ∧ transactionOf [0xC0, 0, 4, 0, 0] 0 true = .registerRead ⟨[0, 4, 0, 0], 0, true⟩
    ∧ transactionOf [0x40, 0, 2, 1] 0 true = .softReset ⟨[0, 2, 1], 0, true⟩
    ∧ transactionOf [0x40, 0, 6, 8] 0 true = .clearWake ⟨[0, 6, 8], 0, true⟩
    ∧ transactionOf [0x40, 0, 8, 15] 0 true = .attnEnableWrite ⟨[0, 8, 15], 0, true⟩
    ∧ transactionOf [0x41, 5] 0 true = .unknownCommand (some 0x41) ⟨[5], 0, true⟩
    ∧ transactionOf [] 5 false = .unknownCommand none ⟨[], 5, false⟩ := by decide

/-- CSn falls, the part is reset before the command byte is complete, and the rest of the transaction is not taken. -/
theorem test_fullResetAbandonsFromTheFallOfCSn :
    (after (.unknownCommand none ⟨[], 5, false⟩) (shelfIn .run)).port = .selected
    ∧ (after (.unknownCommand none ⟨[], 5, false⟩) (shelfIn .run)).misoDriven = true
    ∧ (after .fullReset (after (.unknownCommand none ⟨[], 5, false⟩) (shelfIn .run))).port = .ignoring := by decide +kernel

/-- The record a bay of chapter 11 commits: Target ON, Priority 2, Cap 500. -/
def record : List Byte :=
  [1, 0, 1, 0, 2, 0, 0, 2, 0xF4, 1, 0xF4, 1, 0x64, 0, 0xF4, 1, 40, 100, 10]

/-- A window that holds bay 15's record and a shelf record of Mode RUN with Budget 1400. -/
def filled : Memory :=
  Memory.writeBytes (Memory.writeBytes [] 0 [1, 20, 0x78, 5, 0, 0, 0xE8, 3, 10, 25, 1, 0, 0, 0, 0, 1]) (intentAddr 15 0) record

theorem test_acceptsRecords :
    firstFailure (bayTests (setWindow filled (shelfIn .held)) 15) = none
    ∧ firstFailure (shelfTests (setWindow filled (shelfIn .held))) = none := by decide +kernel

theorem test_readsRecords :
    (setWindow filled (shelfIn .held)).windowIntent 15 = {
      target := .on, lamp := .auto, priority := 2, cap := 500, blind := false, latchSensed := false, rampWindow := 500
      settleDelay := 100, drainWait := 40, dischargeWindow := 500, restInterval := 100, faultFilter := 10, retryLimit := 2 }
    ∧ (setWindow filled (shelfIn .held)).windowContext = {
      mode := .run, budget := 1400, reserve := 0, lowBudget := 1000, quiesceDeadline := 20, holdoff := 10
      blinkHalfPeriod := 25, wakeEnable := true } := by decide +kernel

theorem test_shelfCommitRuns :
    (commitShelf (setWindow filled (shelfIn .held))).shelf.state = .run
    ∧ (commitShelf (setWindow filled (shelfIn .held))).pool.effectiveBudget = 1400 := by decide +kernel

/-- The journal of 11.4 before its step 1. -/
def ring (head : Nat) (stamp : Byte) : State :=
  { shelfIn .run with
    journal := { Journal.reset with head := head, tail := 64, stamp := stamp }
    attnPending := ⟨true, false, false, false⟩ }

theorem test_appendsStateRecord :
    (submit (.state 0 .off .queued .commit false) (ring 4032 100)).journal.head = 4048
    ∧ (submit (.state 0 .off .queued .commit false) (ring 4032 100)).journal.free = 112
    ∧ Memory.readBytes (submit (.state 0 .off .queued .commit false) (ring 4032 100)).window 0x1FC0 12
      = [3, 2, 0, 100, 0, 0, 0, 0, 1, 3, 1, 0] := by decide +kernel

theorem test_padsBeforeTheRingEnds :
    (submit (.note 0 (List.replicate 30 7)) (ring 4072 102)).journal.head = 40
    ∧ (submit (.note 0 (List.replicate 30 7)) (ring 4072 102)).journal.headWrap = true
    ∧ Memory.readBytes (submit (.note 0 (List.replicate 30 7)) (ring 4072 102)).window 0x1FE8 4 = [1, 3, 255, 102]
    ∧ Memory.readBytes (submit (.note 0 (List.replicate 30 7)) (ring 4072 102)).window 0x1000 4 = [7, 5, 0, 103] := by
  decide +kernel

/-- Bay `b` in ON with a charge, Priority, AdmissionStamp and LinkState, as 11.2 gives them. -/
def charged (b : BayId) (w : BayState) (charge priority : Nat) (stamp : BitVec 32) (link : LinkState) (s : State) : State :=
  setCharge b charge (modBay b (fun y => { y with
    ctx := { y.ctx with
      state := w, phaseTimer := 0, admissionStamp := stamp
      intent := { y.ctx.intent with priority := priority, drainWait := 40, dischargeWindow := 500 } }
    inputs := { y.inputs with pgLevel := true }
    link := { y.link with linkState := link } }) s)

/-- The shelf of 11.2. -/
def degraded : State :=
  setQueue [⟨12, .start, 1100, 1, 20, false⟩, ⟨14, .start, 200, 3, 21, false⟩]
    (charged 0 .on 400 0 10 .bound (charged 3 .on 300 2 14 .bound (charged 5 .on 350 2 17 .bound
      (charged 8 .settle 500 3 19 .bound (charged 9 .on 250 1 12 .lost (charged 12 .queued 0 1 0 .bound
        (charged 14 .queued 0 3 0 .bound
          { shelfIn .run with
            pool := { Pool.reset false with budget := 2000, reserve := 100, lowBudget := 1100, effectiveBudget := 1900 }
            supply := ⟨true, some 0, false⟩ })))))))

theorem test_supplyDegradeSheds :
    (after .supplyLowConfirmed degraded).pool.effectiveBudget = 1000
    ∧ (after .supplyLowConfirmed degraded).pool.committed = 1800
    ∧ (after .supplyLowConfirmed degraded).poweredSum = 900
    ∧ [0, 3, 5, 8, 9, 12, 14].map (fun b => (after .supplyLowConfirmed degraded).stateOf b)
      = [.on, .drain, .drain, .settle, .cutoff, .off, .queued] := by decide +kernel

theorem test_readTakesGroupsAsNeeded :
    (after (.windowRead ⟨[0, 0x10, 0, 0], 0, false⟩) (shelfIn .held)).port
      = .active ⟨.windowRead, [0, 0x10, 0, 0], [0], some ⟨2, [0, 1, 0, 0, 0, 0, 0, 0]⟩⟩
    ∧ (after (.windowRead ⟨[0, 0x10, 0, 0, 0], 0, true⟩) (setShelfState .run
        (after (.windowRead ⟨[0, 0x10, 0, 0], 0, false⟩) (shelfIn .held)))).miso = [0, 0, 0, 0, 0, 1] := by decide +kernel

/-- A data byte that has begun shows the group as it stood before, whatever falls within the byte. -/
theorem test_readTakesGroupAsItsByteBegins :
    (after (.windowRead ⟨[0, 0x10, 0], 0, false⟩) (shelfIn .held)).port = .active ⟨.windowRead, [0, 0x10, 0], [], none⟩
    ∧ (after (.windowRead ⟨[0, 0x10, 0], 1, false⟩) (shelfIn .held)).port
      = .active ⟨.windowRead, [0, 0x10, 0], [], some ⟨2, [0, 1, 0, 0, 0, 0, 0, 0]⟩⟩
    ∧ (after (.windowRead ⟨[0, 0x11, 0, 0], 0, true⟩) (setShelfState .run
        (after (.windowRead ⟨[0, 0x11, 0], 1, false⟩) (shelfIn .held)))).miso = [0, 0, 0, 0, 1] := by decide +kernel

theorem test_refusedHelloCarriesWhatItReaches :
    (helloFields [2, 9, 8]).moduleClass = 2 ∧ (helloFields [2, 9, 8]).identity = [9, 8, 0, 0, 0, 0, 0, 0]
    ∧ (helloFields [2, 9, 8]).linkRevision = 0 := by decide

theorem test_wakeRecord :
    (Record.wake 3 .latch 0x8008).body = [WakeSource.latch.code, 0, 8, 0x80].map byteOf
    ∧ (Record.wake 3 .latch 0x8008).length = 16 := by decide +kernel

theorem test_snapshotRecord :
    ((charged 15 .settle 450 2 0 .bound (shelfIn .run)).snapshot 0x8000).body
      = [0, 0x80, 1, 0, 0, 0, 0, 0] ++ [15, 5, 2, 0, 0xC2, 1, 0, 0, 0, 0, 0x18, 0, 0, 0, 0, 0] := by decide +kernel

/-- A DEMAND of bay 15 with a HoldFigure. -/
def demandFor (hold : Nat) : Instr := .demand 15 0 [0, 0, byteOf hold, byteOf (hold / 256)]

/-- A HELD shelf with an EffectiveBudget of 500, bay 15 in SETTLE, BOUND, with a charge of 450, a GrantedHold of 250 and a Cap
of 500, another bay's Start at the head of the queue, and commands that wait. -/
def aboutToSettle (commands : List Instr) : State :=
  (setQueue [⟨3, .start, 100, 0, 7, false⟩] (setEffective 500 (setCharge 15 450 (modBay 15 (fun y => { y with
    ctx := { y.ctx with intent := { y.ctx.intent with target := .on, cap := 500 } }
    link := { y.link with linkState := .bound, lineState := .receiving }
    grantedHold := 250 }) (setShelfState .held (powered .settle)))))).withPending commands

/-- R13, R47, first row: with Pending clear the charge becomes GrantedHold, also where a DEMAND comes next. -/
theorem test_settleChargesGrantedHold :
    ∀ hold ∈ [249, 250, 251, 450, 451],
      ((after (.settleExpiry 15) (aboutToSettle [demandFor hold])).bay 15).charge = 250 := by decide +kernel

/-- R112: also in HELD and behind another bay's entry, a HoldFigure at or below the SETTLE charge becomes the charge, and a
higher one leaves GrantedHold. A DEMAND after time has passed waits as a Raise (R49, R56). -/
theorem test_demandTogetherGivesTheCharge :
    [249, 250, 251, 450, 451].map (fun hold =>
        ((after (demandFor hold) (after (.settleExpiry 15) (aboutToSettle []))).bay 15).charge)
      = [249, 250, 251, 450, 250]
    ∧ ((after (demandFor 450) (tick (after (.settleExpiry 15) (aboutToSettle [])))).bay 15).charge = 250 := by decide +kernel

/-! ## Witnesses: steps, resets, Manager Port -/

theorem witness_StepRunsFrontCommand : ((shelfIn .run).withPending [.fullReset]).pending = .fullReset :: [] := rfl

theorem witness_EmptyQueueLetsTimePass :
    State.reset.pending = [] ∧ State.reset.timeBase < 950 ∧ { State.reset with timeBase := 950 }.pending = [] := by decide

theorem witness_SoftResetResetsBlocks :
    State.reset.takes .registerWrite ⟨[0, 2, 1], 0, true⟩ ∧ (setPort .selected State.reset).takes .registerWrite ⟨[0, 2, 1], 0, true⟩
    ∧ (transacting .registerWrite [0, 2] [] none).takes .registerWrite ⟨[0, 2, 1], 0, true⟩
    ∧ writesSoftReset ⟨[0, 2, 1], 0, true⟩ = true
    ∧ Instr.softReset ⟨[0, 2, 1], 0, true⟩ ∈ registerWriteRows ⟨[0, 2, 1], 0, true⟩
    ∧ Instr.droppedRegisterWrite ⟨[0, 2, 1], 0, true⟩ ∈ registerWriteRows ⟨[0, 2, 1], 0, true⟩ := by
  refine ⟨Or.inl rfl, Or.inr (Or.inl rfl), Or.inr (Or.inr ⟨_, rfl, rfl, ⟨[1], rfl⟩⟩), ?_⟩
  decide

theorem witness_RegisterWriteTakesItsBits :
    State.reset.takes .registerWrite ⟨[0, 8, 15], 0, true⟩
    ∧ (transacting .registerWrite [0] [] none).takes .registerWrite ⟨[0, 8, 15], 0, true⟩
    ∧ writesSoftReset ⟨[0, 8, 15], 0, true⟩ = false
    ∧ Instr.attnEnableWrite ⟨[0, 8, 15], 0, true⟩ ∈ registerWriteRows ⟨[0, 8, 15], 0, true⟩
    ∧ writtenEnable ⟨[0, 8, 15], 0, true⟩ = some 15 ∧ writtenEnable ⟨[0, 6, 15], 0, true⟩ = none
    ∧ writesWake ⟨[0, 6, 8], 0, true⟩ = true ∧ writesWake ⟨[0, 7, 8], 0, true⟩ = false
    ∧ writesOverflow ⟨[0, 5, 0, 2], 0, true⟩ = true ∧ writesFault ⟨[0, 6, 4], 0, true⟩ = true
    ∧ writesSoftReset ⟨[0, 1, 0, 1], 0, true⟩ = true ∧ writesSoftReset ⟨[0, 3, 1], 0, true⟩ = false := by
  refine ⟨Or.inl rfl, Or.inr (Or.inr ⟨_, rfl, rfl, ⟨[8, 15], rfl⟩⟩), ?_⟩
  decide

theorem witness_TransactionsWithoutEffect :
    State.reset.port = .idle ∧ (setPort .selected State.reset).port = .selected ∧ [0, 0, 0].length ≤ 3
    ∧ (transacting .windowRead [0x10, 0, 0] [] none).port = .active ⟨.windowRead, [0x10, 0, 0], [], none⟩
    ∧ (transacting .registerRead [0, 0, 0, 0] [0x10] (some ⟨0, [0x10, 0x16]⟩)).port
      = .active ⟨.registerRead, [0, 0, 0, 0], [0x10], some ⟨0, [0x10, 0x16]⟩⟩
    ∧ (256 * (0 : Byte).toNat + (0 : Byte).toNat + 1) / 2 = 0
    ∧ (transacting .windowRead [0, 0, 0, 0, 0] [0, 0] (some ⟨1, []⟩)).port
      = .active ⟨.windowRead, [0, 0, 0, 0, 0], [0, 0], some ⟨1, []⟩⟩ ∧ 1 ≠ (256 * (0 : Byte).toNat + (0 : Byte).toNat + 2) / 8
    ∧ spiKindOf 0x41 = .unknown ∧ spiKindOf 0x01 = .unknown ∧ State.reset.shelf.state = .init
    ∧ windowCollected ⟨[0x20, 0, 1], 0, true⟩ = [] ∧ windowCollected ⟨[0x1F, 0xFF, 1, 1], 0, true⟩ = [(0x1FFF, 1)]
    ∧ (transacting .windowWrite [0] [] none).port = .active ⟨.windowWrite, [0], [], none⟩
    ∧ (setPort .ignoring (shelfIn .run)).port = .ignoring := by decide

theorem witness_TransactionsAreTaken :
    State.reset.takes .unknown ⟨[], 0, true⟩ ∧ State.reset.takes .windowWrite ⟨[0, 0, 1], 0, true⟩
    ∧ (setPort .selected State.reset).takes .unknown ⟨[], 0, true⟩ ∧ ([0] : List Byte) <+: [0, 1]
    ∧ ([0x10, 0, 0] : List Byte) <+: [0x10, 0, 0] :=
  ⟨Or.inl rfl, Or.inl rfl, Or.inr (Or.inl rfl), ⟨[1], rfl⟩, ⟨[], rfl⟩⟩

theorem witness_AttnEnableIsKept :
    exec (.presConfirmed 15) State.reset = .next (after (.presConfirmed 15) State.reset)
    ∧ Instr.presConfirmed 15 ≠ .fullReset ∧ ∀ tx, Instr.presConfirmed 15 ∉ registerWriteRows tx := by
  refine ⟨rfl, by decide, fun tx => ?_⟩
  unfold registerWriteRows
  simp

theorem witness_RegistersAndAttn :
    State.reset.misoDriven = false ∧ (setPort .selected State.reset).misoDriven = true
    ∧ (∀ w ∈ [BayState.ramp, .settle, .on, .drain], (inState w).enOutput 15 = true)
    ∧ ∀ w ∈ [BayState.empty, .off, .queued, .cutoff, .rest, .faulted], (inState w).enOutput 15 = false := by decide +kernel

theorem witness_WindowShowsOwners : ∀ w ∈ [ShelfState.held, .run, .quiescing, .standby], (shelfIn w).shelf.state ≠ .init := by
  decide

/-! ## Witnesses: window writes -/

theorem witness_WindowWriteLands :
    (shelfIn .run).windowOk ∧ (shelfIn .run).takes .windowWrite ⟨[0x04, 0xD2, 3, 1], 0, true⟩
    ∧ (shelfIn .run).shelf.state ≠ .init ∧ ¬((shelfIn .run).shelf.state = .quiescing ∧ (shelfIn .run).allComplete = true)
    ∧ windowCollected ⟨[0x04, 0xD2, 3, 1], 0, true⟩ = [(intentAddr 15 0x12, 3), (intentAddr 15 0x13, 1)]
    ∧ (shelfIn .run).landing (intentAddr 15 0x12) 3 = .lands ∧ (shelfIn .run).landing (intentAddr 15 0x13) 1 = .dropped
    ∧ ∀ c ∈ windowCollected ⟨[0x04, 0xD2, 3, 1], 0, true⟩,
      ((shelfIn .run).landing c.1 c.2 = .lands ∨ (shelfIn .run).landing c.1 c.2 = .dropped) ∧ isCommit c.1 = false
      ∧ c.1 ≠ 0x0E ∧ isSlotStatus c.1 = false := by
  refine ⟨?_, Or.inl rfl, ?_⟩
  · unfold State.windowOk
    decide +kernel
  · decide +kernel

/-- The ends of the window and of the address space, a transaction without a whole address, and addresses that differ. -/
theorem witness_WindowWriteCollects :
    windowCollected ⟨[0x1F, 0xFE, 1, 2, 3], 0, true⟩ = [(0x1FFE, 1), (0x1FFF, 2)]
    ∧ windowCollected ⟨[0x20, 0x00, 1], 0, true⟩ = [] ∧ windowCollected ⟨[0xFF, 0xFF, 1, 2], 0, true⟩ = []
    ∧ writtenAt (windowCollected ⟨[0x1F, 0xFE, 1, 2, 3], 0, true⟩) 0x1FFF = some 2
    ∧ writtenAt (windowCollected ⟨[0x1F, 0xFE, 1, 2, 3], 0, true⟩) 0x1FFD = none
    ∧ windowCollected ⟨[0x1F], 4, true⟩ = [] ∧ Memory.wf filled
    ∧ ((windowCollected ⟨[0x1F, 0xFE, 1, 2, 3], 0, true⟩).map Prod.fst).Nodup := by
  decide +kernel

theorem witness_WindowWriteDiscarded :
    (inState .on).takes .windowWrite ⟨[0x04, 0xC4, 3, 1], 0, true⟩
    ∧ discards (inState .on) (windowCollected ⟨[0x04, 0xC4, 3, 1], 0, true⟩)
      = [(intentAddr 15 4, .locked), (intentAddr 15 5, .locked)]
    ∧ (discards (inState .on) (windowCollected ⟨[0x04, 0xC4, 3, 1], 0, true⟩)).length
      = (windowCollected ⟨[0x04, 0xC4, 3, 1], 0, true⟩).length
    ∧ (inState .on).shelf.state ≠ .init
    ∧ ¬((inState .on).shelf.state = .quiescing ∧ (inState .on).allComplete = true) := by
  refine ⟨Or.inl rfl, ?_⟩
  decide +kernel

theorem witness_WindowWriteHandsOver :
    (shelfIn .run).takes .windowWrite ⟨[0x04, 0xC2, 1], 0, true⟩ ∧ (shelfIn .run).shelf.state ≠ .init
    ∧ 256 * (0x01 : Byte).toNat + (0x02 : Byte).toNat = intentAddr 0 2
    ∧ 256 * (0x04 : Byte).toNat + (0xC2 : Byte).toNat = intentAddr 15 2
    ∧ 256 * (0x00 : Byte).toNat + (0x0F : Byte).toNat = 0x0F ∧ 256 * (0x00 : Byte).toNat + (0x0E : Byte).toNat = 0x0E
    ∧ 256 * (0x00 : Byte).toNat + (0x48 : Byte).toNat = 0x48
    ∧ 256 * (0x07 : Byte).toNat + (0xD0 : Byte).toNat = outboxAddr 15 0 ∧ (1 : Byte).toNat ≤ 1
    ∧ ((shelfIn .run).bay 15).dialogue.slotStatus ≠ .sending
    ∧ windowCollected ⟨[0x00, 0x0E, 1, 1], 0, true⟩ = [(0x0E, 1), (0x0F, 1)] := by
  refine ⟨Or.inl rfl, ?_⟩
  decide +kernel

theorem witness_ProtectionMap :
    (inState .on).landing (intentAddr 15 4) 0 = .discarded .locked
    ∧ (inState .on).landing (intentAddr 15 0x12) 0 = .discarded .locked
    ∧ (inState .off).landing (intentAddr 15 0x12) 0 = .lands ∧ (inState .on).landing (intentAddr 15 3) 0 = .discarded .partOwned
    ∧ (inState .on).landing (intentAddr 15 0x13) 0 = .dropped ∧ (inState .on).landing (intentAddr 15 63) 0 = .dropped
    ∧ (inState .on).landing (outboxAddr 15 0) 2 = .discarded .statusValue ∧ (inState .on).landing (outboxAddr 15 0x21) 2 = .lands
    ∧ (inState .on).landing (outboxAddr 15 0x22) 2 = .dropped
    ∧ (inState .on).landing 0x0F 0 = .lands ∧ (inState .on).landing 0x10 0 = .discarded .partOwned
    ∧ (inState .on).landing 0x18 0 = .discarded .partOwned ∧ (inState .on).landing 0x19 0 = .dropped
    ∧ (inState .on).landing 0x1B 0 = .discarded .partOwned ∧ (inState .on).landing 0x1C 0 = .dropped
    ∧ (inState .on).landing 0x47 0 = .discarded .partOwned ∧ (inState .on).landing 0x48 0 = .heldBack
    ∧ (inState .on).landing 0x4A 0 = .heldBack ∧ (inState .on).landing 0x4B 0 = .dropped
    ∧ (inState .on).landing 0xDF 0 = .discarded .partOwned ∧ (inState .on).landing 0xE0 0 = .dropped
    ∧ (inState .on).landing 0x9FF 0 = .discarded .partOwned ∧ (inState .on).landing 0xA00 0 = .dropped
    ∧ (inState .on).landing 0x1FFF 0 = .discarded .partOwned := by
  decide +kernel

theorem witness_CommitRefused :
    (shelfIn .run).windowOk ∧ firstFailure (bayTests (shelfIn .run) 15) = some ⟨.zero, 2, 0⟩
    ∧ firstFailure (shelfTests (shelfIn .run)) = some ⟨.zero, 0x0F, 0⟩ := by
  unfold State.windowOk
  decide +kernel

theorem witness_BayCommitAccepted :
    firstFailure (bayTests (setWindow filled (inState .on)) 15) = none
    ∧ entriesOf (setWindow filled (inState .on)).queue 0 = []
    ∧ ((setWindow filled (inState .on)).intentOf 15).cap ≠ ((setWindow filled (inState .on)).windowIntent 15).cap
    ∧ ((setWindow filled (inState .on)).intentOf 15).faultFilter = 0
    ∧ ((setWindow filled (inState .on)).windowIntent 15).faultFilter = 10
    ∧ ((setWindow filled (inState .on)).bay 15).inputs.fltLevel = false
    ∧ (Memory.read filled 0x4D2).toNat = 10 := by decide +kernel

theorem witness_TargetTaken :
    ((intending .rest (fun i => { i with target := .on })).intentOf 15).target = .on
    ∧ (intending .off (fun i => { i with target := .on })).stateOf 15 = .off
    ∧ (intending .cutoff (fun i => { i with target := .cut })).stateOf 15 ∈ [.empty, .off, .rest, .cutoff]
    ∧ (intending .drain (fun i => { i with target := .off })).stateOf 15 ∈ [.ramp, .settle, .drain]
    ∧ ((intending .ramp (fun i => { i with target := .cut })).intentOf 15).target = .cut
    ∧ (intending .on (fun i => { i with target := .off })).stateOf 15 = .on
    ∧ queueEntryOf (withStart (inState .queued)).queue 15 = some ⟨15, .start, 450, 2, 22, false⟩
    ∧ (withStart (inState .queued)).stateOf 15 = .queued ∧ ((withStart (inState .queued)).intentOf 15).target ≠ .on
    ∧ ((powered .faulted).bay 15).inputs.pgLevel = true ∧ ((inState .faulted).bay 15).inputs.pgLevel = false := by
  decide +kernel

/-- The shelf with a record to commit of a Mode. -/
def committing (w : ShelfState) (mode : Byte) : State := setWindow (Memory.write filled 0 mode) (shelfIn w)

theorem witness_ShelfCommitAccepted :
    (∀ w ∈ [ShelfState.held, .run, .standby], ∀ m ∈ [(0 : Byte), 1, 2],
      firstFailure (shelfTests (committing w m)) = none ∧ (committing w m).shelf.state = w)
    ∧ (committing .held 0).windowContext.mode = .hold ∧ (committing .held 1).windowContext.mode = .run
    ∧ (committing .held 2).windowContext.mode = .quiesce := by decide +kernel

/-- Boundary candidates of the table of R142: position 4160 empties the journal, 72 with wrap 1 passes Head. -/
def nearlyEmpty : State :=
  { shelfIn .run with journal := { Journal.reset with head := 64, headWrap := true, tail := 4064 } }

/-- A snapshot of every bay waits in a journal with 4032 bytes unread. -/
def nearlyFull : State :=
  { shelfIn .run with
    journal := { Journal.reset with headWrap := true, tail := 64, waitingSnapshot := some ((shelfIn .run).snapshot 0xFFFF) } }

theorem witness_TailWriteTaken :
    nearlyEmpty.journal.positionsOk ∧ nearlyEmpty.journal.waitingSnapshot = none ∧ nearlyEmpty.journal.unread = 96
    ∧ (64 + 4096 * 1 + 8192 - (nearlyEmpty.journal.tail + if nearlyEmpty.journal.tailWrap then 4096 else 0)) % 8192 = 96
    ∧ (72 + 4096 * 1 + 8192 - (nearlyEmpty.journal.tail + if nearlyEmpty.journal.tailWrap then 4096 else 0)) % 8192 = 104
    ∧ nearlyEmpty.journal.tailValid 64 1 = true ∧ nearlyEmpty.journal.tailValid 4064 0 = true
    ∧ nearlyEmpty.journal.tailValid 0 1 = true ∧ nearlyEmpty.journal.tailValid 0 0 = false
    ∧ nearlyEmpty.journal.tailValid 72 1 = false ∧ nearlyEmpty.journal.tailValid 4 1 = false
    ∧ nearlyFull.journal.positionsOk ∧ nearlyFull.journal.waitingSnapshot = some ((shelfIn .run).snapshot 0xFFFF)
    ∧ nearlyFull.journal.tailValid 72 0 = true ∧ nearlyFull.journal.tailValid 2048 0 = true
    ∧ (after (.windowWrite ⟨[0, 0x48, 72], 0, true⟩) nearlyFull).journal.waitingSnapshot.isSome = true
    ∧ (after (.windowWrite ⟨[0, 0x48, 0, 8], 0, true⟩) nearlyFull).journal.waitingSnapshot = none := by
  unfold Journal.positionsOk
  decide +kernel

theorem witness_SnapshotTaken :
    (shelfIn .run).shelf.snapStatus = .idle ∧ ((ring 4032 0).snapshot 0x8001).length = 48
    ∧ (ring 4032 0).journal.fits ((ring 4032 0).snapshot 0x8001).length = true
    ∧ (ring 4032 0).journal.fits ((ring 4032 0).snapshot 0xFFFF).length = false
    ∧ (modShelf (fun h => { h with snapStatus := .pending }) (shelfIn .run)).shelf.snapStatus = .pending
    ∧ (ring 4032 0).windowOk ∧ (ring 4032 0).journal.positionsOk ∧ (ring 4032 0).journal.padLength 80 = 64
    ∧ { (ring 64 0).journal with overflow := true, lost := 1 }.fits 272 = true := by
  unfold State.windowOk Journal.positionsOk
  decide +kernel

/-- Bay 15's slot with a Length, in a status. -/
def slotted (n : Byte) (st : SlotStatus) (w : LinkState) : State :=
  setWindow (Memory.writeBytes [] (outboxAddr 15 1) [n])
    (modBay 15 (fun y => { y with dialogue := { y.dialogue with slotStatus := st }, link := { y.link with linkState := w } })
      (shelfIn .run))

theorem witness_OutboxHandedOver :
    ((slotted 33 .free .bound).bay 15).dialogue.slotStatus ∈ [.free, .sent, .failed, .abandoned]
    ∧ 32 < (slotted 33 .abandoned .bound).slotLength 15 ∧ (slotted 32 .free .lost).slotLength 15 ≤ 32
    ∧ ((slotted 32 .free .lost).bay 15).link.linkState ≠ .bound
    ∧ ((slotted 32 .free .bound).bay 15).link.linkState = .bound
    ∧ txListed .parcel ((slotted 32 .free .bound).bay 15).link.txList = false
    ∧ inFlightIs .parcel ((slotted 32 .free .bound).bay 15).link = false
    ∧ txListed .parcel ((modLink 15 (fun l => { l with txList := [.parcel []] }) (slotted 32 .free .bound)).bay 15).link.txList
      = true
    ∧ inFlightIs .parcel ((modLink 15 (fun l => { l with inFlight := some (waiting (.parcel []) 1) })
      (slotted 32 .free .bound)).bay 15).link = true
    ∧ (∀ n ∈ [(0 : Byte), 32, 33], ((slotted n .posted .bound).bay 15).dialogue.slotStatus = .posted
      ∧ ((slotted n .posted .bound).bay 15).link.linkState = .bound
      ∧ txListed .parcel ((slotted n .posted .bound).bay 15).link.txList = false
      ∧ inFlightIs .parcel ((slotted n .posted .bound).bay 15).link = false ∧ (slotted n .posted .bound).slotLength 15 = n.toNat)
    ∧ ((slotted 0 .sent .bound).bay 15).dialogue.slotStatus ≠ .sending := by decide +kernel

/-! ## Witnesses: inputs -/

/-- Bay 15 in a state, with other inputs. -/
def sensing (w : BayState) (f : BayInputs → BayInputs) : State :=
  modBay 15 (fun y => { y with inputs := f y.inputs }) (inState w)

theorem witness_StableFilters :
    (shelfIn .run).shelf.state ≠ .init ∧ ((shelfIn .run).bay 15).inputs.presTimer = some 0
    ∧ ((shelfIn .run).bay 15).inputs.presPin = ((shelfIn .run).bay 15).inputs.presConfirmed
    ∧ ((shelfIn .run).bay 15).inputs.latchTimer = some 0
    ∧ ((shelfIn .run).bay 15).inputs.latchPin = ((shelfIn .run).bay 15).inputs.latchConfirmed
    ∧ (shelfIn .run).supply.timer = some 0 ∧ (shelfIn .run).supply.pin = (shelfIn .run).supply.confirmed := by
  decide +kernel

theorem witness_PresenceConfirmed :
    ∀ w ∈ [BayState.empty, .rest], (sensing w (fun i => { i with presPin := true })).shelf.state ≠ .init
    ∧ ((sensing w (fun i => { i with presPin := true })).bay 15).inputs.presTimer = some 0
    ∧ ((sensing w (fun i => { i with presPin := true })).bay 15).inputs.presPin = true
    ∧ ((sensing w (fun i => { i with presPin := true })).bay 15).inputs.presConfirmed = false
    ∧ ((sensing w (fun i => { i with presPin := true })).bay 15).link.linkState = .detached
    ∧ (sensing w (fun i => { i with presPin := true })).stateOf 15 = w := by decide +kernel

/-- A bay in a state from which its module is withdrawn, with a parcel in its slot or none. -/
def leavingBay (w : BayState) (st : SlotStatus) : State :=
  modBay 15 (fun y => { y with
    inputs := { y.inputs with presConfirmed := true }, dialogue := { y.dialogue with slotStatus := st } }) (hearing w)

theorem witness_RemovalConfirmed :
    ∀ w ∈ [BayState.empty, .rest, .off, .queued, .ramp, .settle, .on, .drain, .cutoff, .faulted],
      ∀ st ∈ [SlotStatus.free, .posted, .sending],
      (leavingBay w st).shelf.state ≠ .init ∧ ((leavingBay w st).bay 15).inputs.presTimer = some 0
      ∧ ((leavingBay w st).bay 15).inputs.presPin = false ∧ ((leavingBay w st).bay 15).inputs.presConfirmed = true
      ∧ (leavingBay w st).stateOf 15 = w ∧ ((leavingBay w st).bay 15).link.linkState ≠ .detached
      ∧ ((leavingBay w st).parcelToAbandon 15).isSome = (st != .free) := by decide +kernel

/-- A bay whose latch has opened, with a LatchSensed. -/
def opened (w : BayState) (sensed : Bool) : State :=
  modBay 15 (fun y => { y with
    inputs := { y.inputs with latchConfirmed := true }
    ctx := { y.ctx with intent := { y.ctx.intent with latchSensed := sensed } } }) (inState w)

theorem witness_LatchConfirmed :
    (∀ w ∈ [BayState.empty, .on, .ramp, .settle, .queued, .faulted], ∀ sensed,
      (opened w sensed).shelf.state ≠ .init ∧ ((opened w sensed).bay 15).inputs.latchTimer = some 0
      ∧ ((opened w sensed).bay 15).inputs.latchPin ≠ ((opened w sensed).bay 15).inputs.latchConfirmed
      ∧ ((opened w sensed).bay 15).inputs.latchPin = false ∧ ((opened w sensed).intentOf 15).latchSensed = sensed
      ∧ (opened w sensed).stateOf 15 = w)
    ∧ ((sensing .off (fun i => { i with latchPin := true })).bay 15).inputs.latchPin
      ≠ ((sensing .off (fun i => { i with latchPin := true })).bay 15).inputs.latchConfirmed := by decide +kernel

/-- The shelf of 11.2 with other pool figures and no queue. -/
def supplied (effective low : Nat) : State :=
  setQueue [] { degraded with pool := { degraded.pool with effectiveBudget := effective, lowBudget := low } }

/-- The shelf of 11.2 as its fall has set the EffectiveBudget. -/
def fallen : State := { degraded with pool := { degraded.pool with supplyLow := true, effectiveBudget := 1000, arrivalCounter := 22 } }

theorem witness_SupplyLowConfirmed :
    degraded.supply.timer = some 0 ∧ degraded.supply.pin ≠ degraded.supply.confirmed
    ∧ derivedBudget { (supplied 1900 2000).pool with supplyLow := true } = (supplied 1900 2000).pool.effectiveBudget
    ∧ (supplied 1800 2000).pool.effectiveBudget < derivedBudget { (supplied 1800 2000).pool with supplyLow := true }
    ∧ derivedBudget { (supplied 1900 1900).pool with supplyLow := true } = 1800 ∧ (supplied 1900 1900).poweredSum = 1800
    ∧ shedList (modPool (fun p => { p with effectiveBudget := 1800 }) (supplied 1900 1900)) = []
    ∧ derivedBudget fallen.pool = 1000 ∧ fallen.poweredSum = 1800 ∧ shedList fallen ++ [0, 8] = [5, 3, 9, 0] ++ [8]
    ∧ (∀ b ∈ ([5, 3, 9, 0, 8] : List BayId), (fallen.pool.arrivalCounter - (fallen.bay b).ctx.admissionStamp).toNat < 2147483648)
    ∧ (refusalList (shedAll (shedList fallen) fallen)).map (fun r => (r.1.bay, r.2)) = [(12, 1)]
    ∧ degraded.stateOf 12 = .queued := by decide +kernel

/-- Bay 15 in a state with FLT asserted, and the tick that brings FltTicks to the threshold. -/
def flagged (w : BayState) : State := sensing w (fun i => { i with fltPin := true, fltTickDue := true })

theorem witness_FaultFilter :
    faultThreshold ((inState .on).intentOf 15) = 1 ∧ ((inState .on).bay 15).inputs.fltTicks = 0
    ∧ (true && ((inState .on).bay 15).inputs.fltTicks == 1) = ((inState .on).bay 15).inputs.fltLevel
    ∧ ((sensing .off (fun i => { i with fltLevel := true })).bay 15).inputs.fltLevel = true
    ∧ ((sensing .on (fun i => { i with fltTicks := 1 })).bay 15).inputs.fltTicks = 1
    ∧ ((flagged .on).bay 15).inputs.fltTicks + 1 = 1
    ∧ (withRaise (flagged .on)).leaving 15 .withdrawn = [.admission 15 .raise .withdrawn 1 1 false 0]
    ∧ (flagged .on).leaving 15 .withdrawn = []
    ∧ ∀ w ∈ [BayState.empty, .faulted, .ramp, .drain, .on, .queued],
      (flagged w).stateOf 15 = w ∧ ((flagged w).bay 15).inputs.fltPin = true ∧ (flagged w).shelf.state ≠ .init
        ∧ ((flagged w).bay 15).inputs.fltTickDue = true := by
  decide +kernel

/-- FLT asserted in ON: a tick of 50 µs leaves the count as it is, a tick of the 100 µs base makes the last count due, and
only then is the fault confirmed. -/
def asserted (timeBase : Nat) : State := { sensing .on (fun i => { i with fltPin := true }) with timeBase := timeBase }

theorem test_faultIsConfirmedByItsTick :
    after (.faultConfirmed 15) (asserted 0) = asserted 0
    ∧ ((tick (asserted 0)).bay 15).inputs.fltTickDue = false ∧ ((tick (asserted 50)).bay 15).inputs.fltTickDue = true
    ∧ ((tick (asserted 50)).bay 15).inputs.fltTicks = 0
    ∧ (after (.faultConfirmed 15) (tick (asserted 50))).stateOf 15 = .faulted
    ∧ (after (.faultConfirmed 15) (after (.fltEdge 15 false) (tick (asserted 50)))).stateOf 15 = .on := by decide +kernel

theorem witness_PowerGoodRises :
    ∀ w ∈ [BayState.ramp, .empty, .on], ((inState w).bay 15).inputs.pgLevel = false ∧ (inState w).stateOf 15 = w := by
  decide +kernel

theorem witness_PowerGoodFalls :
    (∀ w ∈ [BayState.empty, .ramp, .settle, .drain, .on, .cutoff, .faulted],
      ((powered w).bay 15).inputs.pgLevel = true ∧ (powered w).stateOf 15 = w)
    ∧ (withRaise (powered .on)).leaving 15 .withdrawn = [.admission 15 .raise .withdrawn 1 1 false 0]
    ∧ ((powered .faulted).bay 15).ctx.clearRequested = false
    ∧ ((modCtx 15 (fun c => { c with clearRequested := true }) (powered .faulted)).bay 15).ctx.clearRequested = true := by
  decide +kernel

/-! ## Witnesses: timers -/

/-- The part in INIT, with a parcel owed to bay 15 and a rest period of 0 for it. -/
def restless : State :=
  modBay 15 (fun y => { y with ctx := { y.ctx with phaseTimer := 0 }, owedParcel := some ⟨4, 1⟩ }) (initDue .partOwned)

theorem witness_InitEnds :
    (initDue .whole).shelf.state = .init ∧ (initDue .whole).shelf.initTimer = some 0
    ∧ restless.shelf.state = .init ∧ restless.shelf.initTimer = some 0 ∧ restless.shelf.clearScope = .partOwned
    ∧ (∀ b, (initDue .whole).stateOf b = .rest ∧ ((initDue .whole).bay b).inputs.presConfirmed = false)
    ∧ (∀ b, restless.stateOf b = .rest ∧ (restless.bay b).inputs.presConfirmed = false)
    ∧ (restless.bay 15).ctx.phaseTimer = 0 ∧ (restless.bay 0).ctx.phaseTimer = 400000
    ∧ (restless.bay 15).owedParcel = some ⟨4, 1⟩ := by decide +kernel

theorem witness_FaultedByTimer :
    (inState .ramp).stateOf 15 = .ramp ∧ ((inState .ramp).bay 15).inputs.pgLevel = false
    ∧ ((inState .ramp).bay 15).ctx.phaseTimer = 0 ∧ ((powered .cutoff).bay 15).ctx.phaseTimer = 0
    ∧ (powered .cutoff).stateOf 15 = .cutoff ∧ ((powered .cutoff).bay 15).inputs.pgLevel = true := by decide +kernel

/-- A bay in SETTLE with a pending demand, a charge and a LinkState. -/
def settling (target : Target) (hold charge : Nat) (link : LinkState) : State :=
  setCharge 15 charge (modBay 15 (fun y => { y with
    ctx := { y.ctx with
      pending := true, demand := some ⟨hold, hold, false⟩, intent := { y.ctx.intent with target := target } }
    link := { y.link with linkState := link } }) (powered .settle))

theorem witness_SettleEnds :
    (∀ l ∈ [LinkState.bound, .lost], ∀ charge ∈ [299, 300],
      (settling .on 300 charge l).stateOf 15 = .settle ∧ ((settling .on 300 charge l).bay 15).ctx.phaseTimer = 0
      ∧ drainAtOn (settling .on 300 charge l) 15 = none ∧ ((settling .on 300 charge l).bay 15).ctx.pending = true
      ∧ ((settling .on 300 charge l).bay 15).ctx.demand = some ⟨300, 300, false⟩
      ∧ ((settling .on 300 charge l).bay 15).charge = charge ∧ ((settling .on 300 charge l).bay 15).link.linkState = l)
    ∧ drainAtOn (settling .off 300 300 .bound) 15 = some .target ∧ drainAtOn (settling .cut 300 300 .bound) 15 = some .target
    ∧ ((settling .off 300 300 .bound).bay 15).ctx.demand = some ⟨300, 300, false⟩
    ∧ ((intending .settle (fun i => { i with target := .on })).bay 15).ctx.pending = false
    ∧ ((intending .settle (fun i => { i with target := .on })).bay 15).ctx.phaseTimer = 0
    ∧ drainAtOn (intending .settle (fun i => { i with target := .on })) 15 = none
    ∧ ((powered .settle).bay 15).ctx.pending = false ∧ drainAtOn (powered .settle) 15 = some .target := by decide +kernel

theorem witness_SettleEnds_inEitherOrder :
    ∀ x ∈ [aboutToSettle [], setQueue [] (setShelfState .run (aboutToSettle []))],
      x.stateOf 15 = .settle ∧ (x.bay 15).ctx.phaseTimer = 0 ∧ drainAtOn x 15 = none ∧ entriesOf x.queue 15 = []
      ∧ x.canHear 15 ∧ x.isNew 15 0 ∧ (x.bay 15).link.linkState = .bound ∧ (x.shelf.state = .held ∨ x.queue = [])
      ∧ (x.bay 15).charge ≤ x.pool.committed ∧ x.pool.committed ≤ x.pool.effectiveBudget
      ∧ 450 = min (x.intentOf 15).cap ((0xC2 : Byte).toNat + 256 * (1 : Byte).toNat) ∧ 450 ≤ (x.bay 15).charge
      ∧ 451 = min (x.intentOf 15).cap ((0xC3 : Byte).toNat + 256 * (1 : Byte).toNat) ∧ (x.bay 15).charge < 451
      ∧ (x.bay 15).ctx.pending = false ∧ (x.bay 15).grantedHold ≤ (x.bay 15).charge ∧ 451 ≤ x.pool.effectiveBudget := by
  unfold State.canHear State.isNew
  decide +kernel

theorem witness_PowerDown :
    (∀ w ∈ [BayState.ramp, .settle, .on, .drain],
      (intending w (fun i => { i with dischargeWindow := 1 })).stateOf 15 = w
      ∧ ((intending w (fun i => { i with dischargeWindow := 1 })).bay 15).inputs.pgLevel = true
      ∧ ((intending w (fun i => { i with dischargeWindow := 1 })).intentOf 15).dischargeWindow ≠ 0
      ∧ ((inState w).bay 15).inputs.pgLevel = false ∧ (inState w).stateOf 15 = w)
    ∧ ((inState .drain).bay 15).ctx.phaseTimer = 0 ∧ (withRaise (inState .on)).leaving 15 .withdrawn ≠ []
    ∧ ((inState .on).bay 15).link.linkState ≠ .bound ∧ ((hearing .on).bay 15).link.linkState = .bound
    ∧ ((hearing .on).intentOf 15).drainWait = 0
    ∧ ((modLink 15 (fun l => { l with linkState := .bound }) (intending .on (fun i => { i with drainWait := 1 }))).bay 15).link.linkState
      = .bound
    ∧ ((intending .on (fun i => { i with drainWait := 1 })).intentOf 15).drainWait ≠ 0 := by decide +kernel

theorem witness_RestEnds :
    (shelfIn .run).stateOf 15 = .rest ∧ ((shelfIn .run).bay 15).ctx.phaseTimer = 0 ∧ (shelfIn .run).shelf.state ≠ .init
    ∧ ((shelfIn .run).bay 15).inputs.presConfirmed = false
    ∧ (sensing .rest (fun i => { i with presConfirmed := true })).stateOf 15 = .rest
    ∧ ((sensing .rest (fun i => { i with presConfirmed := true })).bay 15).inputs.presConfirmed = true := by decide +kernel

/-- A shelf in QUIESCING with its deadline run down, bay 15 in a state with or without PG. -/
def quiescing (w : BayState) (pg : Bool) : State :=
  modBay 15 (fun y => { y with
    ctx := { y.ctx with state := w, intent := { y.ctx.intent with dischargeWindow := 1 } }
    inputs := { y.inputs with pgLevel := pg } })
    (modShelf (fun h => { h with deadlineTimer := some 0 }) (shelfIn .quiescing))

theorem witness_QuiesceDeadline :
    ∀ w ∈ [BayState.ramp, .settle, .on, .drain], ∀ pg, (quiescing w pg).shelf.state = .quiescing
      ∧ (quiescing w pg).shelf.deadlineTimer = some 0 ∧ (quiescing w pg).stateOf 15 = w
      ∧ ((quiescing w pg).bay 15).inputs.pgLevel = pg ∧ ((quiescing w pg).intentOf 15).dischargeWindow ≠ 0
      ∧ (quiescing w pg).stateOf 0 ∉ [.ramp, .settle, .on, .drain] := by decide +kernel

/-- A shelf in RUN whose blink timer has some µs left, in phase Lit, with its midpoint passed. -/
def blinking (n : Nat) : State := modShelf (fun h => { h with blink := ⟨true, 500, some n, true⟩ }) (shelfIn .run)

theorem witness_ShelfTimers :
    (modJournal (fun j => { j with holdoffTimer := some 0 }) (shelfIn .run)).journal.holdoffTimer = some 0
    ∧ (blinking 0).shelf.blink.remaining = some 0 ∧ (blinking 0).shelf.context.blinkHalfPeriod = 0
    ∧ (blinking 250000).shelf.blink.remaining = some 250000 ∧ 2 * 250000 ≤ (blinking 250000).shelf.blink.length * 1000
    ∧ (blinking 250050).shelf.blink.remaining = some 250050 ∧ (blinking 250050).shelf.blink.length * 1000 < 2 * 250050
    ∧ (shelfIn .standby).shelf.state ∈ [.init, .standby] ∧ (shelfIn .held).shelf.state ∈ [.held, .run, .quiescing]
    ∧ (∀ l ∈ [LampMode.auto, .off, .on, .blink], ((intending .on (fun i => { i with lamp := l })).intentOf 15).lamp = l)
    ∧ ∀ w ∈ [BayState.empty, .ramp, .on, .faulted], (inState w).stateOf 15 = w ∧ ((inState w).intentOf 15).lamp = .auto := by
  decide +kernel

/-! ## Witnesses: the bay link -/

/-- A link that drives a frame, with a message in flight or an ACK. -/
def driving (m : Option InFlight) : State :=
  linked .on (fun l => { l with
    linkState := .bound, lineState := .transmitting, txFrame := some (ackFrame 1), inFlight := m, pendingAck := some 1 })

/-- A message being sent. -/
def sent (attempts : Nat) : InFlight := ⟨.probe, 5, attempts, .sending, none⟩

theorem witness_LinkTimersAndCollisions :
    ((linked .on (fun l => { l with linkState := .lost, linkTimer := some 0 })).bay 15).link.linkState = .lost
    ∧ ((linked .on (fun l => { l with linkState := .lost, linkTimer := some 0 })).bay 15).link.linkTimer = some 0
    ∧ ((linked .on (fun l => { l with inFlight := some (waiting .probe 0) })).bay 15).link.inFlight
      = some (waiting .probe 0)
    ∧ (waiting .probe 0).attempts ≤ ((linked .on (fun l => { l with inFlight := some (waiting .probe 0) })).intentOf 15).retryLimit
    ∧ (waiting .probe 0).ackTimer = some 0
    ∧ ((driving (some (sent 0))).bay 15).link.inFlight = some (sent 0) ∧ (sent 0).phase = .sending
    ∧ (sent 0).attempts ≤ ((driving (some (sent 0))).intentOf 15).retryLimit
    ∧ ((driving (some (sent 0))).bay 15).link.lineState = .transmitting
    ∧ ((driving (some (sent 0))).bay 15).link.txFrame.isSome = true
    ∧ ((driving none).bay 15).link.inFlight = none ∧ ((driving none).bay 15).link.txFrame.isSome = true := by
  decide +kernel

/-- A link whose message has used its attempts up. -/
def failing (w : BayState) (l : LinkState) (e : TxEntry) (list : List TxEntry) : State :=
  linked w (fun k => { k with linkState := l, inFlight := some (waiting e 1), txList := list })

theorem witness_MessageFails :
    (∀ l ∈ [LinkState.lost, .bound, .unbound], ∀ w ∈ [BayState.on, .drain, .queued],
      ((failing w l .probe []).bay 15).link.inFlight = some (waiting .probe 1)
      ∧ ((failing w l .probe []).bay 15).link.linkState = l ∧ (failing w l .probe []).stateOf 15 = w
      ∧ ((failing w l .probe []).intentOf 15).retryLimit < (waiting .probe 1).attempts
      ∧ ((failing w l .probe []).intentOf 15).blind = false
      ∧ txListed .parcel ((failing w l .probe []).bay 15).link.txList = false)
    ∧ (waiting .probe 1).ackTimer = some 0 ∧ (waiting .probe 1).entry.slot ≠ .parcel
    ∧ (waiting (.parcel []) 1).entry.slot = .parcel
    ∧ txListed .parcel ((failing .on .bound .probe [.parcel []]).bay 15).link.txList = true
    ∧ txListed .parcel ((failing .on .bound (.parcel []) []).bay 15).link.txList = false
    ∧ ((driving (some (sent 1))).bay 15).link.inFlight = some (sent 1) ∧ (sent 1).phase = .sending
    ∧ ((driving (some (sent 1))).intentOf 15).retryLimit < (sent 1).attempts
    ∧ ((driving (some (sent 1))).bay 15).link.lineState = .transmitting
    ∧ ((driving (some (sent 1))).bay 15).link.txFrame.isSome = true := by decide +kernel

/-- A link free to drive. -/
def free (f : LinkEngine → LinkEngine) : State := linked .on (fun l => f { l with linkState := .bound, idleTime := 150 })

theorem witness_PartSends :
    ((free (fun l => { l with txList := [.probe] })).bay 15).link.txList = [.probe]
    ∧ ((free (fun l => { l with txList := [.probe] })).bay 15).link.linkState ≠ .detached
    ∧ ((free (fun l => { l with txList := [.probe] })).bay 15).link.lineState = .idle
    ∧ 150 ≤ ((free (fun l => { l with txList := [.probe] })).bay 15).link.idleTime
    ∧ ((free (fun l => { l with txList := [.probe] })).bay 15).link.inFlight = none
    ∧ ((free (fun l => { l with txList := [.probe] })).bay 15).link.pendingAck = none
    ∧ ((free (fun l => { l with inFlight := some { waiting .probe 1 with phase := .awaitingResend } })).bay 15).link.inFlight
      = some { waiting .probe 1 with phase := .awaitingResend }
    ∧ ((free (fun l => { l with pendingAck := some 7 })).bay 15).link.pendingAck = some 7
    ∧ ((free (fun l => { l with idleTime := 149 })).bay 15).link.idleTime < 150
    ∧ ((driving (some (sent 1))).bay 15).link.lineState = .transmitting
    ∧ ((driving (some (sent 1))).bay 15).link.inFlight = some (sent 1)
    ∧ ((driving none).bay 15).link.lineState = .transmitting ∧ ((driving none).bay 15).link.inFlight = none
    ∧ (TxEntry.parcel (List.replicate 32 0)).payload.length ≤ 32 := by decide +kernel

theorem witness_ReceptionsWithoutMessage :
    ((inState .on).bay 15).link.linkState = .detached
    ∧ ((linked .on (fun l => { l with linkState := .lost })).bay 15).link.linkState ≠ .detached
    ∧ ((linked .on (fun l => { l with linkState := .lost })).bay 15).link.lineState = .idle
    ∧ ((linked .on (fun l => { l with lineState := .discarding })).bay 15).link.lineState = .discarding ∧ 24 < 25
    ∧ ((linked .on (fun l => { l with lineState := .transmitting })).bay 15).link.lineState = .transmitting
    ∧ ((linked .on (fun l => { l with lineState := .transmitting })).bay 15).link.txFrame = none
    ∧ ((linked .on (fun l => { l with lineHigh := false })).bay 15).link.lineState = .idle
    ∧ ((linked .on (fun l => { l with lineHigh := false })).bay 15).link.lineHigh = false
    ∧ (hearing .on).canHear 15 ∧ frameCheck 0x11 [] ≠ 0
    ∧ (0x2000 : BitVec 16).extractLsb' 13 3 ≠ 0 ∧ 5 < ((6 : BitVec 16).extractLsb' 0 4).toNat
    ∧ (0x80 : BitVec 16).extractLsb' 0 4 = 0 ∧ (0x80 : BitVec 16).extractLsb' 7 6 ≠ 0
    ∧ 32 < ((0x1080 : BitVec 16).extractLsb' 7 6).toNat
    ∧ ((linked .on (fun l => { l with counters := ⟨127, 0, 0, 0⟩ })).bay 15).link.counters.get .badCheck = 127
    ∧ ((linked .on (fun l => { l with counters := ⟨127, 0, 0, 0⟩ })).bay 15).link.reported.get .badCheck = false
    ∧ ((linked .on (fun l => { l with counters := ⟨255, 0, 0, 0⟩ })).bay 15).link.counters.get .badCheck + 1 ≠ 128 := by
  unfold State.canHear
  decide +kernel

theorem witness_AckCompletes :
    (hearing .on).canHear 15 ∧ ((hearing .on).bay 15).link.inFlight = none
    ∧ ((modLink 15 (fun l => { l with inFlight := some (waiting .probe 1) }) (hearing .on)).bay 15).link.inFlight
      = some (waiting .probe 1)
    ∧ (waiting .probe 1).sequence = 5 ∧ (waiting .probe 1).phase ≠ .sending ∧ (waiting .probe 1).entry.slot ≠ .parcel
    ∧ (waiting (.parcel []) 1).entry.slot = .parcel := by
  unfold State.canHear
  decide +kernel

theorem witness_TransmitList :
    (TxEntry.probe).slot ≠ .prepare ∧ ([TxEntry.limit 1, .wait 1, .prepare 0 .shed, .parcel [], .probe].map TxEntry.slot).Nodup := by
  decide

/-! ## Witnesses: module messages -/

theorem witness_MessagesOweAck :
    (hearing .on).canHear 15 ∧ (hearing .on).isNew 15 0
    ∧ ¬(modLink 15 (fun l => { l with filterValid := true }) (hearing .on)).isNew 15 0
    ∧ ((hearing .on).bay 15).link.linkState = .bound
    ∧ (linked .on (fun l => { l with linkState := .lost, lineState := .receiving })).canHear 15
    ∧ ((linked .on (fun l => { l with linkState := .lost, lineState := .receiving })).bay 15).link.linkState ≠ .bound
    ∧ Instr.note 15 0 [] ≠ .hello 15 0 [] := by
  unfold State.canHear State.isNew
  decide +kernel

/-- A HELLO payload. -/
def greeting : List Byte := [2, 1, 2, 3, 4, 5, 6, 7, 8, 1]

/-- Bay 15 taking a frame on a link in a LinkState. -/
def hearingOn (l : LinkState) : State := linked .on (fun k => { k with linkState := l, lineState := .receiving })

theorem witness_Hello :
    (∀ l ∈ [LinkState.unbound, .bound, .lost], (hearingOn l).canHear 15 ∧ (hearingOn l).isNew 15 0
      ∧ ((hearingOn l).bay 15).link.linkState = l)
    ∧ greeting.length = 10 ∧ (byteAt greeting 0).toNat ≤ 2
    ∧ byteAt greeting 9 = 1 ∧ ¬(([] : List Byte).length = 10 ∧ (byteAt [] 0).toNat ≤ 2 ∧ byteAt [] 9 = 1)
    ∧ txListed .parcel ((hearing .on).bay 15).link.txList = false
    ∧ txListed .parcel ((modLink 15 (fun l => { l with txList := [.parcel []] }) (hearing .on)).bay 15).link.txList = true
    ∧ (after (.hello 15 0 []) (hearingOn .lost)).journal.head = 24 := by
  unfold State.canHear State.isNew
  decide +kernel

theorem witness_DemandUnknown :
    (∀ w ∈ [BayState.empty, .faulted, .ramp, .settle, .queued], (inState w).stateOf 15 = w)
    ∧ ((inState .queued).intentOf 15).blind = false
    ∧ ((intending .queued (fun i => { i with blind := true })).intentOf 15).blind = true := by decide +kernel

theorem witness_Demand :
    (∀ w ∈ [BayState.empty, .off, .queued, .ramp, .settle, .on, .faulted], (hearing w).canHear 15 ∧ (hearing w).isNew 15 0
      ∧ ((hearing w).bay 15).link.linkState = .bound ∧ (hearing w).stateOf 15 = w)
    ∧ ([0xC2, 1, 0x2C, 1] : List Byte).length = 4 ∧ ([] : List Byte).length ≠ 4
    ∧ ((hearing .on).bay 15).charge = 0
    ∧ ((modBay 15 (fun y => { y with ctx := { y.ctx with intent := { y.ctx.intent with cap := 1 } } }) (hearing .on)).bay 15).charge
      < min 1 300 := by
  unfold State.canHear State.isNew
  decide +kernel

/-- A bay in OFF that may start, on its Demand or Blind, with a Cap and an EffectiveBudget. -/
def startable (d : Option Demand) (cap budget : Nat) : State :=
  modPool (fun p => { p with effectiveBudget := budget }) (modBay 15 (fun y => { y with
    ctx := { y.ctx with demand := d, intent := { y.ctx.intent with target := .on, blind := true, cap := cap } }
    inputs := { y.inputs with presConfirmed := true }
    link := { y.link with linkState := .bound } }) (inState .off))

/-- Entries of two classes, in order, with Arrivals across the counter's wrap. -/
def classes : List QueueEntry := [⟨3, .start, 1, 0, 7, false⟩, ⟨4, .start, 1, 2, 0xFFFFFFFF, false⟩, ⟨5, .start, 1, 4, 6, false⟩]

theorem witness_RequestsToTheQueue :
    (startable (some ⟨450, 300, false⟩) 500 450).stateOf 15 = .off ∧ (startable (some ⟨450, 300, false⟩) 500 450).startOk 15 = true
    ∧ ((startable (some ⟨450, 300, false⟩) 500 450).bay 15).ctx.demand = some ⟨450, 300, false⟩
    ∧ ((startable none 500 450).bay 15).ctx.demand = none ∧ (startable none 500 450).startOk 15 = true
    ∧ (startable none 500 450).pool.effectiveBudget < 500 ∧ 500 ≤ (startable none 500 500).pool.effectiveBudget
    ∧ (inState .off).startOk 15 = false ∧ (setShelfState .held (startable none 500 500)).startOk 15 = false ∧ (withStart (inState .queued)).stateOf 15 = .queued
    ∧ (withStart (inState .queued)).pool.effectiveBudget < 1 ∧ 0 ≤ (withStart (inState .queued)).pool.effectiveBudget
    ∧ ((inState .on).bay 15).charge < 1 ∧ 1 ≤ (startable none 500 1).pool.effectiveBudget
    ∧ (inState .on).pool.effectiveBudget < 1
    ∧ (queueEntryOf (withRaise (startable none 500 1)).queue 15).isSome = true
    ∧ queueEntryOf (startable none 500 1).queue 15 = none
    ∧ ((modBay 15 (fun y => { y with settledFrom := some 1 }) (startable none 500 1)).bay 15).settledFrom = some 1
    ∧ (startable none 500 1).pool.committed + (1 - ((startable none 500 1).bay 15).charge) ≤ (startable none 500 1).pool.effectiveBudget
    ∧ ((startable none 500 1).bay 15).settledFrom = none
    ∧ queueOrdered classes
    ∧ (∀ x ∈ classes, x.priority = 2 → 1 ≤ (0 - x.arrival).toNat ∧ (0 - x.arrival).toNat < 2147483648)
    ∧ (queueInsert ⟨15, .start, 1, 2, 0, false⟩ classes).map (fun e => e.bay) = [3, 4, 15, 5]
    ∧ (∀ x ∈ ([] : List QueueEntry), x.bay ≠ (15 : BayId)) := by
  unfold queueOrdered
  decide +kernel

theorem witness_Release :
    ∀ w ∈ [BayState.drain, .on, .cutoff], (hearing w).canHear 15 ∧ (hearing w).isNew 15 0
      ∧ ((hearing w).bay 15).link.linkState = .bound ∧ (hearing w).stateOf 15 = w := by
  unfold State.canHear State.isNew
  decide +kernel

theorem witness_Trouble :
    (∀ w ∈ [BayState.off, .cutoff, .ramp, .drain, .queued, .on], (hearing w).canHear 15 ∧ (hearing w).isNew 15 0
      ∧ ((hearing w).bay 15).link.linkState = .bound ∧ (hearing w).stateOf 15 = w)
    ∧ 1 ≤ (1 : Byte).toNat ∧ (3 : Byte).toNat ≤ 3
    ∧ ¬(([4, 0, 0] : List Byte).length = 3 ∧ 1 ≤ (byteAt [4, 0, 0] 0).toNat ∧ (byteAt [4, 0, 0] 0).toNat ≤ 3) := by
  unfold State.canHear State.isNew
  decide +kernel

theorem witness_NotesAndWakeEvents :
    (hearing .on).canHear 15 ∧ (hearing .on).isNew 15 0 ∧ ((hearing .on).bay 15).link.linkState = .bound
    ∧ (shelfIn .standby).shelf.state = .standby ∧ (shelfIn .run).shelf.state ≠ .standby := by
  unfold State.canHear State.isNew
  decide +kernel

/-! ## Witnesses: journal, end of an event, invariants -/

theorem witness_JournalSubmission :
    (ring 4072 102).windowOk ∧ (ring 4072 102).journal.positionsOk
    ∧ (Record.note 0 (List.replicate 30 7)).length = 40 ∧ (ring 4072 102).journal.padLength 40 = 24
    ∧ (ring 4072 102).journal.gapLength + 24 + 40 + 8 ≤ (ring 4072 102).journal.free
    ∧ (ring 4072 102).journal.waitingSnapshot = none ∧ nearlyFull.journal.waitingSnapshot.isSome = true
    ∧ (Record.note 0 (List.replicate 32 7)).length ≤ 272
    ∧ 8 + (Record.note 0 (List.replicate 32 7)).body.length ≤ 48 ∧ 8 + (Record.state 0 .on .drain .shed false).body.length ≤ 16
    ∧ { (ring 4072 102).journal with head := 40, headWrap := true }.free = 24
    ∧ { (ring 4072 102).journal with head := 56, headWrap := true, overflow := true, lost := 1 }.free < 8 + 0 + 16 + 8
    ∧ { (ring 4072 102).journal with overflow := true, lost := 1 }.padLength 40 = 16 := by
  unfold State.windowOk Journal.positionsOk
  decide +kernel

/-- A shelf in RUN with one entry at the head and room for it, PG active or not, and a SettleDelay. -/
def headed (k : EntryKind) (w : BayState) (pg : Bool) (delay : Nat) : State :=
  setQueue [⟨15, k, 450, 2, 22, false⟩] (modPool (fun p => { p with effectiveBudget := 450 }) (modBay 15 (fun y => { y with
    ctx := { y.ctx with
      demand := some ⟨450, 300, false⟩, intent := { y.ctx.intent with rampWindow := 1, settleDelay := delay } }
    inputs := { y.inputs with pgLevel := pg } }) (inState w)))

theorem witness_HeadIsEvaluated :
    (∀ pg, ∀ delay ∈ [0, 1], headThatFits (headed .start .queued pg delay) = some ⟨15, .start, 450, 2, 22, false⟩
      ∧ (headed .start .queued pg delay).stateOf 15 = .queued ∧ ((headed .start .queued pg delay).bay 15).charge = 0
      ∧ ((headed .start .queued pg delay).bay 15).inputs.pgLevel = pg
      ∧ ((headed .start .queued pg delay).intentOf 15).rampWindow ≠ 0
      ∧ ((headed .start .queued pg delay).intentOf 15).settleDelay = delay
      ∧ ((headed .start .queued pg delay).bay 15).ctx.basis = .demand
      ∧ ((headed .start .queued pg delay).bay 15).ctx.demand = some ⟨450, 300, false⟩)
    ∧ ((modCtx 15 (fun c => { c with basis := .blind }) (headed .start .queued true 0)).bay 15).ctx.basis = .blind
    ∧ headThatFits (headed .raise .on true 0) = some ⟨15, .raise, 450, 2, 22, false⟩
    ∧ headThatFits (shelfIn .run) = none ∧ (shelfIn .run).Undisturbed := by
  unfold State.Undisturbed
  decide +kernel

theorem witness_QuiesceRuns :
    (shelfIn .run).shelf.state ≠ .quiescing ∧ (inState .on).stateOf 15 ∉ [.empty, .off, .rest, .faulted]
    ∧ (withStart (inState .queued)).stateOf 15 = .queued ∧ (inState .drain).stateOf 15 ∉ [.queued, .on]
    ∧ (∀ w ∈ [BayState.empty, .off, .faulted], (quiescing w false).shelf.state = .quiescing
      ∧ ∀ b, (quiescing w false).stateOf b ∈ [.empty, .off, .rest, .faulted])
    ∧ [BayState.empty, .off, .rest, .faulted].map (fun w => finalOutcome ((quiescing w false).bay 15))
      = [.absent, .wasOff, .wasOff, .faulted] := by decide +kernel

theorem witness_StepKeepsCommittedSum :
    degraded.chargesOk ∧ step degraded = .next (tick degraded) := by
  refine ⟨?_, rfl⟩
  unfold State.chargesOk
  decide +kernel

theorem witness_StepKeepsJournal :
    (ring 4072 102).windowOk ∧ (ring 4072 102).journal.positionsOk ∧ (ring 4072 102).journal.lossOk
    ∧ (ring 4072 102).snapshotOk ∧ step (ring 4072 102) = .next (tick (ring 4072 102)) := by
  refine ⟨?_, ?_, ?_, ?_, rfl⟩
  · unfold State.windowOk
    decide +kernel
  · unfold Journal.positionsOk
    decide +kernel
  · unfold Journal.lossOk
    decide +kernel
  · unfold State.snapshotOk
    decide +kernel

theorem witness_StepKeepsPoolAndInputs :
    State.reset.poolOk ∧ (∀ b, (State.reset.bay b).filterOk) ∧ (∀ b, (State.reset.bay b).timerOk)
    ∧ step State.reset = .next (tick State.reset) := by
  refine ⟨?_, ?_, ?_, rfl⟩
  · unfold State.poolOk
    decide +kernel
  · unfold Bay.filterOk
    decide +kernel
  · unfold Bay.timerOk
    decide +kernel

theorem witness_StepKeepsBaysAndQueue :
    (∀ b, State.reset.bayOk b) ∧ State.reset.initOk ∧ queueOrdered degraded.queue
    ∧ step State.reset = .next (tick State.reset) := by
  refine ⟨fun b => ?_, ?_, ?_, rfl⟩
  · have h : State.reset.stateOf b = .rest ∧ (State.reset.bay b).charge = 0 ∧ entriesOf State.reset.queue b = [] := by
      revert b
      decide +kernel
    have h1 : (State.reset.bay b).ctx.state = .rest := h.1
    unfold State.bayOk State.entriesOk Bay.chargeOk Bay.powerOk
    rw [h.1, h1]
    exact ⟨h.2.2, h.2.1, trivial⟩
  · unfold State.initOk
    decide +kernel
  · unfold queueOrdered
    decide +kernel

end Sys2Proof.Tests
end

/-! The transmit list (R91): how an entry is placed, what the placing leaves of the kinds that are listed, and
the statement O45. -/

namespace Sys2Proof.Machine

variable {e : TxEntry} {k : TxSlot} {l : List TxEntry}

/-! ## Kinds of entry -/

/-- PROBE is the one entry of its kind, so R91's "PROBE entries alone" can be read off the entry. -/
theorem slot_eq_probe_iff : e.slot = .probe ↔ e = .probe := by
  cases e <;> simp [TxEntry.slot]

theorem slot_eq_prepare_iff : e.slot = .prepare ↔ ∃ n r, e = .prepare n r := by
  cases e <;> simp [TxEntry.slot]

/-- A kind is listed when it is among the kinds of the list's entries. -/
theorem txListed_iff_mem_slots : txListed k l = true ↔ k ∈ l.map TxEntry.slot := by
  simp only [txListed, List.any_eq_true, List.mem_map, beq_iff_eq]

theorem inFlightIs_iff {link : LinkEngine} :
    inFlightIs k link = true ↔ ∃ m, link.inFlight = some m ∧ m.entry.slot = k := by
  unfold inFlightIs
  cases link.inFlight with
  | none => simp
  | some m => simp

/-! ## Replacing in place -/

theorem txReplace_eq_map (e : TxEntry) (l : List TxEntry) :
    txReplace e l = l.map (fun x => if x.slot = e.slot then e else x) := by
  simp only [txReplace, beq_iff_eq]

/-- A replacement has the kind of the entry it replaces, so the list keeps its kinds and their order. -/
@[simp] theorem map_slot_txReplace (e : TxEntry) (l : List TxEntry) :
    (txReplace e l).map TxEntry.slot = l.map TxEntry.slot := by
  rw [txReplace_eq_map, List.map_map]
  refine List.map_congr_left fun x _ => ?_
  by_cases h : x.slot = e.slot <;> simp [h]

/-! ## Placing -/

theorem placeEntry_eq_ite (b : BayId) (e : TxEntry) (s : State) :
    placeEntry b e s = if (s.bay b).link.linkState = .bound ∨ e = .probe then
      modBay b (fun y => { y with link := { y.link with txList := txPlace e y.link.txList } }) s else s := by
  by_cases h : (s.bay b).link.linkState = .bound ∨ e.slot = .probe
  · rw [placeEntry_eq b e s h, if_pos (h.imp_right slot_eq_probe_iff.mp)]
  · rw [if_neg fun taken => h (taken.imp_right slot_eq_probe_iff.mpr)]
    unfold placeEntry
    rw [if_neg h]

theorem txPlace_of_slot_ne_prepare (h : e.slot ≠ .prepare) :
    txPlace e l = if txListed e.slot l then txReplace e l else l ++ [e] := by
  cases e with
  | prepare n r => exact absurd rfl h
  | limit _ | grant _ _ | wait _ | parcel _ | probe => rfl

/-- A PREPARE meets the list without its ANSWER. -/
theorem txPlace_prepare (n : Nat) (r : DrainReason) {m : List TxEntry} (hm : m = l.filter (fun x => x.slot != .answer)) :
    txPlace (.prepare n r) l
      = if txListed .prepare m then txReplace (.prepare n r) m else .prepare n r :: m := by
  subst hm
  rfl

/-! ## At most one entry of each kind -/

theorem nodup_slots_concat (hl : (l.map TxEntry.slot).Nodup) (he : ¬txListed e.slot l) :
    ((l ++ [e]).map TxEntry.slot).Nodup := by
  have h := hl.concat (mt txListed_iff_mem_slots.mpr he)
  rwa [List.concat_eq_append, ← List.map_singleton, ← List.map_append] at h

theorem nodup_slots_cons (hl : (l.map TxEntry.slot).Nodup) (he : ¬txListed e.slot l) :
    ((e :: l).map TxEntry.slot).Nodup :=
  List.nodup_cons.mpr ⟨mt txListed_iff_mem_slots.mpr he, hl⟩

theorem nodup_slots_filter (p : TxEntry → Bool) (hl : (l.map TxEntry.slot).Nodup) :
    ((l.filter p).map TxEntry.slot).Nodup :=
  hl.sublist (List.filter_sublist.map TxEntry.slot)

/-- An entry replaces the one of its kind or joins where its kind is missing, so each kind stays listed once (R91). -/
theorem nodup_slots_txPlace (e : TxEntry) (hl : (l.map TxEntry.slot).Nodup) :
    ((txPlace e l).map TxEntry.slot).Nodup := by
  by_cases h : e.slot = .prepare
  · obtain ⟨n, r, rfl⟩ := slot_eq_prepare_iff.mp h
    have hm := nodup_slots_filter (fun x => x.slot != .answer) hl
    rw [txPlace_prepare n r rfl]
    split
    · rwa [map_slot_txReplace]
    · next unlisted => exact nodup_slots_cons hm unlisted
  · rw [txPlace_of_slot_ne_prepare h]
    split
    · rwa [map_slot_txReplace]
    · next unlisted => exact nodup_slots_concat hl unlisted

/-- Settles O45: each clause is the lemma above that says it of `placeEntry` or `txPlace`, and the kinds hold by definition. -/
theorem transmitList : Obligations.TransmitList := by
  refine ⟨fun s b e => placeEntry_eq_ite b e s, fun e l h => ?_, fun n r l m hm => ?_, fun _ _ _ => ⟨rfl, rfl⟩,
    fun _ _ _ _ => ⟨rfl, rfl, rfl, rfl⟩, fun _ _ => rfl, fun _ _ => inFlightIs_iff, fun e _ => nodup_slots_txPlace e⟩
  · rw [txPlace_of_slot_ne_prepare h, txReplace_eq_map]
    rfl
  · rw [txPlace_prepare n r hm, txReplace_eq_map]
    rfl

end Sys2Proof.Machine

/-! The validation of commits (R136): the first failing test of a list read as a chain of cases, what the codes and spans
of the fields allow, where the fields stand, and the statement O17. -/

namespace Sys2Proof.Machine

/-! ## The first test that fails -/

theorem firstFailure_nil : firstFailure [] = none := rfl

theorem firstFailure_cons (p : Bool) (f : CommitFailure) (l : List (Bool × CommitFailure)) :
    firstFailure ((p, f) :: l) = if p = true then some f else firstFailure l := by
  unfold firstFailure
  rw [List.find?_cons]
  cases p <;> rfl

/-- One test of a list as one case of a chain: the test fails just when the case holds, the case's failure is the test's
one where it holds, and the tests that follow are the rest of the chain. -/
theorem firstFailure_cons_eq_ite {p : Bool} {q : Prop} [Decidable q] {f g : CommitFailure}
    {l : List (Bool × CommitFailure)} {r : Option CommitFailure} (fails : p = true ↔ q) (names : q → f = g)
    (rest : firstFailure l = r) : firstFailure ((p, f) :: l) = if q then some g else r := by
  rw [firstFailure_cons]
  exact ite_congr (propext fails) (fun hq => congrArg some (names hq)) (fun _ => rest)

/-- A field refused for being 0 is named with the value 0. -/
theorem firstFailure_zero {n o : Nat} {why : RefuseReason} {l : List (Bool × CommitFailure)} {r : Option CommitFailure}
    (rest : firstFailure l = r) : firstFailure ((n == 0, ⟨why, o, n⟩) :: l) = if n = 0 then some ⟨why, o, 0⟩ else r :=
  firstFailure_cons_eq_ite beq_iff_eq (fun zero => by rw [zero]) rest

theorem firstFailure_lt {m n : Nat} {f : CommitFailure} {l : List (Bool × CommitFailure)} {r : Option CommitFailure}
    (rest : firstFailure l = r) : firstFailure ((decide (m < n), f) :: l) = if m < n then some f else r :=
  firstFailure_cons_eq_ite decide_eq_true_iff (fun _ => rfl) rest

/-! ## Codes and spans of the fields -/

theorem Target.isNone_ofCode_iff (n : Nat) : (Target.ofCode n).isNone = true ↔ 2 < n := by
  match n with
  | 0 | 1 | 2 => decide
  | n + 3 => exact iff_of_true rfl (by omega)

theorem LampMode.isNone_ofCode_iff (n : Nat) : (LampMode.ofCode n).isNone = true ↔ 3 < n := by
  match n with
  | 0 | 1 | 2 | 3 => decide
  | n + 4 => exact iff_of_true rfl (by omega)

theorem Mode.isNone_ofCode_iff (n : Nat) : (Mode.ofCode n).isNone = true ↔ 2 < n := by
  match n with
  | 0 | 1 | 2 => decide
  | n + 3 => exact iff_of_true rfl (by omega)

/-- A code is that of the one Mode it stands for, so ModeLocked can be tested on codes; a code of no Mode differs from
every Mode's. -/
theorem Mode.ofCode_eq_some_iff (n : Nat) (m : Mode) : Mode.ofCode n = some m ↔ n = m.code := by
  match n with
  | 0 | 1 | 2 => cases m <;> decide
  | n + 3 =>
    have code_le : m.code ≤ 2 := by cases m <;> decide
    exact iff_of_false (by simp [Mode.ofCode]) (by omega)

/-- A span that begins at 1 is left at 0 or above its end. -/
theorem outside_span_iff (n top : Nat) : (n == 0 || decide (top < n)) = true ↔ n < 1 ∨ top < n := by
  rw [Bool.or_eq_true, beq_iff_eq, decide_eq_true_iff, Nat.lt_one_iff]

theorem capZero_iff (cap target : Nat) : (cap == 0 && target == 1) = true ↔ cap = 0 ∧ target = 1 := by
  rw [Bool.and_eq_true, beq_iff_eq, beq_iff_eq]

theorem modeLocked_iff (s : State) (n : Nat) :
    (s.shelf.state == .quiescing && Mode.ofCode n != some s.shelf.context.mode) = true
      ↔ s.shelf.state = .quiescing ∧ n ≠ s.shelf.context.mode.code := by
  rw [Bool.and_eq_true, beq_iff_eq, bne_iff_ne, ne_eq, Mode.ofCode_eq_some_iff]

/-! ## Where the fields stand (R192) -/

theorem intentWord_eq_bytes (s : State) (b : BayId) (o : Nat) :
    s.intentWord b o = s.intentByte b o + 256 * s.intentByte b (o + 1) := rfl

theorem shelfByte_eq_read (s : State) (o : Nat) : s.shelfByte o = (Memory.read s.window o).toNat := by
  rw [State.shelfByte, shelfBase, Nat.zero_add]

theorem shelfWord_eq_bytes (s : State) (o : Nat) : s.shelfWord o = s.shelfByte o + 256 * s.shelfByte (o + 1) := rfl

/-- Settles O17: the tests of R136's tables are taken one by one as the cases of the chain. -/
theorem commitValidation : Obligations.CommitValidation := by
  refine ⟨fun s b o => ⟨rfl, intentWord_eq_bytes s b o, shelfByte_eq_read s o, shelfWord_eq_bytes s o⟩,
    fun s b => ?bay, fun s => ?shelf⟩
  case bay =>
    exact firstFailure_zero
      <| firstFailure_cons_eq_ite (Target.isNone_ofCode_iff _) (fun _ => rfl)
      <| firstFailure_cons_eq_ite (LampMode.isNone_ofCode_iff _) (fun _ => rfl)
      <| firstFailure_lt
      <| firstFailure_lt
      <| firstFailure_lt
      <| firstFailure_cons_eq_ite (outside_span_iff _ _) (fun _ => rfl)
      <| firstFailure_lt
      <| firstFailure_cons_eq_ite (outside_span_iff _ _) (fun _ => rfl)
      <| firstFailure_zero
      <| firstFailure_lt
      <| firstFailure_cons_eq_ite (capZero_iff _ _) (fun ⟨zero, _⟩ => by rw [zero])
      <| firstFailure_nil
  case shelf =>
    exact firstFailure_zero
      <| firstFailure_cons_eq_ite (Mode.isNone_ofCode_iff _) (fun _ => rfl)
      <| firstFailure_zero
      <| firstFailure_lt
      <| firstFailure_lt
      <| firstFailure_lt
      <| firstFailure_lt
      <| firstFailure_cons_eq_ite (modeLocked_iff s _) (fun _ => rfl)
      <| firstFailure_nil

end Sys2Proof.Machine

/-! STATUS and the window beside it (R191): the number that the STATUS register holds, its fields read off that number, the
two bytes of a register, and the statement O9. -/

namespace Sys2Proof.Machine

/-! ## Fields of a word -/

theorem bitOf_lt_two (p : Bool) : bitOf p < 2 := by
  cases p <;> decide

/-- The field of a word that begins at a bit, as the number it holds. -/
theorem toNat_extractLsb'_eq_div_mod {w : Nat} (x : BitVec w) (start len : Nat) :
    (x.extractLsb' start len).toNat = x.toNat / 2 ^ start % 2 ^ len := by
  rw [BitVec.extractLsb'_toNat, Nat.shiftRight_eq_div_pow]

/-- A field of one bit holds the flag that `bitOf` wrote there. -/
theorem getLsbD_eq_of_div_mod_eq_bitOf {w i : Nat} {x : BitVec w} {p : Bool} (h : x.toNat / 2 ^ i % 2 = bitOf p) :
    x.getLsbD i = p := by
  rw [← BitVec.testBit_toNat, Nat.testBit_eq_decide_div_mod_eq, h]
  cases p <;> rfl

/-! ## The two bytes of a register (10, section 10.2) -/

theorem registerByte_of_even (s : State) {a : Nat} (even : a % 2 = 0) :
    s.registerByte a = (s.register a).extractLsb' 0 8 := if_pos even

theorem registerByte_succ_of_even (s : State) {a : Nat} (even : a % 2 = 0) :
    s.registerByte (a + 1) = (s.register a).extractLsb' 8 8 := if_neg (by omega)

/-! ## STATUS (R191) -/

theorem ShelfState.initDone_eq_decide (w : ShelfState) : w.initDone = decide (w ≠ .init) := by
  cases w <;> rfl

/-- The code fits the three bits that STATUS gives it. -/
theorem ShelfState.code_lt_eight (w : ShelfState) : w.code < 8 := by
  cases w <;> decide

/-- STATUS holds its three fields side by side: none reaches into the next, and together they fill 5 of the 16 bits. -/
theorem toNat_register_status (s : State) : (s.register 4).toNat
    = bitOf (decide (s.shelf.state ≠ .init)) + 2 * s.shelf.state.code + 16 * bitOf s.supply.confirmed := by
  have done := bitOf_lt_two (decide (s.shelf.state ≠ .init))
  have code := s.shelf.state.code_lt_eight
  have low := bitOf_lt_two s.supply.confirmed
  show s.statusRegister.toNat = _
  rw [State.statusRegister, BitVec.toNat_ofNat, ShelfState.initDone_eq_decide, Nat.mod_eq_of_lt (by omega)]

/-! ## The window in INIT (R187) -/

theorem windowByte_of_init {s : State} (init : s.shelf.state = .init) (a : Nat) : s.windowByte a = 0 := if_pos init

/-- Settles O9: each field of STATUS is a quotient and remainder of the number it holds, read off by the fields' widths. -/
theorem statusShowsShelfAndSupply : Obligations.StatusShowsShelfAndSupply := by
  intro s
  have status := toNat_register_status s
  have done := bitOf_lt_two (decide (s.shelf.state ≠ .init))
  have code := s.shelf.state.code_lt_eight
  have low := bitOf_lt_two s.supply.confirmed
  refine ⟨getLsbD_eq_of_div_mod_eq_bitOf ?initDone, ?shelfState, getLsbD_eq_of_div_mod_eq_bitOf ?supplyLow,
    BitVec.eq_of_toNat_eq ?others, registerByte_of_even s rfl, registerByte_succ_of_even s rfl, windowByte_of_init⟩
  case initDone => omega
  case shelfState =>
    rw [toNat_extractLsb'_eq_div_mod]
    omega
  case supplyLow => omega
  case others =>
    rw [toNat_extractLsb'_eq_div_mod]
    show _ = 0
    omega

end Sys2Proof.Machine

/-! What every command keeps: each command leaves one next state, the blocks' invariants hold in it, and what only a reset or a
register write changes stays; the statements O1, O3, O11 and O57 to O59. -/

namespace Sys2Proof.Machine

variable {s : State} {b : BayId}

/-! ## The state that a command leaves -/

/-- The state that a command leaves; the manual has none end in a fault or a refusal. -/
def effect (c : Instr) (s : State) : State :=
  match exec c s with
  | .next t => t
  | .fault _ => s
  | .refused _ => s

theorem exec_eq_next (c : Instr) (s : State) : exec c s = .next (effect c s) := by
  cases c <;> rfl

theorem effect_of_exec {c : Instr} {t : State} (h : exec c s = .next t) : t = effect c s :=
  (Host.Outcome.next.inj ((exec_eq_next c s).symm.trans h)).symm

theorem step_nil (h : s.pending = []) : step s = .next (tick s) := by
  unfold step
  rw [h]

theorem step_cons {c : Instr} {q : List Instr} (h : s.pending = c :: q) : step s = exec c (s.withPending q) := by
  unfold step
  rw [h]

/-- What every tick keeps, and every command whatever waits behind it, every step keeps. -/
theorem step_induction {t : State} {P : State → Prop} (h : step s = .next t) (htick : P (tick s))
    (hcommand : ∀ c q, P (effect c (s.withPending q))) : P t := by
  cases hp : s.pending with
  | nil =>
    rw [step_nil hp] at h
    exact Host.Outcome.next.inj h ▸ htick
  | cons c q =>
    rw [step_cons hp] at h
    exact effect_of_exec h ▸ hcommand c q

/-! ## What the commands keep -/

theorem keeps_ite {P : Prop} [Decidable P] {t : State} (h : P → Keeps s t) : Keeps s (if P then t else s) := by
  split
  · next p => exact h p
  · exact Keeps.refl s

theorem Keeps.andFinish {t : State} (h : Keeps s t) : Keeps s (finish t) := h.trans (keeps_finish t)

/-- An event of one bay, with the end of the event. -/
theorem keeps_event {t : State} (h : Touches everyBay s t) : Keeps s (finish t) := h.keeps.andFinish

theorem keeps_onPort {k : SpiKind} {tx : SpiBytes} {act : Transfer → State → State}
    (h : ∀ t, Keeps s (act t s)) : Keeps s (onPort k tx act s) := by
  rcases onPort_cases k tx act s with e | e | ⟨t, e⟩ <;> rw [e]
  · exact Keeps.refl s
  · exact keeps_setPort _ s
  · exact h t

theorem keeps_writeTransfer {tx : SpiBytes} {f : State → State} {t : Transfer} (h : Keeps s (f s)) :
    Keeps s (writeTransfer tx f t s) :=
  ((keeps_ite fun _ => h).trans (keeps_setPort _ _)).trans (keeps_setMiso _ _)

theorem keeps_windowWrite (l : List (Nat × Byte)) (s : State) : Keeps s (windowWrite l s) := by
  unfold windowWrite
  split
  · exact Keeps.refl s
  · exact keeps_intake l s

theorem keeps_portSelected (ended : Bool) (s : State) : Keeps s (portSelected ended s) := by
  unfold portSelected
  split
  · exact (keeps_setPort _ s).trans (keeps_setMiso _ _)
  · exact (keeps_setPort _ s).trans (keeps_setMiso _ _)
  · exact keeps_ite fun _ => keeps_setPort _ s
  · exact Keeps.refl s

theorem keeps_unknownTransfer (command : Option Byte) (tx : SpiBytes) (s : State) :
    Keeps s (unknownTransfer command tx s) := by
  unfold unknownTransfer
  split
  · exact keeps_ite fun _ => keeps_onPort fun _ => keeps_writeTransfer (Keeps.refl s)
  · exact keeps_portSelected _ s

theorem touches_setPg (b : BayId) (level : Bool) (s : State) : Touches everyBay s (setPg b level s) :=
  touches_modInputs trivial _ s fun filter => filter

theorem keeps_pgRise (b : BayId) (s : State) : Keeps s (pgRise b s) :=
  keeps_ite fun _ => keeps_event ((touches_setPg b true s).onPgActive trivial)

theorem keeps_pgFall (b : BayId) (s : State) : Keeps s (pgFall b s) :=
  keeps_ite fun _ => keeps_event ((touches_setPg b false s).onPgInactive trivial)

theorem keeps_holdoffEnd (s : State) : Keeps s (holdoffEnd s) :=
  keeps_ite fun _ => (journaled_stopHoldoff s).keeps.trans (keeps_modAttn _ _)

theorem keeps_blinkEnd (s : State) : Keeps s (blinkEnd s) :=
  keeps_ite fun _ => keeps_modShelf _ s ⟨rfl, rfl⟩ id

theorem keeps_flashMid (s : State) : Keeps s (flashMid s) :=
  keeps_ite fun _ => keeps_modShelf _ s ⟨rfl, rfl⟩ id

theorem keeps_linkTimerEnd (b : BayId) (s : State) : Keeps s (linkTimerEnd b s) :=
  keeps_ite fun _ => ((touches_modLink (B := everyBay) trivial _ s).placeProbe trivial).keeps

theorem keeps_ackTimerEnd (b : BayId) (s : State) : Keeps s (ackTimerEnd b s) := by
  unfold ackTimerEnd
  split
  · exact keeps_ite fun _ => keeps_event ((Touches.refl _ s).attemptFailed trivial _)
  · exact Keeps.refl s

theorem keeps_collide (b : BayId) (s : State) : Keeps s (collide b s) := by
  have stopped : Touches everyBay s (stopDriving b s) := touches_modLink trivial _ s
  refine keeps_ite fun _ => ?_
  split
  · exact keeps_event (stopped.attemptFailed trivial _)
  · exact stopped.keeps

theorem keeps_startResend (b : BayId) (s : State) : Keeps s (startResend b s) := by
  unfold startResend
  split
  · exact ((touches_modLink (B := everyBay) trivial _ s).countQuality trivial _).keeps
  · exact Keeps.refl s

theorem keeps_receiveAck (b : BayId) (seq : Sequence) (s : State) : Keeps s (receiveAck b seq s) :=
  keeps_ite fun _ => (((Touches.refl everyBay s).endReception trivial _).matchAck trivial seq).keeps

theorem keeps_dropFrame (b : BayId) (k : QualityKind) (s : State) : Keeps s (dropFrame b k s) :=
  ((Touches.refl everyBay s).dropFrame trivial k).keeps

theorem keeps_abnormal (b : BayId) (high : Bool) (since : Nat) (s : State) : Keeps s (abnormal b high since s) :=
  keeps_ite fun _ => ((touches_modLink (B := everyBay) trivial _ s).countQuality trivial _).keeps

theorem keeps_oversize (b : BayId) (header : BitVec 16) (s : State) : Keeps s (oversize b header s) :=
  keeps_ite fun _ => ((touches_modLink (B := everyBay) trivial _ s).countQuality trivial _).keeps

theorem keeps_deliverTrouble {r t : State} (payload : List Byte) (h : Touches everyBay r t) :
    Keeps r (deliverTrouble b payload t) := by
  unfold deliverTrouble
  split
  · exact ((h.submit _).onTrouble trivial _).keeps.trans (keeps_wakeEvent _ _ _)
  · exact (h.countMalformed trivial).keeps

/-- Every command but the full reset and the register writes keeps all that `Keeps` names. -/
theorem keeps_effect (c : Instr) (s : State) (notReset : c ≠ .fullReset) (notRegister : ∀ tx, c ∉ registerWriteRows tx) :
    Keeps s (effect c s) := by
  cases c with
  | fullReset => exact absurd rfl notReset
  | softReset tx | clearOverflow tx | clearFault tx | clearWake tx | attnEnableWrite tx | droppedRegisterWrite tx =>
    exact absurd (by simp [registerWriteRows]) (notRegister tx)
  | windowWrite tx => exact keeps_onPort fun _ => keeps_writeTransfer (keeps_windowWrite _ s)
  | windowRead tx => exact keeps_onPort_read _ tx _ _ s
  | registerRead tx => exact keeps_onPort_read _ tx _ _ s
  | unknownCommand command tx => exact keeps_unknownTransfer command tx s
  | initTimerExpiry => exact keeps_ite fun _ => keeps_endInit s
  | stableFilterEdge i level => exact keeps_filterEdge i level s
  | presConfirmed b => exact keeps_pres b s
  | latchConfirmed b => exact keeps_latch b s
  | supplyLowConfirmed => exact keeps_supplyExpiry s
  | fltEdge b asserted => exact keeps_flt b asserted s
  | faultConfirmed b => exact keeps_faultTick b s
  | pgBecomesActive b => exact keeps_pgRise b s
  | pgBecomesInactive b => exact keeps_pgFall b s
  | rampExpiry b => exact keeps_ite fun _ => keeps_event ((Touches.refl _ s).enterFaulted trivial _)
  | settleExpiry b => exact keeps_ite fun _ => keeps_event ((Touches.refl _ s).enterOn trivial)
  | drainExpiry b => exact keeps_ite fun _ => keeps_event ((Touches.refl _ s).enterCutoff trivial _)
  | dischargeExpiry b => exact keeps_ite fun _ => keeps_event ((Touches.refl _ s).enterFaulted trivial _)
  | restExpiry b => exact keeps_ite fun _ => keeps_event ((Touches.refl _ s).endRest trivial)
  | quiesceDeadlineExpiry => exact keeps_ite fun _ => keeps_deadlineExpiry s
  | holdoffTimerExpiry => exact keeps_holdoffEnd s
  | blinkHalfPeriodEnd => exact keeps_blinkEnd s
  | flashMidpoint => exact keeps_flashMid s
  | linkTimerExpiry b => exact keeps_linkTimerEnd b s
  | ackTimerExpiry b => exact keeps_ackTimerEnd b s
  | collision b => exact keeps_collide b s
  | resendStart b => exact keeps_startResend b s
  | sendingStart b | ackSendStart b | messageFrameEnd b | ackFrameEnd b | discardingEnd b _ | receptionBegins b
  | lineHighAfterCollision b => exact keeps_modLink b _ s
  | ack b seq => exact keeps_receiveAck b seq s
  | hello b seq payload => exact keeps_receive b 1 true seq payload _ s fun _ _ h => (h.deliverHello trivial payload).keeps
  | demand b seq payload => exact keeps_receive b 2 false seq payload _ s fun _ _ h => (h.deliverDemand trivial payload).keeps
  | release b seq payload =>
    exact keeps_receive b 3 false seq payload _ s fun _ _ h => (h.deliverRelease trivial payload).keeps
  | trouble b seq payload => exact keeps_receive b 4 false seq payload _ s fun _ _ h => keeps_deliverTrouble payload h
  | note b seq payload =>
    exact keeps_receive b 5 false seq payload _ s fun _ _ h => (h.submit _).keeps.trans (keeps_wakeEvent _ _ _)
  | badCheckFrame b header payload check => exact keeps_ite fun _ => keeps_dropFrame b _ s
  | invalidFrame b header payload => exact keeps_ite fun _ => keeps_dropFrame b _ s
  | oversizeFrame b header => exact keeps_oversize b header s
  | abnormalEnd b high since => exact keeps_abnormal b high since s
  | preambleFailed b high since => exact keeps_ite fun _ => keeps_modLink b _ s
  | stablePeriodExpiryUnchanged i => exact keeps_filterUnchanged i s

theorem effect_registerWriteRows {c : Instr} {tx : SpiBytes} (h : c ∈ registerWriteRows tx) (s : State) :
    effect c s = registerWrite tx s :=
  (effect_of_exec (exec_registerWriteRows h s)).symm

/-- A command is the full reset, a register write, or one that `keeps_effect` tells of. -/
theorem reset_or_register_or_other (c : Instr) :
    c = .fullReset ∨ (∃ tx, c ∈ registerWriteRows tx) ∨ (c ≠ .fullReset ∧ ∀ tx, c ∉ registerWriteRows tx) := by
  by_cases reset : c = .fullReset
  · exact .inl reset
  · by_cases register : ∃ tx, c ∈ registerWriteRows tx
    · exact .inr (.inl register)
    · exact .inr (.inr ⟨reset, not_exists.mp register⟩)

theorem keepsBlocks_effect (c : Instr) (s : State) : KeepsBlocks s (effect c s) := by
  obtain rfl | ⟨tx, register⟩ | ⟨reset, register⟩ := reset_or_register_or_other c
  · exact keeps_fullReset s
  · exact effect_registerWriteRows register s ▸ keeps_registerWrite tx s
  · exact (keeps_effect c s reset register).blocks

theorem registerWrite_pending (tx : SpiBytes) (s : State) : (registerWrite tx s).pending = s.pending := by
  unfold registerWrite
  rcases onPort_cases (spiKindOf 0x40) tx (writeTransfer tx (takeRegisterWrite tx)) s with e | e | ⟨t, e⟩ <;> rw [e]
  · rfl
  · unfold writeTransfer takeRegisterWrite
    cases tx.ended <;> cases writesSoftReset tx <;> rfl

theorem effect_pending (c : Instr) (s : State) : (effect c s).pending = s.pending := by
  obtain rfl | ⟨tx, register⟩ | ⟨reset, register⟩ := reset_or_register_or_other c
  · rfl
  · exact effect_registerWriteRows register s ▸ registerWrite_pending tx s
  · exact (keeps_effect c s reset register).pending

theorem keepsBlocks_withPending (q : List Instr) (s : State) : KeepsBlocks s (s.withPending q) where
  order := id
  window := id
  charges := id
  positions := id
  loss := id
  snapshot := id
  pool := id
  filters := id
  timers := id

theorem keepsBlocks_step {t : State} (h : step s = .next t) : KeepsBlocks s t :=
  step_induction h (keeps_tickBy _ s).blocks fun c q => (keepsBlocks_withPending q s).trans (keepsBlocks_effect c _)

/-- Settles O1. -/
theorem stepRunsFrontCommand : Obligations.StepRunsFrontCommand := fun _ _ _ front => step_cons front

/-- Settles O3: the next state is `effect`, and no command touches those that wait. -/
theorem everyCommandIsTaken : Obligations.EveryCommandIsTaken :=
  fun c s => ⟨effect c s, exec_eq_next c s, effect_pending c s⟩

/-- Settles O11: a command that is neither keeps ATTN_ENABLE with the rest of what `Keeps` names. -/
theorem attnEnableIsKept : Obligations.AttnEnableIsKept := fun c s _ taken reset register =>
  effect_of_exec taken ▸ (keeps_effect c s reset register).enable

/-- Settles O57: the sum is one of the blocks' invariants, and `setCharge` sets it beside the charge. -/
theorem stepKeepsCommittedSum : Obligations.StepKeepsCommittedSum :=
  ⟨fun _ _ sum taken => (keepsBlocks_step taken).charges sum, fun _ => Iff.rfl, fun _ _ _ => rfl⟩

/-- Settles O58: each part is one of the blocks' invariants. -/
theorem stepKeepsJournal : Obligations.StepKeepsJournal := fun _ _ window positions loss snapshot taken =>
  have keeps := keepsBlocks_step taken
  ⟨keeps.window window, keeps.positions positions, keeps.loss loss, keeps.snapshot snapshot⟩

/-- Settles O59: each part is one of the blocks' invariants. -/
theorem stepKeepsPoolAndInputs : Obligations.StepKeepsPoolAndInputs := fun _ _ pool filters timers taken =>
  have keeps := keepsBlocks_step taken
  ⟨keeps.pool pool, keeps.filters filters, keeps.timers timers⟩

end Sys2Proof.Machine

/-! The bays and the queue together (R34, R37): every step keeps them coherent, and every bay in REST through INIT; the
statements O60 and O6. -/

namespace Sys2Proof.Machine

variable {s t : State} {b : BayId}

/-! ## Coherent states -/

/-- Every bay is coherent with the queue, and rests through INIT. -/
structure State.coherent (s : State) : Prop where
  ok : s.allOk
  rest : s.shelf.state = .init → rests s

theorem coherent_iff : s.coherent ↔ (∀ b, s.bayOk b) ∧ s.initOk :=
  ⟨fun h => ⟨fun b => (bayOk_iff s b).mpr (h.ok.bay b), h.rest⟩,
    fun ⟨bays, init⟩ => ⟨⟨fun b => (bayOk_iff s b).mp (bays b)⟩, init⟩⟩

/-- What leaves the views and leads into no INIT keeps the coherence. -/
theorem State.coherent.ofViews (h : s.coherent) (keeps : Keeps s t) (views : ∀ b, t.view b = s.view b) : t.coherent :=
  ⟨allOk_congr h.ok views, fun init => rests_congr (h.rest (not_imp_not.mp keeps.notInit init)) views⟩

/-- Outside INIT the bays alone have to be looked at. -/
theorem coherent_outside (keeps : Keeps s t) (outside : s.shelf.state ≠ .init) (ok : t.allOk) : t.coherent :=
  ⟨ok, fun init => absurd init (keeps.notInit outside)⟩

/-- An event of one bay: it leaves that bay coherent, and in REST where it rested. -/
theorem State.coherent.ofBay (h : s.coherent) (touches : Touches (only b) s t) (ok : (s.view b).ok → (t.view b).ok)
    (rest : (s.view b).state = .rest → (t.view b).state = .rest) : t.coherent :=
  ⟨allOk_oneBay b touches h.ok ok, fun init =>
    have resting := h.rest (touches.shelf ▸ init)
    rests_one b touches resting (rest (resting b))⟩

theorem State.coherent.andFinish (h : s.coherent) : (finish s).coherent := by
  by_cases init : s.shelf.state = .init
  · rw [finish_init init]
    exact h
  · exact coherent_outside (keeps_finish s) init (allOk_finish h.ok)

theorem coherent_ite {P : Prop} [Decidable P] (h : s.coherent) (k : P → t.coherent) : (if P then t else s).coherent := by
  split
  · next p => exact k p
  · exact h

theorem coherent_wakeEvent (w : WakeSource) (h : s.coherent) : (wakeEvent b w s).coherent :=
  h.ofViews (keeps_wakeEvent b w s) (view_wakeEvent b w s)

theorem coherent_modLink (f : LinkEngine → LinkEngine) (h : s.coherent) : (modLink b f s).coherent :=
  h.ofViews (keeps_modLink b f s) (view_modLink b f s)

/-- A change of the Input Conditioner beside PgLevel shows in no view. -/
theorem coherent_modInputs (f : BayInputs → BayInputs) (touches : Touches (only b) s (modInputs b f s))
    (pg : ∀ i, (f i).pgLevel = i.pgLevel) (h : s.coherent) : (modInputs b f s).coherent :=
  h.ofViews touches.keeps (view_modInputs b f s pg)

/-! ## Transactions and resets -/

theorem coherent_onPort {k : SpiKind} {tx : SpiBytes} {act : Transfer → State → State} (h : s.coherent)
    (hact : ∀ t, (act t s).coherent) : (onPort k tx act s).coherent := by
  rcases onPort_cases k tx act s with e | e | ⟨t, e⟩ <;> rw [e]
  · exact h
  · exact h.ofViews (keeps_setPort _ s) fun _ => rfl
  · exact hact t

theorem coherent_setMiso_setPort (l : List Byte) (p : SpiPort) (h : s.coherent) : (setMiso l (setPort p s)).coherent :=
  h.ofViews ((keeps_setPort p s).trans (keeps_setMiso l _)) fun _ => rfl

theorem coherent_writeTransfer {tx : SpiBytes} {f : State → State} {t : Transfer} (h : s.coherent)
    (hf : (f s).coherent) : (writeTransfer tx f t s).coherent :=
  coherent_setMiso_setPort _ _ (coherent_ite h fun _ => hf)

theorem coherent_windowWrite (l : List (Nat × Byte)) (h : s.coherent) : (windowWrite l s).coherent := by
  unfold windowWrite
  split
  · exact h
  · next drops => exact coherent_outside (keeps_intake l s) (not_or.mp drops).1 (allOk_intake l h.ok)

theorem coherent_portSelected (ended : Bool) (h : s.coherent) : (portSelected ended s).coherent := by
  unfold portSelected
  split
  · exact coherent_setMiso_setPort _ _ h
  · exact coherent_setMiso_setPort _ _ h
  · exact coherent_ite h fun _ => h.ofViews (keeps_setPort _ s) fun _ => rfl
  · exact h

theorem coherent_unknownTransfer (command : Option Byte) (tx : SpiBytes) (h : s.coherent) :
    (unknownTransfer command tx s).coherent := by
  unfold unknownTransfer
  split
  · exact coherent_ite h fun _ => coherent_onPort h fun _ => coherent_writeTransfer h h
  · exact coherent_portSelected _ h

/-- Right after a reset every bay rests with no charge, and the queue is empty. -/
theorem coherent_of_resting (bay : ∀ b, s.view b = ⟨.rest, [], 0, (s.bay b).inputs.pgLevel⟩) : s.coherent :=
  ⟨allOk_ofRest bay, fun _ b => by rw [bay b]⟩

theorem coherent_fullReset (s : State) : (fullReset s).coherent :=
  coherent_of_resting fun b => by
    unfold State.view State.stateOf
    rw [fullReset_bay]
    rfl

theorem coherent_softReset (s : State) : (softReset s).coherent :=
  coherent_of_resting fun b => by
    unfold State.view State.stateOf
    rw [softReset_bay]
    rfl

theorem coherent_registerWrite (tx : SpiBytes) (h : s.coherent) : (registerWrite tx s).coherent := by
  have written : (writeRegisters tx s).coherent := ⟨allOk_congr h.ok fun _ => rfl, h.rest⟩
  refine coherent_onPort h fun t => coherent_writeTransfer h ?_
  unfold takeRegisterWrite
  split
  · exact coherent_softReset _
  · exact written

theorem endInit_notInit (s : State) : (endInit s).shelf.state ≠ .init := by
  have touches : Touches everyBay (leaveInit s) (endInit s) := touches_forBays _ (fun r b t h => by
    unfold startRest submitReset submitOwed
    exact (((h.submitAbandoned (b := b) .reset _).trans
      (touches_modBay trivial _ _ rfl id id)).submit _).restIfZero trivial) _
  rw [touches.shelf]
  exact nofun

theorem coherent_initEnd (h : s.coherent) : (initEnd s).coherent :=
  coherent_ite h fun ⟨init, _⟩ =>
    ⟨allOk_endInit h.ok (h.rest init), fun still => absurd still (endInit_notInit s)⟩

/-! ## Inputs -/

theorem view_filterEdge (i : FilterInput) (level : Bool) (s : State) (c : BayId) :
    (filterEdge i level s).view c = s.view c := by
  cases i with
  | pres b | latch b =>
    refine view_modInputs b _ s ?_ c
    exact fun _ => rfl
  | supplyLow => rfl

theorem view_ite {P : Prop} [Decidable P] {c : BayId} (h : t.view c = s.view c) :
    (if P then t else s).view c = s.view c := by
  split
  · exact h
  · rfl

theorem view_filterUnchanged (i : FilterInput) (s : State) (c : BayId) : (filterUnchanged i s).view c = s.view c := by
  cases i with
  | pres b | latch b =>
    refine view_ite (view_modInputs b _ s ?_ c)
    exact fun _ => rfl
  | supplyLow => exact view_ite rfl

theorem outside_of_not_inInit (h : s.inInit = false) : s.shelf.state ≠ .init := by
  intro init
  simp [State.inInit, init] at h

theorem outside_of_presDue (h : s.presDue b = true) : s.shelf.state ≠ .init :=
  outside_of_not_inInit (by simp [State.presDue] at h; exact h.1)

theorem outside_of_latchDue (h : s.latchDue b = true) : s.shelf.state ≠ .init :=
  outside_of_not_inInit (by simp [State.latchDue] at h; exact h.1)

theorem outside_of_faultDue (h : s.faultDue b = true) : s.shelf.state ≠ .init :=
  outside_of_not_inInit (by simp [State.faultDue] at h; exact h.1.1.2)

/-- An event of one bay that can come outside INIT alone. -/
theorem State.coherent.ofBayOutside (h : s.coherent) (outside : s.shelf.state ≠ .init) (touches : Touches (only b) s t)
    (ok : (s.view b).ok → (t.view b).ok) : t.coherent :=
  coherent_outside touches.keeps outside (allOk_oneBay b touches h.ok ok)

theorem coherent_presExpiry (b : BayId) (h : s.coherent) : (presExpiry b s).coherent := by
  refine coherent_ite h fun ⟨due, _⟩ => ?_
  have confirmed : Touches (only b) s (confirmPres b s) := touches_modInputs (only_self b) _ s fun filter => filter
  have same : (confirmPres b s).view b = s.view b := by
    refine view_modInputs b _ s ?_ b
    exact fun _ => rfl
  refine (coherent_wakeEvent _ (h.ofBayOutside (outside_of_presDue due) (b := b) ?_ fun ok => ?_)).andFinish
  all_goals unfold handPres; split
  · exact confirmed.onPresent (only_self b)
  · exact confirmed.onAbsent (only_self b)
  · exact ok_onPresent (same ▸ ok)
  · exact ok_onAbsent (same ▸ ok)

theorem coherent_latchExpiry (b : BayId) (h : s.coherent) : (latchExpiry b s).coherent := by
  refine coherent_ite h fun ⟨due, _⟩ => ?_
  have confirmed : Touches (only b) s (confirmLatch b s) := touches_modInputs (only_self b) _ s fun filter => filter
  have same : (confirmLatch b s).view b = s.view b := by
    refine view_modInputs b _ s ?_ b
    exact fun _ => rfl
  refine (coherent_wakeEvent _ (h.ofBayOutside (outside_of_latchDue due) (b := b) ?_ fun ok => ?_)).andFinish
  all_goals unfold handLatch; split
  · split
    · exact confirmed.reconcileOff (only_self b)
    · exact confirmed.onLatchOpen (only_self b)
  · exact confirmed
  · split
    · exact ok_reconcileOff (same ▸ ok)
    · exact ok_onLatchOpen (same ▸ ok)
  · exact same ▸ ok

theorem recomputeBudget_shelf (c : BudgetCause) (s : State) : (recomputeBudget c s).shelf = s.shelf :=
  (touches_recompute c s).shelf

theorem coherent_recompute (c : BudgetCause) (h : s.coherent) : (recomputeBudget c s).coherent :=
  ⟨allOk_recompute c h.ok, fun init =>
    have resting := h.rest (recomputeBudget_shelf c s ▸ init)
    rests_congr resting (recompute_init c h.ok resting)⟩

theorem coherent_supplyExpiry (h : s.coherent) : (supplyExpiry s).coherent :=
  coherent_ite h fun _ =>
    (coherent_recompute _ (s := confirmSupply s) ⟨allOk_congr h.ok fun _ => rfl, h.rest⟩).andFinish

theorem coherent_fltChange (b : BayId) (asserted : Bool) (h : s.coherent) : (fltChange b asserted s).coherent := by
  unfold fltChange
  have edge : Touches (only b) s (modInputs b (BayInputs.fltEdge (faultThreshold (s.intentOf b)) asserted) s) :=
    touches_modInputs (only_self b) _ s fun filter => by
      refine ⟨filter.1, ?_⟩
      show (asserted && (s.bay b).inputs.fltTicks == faultThreshold (s.bay b).ctx.intent) = true
        ↔ asserted = true ∧ (s.bay b).inputs.fltTicks = faultThreshold (s.bay b).ctx.intent
      simp
  refine State.coherent.andFinish ?_
  have set := coherent_modInputs _ edge (fun _ => rfl) h
  unfold handFlt
  split
  · exact set.ofBay ((Touches.refl _ _).onFaultConfirmed (only_self b)) ok_onFaultConfirmed
      fun rest => by rw [rest_onFaultConfirmed rest]; exact rest
  · exact set.ofBay ((Touches.refl _ _).reconcileOff (only_self b)) ok_reconcileOff
      fun rest => by rw [rest_reconcileOff rest]; exact rest
  · exact set
  · exact set

theorem coherent_faultTick (b : BayId) (h : s.coherent) : (faultTick b s).coherent := by
  refine coherent_ite h fun due => ?_
  have outside := outside_of_faultDue due
  refine State.coherent.andFinish ⟨allOk_oneBay b (s := modInputs b _ s) ((Touches.refl _ _).onFaultConfirmed (only_self b))
    (allOk_congr h.ok (view_modInputs b _ s fun _ => rfl)) ok_onFaultConfirmed, fun init => absurd ?_ outside⟩
  rwa [((Touches.refl (only b) _).onFaultConfirmed (only_self b)).shelf] at init

theorem coherent_pgRise (b : BayId) (h : s.coherent) : (pgRise b s).coherent :=
  coherent_ite h fun down => State.coherent.andFinish <|
    h.ofBay (((touches_modInputs (only_self b) _ s fun filter => filter)).onPgActive (only_self b))
      (fun ok => ok_pgRise ok down) fun rest => by
        unfold setPg
        rw [rest_onPgActive rest]

theorem coherent_pgFall (b : BayId) (h : s.coherent) : (pgFall b s).coherent :=
  coherent_ite h fun _ => State.coherent.andFinish <|
    h.ofBay (((touches_modInputs (only_self b) _ s fun filter => filter)).onPgInactive (only_self b))
      (fun ok => ok_pgFall ok) fun rest => by
        unfold setPg
        rw [rest_onPgInactive rest]

/-! ## Timers -/

theorem rest_of_ok (h : (s.view b).ok) (rest : s.stateOf b = .rest) : (s.view b).kinds = [] ∧ (s.view b).charge = 0 := by
  rw [stateOf_eq_view] at rest
  simp only [BayView.ok, rest] at h
  exact ⟨h.1, h.2⟩

/-- The expiry of a bay's timer in a state that is neither QUEUED nor REST. -/
theorem coherent_expiry {st : BayState} {f : State → State} (h : s.coherent) (at_ : s.stateOf b = st)
    (queued : st ≠ .queued) (rest : st ≠ .rest) (touches : Touches (only b) s (f s))
    (ok : (s.view b).free → ((f s).view b).ok) : (finish (f s)).coherent :=
  State.coherent.andFinish <| h.ofBay touches (fun k => ok (free_of_ok k (at_ ▸ queued)))
    fun resting => absurd (at_.symm.trans resting) rest

theorem coherent_restEnd (b : BayId) (h : s.coherent) : (restEnd b s).coherent :=
  coherent_ite h fun ⟨rest, _, outside⟩ => State.coherent.andFinish <|
    h.ofBayOutside (outside_of_not_inInit outside) ((Touches.refl _ s).endRest (only_self b)) fun ok =>
      ok_endRest (rest_of_ok ok rest).1 (rest_of_ok ok rest).2

theorem coherent_deadlineEnd (h : s.coherent) : (deadlineEnd s).coherent :=
  coherent_ite h fun ⟨quiescing, _⟩ =>
    coherent_outside (keeps_deadlineExpiry s) (quiescing ▸ nofun) (allOk_deadlineExpiry h.ok)

/-! ## The bay link -/

theorem coherent_attemptFailed (m : InFlight) (h : s.coherent) : (attemptFailed b m s).coherent :=
  h.ofBay ((Touches.refl _ s).attemptFailed (only_self b) m) (ok_attemptFailed m) fun rest => by
    rw [rest_attemptFailed rest]
    exact rest

theorem coherent_ackTimerEnd (b : BayId) (h : s.coherent) : (ackTimerEnd b s).coherent := by
  unfold ackTimerEnd
  split
  · exact coherent_ite h fun _ => (coherent_attemptFailed _ h).andFinish
  · exact h

theorem coherent_collide (b : BayId) (h : s.coherent) : (collide b s).coherent := by
  refine coherent_ite h fun _ => ?_
  split
  · exact (coherent_attemptFailed _ (coherent_modLink _ h)).andFinish
  · exact coherent_modLink _ h

theorem coherent_countQuality (k : QualityKind) (h : s.coherent) : (countQuality b k s).coherent :=
  h.ofViews ((Touches.refl everyBay s).countQuality trivial k).keeps (view_countQuality b k s)

theorem coherent_placeProbe (h : s.coherent) : (placeProbe b s).coherent :=
  h.ofViews ((Touches.refl everyBay s).placeProbe trivial).keeps (view_placeProbe b s)

theorem coherent_startResend (b : BayId) (h : s.coherent) : (startResend b s).coherent := by
  unfold startResend
  split
  · exact coherent_countQuality _ (coherent_modLink _ h)
  · exact h

theorem coherent_matchAck (seq : Sequence) (h : s.coherent) : (matchAck b seq s).coherent :=
  h.ofViews ((Touches.refl everyBay s).matchAck trivial seq).keeps fun c => by
    unfold matchAck
    split
    · exact view_ite (view_completeMessage b _ s c)
    · rfl

/-- A message from a module: the line, its ACK and the duplicate filter show in no view. -/
theorem coherent_receive {deliver : State → State} (k : Nat) (isHello : Bool) (seq : Sequence) (payload : List Byte)
    (h : s.coherent) (hd : ∀ t : State, t.coherent → (deliver t).coherent) :
    (receiveMessage b k isHello seq payload deliver s).coherent := by
  refine coherent_ite h fun _ => State.coherent.andFinish ?_
  have owing : (oweAck b seq (endReception b (frameBuffer k seq payload) s)).coherent :=
    coherent_modLink _ (coherent_modLink _ h)
  unfold takeByLinkState filterMessage
  split
  · split
    · exact coherent_countQuality _ owing
    · exact hd _ (coherent_modLink _ owing)
  · exact coherent_placeProbe owing

theorem coherent_deliverHello (payload : List Byte) (h : s.coherent) : (deliverHello b payload s).coherent :=
  h.ofBay ((Touches.refl _ s).deliverHello (only_self b) payload) (ok_deliverHello payload) fun rest => by
    rw [rest_deliverHello rest]
    exact rest

theorem coherent_deliverDemand (payload : List Byte) (h : s.coherent) : (deliverDemand b payload s).coherent :=
  h.ofBay ((Touches.refl _ s).deliverDemand (only_self b) payload) (ok_deliverDemand payload) fun rest => by
    rw [rest_deliverDemand rest]
    exact rest

theorem coherent_deliverRelease (payload : List Byte) (h : s.coherent) : (deliverRelease b payload s).coherent :=
  h.ofBay ((Touches.refl _ s).deliverRelease (only_self b) payload) (ok_deliverRelease payload) fun rest => by
    rw [rest_deliverRelease rest]
    exact rest

theorem coherent_submit (r : Record) (h : s.coherent) : (submit r s).coherent :=
  h.ofViews (journaled_submit r s).keeps (view_submit r s)

/-- In REST a TROUBLE sets the hold at most. -/
theorem rest_onTrouble (n : Nat) (rest : (s.view b).state = .rest) : (onTrouble b n s).view b = s.view b := by
  have state : s.stateOf b = .rest := rest
  unfold onTrouble troubleActionOf
  rw [state]
  by_cases one : n = 1
  · simp [one]
  · simp [one, view_modCtx]

theorem coherent_deliverTrouble (payload : List Byte) (h : s.coherent) : (deliverTrouble b payload s).coherent := by
  unfold deliverTrouble
  split
  · refine coherent_wakeEvent _ ((coherent_submit _ h).ofBay ((Touches.refl _ _).onTrouble (only_self b) _)
      (ok_onTrouble _) fun rest => ?_)
    rw [rest_onTrouble _ rest]
    exact rest
  · exact h.ofViews ((Touches.refl everyBay s).countMalformed trivial).keeps (view_modDialogue b _ s)

/-! ## Steps -/

theorem coherent_effect (c : Instr) (h : s.coherent) : (effect c s).coherent := by
  cases c with
  | fullReset => exact coherent_fullReset s
  | softReset tx | clearOverflow tx | clearFault tx | clearWake tx | attnEnableWrite tx | droppedRegisterWrite tx =>
    exact coherent_registerWrite tx h
  | windowWrite tx => exact coherent_onPort h fun _ => coherent_writeTransfer h (coherent_windowWrite _ h)
  | windowRead tx => exact coherent_onPort h fun _ => coherent_setMiso_setPort _ _ h
  | registerRead tx => exact coherent_onPort h fun _ => coherent_setMiso_setPort _ _ h
  | unknownCommand command tx => exact coherent_unknownTransfer command tx h
  | initTimerExpiry => exact coherent_initEnd h
  | stableFilterEdge i level => exact h.ofViews (keeps_filterEdge i level s) (view_filterEdge i level s)
  | presConfirmed b => exact coherent_presExpiry b h
  | latchConfirmed b => exact coherent_latchExpiry b h
  | supplyLowConfirmed => exact coherent_supplyExpiry h
  | fltEdge b asserted => exact coherent_fltChange b asserted h
  | faultConfirmed b => exact coherent_faultTick b h
  | pgBecomesActive b => exact coherent_pgRise b h
  | pgBecomesInactive b => exact coherent_pgFall b h
  | rampExpiry b =>
    exact coherent_ite h fun ⟨ramp, _⟩ =>
      coherent_expiry h ramp nofun nofun ((Touches.refl _ s).enterFaulted (only_self b) _) (ok_enterFaulted _)
  | settleExpiry b =>
    refine coherent_ite h fun ⟨settle, _⟩ => State.coherent.andFinish ?_
    refine h.ofBay ((Touches.refl _ s).enterOn (only_self b)) (fun ok => ?_) fun rest => ?_
    · rw [stateOf_eq_view] at settle
      simp only [BayView.ok, settle] at ok
      exact ok_enterOn ok.1 ok.2
    · exact absurd (settle.symm.trans rest) nofun
  | drainExpiry b =>
    exact coherent_ite h fun ⟨drain, _⟩ =>
      coherent_expiry h drain nofun nofun ((Touches.refl _ s).enterCutoff (only_self b) _) (ok_enterCutoff _)
  | dischargeExpiry b =>
    exact coherent_ite h fun ⟨cutoff, _⟩ =>
      coherent_expiry h cutoff nofun nofun ((Touches.refl _ s).enterFaulted (only_self b) _) (ok_enterFaulted _)
  | restExpiry b => exact coherent_restEnd b h
  | quiesceDeadlineExpiry => exact coherent_deadlineEnd h
  | holdoffTimerExpiry => exact h.ofViews (keeps_holdoffEnd s) fun _ => view_ite rfl
  | blinkHalfPeriodEnd => exact h.ofViews (keeps_blinkEnd s) fun _ => view_ite rfl
  | flashMidpoint => exact h.ofViews (keeps_flashMid s) fun _ => view_ite rfl
  | linkTimerExpiry b => exact coherent_ite h fun _ => coherent_placeProbe (coherent_modLink _ h)
  | ackTimerExpiry b => exact coherent_ackTimerEnd b h
  | collision b => exact coherent_collide b h
  | resendStart b => exact coherent_startResend b h
  | sendingStart b | ackSendStart b | messageFrameEnd b | ackFrameEnd b | discardingEnd b _ | receptionBegins b
  | lineHighAfterCollision b => exact coherent_modLink _ h
  | ack b seq => exact coherent_ite h fun _ => coherent_matchAck seq (coherent_modLink _ h)
  | hello b seq payload => exact coherent_receive 1 true seq payload h fun _ => coherent_deliverHello payload
  | demand b seq payload => exact coherent_receive 2 false seq payload h fun _ => coherent_deliverDemand payload
  | release b seq payload => exact coherent_receive 3 false seq payload h fun _ => coherent_deliverRelease payload
  | trouble b seq payload => exact coherent_receive 4 false seq payload h fun _ => coherent_deliverTrouble payload
  | note b seq payload =>
    exact coherent_receive 5 false seq payload h fun _ k => coherent_wakeEvent _ (coherent_submit _ k)
  | badCheckFrame b header payload check =>
    exact coherent_ite h fun _ => coherent_countQuality _ (coherent_modLink _ h)
  | invalidFrame b header payload => exact coherent_ite h fun _ => coherent_countQuality _ (coherent_modLink _ h)
  | oversizeFrame b header => exact coherent_ite h fun _ => coherent_countQuality _ (coherent_modLink _ h)
  | abnormalEnd b high since => exact coherent_ite h fun _ => coherent_countQuality _ (coherent_modLink _ h)
  | preambleFailed b high since => exact coherent_ite h fun _ => coherent_modLink _ h
  | stablePeriodExpiryUnchanged i => exact h.ofViews (keeps_filterUnchanged i s) (view_filterUnchanged i s)

theorem view_tickBy (k : TickBases) (s : State) (b : BayId) : (tickBy k s).view b = s.view b := by
  have pg : ((s.bay b).inputs.tickFlt k s.inInit (faultThreshold (s.bay b).ctx.intent)).pgLevel
      = (s.bay b).inputs.pgLevel := by
    unfold BayInputs.tickFlt
    split <;> rfl
  unfold State.view State.stateOf
  rw [tickBy_bay]
  exact congrArg (BayView.mk _ _ _) pg

theorem coherent_step (taken : step s = .next t) (h : s.coherent) : t.coherent :=
  step_induction taken (h.ofViews (keeps_tickBy _ s) (view_tickBy _ s)) fun c _ =>
    coherent_effect c ⟨allOk_congr h.ok fun _ => rfl, h.rest⟩

/-- Settles O60: coherence as `coherent_step` has it, and the queue's order as one of the blocks' invariants. -/
theorem stepKeepsBaysAndQueue : Obligations.StepKeepsBaysAndQueue := fun _ _ taken =>
  ⟨fun bays init => coherent_iff.mp (coherent_step taken (coherent_iff.mpr ⟨bays, init⟩)),
    (keepsBlocks_step taken).order⟩

/-! ## The state after a full reset -/

theorem reset_bay (b : BayId) : State.reset.bay b = Bay.reset false false false false true := by
  simp [State.bay, State.reset]

theorem coherent_reset : State.reset.coherent :=
  coherent_of_resting fun b => by
    unfold State.view State.stateOf
    rw [reset_bay]
    rfl

theorem reset_bay_ok (b : BayId) : (State.reset.bay b).filterOk ∧ (State.reset.bay b).timerOk := by
  rw [reset_bay]
  exact Bay.fullReset_ok (Bay.reset false false false false true)

/-- Settles O6: the bays rest, and every other block is at figures that its invariant can be checked on. -/
theorem resetStateIsSound : Obligations.ResetStateIsSound :=
  have ⟨bays, init⟩ := coherent_iff.mp coherent_reset
  { window := ⟨.nil, nofun⟩
    charges := by
      unfold State.chargesOk
      decide
    positions := by
      unfold Journal.positionsOk
      decide
    loss := by
      unfold Journal.lossOk
      decide
    snapshot := by
      unfold State.snapshotOk
      decide
    pool := ⟨rfl, rfl, rfl, rfl, rfl⟩
    filters := fun b => (reset_bay_ok b).1
    timers := fun b => (reset_bay_ok b).2
    bays := bays
    order := .nil
    init := init }

end Sys2Proof.Machine

/-! The passing of time (log entry 1): what a tick leaves of each block; the statement O2. -/

namespace Sys2Proof.Machine

variable {s : State} {b : BayId}

theorem BayState.timed_iff (st : BayState) : st.timed = true ↔ st ∈ [.ramp, .settle, .drain, .cutoff, .rest] := by
  cases st <;> decide

theorem inInit_eq_true : s.inInit = true ↔ s.shelf.state = .init := beq_iff_eq

theorem inInit_eq_false : s.inInit = false ↔ s.shelf.state ≠ .init := beq_eq_false_iff_ne

theorem tickBases_oneMs (n : Nat) : (tickBases (n + Config.tick)).oneMs = decide (950 ≤ n) :=
  decide_eq_decide.mpr (show 1000 ≤ n + 50 ↔ 950 ≤ n by omega)

theorem tickBases_hundredUs (n : Nat) : (tickBases (n + Config.tick)).hundredUs = decide ((n + 50) % 100 = 0) := rfl

/-- A tick of the phase timer (R3). -/
theorem BayContext.tick_eq (outside : Bool) (c : BayContext) :
    c.tick outside = { c with
      phaseTimer := if c.state ∈ [.ramp, .settle, .drain, .cutoff, .rest] ∧ outside = false then c.phaseTimer - 50
        else c.phaseTimer } := by
  unfold BayContext.tick
  simp only [Bool.and_eq_true, Bool.not_eq_true', BayState.timed_iff]
  rfl

/-- Whether the tick counts FLT: on the base of 100 µs, outside INIT, with FLT asserted (R65). -/
theorem BayInputs.tickFlt_eq (k : TickBases) (init : Bool) (n : Nat) (i : BayInputs) (counts : Prop) [Decidable counts]
    (h : counts ↔ k.hundredUs = true ∧ init = false ∧ i.fltPin = true) (due : Bool) (ticks : Nat)
    (hdue : due = (i.fltTickDue && decide (i.fltTicks + 1 = n)))
    (hticks : ticks = if i.fltTickDue ∧ i.fltTicks + 1 < n then i.fltTicks + 1 else i.fltTicks) :
    i.tickFlt k init n = { i with
      fltTicks := if counts ∧ ticks + 1 < n then ticks + 1 else ticks
      fltTickDue := due || decide (counts ∧ ticks + 1 = n) } := by
  have settled : i.settleDue n = { i with fltTicks := ticks, fltTickDue := due } := by
    unfold BayInputs.settleDue
    rw [hdue, hticks]
    simp only [Bool.and_eq_true, decide_eq_true_eq]
    rfl
  unfold BayInputs.tickFlt
  rw [settled]
  simp only [Bool.and_eq_true, Bool.not_eq_true', and_assoc, ← h]
  by_cases hc : counts
  · simp only [hc, if_true, true_and]
    rfl
  · simp only [hc, if_false, false_and, decide_false, Bool.or_false]

theorem tick_bay (s : State) (b : BayId) :
    (tick s).bay b = (s.bay b).tick (tickBases (s.timeBase + Config.tick)) s.inInit := tickBy_bay _ s b

/-- Everything but the bays at a tick. -/
theorem tick_apart_bays (s : State) (down : Option Nat → Option Nat) (h : down = fun t => t.map (fun n => n - 50)) :
    { tick s with bays := s.bays } = { s with
      timeBase := if 950 ≤ s.timeBase then s.timeBase - 950 else s.timeBase + 50
      journal := { s.journal with
        shelfTime := if 950 ≤ s.timeBase then s.journal.shelfTime + 1 else s.journal.shelfTime
        holdoffTimer := down s.journal.holdoffTimer }
      shelf := { s.shelf with
        initTimer := down s.shelf.initTimer
        deadlineTimer := down s.shelf.deadlineTimer
        blink := { s.shelf.blink with remaining := down s.shelf.blink.remaining } }
      supply := { s.supply with timer := down s.supply.timer } } := by
  subst h
  have filled : s.timeBase + Config.tick - 1000 = s.timeBase - 950 := by
    show s.timeBase + 50 - 1000 = s.timeBase - 950
    omega
  unfold tick tickBy Journal.tick
  rw [tickBases_oneMs, filled]
  simp only [decide_eq_true_eq]
  rfl

/-- Settles O2: the bases of the tick, then each part of a bay by its lemma. -/
theorem emptyQueueLetsTimePass : Obligations.EmptyQueueLetsTimePass := by
  refine fun s down empty hdown => ⟨tick s, step_nil empty, tick_apart_bays s down hdown, ?_⟩
  subst hdown
  rintro b due n ticks rfl hdue hticks
  rw [intentOf_eq] at *
  rw [tick_bay]
  unfold Bay.tick BayInputs.tick
  rw [BayContext.tick_eq, BayInputs.tickFlt_eq (counts := (s.timeBase + 50) % 100 = 0 ∧ s.shelf.state ≠ .init
    ∧ (s.bay b).inputs.fltPin = true) (h := ?_) (hdue := hdue) (hticks := hticks)]
  · simp only [inInit_eq_false, and_assoc]
    rfl
  · rw [tickBases_hundredUs, decide_eq_true_eq, inInit_eq_false]

end Sys2Proof.Machine

/-! The two resets, block by block (R30, R31, R164, R190); the statements O4 and O5. -/

namespace Sys2Proof.Machine

variable {s : State} {b : BayId}

theorem SpiPort.abandon_eq (p : SpiPort) : p.abandon = if p = .idle then .idle else .ignoring := by
  cases p <;> rfl

theorem lampLit_of_init (h : s.shelf.state = .init) (b : BayId) : s.lampLit b = false := by
  unfold State.lampLit State.lampPattern
  rw [h]

theorem enOutput_eq (s : State) (b : BayId) : s.enOutput b = (s.bay b).ctx.state.en := rfl

/-- Settles O4: each block's reset value, with the pins and the line as they stood. -/
theorem fullResetResetsBlocks : Obligations.FullResetResetsBlocks := by
  intro s
  have init : (fullReset s).shelf.state = .init := rfl
  refine ⟨fullReset s, rfl, rfl, rfl, rfl, rfl, rfl, rfl, rfl, rfl, windowByte_of_init init, ?_, rfl, rfl, rfl,
    fun b => ⟨?_, lampLit_of_init init b, ?_⟩⟩
  · exact s.port.abandon_eq
  · rw [enOutput_eq, fullReset_bay]
    rfl
  · rw [fullReset_bay]
    rfl

theorem softReset_shelf (s : State) : (softReset s).shelf = {
    state := .init
    initTimer := if s.shelf.state = .init ∧ s.shelf.clearScope = .whole then some 2000 else some 1000
    clearScope := if s.shelf.state = .init ∧ s.shelf.clearScope = .whole then .whole else .partOwned
    context := ⟨.hold, 0, 0, 0, 0, 0, 0, false⟩, deadlineTimer := none, wakeBits := 0, snapStatus := .idle
    snapCount := 0, blink := ⟨true, 500, none, false⟩, applied := 0 } := by
  show softShelf s = _
  unfold softShelf
  simp only [inInit_eq_true]
  split <;> rfl

theorem softRest_eq (s : State) (b : BayId) : softRest s.inInit (s.bay b).ctx
    = if s.shelf.state = .init then (s.bay b).ctx.phaseTimer
      else if s.enOutput b then (s.intentOf b).restInterval * 10000 else 0 := by
  unfold softRest
  simp only [inInit_eq_true, ms, Nat.mul_assoc]
  rfl

/-- Beside the bays and the shelf. -/
theorem softReset_blocks (s : State) : (softReset s).pool = ⟨0, 0, 0, s.supply.confirmed, 0, 0, 0⟩
    ∧ (softReset s).queue = [] ∧ (softReset s).journal = ⟨0, false, 0, false, 0, false, false, 0, 0, none, none⟩
    ∧ (softReset s).attnPending = ⟨false, false, false, false⟩ ∧ (softReset s).attnEnable = s.attnEnable
    ∧ (softReset s).supply = s.supply ∧ (softReset s).window = s.window ∧ (softReset s).pending = s.pending
    ∧ (softReset s).timeBase = s.timeBase := by
  simp only [softReset, and_self, and_true]
  exact ⟨rfl, trivial, rfl, rfl⟩

theorem softReset_bay_eq (s : State) (b : BayId) : (softReset s).bay b = {
    ctx := {
      state := .rest
      phaseTimer := if s.shelf.state = .init then (s.bay b).ctx.phaseTimer
        else if s.enOutput b then (s.intentOf b).restInterval * 10000 else 0
      intent := ⟨.off, .auto, 0, 0, false, false, 0, 0, 0, 0, 0, 0, 0⟩, demand := none, pending := false
      basis := .demand, admissionStamp := 0, troubleHold := false, clearRequested := false }
    inputs := ⟨(s.bay b).inputs.presPin, some 20000, false, (s.bay b).inputs.latchPin, some 20000, false,
      (s.bay b).inputs.fltPin, 0, false, false, (s.bay b).inputs.pgLevel, 0⟩
    link := {
      linkState := .detached, lineState := .idle, lineHigh := (s.bay b).link.lineHigh, idleTime := 0, rxBuffer := []
      pendingAck := none, txList := [], inFlight := none, nextSequence := 0, lastSequence := 0, filterValid := false
      linkTimer := none, counters := ⟨0, 0, 0, 0⟩, reported := ⟨false, false, false, false⟩, txFrame := none }
    dialogue := ⟨none, if (s.bay b).dialogue.slotStatus ∈ [.posted, .sending] then .abandoned
      else (s.bay b).dialogue.slotStatus, 0, 0, 0, [0, 0, 0, 0, 0, 0, 0, 0]⟩
    charge := 0, grantedHold := 0, settledFrom := none, applied := 0, quiesceOutcome := .none
    resetOldState := if s.shelf.state = .init then (s.bay b).resetOldState else s.stateOf b
    owedParcel := if (s.parcelToAbandon b).isSome then s.parcelToAbandon b else (s.bay b).owedParcel } := by
  rw [softReset_bay]
  unfold Bay.softReset
  rw [dropped_eq, ← softRest_eq]
  simp only [inInit_eq_true]
  rfl

theorem spiKindOf_registerWrite : spiKindOf 0x40 = .registerWrite := by decide

/-- A whole register write transaction that the port takes. -/
theorem exec_registerWrite_ended {tx : SpiBytes} {i : Instr} (row : i ∈ registerWriteRows tx)
    (takes : s.takes .registerWrite tx) (ended : tx.ended = true) :
    exec i s = .next (setMiso (List.replicate (tx.bytes.length + 1) 0) (setPort .idle (takeRegisterWrite tx s))) := by
  rw [exec_registerWriteRows row]
  unfold registerWrite
  rw [spiKindOf_registerWrite, onPort_ended _ takes ended]

theorem takeRegisterWrite_of_soft {tx : SpiBytes} (soft : writesSoftReset tx = true) :
    takeRegisterWrite tx s = softReset (writeRegisters tx s) := if_pos soft

/-- Settles O5: a register write that sets SOFT_RESET leaves the soft reset of the state that its other bytes leave, and of
that state the reset reads nothing that they change. -/
theorem softResetResetsBlocks : Obligations.SoftResetResetsBlocks := by
  intro tx s takes ended soft i row
  have taken := exec_registerWrite_ended row takes ended
  rw [takeRegisterWrite_of_soft soft] at taken
  obtain ⟨pool, queue, journal, pending, enable, supply, window, waiting, timeBase⟩ :=
    softReset_blocks (writeRegisters tx s)
  have shelf := softReset_shelf (writeRegisters tx s)
  have bay := softReset_bay_eq (writeRegisters tx s)
  generalize softReset (writeRegisters tx s) = u at *
  refine ⟨_, taken, shelf, pool, queue, journal, pending, enable, supply, window, waiting, timeBase, rfl, rfl,
    fun b => ⟨?_, lampLit_of_init (congrArg Shelf.state shelf) b, bay b⟩⟩
  show (u.bay b).ctx.state.en = false
  rw [bay]
  rfl

end Sys2Proof.Machine

/-! Register writes, the registers and the pins (R185, R188 to R190); the statements O7 and O10. -/

namespace Sys2Proof.Machine

variable {s : State} {b : BayId} {tx : SpiBytes}

/-! ## What a register write writes (R188 to R190) -/

theorem writesOne_iff {hi lo : Byte} {data : List Byte} (h : tx.bytes = hi :: lo :: data) (x bit : Nat) (hx : x < 65536) :
    writesOne tx x bit = true ↔ 256 * hi.toNat + lo.toNat ≤ x
      ∧ (data.getD (x - (256 * hi.toNat + lo.toNat)) 0).getLsbD bit = true := by
  unfold writesOne
  rw [writtenAt_spiCollected hi lo data h x hx, List.getD_eq_getElem?_getD]
  split_ifs with reaches
  · cases data[x - (256 * hi.toNat + lo.toNat)]? <;> simp [reaches]
  · simp [reaches]

theorem spiCollected_of_no_address (h : tx.bytes.length < 2) : spiCollected tx = [] := by
  unfold spiCollected spiStart
  match hb : tx.bytes with
  | [] | [_] => rfl
  | _ :: _ :: _ =>
    rw [hb] at h
    simp at h

theorem takeRegisterWrite_of_not_soft (soft : writesSoftReset tx = false) :
    takeRegisterWrite tx s = writeRegisters tx s := if_neg (by simp [soft])

/-- Settles O7: each bit by the byte that `writtenAt` finds, and the transaction as the port takes it. -/
theorem registerWriteTakesItsBits : Obligations.RegisterWriteTakesItsBits := by
  refine ⟨?_, fun tx short => ?_, fun tx s takes ended soft i row => ?_⟩
  · rintro hi lo data tx a bytes rfl
    exact ⟨writesOne_iff bytes 6 1 (by omega), writesOne_iff bytes 6 2 (by omega), writesOne_iff bytes 6 3 (by omega),
      writtenAt_spiCollected hi lo data bytes 8 (by omega), writesOne_iff bytes 2 0 (by omega)⟩
  · unfold writesOverflow writesFault writesWake writtenEnable writesSoftReset writesOne
    rw [spiCollected_of_no_address short]
    exact ⟨rfl, rfl, rfl, rfl, rfl⟩
  · rw [exec_registerWrite_ended row takes ended, takeRegisterWrite_of_not_soft soft]
    unfold writeRegisters clearCauses writeEnable
    cases writtenEnable tx <;> rfl

/-! ## The registers (10, section 10.2) -/

/-- The four causes stand side by side in a register's lowest bits. -/
theorem Causes.toNat_word (c : Causes) :
    c.word.toNat = bitOf c.journal + 2 * (bitOf c.overflow + 2 * (bitOf c.fault + 2 * bitOf c.wake)) := by
  have journal := bitOf_lt_two c.journal
  have overflow := bitOf_lt_two c.overflow
  have fault := bitOf_lt_two c.fault
  have wake := bitOf_lt_two c.wake
  show (BitVec.ofNat 16 _).toNat = _
  rw [BitVec.toNat_ofNat, Nat.mod_eq_of_lt] <;> simp only [ofBits, List.foldr] <;> omega

theorem Causes.word_bits (c : Causes) : c.word.getLsbD 0 = c.journal ∧ c.word.getLsbD 1 = c.overflow
    ∧ c.word.getLsbD 2 = c.fault ∧ c.word.getLsbD 3 = c.wake ∧ c.word.extractLsb' 4 12 = 0 := by
  have word := c.toNat_word
  have journal := bitOf_lt_two c.journal
  have overflow := bitOf_lt_two c.overflow
  have fault := bitOf_lt_two c.fault
  have wake := bitOf_lt_two c.wake
  refine ⟨getLsbD_eq_of_div_mod_eq_bitOf (by omega), getLsbD_eq_of_div_mod_eq_bitOf (by omega),
    getLsbD_eq_of_div_mod_eq_bitOf (by omega), getLsbD_eq_of_div_mod_eq_bitOf (by omega), BitVec.eq_of_toNat_eq ?_⟩
  rw [toNat_extractLsb'_eq_div_mod]
  show _ = 0
  omega

theorem register_of_ge (s : State) {a : Nat} (h : 10 ≤ a) : s.register a = 0 := by
  match a with
  | n + 10 => rfl

theorem registerByte_of_ge (s : State) {a : Nat} (h : 10 ≤ a) : s.registerByte a = 0 := by
  rcases Nat.mod_two_eq_zero_or_one a with even | odd
  · rw [registerByte_of_even s even, register_of_ge s h]
    rfl
  · obtain ⟨n, rfl⟩ : ∃ n, a = n + 1 := ⟨a - 1, by omega⟩
    rw [registerByte_succ_of_even s (by omega), register_of_ge s (by omega)]
    rfl

theorem exists_lt_four {p : Nat → Prop} : (∃ k, k < 4 ∧ p k) ↔ p 0 ∨ p 1 ∨ p 2 ∨ p 3 := by
  constructor
  · rintro ⟨k, hk, h⟩
    interval_cases k <;> simp [h]
  · rintro (h | h | h | h)
    · exact ⟨0, by omega, h⟩
    · exact ⟨1, by omega, h⟩
    · exact ⟨2, by omega, h⟩
    · exact ⟨3, by omega, h⟩

theorem BayState.en_iff (st : BayState) : st.en = true ↔ st ∈ [.ramp, .settle, .on, .drain] := by
  cases st <;> decide

/-- ID reads 1610h, low byte first (R188). -/
theorem registerByte_id (s : State) : s.registerByte 0 = 0x10 ∧ s.registerByte 1 = 0x16 := by
  have id : s.register 0 = Config.idValue := rfl
  rw [registerByte_of_even s rfl, registerByte_succ_of_even s (a := 0) rfl, id]
  decide

/-- CONTROL reads 0000h (R190). -/
theorem registerByte_control (s : State) : s.registerByte 2 = 0 ∧ s.registerByte 3 = 0 := by
  have control : s.register 2 = 0 := rfl
  rw [registerByte_of_even s rfl, registerByte_succ_of_even s (a := 2) rfl, control]
  decide

/-- Settles O10: the registers by their numbers, ATTN by the bits of the two cause registers. -/
theorem registersAndAttn : Obligations.RegistersAndAttn := by
  intro s
  obtain ⟨p0, p1, p2, p3, pRest⟩ := s.attnPending.word_bits
  obtain ⟨e0, e1, e2, e3, eRest⟩ := s.attnEnable.word_bits
  obtain ⟨id, idHigh⟩ := registerByte_id s
  obtain ⟨control, controlHigh⟩ := registerByte_control s
  refine ⟨id, idHigh, control, controlHigh, p0, p1, p2, p3, pRest, e0, e1, e2, e3, eRest, fun a ha => ?_,
    fun a => registerByte_of_ge s, ?_, fun b => (s.stateOf b).en_iff, bne_eq_false_iff_eq⟩
  · have even : a % 2 = 0 := by
      simp only [List.mem_cons, List.not_mem_nil, or_false] at ha
      omega
    exact ⟨registerByte_of_even s even, registerByte_succ_of_even s even⟩
  · rw [exists_lt_four]
    show _ ↔ (s.attnPending.word.getLsbD 0 = true ∧ s.attnEnable.word.getLsbD 0 = true)
      ∨ (s.attnPending.word.getLsbD 1 = true ∧ s.attnEnable.word.getLsbD 1 = true)
      ∨ (s.attnPending.word.getLsbD 2 = true ∧ s.attnEnable.word.getLsbD 2 = true)
      ∨ (s.attnPending.word.getLsbD 3 = true ∧ s.attnEnable.word.getLsbD 3 = true)
    rw [p0, p1, p2, p3, e0, e1, e2, e3]
    simp only [State.attnAsserted, Bool.or_eq_true, Bool.and_eq_true, or_assoc]

end Sys2Proof.Machine

/-! The filters of the input pins (R61), the timers of the shelf and the lamps (R75 to R78, R157); the statements O25 and
O39. -/

namespace Sys2Proof.Machine

variable {s : State} {b : BayId}

theorem presDue_of (outside : s.shelf.state ≠ .init) (run : (s.bay b).inputs.presTimer = some 0) :
    s.presDue b = true := by
  simp [State.presDue, inInit_eq_false.mpr outside, run]

theorem latchDue_of (outside : s.shelf.state ≠ .init) (run : (s.bay b).inputs.latchTimer = some 0) :
    s.latchDue b = true := by
  simp [State.latchDue, inInit_eq_false.mpr outside, run]

/-- Settles O25: each expiry is due under the statement's hypotheses. -/
theorem stableFilters : Obligations.StableFilters :=
  fun _ _ => ⟨fun _ => rfl, fun _ => rfl, rfl,
    fun _ outside run same => congrArg Host.Outcome.next (if_pos ⟨presDue_of outside run, same⟩),
    fun _ outside run same => congrArg Host.Outcome.next (if_pos ⟨latchDue_of outside run, same⟩),
    fun run same => congrArg Host.Outcome.next (if_pos ⟨run, same⟩)⟩

theorem ms_blinkLength (c : ShelfContext) :
    ms (blinkLength c) = if c.blinkHalfPeriod = 0 then 500000 else c.blinkHalfPeriod * 10000 := by
  unfold blinkLength ms
  split
  · rfl
  · omega

theorem BlinkTimer.halfway_iff (t : BlinkTimer) (n : Nat) (h : t.remaining = some n) :
    t.halfway = true ↔ 2 * n ≤ t.length * 1000 := by
  unfold BlinkTimer.halfway
  rw [h]
  exact decide_eq_true_iff

/-- Outside INIT and STANDBY a lamp goes by its committed field (R75). -/
theorem lampPattern_of_awake (h : s.shelf.state ∈ [.held, .run, .quiescing]) (b : BayId) :
    s.lampPattern b = match (s.intentOf b).lamp with
      | .off => .dark
      | .on => .lit
      | .blink => .blink
      | .auto => (s.stateOf b).autoPattern := by
  unfold State.lampPattern
  cases hs : s.shelf.state <;> simp_all <;> rfl

/-- Settles O39: the timers by their guards, the lamps by their patterns. -/
theorem shelfTimers : Obligations.ShelfTimers := by
  intro s
  refine ⟨fun run => congrArg Host.Outcome.next (if_pos run), fun run => ?_, fun n run past => ?_, fun n run before => ?_,
    fun b dark => ?_, fun b awake => ?_⟩
  · rw [← ms_blinkLength]
    exact congrArg Host.Outcome.next (if_pos run)
  · exact congrArg Host.Outcome.next (if_pos ((s.shelf.blink.halfway_iff n run).mpr past))
  · exact congrArg Host.Outcome.next (if_neg fun half => absurd ((s.shelf.blink.halfway_iff n run).mp half) (by omega))
  · unfold State.lampLit State.lampPattern
    cases hs : s.shelf.state <;> simp_all
  · unfold State.lampLit
    rw [lampPattern_of_awake awake]
    refine ⟨fun lamp => by rw [lamp], fun lamp => by rw [lamp], fun lamp => by rw [lamp], fun lamp => ?_⟩
    rw [lamp]
    cases s.stateOf b <;> simp [BayState.autoPattern]

end Sys2Proof.Machine

/-! The command byte, and the transactions that change the port and MISO alone (R164, R185 to R188); the statement O8. -/

namespace Sys2Proof.Machine

variable {s : State} {tx : SpiBytes} {t : Transfer} {k : SpiKind} {n : Nat} {read : Nat → Byte}

/-! ## The command byte (R185) -/

theorem spiKindOf_known : spiKindOf 0x00 = .windowWrite ∧ spiKindOf 0x80 = .windowRead
    ∧ spiKindOf 0x40 = .registerWrite ∧ spiKindOf 0xC0 = .registerRead := by decide

/-- A command byte with bits 0 to 5 zero is one of the four known ones. -/
theorem known_of_low_bits_zero {c : Byte} (h : c.extractLsb' 0 6 = 0#6) : c ∈ [(0x00 : Byte), 0x80, 0x40, 0xC0] := by
  have low : c.toNat % 64 = 0 := by
    have := congrArg BitVec.toNat h
    rwa [toNat_extractLsb'_eq_div_mod, Nat.pow_zero, Nat.div_one] at this
  have four : c.toNat = 0 ∨ c.toNat = 0x80 ∨ c.toNat = 0x40 ∨ c.toNat = 0xC0 := by
    have := c.isLt
    omega
  simp only [List.mem_cons, List.not_mem_nil, or_false]
  exact four.imp BitVec.eq_of_toNat_eq
    (Or.imp BitVec.eq_of_toNat_eq (Or.imp BitVec.eq_of_toNat_eq BitVec.eq_of_toNat_eq))

theorem spiKindOf_unknown {c : Byte} (h : c ∉ [(0x00 : Byte), 0x80, 0x40, 0xC0]) : spiKindOf c = .unknown :=
  if_neg fun low => h (known_of_low_bits_zero low)

theorem commandOf_eq (c : Byte) (tx : SpiBytes) : commandOf c tx
    = if c = 0x00 then .windowWrite tx else if c = 0x80 then .windowRead tx
      else if c = 0x40 then registerWriteOf tx else if c = 0xC0 then .registerRead tx
      else .unknownCommand (some c) tx := by
  obtain ⟨windowWrite, windowRead, registerWrite, registerRead⟩ := spiKindOf_known
  unfold commandOf
  split_ifs with h0 h1 h2 h3
  · rw [h0, windowWrite]
  · rw [h1, windowRead]
  · rw [h2, registerWrite]
  · rw [h3, registerRead]
  · rw [spiKindOf_unknown fun known => by
      simp only [List.mem_cons, List.not_mem_nil, or_false] at known
      exact known.elim h0 (Or.rec h1 (Or.rec h2 h3))]

theorem registerWriteOf_mem (tx : SpiBytes) : registerWriteOf tx ∈ registerWriteRows tx := by
  unfold registerWriteOf
  split_ifs <;> simp [registerWriteRows]

/-- The row that is picked is the row of the bits that are written. -/
theorem wellFormed_registerWriteOf (h : tx.wellFormed = true) : (registerWriteOf tx).wellFormed = true := by
  unfold registerWriteOf
  split_ifs with soft overflow fault wake enable
  · simp [Instr.wellFormed, h, soft]
  · simp [Instr.wellFormed, h, overflow]
  · simp [Instr.wellFormed, h, fault]
  · simp [Instr.wellFormed, h, wake]
  · simp [Instr.wellFormed, h, enable]
  · simp [Instr.wellFormed, h, writesSomething, soft, overflow, fault, wake, enable]

theorem wellFormed_transactionOf (bytes : List Byte) (n : Nat) (e : Bool) (h : n < 8) :
    (transactionOf bytes n e).wellFormed = true := by
  have bits : ∀ rest, (SpiBytes.mk rest n e).wellFormed = true := fun _ => decide_eq_true h
  cases bytes with
  | nil => simp [transactionOf, Instr.wellFormed, bits]
  | cons c rest =>
    show (commandOf c _).wellFormed = true
    unfold commandOf
    split
    · exact bits rest
    · exact bits rest
    · exact wellFormed_registerWriteOf (bits rest)
    · exact bits rest
    · next unknown => simp [Instr.wellFormed, bits, unknown]

/-! ## Reads (R187, R188) -/

/-- A read command with the size of its groups and what its bytes read as. -/
def readsAs (i : Instr) (tx : SpiBytes) (s : State) (k : SpiKind) (n : Nat) (read : Nat → Byte) : Prop :=
  (i = .windowRead tx ∧ k = .windowRead ∧ n = 8 ∧ read = s.windowByte)
    ∨ (i = .registerRead tx ∧ k = .registerRead ∧ n = 2 ∧ read = s.registerByte)

/-- The port takes a command into a transfer: a fresh one, or the one in progress. -/
def State.joins (s : State) (k : SpiKind) (tx : SpiBytes) (t : Transfer) : Prop :=
  ((s.port = .idle ∨ s.port = .selected) ∧ t = ⟨k, [], [], none⟩) ∨ (s.port = .active t ∧ t.kind = k ∧ t.bytes <+: tx.bytes)

theorem exec_read {i : Instr} (h : readsAs i tx s k n read) (joins : s.joins k tx t) :
    exec i s = .next (readTransfer n tx read t s) := by
  obtain ⟨-, windowRead, -, registerRead⟩ := spiKindOf_known
  rcases h with ⟨rfl, rfl, rfl, rfl⟩ | ⟨rfl, rfl, rfl, rfl⟩
  · show Host.Outcome.next (onPort (spiKindOf 0x80) tx _ s) = _
    rw [windowRead, onPort_joined _ joins]
  · show Host.Outcome.next (onPort (spiKindOf 0xC0) tx _ s) = _
    rw [registerRead, onPort_joined _ joins]

theorem spiReadAddresses_short (h : tx.bytes.length ≤ 3) : spiReadAddresses tx = [] := by
  unfold spiReadAddresses
  rw [Nat.sub_eq_zero_of_le h]
  split <;> rfl

theorem spiReadAddresses_eq {hi lo x : Byte} {data : List Byte} (h : tx.bytes = hi :: lo :: x :: data) :
    spiReadAddresses tx = (List.range data.length).map (fun i => 256 * hi.toNat + lo.toNat + i) := by
  unfold spiReadAddresses spiStart
  rw [h]
  rfl

/-- What a read has returned once all its addresses are answered. -/
theorem readOn_of_answered (h : (spiReadAddresses tx).drop t.data.length = []) :
    t.readOn n read tx = ({ t with bytes := tx.bytes } : Transfer).readBegun n read tx := by
  unfold Transfer.readOn
  rw [h]
  rfl

theorem readOn_data : (t.readOn n read tx).data
    = (readGroups n read ((spiReadAddresses tx).drop t.data.length) { t with bytes := tx.bytes }).data :=
  (readBegun_data n read tx _).1

theorem misoOfRead_short {data : List Byte} (h : tx.bytes.length ≤ 3) (hd : data = []) :
    misoOfRead tx data = List.replicate (tx.bytes.length + 1) 0 := by
  unfold misoOfRead
  rw [hd, List.append_nil, Nat.min_eq_right (by omega)]

theorem misoOfRead_long {hi lo x : Byte} {rest : List Byte} (h : tx.bytes = hi :: lo :: x :: rest) (data : List Byte) :
    misoOfRead tx data = [0, 0, 0, 0] ++ data := by
  unfold misoOfRead
  rw [Nat.min_eq_left (by rw [h]; simp)]
  rfl

/-- A read that has come to no data byte returns nothing (R185). -/
theorem exec_read_short {i : Instr} (h : readsAs i tx s k n read) (free : s.port = .idle ∨ s.port = .selected)
    (short : tx.bytes.length ≤ 3) :
    (tx.ended = true → exec i s = .next (setMiso (List.replicate (tx.bytes.length + 1) 0) (setPort .idle s)))
    ∧ (tx.ended = false → tx.extraBits = 0 ∨ tx.bytes.length ≤ 2 → exec i s
      = .next (setMiso (List.replicate (tx.bytes.length + 1) 0) (setPort (.active ⟨k, tx.bytes, [], none⟩) s))) := by
  have answered : (spiReadAddresses tx).drop (Transfer.mk k [] [] none).data.length = [] := by
    rw [spiReadAddresses_short short]
    rfl
  have data : ((Transfer.mk k [] [] none).readOn n read tx).data = [] := by
    rw [readOn_data, answered]
    rfl
  rw [exec_read h (.inl ⟨free, rfl⟩)]
  unfold readTransfer portAfter
  rw [misoOfRead_short short data]
  refine ⟨fun ended => by rw [if_pos ended], fun goes begun => ?_⟩
  rw [if_neg (by simp [goes]), readOn_of_answered answered, readBegun_none n read _ begun]

/-- A whole read returns the bytes as they stand (R185 to R188). -/
theorem exec_read_whole {i : Instr} (h : readsAs i tx s k n read) (free : s.port = .idle ∨ s.port = .selected)
    {hi lo x : Byte} {data : List Byte} (hb : tx.bytes = hi :: lo :: x :: data) (ended : tx.ended = true) :
    exec i s = .next (setMiso ([0, 0, 0, 0]
      ++ (List.range data.length).map (fun i => read (256 * hi.toNat + lo.toNat + i))) (setPort .idle s)) := by
  have size : 0 < n := by rcases h with ⟨-, -, rfl, -⟩ | ⟨-, -, rfl, -⟩ <;> decide
  rw [exec_read h (.inl ⟨free, rfl⟩)]
  unfold readTransfer portAfter
  rw [if_pos ended, misoOfRead_long hb, readOn_data, readGroups_data n size read _ _ (by simp), spiReadAddresses_eq hb,
    List.nil_append, List.length_nil, List.drop_zero, List.map_map]
  rfl

/-- One more byte of a read in progress: its group is the one that the port holds or takes now, and the byte that has begun
behind it brings the next group where it needs another (R187, R188). -/
theorem exec_read_byte {i : Instr} (h : readsAs i tx s t.kind n read) (active : s.port = .active t)
    {hi lo x y : Byte} {data : List Byte} {a : Nat} {g g1 : HeldGroup} (hb : t.bytes = hi :: lo :: x :: data)
    (hd : t.data.length = data.length) (htx : tx.bytes = t.bytes ++ [y])
    (ha : a = 256 * hi.toNat + lo.toNat + data.length) (hg : groupFor n read t.held a = g)
    (hg1 : g1 = if tx.extraBits = 0 ∨ g.index = (a + 1) / n then g
      else ⟨(a + 1) / n, (List.range n).map (fun k => read (n * ((a + 1) / n) + k))⟩) :
    exec i s = .next (setMiso ([0, 0, 0, 0] ++ (t.data ++ [g.bytes.getD (a % n) 0]))
      (setPort (if tx.ended then .idle
        else .active { t with bytes := tx.bytes, data := t.data ++ [g.bytes.getD (a % n) 0], held := some g1 }) s)) := by
  have bytes : tx.bytes = hi :: lo :: x :: (data ++ [y]) := by rw [htx, hb]; rfl
  have address : (spiReadAddresses tx).drop t.data.length = [a] := by
    rw [spiReadAddresses_eq bytes, hd, List.length_append, List.length_singleton, List.range_succ, List.map_append,
      List.drop_left' (by simp), ha]
    rfl
  have on : t.readOn n read tx
      = { t with bytes := tx.bytes, data := t.data ++ [g.bytes.getD (a % n) 0], held := some g1 } := by
    unfold Transfer.readOn
    rw [address]
    show Transfer.readBegun n read tx { t with
      bytes := tx.bytes, data := t.data ++ [byteAt (groupFor n read t.held a).bytes (a % n)]
      held := some (groupFor n read t.held a) } = _
    rw [hg, hg1]
    by_cases begun : tx.extraBits = 0
    · rw [readBegun_none n read _ (.inl begun), if_pos (.inl begun)]
      rfl
    · have next : 256 * hi.toNat + lo.toNat + (data ++ [y]).length = a + 1 := by
        rw [ha, List.length_append, List.length_singleton]
        omega
      rw [readBegun_some n read _ bytes begun, next]
      simp only [begun, false_or]
      rfl
  rw [exec_read h (.inr ⟨active, rfl, htx ▸ List.prefix_append _ _⟩)]
  unfold readTransfer portAfter
  rw [on, misoOfRead_long bytes]

/-- A byte of a read that has begun brings its group where the port does not hold it (R187, R188). -/
theorem exec_read_begun {i : Instr} (h : readsAs i tx s t.kind n read) (joins : s.joins t.kind tx t)
    {hi lo x : Byte} {data : List Byte} {a : Nat} {g : HeldGroup} (hb : tx.bytes = hi :: lo :: x :: data)
    (hd : t.data.length = data.length) (begun : tx.extraBits ≠ 0) (goes : tx.ended = false)
    (ha : a = 256 * hi.toNat + lo.toNat + data.length) (hg : groupFor n read t.held a = g) :
    exec i s = .next (setMiso ([0, 0, 0, 0] ++ t.data)
      (setPort (.active { t with bytes := tx.bytes, held := some g }) s)) := by
  have answered : (spiReadAddresses tx).drop t.data.length = [] := by
    rw [spiReadAddresses_eq hb, hd]
    simp
  have on : t.readOn n read tx = { t with bytes := tx.bytes, held := some g } := by
    rw [readOn_of_answered answered, readBegun_some n read _ hb begun, ← ha]
    show ({ t with bytes := tx.bytes, held := some (groupFor n read t.held a) } : Transfer) = _
    rw [hg]
  rw [exec_read h joins]
  unfold readTransfer portAfter
  rw [on, misoOfRead_long hb, if_neg (by simp [goes])]

/-! ## Writes -/

/-- A command of a transaction that writes, with its kind and its effect as CSn rises. -/
def writesAs (i : Instr) (tx : SpiBytes) (k : SpiKind) (effect : State → State) : Prop :=
  (i = .windowWrite tx ∧ k = .windowWrite ∧ effect = windowWrite (windowCollected tx))
    ∨ (i ∈ registerWriteRows tx ∧ k = .registerWrite ∧ effect = takeRegisterWrite tx)
    ∨ (∃ c, i = .unknownCommand (some c) tx ∧ spiKindOf c = .unknown ∧ k = .unknown ∧ effect = id)

theorem exec_write {i : Instr} {f : State → State} (h : writesAs i tx k f) (s : State) :
    exec i s = .next (onPort k tx (writeTransfer tx f) s) := by
  obtain ⟨windowWrite, -, registerWrite, -⟩ := spiKindOf_known
  rcases h with ⟨rfl, rfl, rfl⟩ | ⟨row, rfl, rfl⟩ | ⟨c, rfl, unknown, rfl, rfl⟩
  · show Host.Outcome.next (onPort (spiKindOf 0x00) tx _ s) = _
    rw [windowWrite]
  · rw [exec_registerWriteRows row]
    unfold Machine.registerWrite
    rw [registerWrite]
  · show Host.Outcome.next (unknownTransfer (some c) tx s) = _
    exact congrArg Host.Outcome.next (if_pos unknown)

/-- A write that goes on changes the port and MISO alone (R185; log entry 10). -/
theorem exec_write_goes_on {i : Instr} {f : State → State} (h : writesAs i tx k f) (joins : s.joins k tx t)
    (goes : tx.ended = false) : exec i s
      = .next (setMiso (List.replicate (tx.bytes.length + 1) 0) (setPort (.active { t with bytes := tx.bytes }) s)) := by
  rw [exec_write h, onPort_joined _ joins]
  unfold writeTransfer portAfter
  rw [if_neg (by simp [goes]), if_neg (by simp [goes])]
  rfl

/-- After a full reset the port takes nothing until CSn rises (R185, log entry 48). -/
theorem onPort_ignoring (act : Transfer → State → State) (h : s.port = .ignoring) :
    onPort k tx act s = if tx.ended then setPort .idle s else s := by
  unfold onPort SpiPort.joined
  rw [h]
  simp

theorem exec_ignoring (i : Instr) (h : s.port = .ignoring)
    (hi : i ∈ [Instr.windowWrite tx, .windowRead tx, .registerRead tx] ∨ i ∈ registerWriteRows tx
      ∨ (∃ c, i = .unknownCommand (some c) tx ∧ spiKindOf c = .unknown) ∨ i = .unknownCommand none tx) :
    exec i s = .next (if tx.ended then setPort .idle s else s) := by
  rcases hi with kinds | row | ⟨c, rfl, unknown⟩ | rfl
  · simp only [List.mem_cons, List.not_mem_nil, or_false] at kinds
    rcases kinds with rfl | rfl | rfl <;> exact congrArg Host.Outcome.next (onPort_ignoring _ h)
  · rw [exec_write (.inr (.inl ⟨row, rfl, rfl⟩)), onPort_ignoring _ h]
  · rw [exec_write (.inr (.inr ⟨c, rfl, unknown, rfl, rfl⟩)), onPort_ignoring _ h]
  · show Host.Outcome.next (portSelected tx.ended s) = _
    unfold portSelected
    rw [h]

/-- Settles O8: each clause is the lemma above that says it, for both kinds of read and for the three kinds of write. -/
theorem transactionsWithoutEffect : Obligations.TransactionsWithoutEffect := by
  intro s
  obtain ⟨windowWrite, windowRead, registerWrite, registerRead⟩ := spiKindOf_known
  refine ⟨⟨windowWrite, windowRead, registerWrite, registerRead, fun c => spiKindOf_unknown⟩,
    fun c rest n e => commandOf_eq c _, fun _ _ => rfl, wellFormed_transactionOf, registerWriteOf_mem,
    fun tx free => congrArg Host.Outcome.next (portSelected_free tx.ended free),
    fun bytes n short free => ?short, fun hi lo x data n free => ?whole,
    fun i tx t hi lo x y data a n read g g1 kind active hb hd htx ha hg hg1 => ?byte,
    fun i tx t hi lo x data a n read g kind port hb hd begun goes ha hg => ?begun,
    fun c tx unknown takes ended => ?unknown, fun tx takes ended drops => ?dropped,
    fun i k tx t goes kind port => ?goesOn, fun i tx ignoring kinds => exec_ignoring i ignoring kinds⟩
  case short =>
    have window := fun e => exec_read_short (tx := ⟨bytes, n, e⟩) (.inl ⟨rfl, rfl, rfl, rfl⟩) free short
    have register := fun e => exec_read_short (tx := ⟨bytes, n, e⟩) (.inr ⟨rfl, rfl, rfl, rfl⟩) free short
    exact ⟨(window true).1 rfl, (register true).1 rfl, fun begun => ⟨(window false).2 rfl begun, (register false).2 rfl begun⟩⟩
  case whole =>
    exact ⟨exec_read_whole (.inl ⟨rfl, rfl, rfl, rfl⟩) free rfl rfl, exec_read_whole (.inr ⟨rfl, rfl, rfl, rfl⟩) free rfl rfl⟩
  case byte => exact exec_read_byte kind active hb hd htx ha (groupFor_eq hg) hg1
  case begun =>
    refine exec_read_begun kind ?_ hb hd begun goes ha (groupFor_eq hg)
    rcases port with ⟨free, bytes, data, held⟩ | ⟨active, goesOn⟩
    · exact .inl ⟨free, by
        cases t
        simp_all⟩
    · exact .inr ⟨active, rfl, goesOn⟩
  case unknown =>
    rw [exec_write (.inr (.inr ⟨c, rfl, unknown, rfl, rfl⟩)), onPort_ended _ takes ended]
    rfl
  case dropped =>
    rw [exec_write (.inl ⟨rfl, rfl, rfl⟩), onPort_ended _ takes ended]
    unfold Machine.windowWrite
    rw [if_pos drops]
  case goesOn =>
    rcases kind with ⟨rfl, rfl⟩ | ⟨row, rfl⟩ | ⟨c, rfl, unknown, rfl⟩
    · exact exec_write_goes_on (.inl ⟨rfl, rfl, rfl⟩) port goes
    · exact exec_write_goes_on (.inr (.inl ⟨row, rfl, rfl⟩)) port goes
    · exact exec_write_goes_on (.inr (.inr ⟨c, rfl, unknown, rfl, rfl⟩)) port goes

end Sys2Proof.Machine

/-! The Shared Window as a read sees it, area by area (R109, R129, R142, R146, R176, R177, R187); the statement O12. -/

namespace Sys2Proof.Machine

variable {s : State} {b : BayId}

/-! ## Areas by ranges of addresses (10, section 10.4) -/

theorem areaOf_shelf {a : Nat} (h : a < 0x40) : areaOf a = .shelf a := if_pos h

theorem areaOf_journalControl {a : Nat} (h1 : 0x40 ≤ a) (h2 : a < 0x60) : areaOf a = .journalControl (a - 0x40) := by
  unfold areaOf
  rw [if_neg (by omega), if_pos h2]
  rfl

theorem areaOf_status_range {a : Nat} (h1 : 0x60 ≤ a) (h2 : a < 0xE0) : ∃ b o, areaOf a = .status b o := by
  unfold areaOf
  rw [if_neg (by omega), if_neg (by omega), if_pos h2]
  exact ⟨_, _, rfl⟩

theorem areaOf_directory_range {a : Nat} (h1 : 0x800 ≤ a) (h2 : a < 0xA00) : ∃ b o, areaOf a = .directory b o := by
  unfold areaOf
  rw [if_neg (by omega), if_neg (by omega), if_neg (by omega), if_neg (by omega), if_neg (by omega), if_neg (by omega),
    if_pos h2]
  exact ⟨_, _, rfl⟩

theorem areaOf_ring {a : Nat} (h1 : 0x1000 ≤ a) (h2 : a < 0x2000) : areaOf a = .ring (a - 0x1000) := by
  unfold areaOf
  rw [if_neg (by omega), if_neg (by omega), if_neg (by omega), if_neg (by omega), if_neg (by omega), if_neg (by omega),
    if_neg (by omega), if_neg (by omega), if_pos h2]
  rfl

theorem areaOf_noArea {a : Nat} (h : (0xE0 ≤ a ∧ a < 0x100) ∨ (0xA00 ≤ a ∧ a < 0x1000) ∨ 0x2000 ≤ a) :
    areaOf a = .noArea := by
  unfold areaOf
  rw [if_neg (by omega), if_neg (by omega), if_neg (by omega)]
  split_ifs
  any_goals omega
  all_goals rfl

/-! ## Bytes by area -/

theorem windowByte_of_outside (h : s.shelf.state ≠ .init) (a : Nat) : s.windowByte a = s.storedByte a := if_neg h

theorem windowByte_shelf (h : s.shelf.state ≠ .init) {o : Nat} (ho : o < 0x40) :
    s.windowByte o = (s.shelfField o).getD (if o ≤ 0x0F then Memory.read s.window o else 0) := by
  rw [windowByte_of_outside h]
  unfold State.storedByte
  rw [areaOf_shelf ho]

theorem windowByte_journalControl (h : s.shelf.state ≠ .init) {a : Nat} (h1 : 0x40 ≤ a) (h2 : a < 0x60) :
    s.windowByte a = s.journal.controlByte (a - 0x40) := by
  rw [windowByte_of_outside h]
  unfold State.storedByte
  rw [areaOf_journalControl h1 h2]

theorem windowByte_status (h : s.shelf.state ≠ .init) {a : Nat} (o : Nat) (ho : o < 8) (ha : a = 0x60 + 8 * b.val + o) :
    s.windowByte a = (s.bay b).statusByte o := by
  rw [windowByte_of_outside h]
  unfold State.storedByte
  rw [ha, areaOf_status b o ho]

theorem windowByte_intent (h : s.shelf.state ≠ .init) {o : Nat} (ho : o < 64) : s.windowByte (intentAddr b o)
    = if o = 3 then (s.bay b).applied else if o ≤ 0x12 then Memory.read s.window (intentAddr b o) else 0 := by
  rw [windowByte_of_outside h]
  unfold State.storedByte
  rw [areaOf_intent b o ho]

theorem windowByte_outbox (h : s.shelf.state ≠ .init) {o : Nat} (ho : o < 48) : s.windowByte (outboxAddr b o)
    = if o = 0 then byteOf (s.bay b).dialogue.slotStatus.code
      else if o ≤ 0x21 then Memory.read s.window (outboxAddr b o) else 0 := by
  rw [windowByte_of_outside h]
  unfold State.storedByte
  rw [areaOf_outbox b o ho]

theorem windowByte_directory (h : s.shelf.state ≠ .init) {a : Nat} (o : Nat) (ho : o < 32)
    (ha : a = 0x800 + 32 * b.val + o) : s.windowByte a = (s.bay b).directoryByte o := by
  rw [windowByte_of_outside h]
  unfold State.storedByte
  rw [ha, areaOf_directory b o ho]

theorem windowByte_ring (h : s.shelf.state ≠ .init) {a : Nat} (h1 : 0x1000 ≤ a) (h2 : a < 0x2000) :
    s.windowByte a = Memory.read s.window a := by
  rw [windowByte_of_outside h]
  unfold State.storedByte
  rw [areaOf_ring h1 h2]

theorem windowByte_noArea (h : s.shelf.state ≠ .init) {a : Nat}
    (ha : (0xE0 ≤ a ∧ a < 0x100) ∨ (0xA00 ≤ a ∧ a < 0x1000) ∨ 0x2000 ≤ a) : s.windowByte a = 0 := by
  rw [windowByte_of_outside h]
  unfold State.storedByte
  rw [areaOf_noArea ha]

/-! ## Single fields -/

theorem shelfField_none {o : Nat} (h : o ≤ 0x0F ∨ o = 0x19 ∨ 0x1C ≤ o) : s.shelfField o = none := by
  unfold State.shelfField
  split
  any_goals omega
  rfl

theorem controlByte_none (j : Journal) {o : Nat} (h : 0x0B ≤ o) : j.controlByte o = 0 := by
  unfold Journal.controlByte
  split
  any_goals omega
  rfl

theorem directoryByte_none (y : Bay) {o : Nat} (h : 0x11 ≤ o) : y.directoryByte o = 0 := by
  unfold Bay.directoryByte
  rw [if_neg (by omega)]
  split
  any_goals omega
  rfl

theorem directoryByte_identity (y : Bay) {i : Nat} (h : i < 8) :
    y.directoryByte (4 + i) = y.dialogue.identity.getD i 0 := by
  unfold Bay.directoryByte
  rw [if_pos (by omega), Nat.add_sub_cancel_left]
  rfl

theorem byteOf_bitOf (p : Bool) : byteOf (bitOf p) = if p then 1 else 0 := by
  cases p <;> rfl

theorem byteOf_snapStatus (p : SnapStatus) : byteOf p.code = if p = .pending then 1 else 0 := by
  cases p <;> rfl

theorem pinsByte_eq (pres latch flt pg en : Bool) : pinsByte pres latch flt pg en
    = 0#3 ++ BitVec.ofBool en ++ BitVec.ofBool pg ++ BitVec.ofBool flt ++ BitVec.ofBool latch ++ BitVec.ofBool pres := by
  revert pres latch flt pg en
  decide

theorem byteOf_two_flags (x y : Bool) : byteOf (ofBits [x, y]) = 0#6 ++ BitVec.ofBool y ++ BitVec.ofBool x := by
  revert x y
  decide

/-- The demand figures are 0 while the demand is unknown (R109). -/
theorem shownDemand_eq (d : Option Demand) : (shownDemand d).ramp = (d.map Demand.ramp).getD 0
    ∧ (shownDemand d).hold = (d.map Demand.hold).getD 0 ∧ (shownDemand d).clipped = (d.map Demand.clipped).getD false := by
  cases d <;> exact ⟨rfl, rfl, rfl⟩

/-- Settles O12: each byte by its area, and each field by the lemma of its encoding. -/
theorem windowShowsOwners : Obligations.WindowShowsOwners := by
  intro s out
  have shelf := fun o (ho : o < 0x40) => windowByte_shelf out ho
  have control := fun a (h1 : 0x40 ≤ a) (h2 : a < 0x60) => windowByte_journalControl out h1 h2
  refine ⟨shelf 0x10 (by omega), shelf 0x11 (by omega), shelf 0x12 (by omega), shelf 0x13 (by omega),
    shelf 0x14 (by omega), shelf 0x15 (by omega), shelf 0x16 (by omega), shelf 0x17 (by omega),
    (shelf 0x18 (by omega)).trans (byteOf_snapStatus _), shelf 0x1A (by omega), shelf 0x1B (by omega),
    control 0x40 (by omega) (by omega), control 0x41 (by omega) (by omega),
    (control 0x42 (by omega) (by omega)).trans (byteOf_bitOf _), control 0x43 (by omega) (by omega),
    control 0x44 (by omega) (by omega), control 0x45 (by omega) (by omega),
    (control 0x46 (by omega) (by omega)).trans (byteOf_bitOf _),
    (control 0x47 (by omega) (by omega)).trans (byteOf_bitOf _), control 0x48 (by omega) (by omega),
    control 0x49 (by omega) (by omega), (control 0x4A (by omega) (by omega)).trans (byteOf_bitOf _), fun b => ?bay,
    fun a ha => ?noField, fun o ho => ?managerShelf, fun a h1 h2 => windowByte_ring out h1 h2,
    fun a ha => windowByte_noArea out (.inr (.inr ha)), fun _ _ => ⟨rfl, rfl⟩, by decide, by decide,
    by decide, by decide⟩
  case bay =>
    obtain ⟨ramp, hold, clipped⟩ := shownDemand_eq (s.bay b).ctx.demand
    have status := fun a o => windowByte_status (b := b) (a := a) out o
    have directory := fun a o => windowByte_directory (b := b) (a := a) out o
    refine ⟨status _ 0 (by omega) rfl, status _ 1 (by omega) (by omega), status _ 2 (by omega) (by omega),
      status _ 3 (by omega) (by omega), (status _ 4 (by omega) (by omega)).trans (pinsByte_eq _ _ _ _ _),
      (status _ 5 (by omega) (by omega)).trans (byteOf_two_flags _ _), status _ 6 (by omega) (by omega),
      windowByte_intent out (o := 3) (by omega), windowByte_outbox out (o := 0) (by omega),
      directory _ 0 (by omega) rfl, directory _ 1 (by omega) (by omega), directory _ 2 (by omega) (by omega),
      (directory _ 3 (by omega) (by omega)).trans ((byteOf_two_flags _ _).trans (by rw [clipped])),
      fun i hi => (directory _ (4 + i) (by omega) (by omega)).trans (directoryByte_identity _ hi),
      ramp ▸ directory _ 0x0C (by omega) (by omega), ramp ▸ directory _ 0x0D (by omega) (by omega),
      hold ▸ directory _ 0x0E (by omega) (by omega), hold ▸ directory _ 0x0F (by omega) (by omega),
      directory _ 0x10 (by omega) (by omega), fun o ho => ?_, fun o h1 h2 => ?_, fun o h1 h2 => ?_, fun o h1 h2 => ?_,
      status _ 7 (by omega) (by omega),
      fun o h1 h2 => (directory _ o (by omega) (by omega)).trans (directoryByte_none _ h1)⟩
    · rw [windowByte_intent out (by omega), if_neg (by omega), if_pos (by omega)]
    · rw [windowByte_intent out h2, if_neg (by omega), if_neg (by omega)]
    · rw [windowByte_outbox out (by omega), if_neg (by omega), if_pos h2]
    · rw [windowByte_outbox out h2, if_neg (by omega), if_neg (by omega)]
  case noField =>
    by_cases inShelf : a < 0x40
    · rw [windowByte_shelf out inShelf, shelfField_none (by omega), if_neg (by omega)]
      rfl
    · by_cases inControl : a < 0x60
      · rw [windowByte_journalControl out (by omega) inControl, controlByte_none _ (by omega)]
      · exact windowByte_noArea out (by omega)
  case managerShelf =>
    rw [windowByte_shelf out (by omega), shelfField_none (.inl ho), if_pos ho]
    rfl

end Sys2Proof.Machine

/-! Window write transactions: the protection map (R132), the bytes that are collected and those that land, and the seven
steps of R131; the statements O13 to O16. -/

namespace Sys2Proof.Machine

variable {s : State} {b : BayId} {l : List (Nat × Byte)}

/-! ## The protection map (R132) -/

theorem BayState.locked_iff (st : BayState) :
    st.locked = true ↔ st ∈ [.queued, .ramp, .settle, .on, .drain, .cutoff] := by
  cases st <;> decide

theorem landing_intent (s : State) (b : BayId) {o : Nat} (v : Byte) (h : o < 64) :
    s.landing (intentAddr b o) v = landIntent (s.stateOf b).locked o := by
  unfold State.landing
  rw [areaOf_intent b o h]

theorem landing_outbox (s : State) (b : BayId) {o : Nat} (v : Byte) (h : o < 48) :
    s.landing (outboxAddr b o) v = landOutbox (s.bay b).dialogue.slotStatus o v := by
  unfold State.landing
  rw [areaOf_outbox b o h]

theorem landing_shelf (s : State) {o : Nat} (v : Byte) (h : o < 0x40) : s.landing o v
    = if o ≤ 0x0F then .lands else if shelfPartWritten o then .discarded .partOwned else .dropped := by
  unfold State.landing
  rw [areaOf_shelf h]

theorem landing_journalControl (s : State) {a : Nat} (v : Byte) (h1 : 0x40 ≤ a) (h2 : a < 0x60) : s.landing a v
    = if a - 0x40 ≤ 7 then .discarded .partOwned else if a - 0x40 ≤ 0x0A then .heldBack else .dropped := by
  unfold State.landing
  rw [areaOf_journalControl h1 h2]

/-- The status table, the directory and the ring are protected whole (log entry 20). -/
theorem landing_whole (s : State) {a : Nat} (v : Byte)
    (h : (0x60 ≤ a ∧ a < 0xE0) ∨ (0x800 ≤ a ∧ a < 0xA00) ∨ (0x1000 ≤ a ∧ a < 0x2000)) :
    s.landing a v = .discarded .partOwned := by
  unfold State.landing
  rcases h with ⟨h1, h2⟩ | ⟨h1, h2⟩ | ⟨h1, h2⟩
  · obtain ⟨b, o, area⟩ := areaOf_status_range h1 h2
    rw [area]
  · obtain ⟨b, o, area⟩ := areaOf_directory_range h1 h2
    rw [area]
  · rw [areaOf_ring h1 h2]

theorem landing_noArea (s : State) {a : Nat} (v : Byte) (h : (0xE0 ≤ a ∧ a < 0x100) ∨ (0xA00 ≤ a ∧ a < 0x1000)) :
    s.landing a v = .dropped := by
  unfold State.landing
  rw [areaOf_noArea (by omega)]

theorem shelfPartWritten_iff (o : Nat) :
    shelfPartWritten o = true ↔ (0x10 ≤ o ∧ o ≤ 0x18) ∨ o = 0x1A ∨ o = 0x1B := by
  simp only [shelfPartWritten, Bool.or_eq_true, Bool.and_eq_true, decide_eq_true_eq, beq_iff_eq, or_assoc]

theorem landIntent_locked (locked : Bool) {o : Nat} (h1 : 4 ≤ o) (h2 : o ≤ 0x12) :
    landIntent locked o = if locked then .discarded .locked else .lands := by
  unfold landIntent
  rw [if_neg (by omega), if_neg (by omega), if_pos h2]

theorem landIntent_noField (locked : Bool) {o : Nat} (h : 0x13 ≤ o) : landIntent locked o = .dropped := by
  unfold landIntent
  rw [if_neg (by omega), if_neg (by omega), if_neg (by omega)]

theorem landOutbox_field (st : SlotStatus) {o : Nat} (v : Byte) (h : o ≤ 0x21) : landOutbox st o v
    = if st = .sending then .discarded .sending
      else if o = 0 ∧ 1 < v.toNat then .discarded .statusValue else .lands := by
  unfold landOutbox
  by_cases status : o = 0
  · by_cases value : v.toNat ≤ 1
    · simp [status, value, Nat.not_lt.mpr value]
    · simp [status, value, Nat.lt_of_not_le value]
  · simp [status, h]

theorem landOutbox_noField (st : SlotStatus) {o : Nat} (v : Byte) (h : 0x22 ≤ o) : landOutbox st o v
    = if st = .sending then .discarded .sending else .dropped := by
  unfold landOutbox
  rw [if_neg (show ¬o = 0 by omega), if_neg (show ¬o ≤ 0x21 by omega)]

/-- Settles O16: each area by its lemma. -/
theorem protectionMap : Obligations.ProtectionMap := by
  intro s v
  refine ⟨fun b o h1 h2 => ?_, fun b => ?_, fun b o h1 h2 => ?_, fun b o h => ?_, fun b o h1 h2 => ?_, fun o h => ?_,
    fun o h => ?_, fun o h => ?_, fun a h1 h2 => ?_, fun a h1 h2 => ?_, fun a h => landing_whole s v h, fun a h => ?_⟩
  · rw [landing_intent s b v (by omega), landIntent_locked _ h1 h2]
    simp only [BayState.locked_iff]
  · refine ⟨?_, ?_, ?_, ?_⟩ <;> exact landing_intent s b v (by omega)
  · rw [landing_intent s b v h2, landIntent_noField _ h1]
  · rw [landing_outbox s b v (by omega), landOutbox_field _ v h]
  · rw [landing_outbox s b v h2, landOutbox_noField _ v h1]
  · rw [landing_shelf s v (by omega), if_pos h]
  · rw [landing_shelf s v (by omega), if_neg (by omega), if_pos ((shelfPartWritten_iff o).mpr h)]
  · rw [landing_shelf s v (by omega), if_neg (by omega), if_neg fun part => by
      have := (shelfPartWritten_iff o).mp part
      omega]
  · rw [landing_journalControl s v h1 (by omega), if_pos (by omega)]
  · rw [landing_journalControl s v (by omega) (by omega), if_neg (by omega), if_pos (by omega)]
  · by_cases control : a < 0x60
    · rw [landing_journalControl s v (by omega) control, if_neg (by omega), if_neg (by omega)]
    · exact landing_noArea s v (by omega)

/-! ## Commit and Status bytes -/

theorem isCommit_iff (a : Nat) : isCommit a = true ↔ a = 0x0F ∨ ∃ b, a = intentAddr b 2 := by
  constructor
  · intro h
    unfold isCommit at h
    split at h
    · next area =>
      rw [beq_iff_eq] at h
      exact .inl ((eq_of_areaOf_shelf area).trans h)
    · next b o area =>
      rw [beq_iff_eq] at h
      exact .inr ⟨b, h ▸ eq_of_areaOf_intent area⟩
    · exact absurd h (by decide)
  · rintro (rfl | ⟨b, rfl⟩)
    · rfl
    · unfold isCommit
      rw [areaOf_intent b 2 (by omega)]
      rfl

theorem isSlotStatus_iff (a : Nat) : isSlotStatus a = true ↔ ∃ b, a = outboxAddr b 0 := by
  constructor
  · intro h
    unfold isSlotStatus at h
    split at h
    · next b o area =>
      rw [beq_iff_eq] at h
      exact ⟨b, h ▸ eq_of_areaOf_outbox area⟩
    · exact absurd h (by decide)
  · rintro ⟨b, rfl⟩
    unfold isSlotStatus
    rw [areaOf_outbox b 0 (by omega)]
    rfl

/-! ## What a transaction wrote -/

theorem writtenAt_eq_none_iff {a : Nat} : writtenAt l a = none ↔ ∀ c ∈ l, c.1 ≠ a := by
  simp [writtenAt]

theorem mem_of_writtenAt {a : Nat} {v : Byte} (h : writtenAt l a = some v) : (a, v) ∈ l := by
  unfold writtenAt at h
  obtain ⟨c, found, rfl⟩ := Option.map_eq_some_iff.mp h
  have at_ : c.1 = a := by simpa using List.find?_some found
  exact at_ ▸ List.mem_of_find?_eq_some found

theorem wrote_eq_isSome (l : List (Nat × Byte)) (a : Nat) : wrote l a = (writtenAt l a).isSome := by
  rw [Bool.eq_iff_iff]
  simp [wrote, writtenAt]

theorem writtenAt_singleton (a x : Nat) (v : Byte) : writtenAt [(a, v)] x = if a = x then some v else none := by
  unfold writtenAt
  by_cases h : a = x <;> simp [h]

theorem windowCollected_of_no_address {tx : SpiBytes} (h : tx.bytes.length < 2) : windowCollected tx = [] := by
  unfold windowCollected
  rw [spiCollected_of_no_address h]
  rfl

theorem writtenAt_windowCollected {tx : SpiBytes} {hi lo : Byte} {data : List Byte} (h : tx.bytes = hi :: lo :: data)
    {a : Nat} (ha : a < 0x2000) : writtenAt (windowCollected tx) a
      = if 256 * hi.toNat + lo.toNat ≤ a then data[a - (256 * hi.toNat + lo.toNat)]? else none :=
  (writtenAt_filter _ _ _ ha).trans (writtenAt_spiCollected hi lo data h a (by omega))

/-- No two bytes of a transaction have one address. -/
theorem nodup_windowCollected (tx : SpiBytes) : ((windowCollected tx).map Prod.fst).Nodup := by
  match hb : tx.bytes with
  | [] | [_] =>
    rw [windowCollected_of_no_address (by simp [hb])]
    exact .nil
  | hi :: lo :: data =>
    rw [windowCollected_eq hi lo data hb]
    refine List.Nodup.sublist (List.filter_sublist.map Prod.fst) ?_
    rw [List.map_map]
    exact List.nodup_range.map fun m n h => Nat.add_left_cancel h

/-! ## The steps of R131 -/

theorem forBays_of_id {f : BayId → State → State} (h : ∀ b t, f b t = t) (s : State) : forBays f s = s := by
  unfold forBays
  induction allBays with
  | nil => rfl
  | cons b l ih => rw [List.foldl_cons, h, ih]

/-- Where one bay alone has something to do, it does it to the state as it is. -/
theorem forBays_of_only {f : BayId → State → State} (b : BayId) (h : ∀ c, c ≠ b → ∀ t, f c t = t) (s : State) :
    forBays f s = f b s := by
  have others : ∀ (m : List BayId) (t : State), b ∉ m → m.foldl (fun t c => f c t) t = t := by
    intro m
    induction m with
    | nil => exact fun _ _ => rfl
    | cons c m ih =>
      intro t hb
      obtain ⟨hc, hm⟩ := not_or.mp (List.mem_cons.not.mp hb)
      rw [List.foldl_cons, h c (Ne.symm hc), ih t hm]
  obtain ⟨p, q, split⟩ := List.append_of_mem (List.mem_finRange b)
  have nodup := List.nodup_finRange 16
  unfold forBays allBays
  rw [split] at nodup ⊢
  obtain ⟨-, right, apart⟩ := List.nodup_append.mp nodup
  rw [List.foldl_append, List.foldl_cons, others p _ fun hb => apart b hb b List.mem_cons_self rfl,
    others q _ (List.nodup_cons.mp right).1]

theorem stepShelf_of_none (h : writtenAt l 0x0F = none) : stepShelf l s = s :=
  if_neg (by
    show ¬wrote l 0x0F = true
    simp [wrote_eq_isSome, h])

theorem stepSnapshot_of_none (h : writtenAt l 0x0E = none) : stepSnapshot l s = s :=
  if_neg (by
    show ¬wrote l 0x0E = true
    simp [wrote_eq_isSome, h])

theorem stepTail_of_none (low : writtenAt l 0x48 = none) (high : writtenAt l 0x49 = none)
    (wrap : writtenAt l 0x4A = none) : stepTail l s = s :=
  if_neg (by
    show ¬(wrote l 0x48 || wrote l 0x49 || wrote l 0x4A) = true
    simp [wrote_eq_isSome, low, high, wrap])

theorem stepBay_of_none (h : writtenAt l (intentAddr b 2) = none) : stepBay l b s = s :=
  if_neg (by simp [wrote_eq_isSome, h])

theorem landedStatus_eq (s : State) (l : List (Nat × Byte)) (b : BayId) : landedStatus s l b
    = (writtenAt l (outboxAddr b 0)).bind fun v =>
      if v.toNat ≤ 1 ∧ (s.bay b).dialogue.slotStatus ≠ .sending then some (v == 1) else none := by
  unfold landedStatus
  cases writtenAt l (outboxAddr b 0) with
  | none => rfl
  | some v =>
    show (if landOutbox _ 0 v = .lands then some (v == 1) else none) = _
    rw [landOutbox_field _ v (Nat.zero_le _), Option.bind_some]
    by_cases sending : (s.bay b).dialogue.slotStatus = .sending
    · simp [sending]
    · by_cases value : v.toNat ≤ 1
      · simp [sending, value]
      · simp [sending, value, Nat.lt_of_not_le value]

/-- A byte that hands nothing on: no Commit, SnapRequest or Tail byte, and no Status byte that lands. -/
def State.handsNothing (s : State) (c : Nat × Byte) : Prop :=
  isCommit c.1 = false ∧ c.1 ≠ 0x0E ∧ s.landing c.1 c.2 ≠ .heldBack
    ∧ (isSlotStatus c.1 = true → s.landing c.1 c.2 ≠ .lands)

theorem landedStatus_of_handsNothing (h : ∀ c ∈ l, s.handsNothing c) (b : BayId) : landedStatus s l b = none := by
  unfold landedStatus
  cases written : writtenAt l (outboxAddr b 0) with
  | none => rfl
  | some v =>
    obtain ⟨-, -, -, slot⟩ := h _ (mem_of_writtenAt written)
    have := slot ((isSlotStatus_iff _).mpr ⟨b, rfl⟩)
    rw [landing_outbox s b v (by omega)] at this
    exact if_neg this

/-- A transaction of bytes that hand nothing on ends with its second step. -/
theorem intake_of_handsNothing (h : ∀ c ∈ l, s.handsNothing c) :
    intake l s = quiesceTest (submitDiscard l (discards s l) (stepLand l s)) := by
  have commit : ∀ a, isCommit a = true → writtenAt l a = none := fun a ha =>
    writtenAt_eq_none_iff.mpr fun c hc at_ => by
      obtain ⟨no, -⟩ := h c hc
      rw [at_, ha] at no
      exact absurd no (by decide)
  have tail : ∀ a, 0x48 ≤ a → a ≤ 0x4A → writtenAt l a = none := fun a h1 h2 =>
    writtenAt_eq_none_iff.mpr fun c hc at_ => by
      obtain ⟨-, -, no, -⟩ := h c hc
      rw [at_, landing_journalControl s c.2 (by omega) (by omega), if_neg (by omega), if_pos (by omega)] at no
      exact no rfl
  have snap : writtenAt l 0x0E = none := writtenAt_eq_none_iff.mpr fun c hc => (h c hc).2.1
  unfold intake
  rw [stepShelf_of_none (commit _ ((isCommit_iff _).mpr (.inl rfl))), stepSnapshot_of_none snap,
    stepTail_of_none (tail _ (by omega) (by omega)) (tail _ (by omega) (by omega)) (tail _ (by omega) (by omega)),
    forBays_of_id fun b t => stepBay_of_none (commit _ ((isCommit_iff _).mpr (.inr ⟨b, rfl⟩))),
    forBays_of_id fun b t => by
      rw [landedStatus_of_handsNothing h]
      rfl]

theorem quiesceTest_of_not (h : ¬(s.shelf.state = .quiescing ∧ s.allComplete = true)) : quiesceTest s = s := if_neg h

/-- The test of completion reads the bays and the shelf alone. -/
theorem allComplete_congr {t : State} (h : ∀ b, t.stateOf b = s.stateOf b) : t.allComplete = s.allComplete := by
  unfold State.allComplete
  simp only [h]

theorem exec_windowWrite {tx : SpiBytes} (takes : s.takes .windowWrite tx) (ended : tx.ended = true)
    (outside : s.shelf.state ≠ .init) (nonempty : windowCollected tx ≠ []) : exec (.windowWrite tx) s
      = .next (setMiso (List.replicate (tx.bytes.length + 1) 0) (setPort .idle (intake (windowCollected tx) s))) := by
  rw [exec_write (.inl ⟨rfl, rfl, rfl⟩), onPort_ended _ takes ended]
  unfold windowWrite
  rw [if_neg (not_or.mpr ⟨outside, nonempty⟩)]

theorem exec_windowWrite_empty {tx : SpiBytes} (takes : s.takes .windowWrite tx) (ended : tx.ended = true)
    (empty : windowCollected tx = []) : exec (.windowWrite tx) s
      = .next (setMiso (List.replicate (tx.bytes.length + 1) 0) (setPort .idle s)) := by
  rw [exec_write (.inl ⟨rfl, rfl, rfl⟩), onPort_ended _ takes ended]
  unfold windowWrite
  rw [if_pos (.inr empty)]

end Sys2Proof.Machine

namespace Sys2Proof.Machine

variable {s : State} {b : BayId} {l : List (Nat × Byte)}

/-! ## Bytes that land and hand nothing on -/

theorem discards_of_none (h : ∀ c ∈ l, ∀ cause, s.landing c.1 c.2 ≠ .discarded cause) : discards s l = [] := by
  refine List.filterMap_eq_nil_iff.mpr fun c hc => ?_
  split
  · next cause lost => exact absurd lost (h c hc cause)
  · rfl
  · rfl
  · rfl

theorem landed_eq (s : State) (l : List (Nat × Byte)) :
    landed s l = l.filter (fun c => s.landing c.1 c.2 = .lands ∧ isSlotStatus c.1 = false) := by
  refine List.filter_congr fun c _ => ?_
  by_cases lands : s.landing c.1 c.2 = .lands <;> cases isSlotStatus c.1 <;> simp [lands]

/-- Of bytes with different addresses a filter keeps the one at an address, or none. -/
theorem writtenAt_filter_nodup (p : Nat × Byte → Bool) (a : Nat) (h : (l.map Prod.fst).Nodup) :
    writtenAt (l.filter p) a = (writtenAt l a).filter fun v => p (a, v) := by
  induction l with
  | nil => rfl
  | cons c l ih =>
    obtain ⟨x, v⟩ := c
    obtain ⟨fresh, nodup⟩ := List.nodup_cons.mp h
    have ih := ih nodup
    by_cases at_ : x = a
    · subst at_
      have missing : writtenAt l x = none := writtenAt_eq_none_iff.mpr fun d hd e =>
        fresh (List.mem_map.mpr ⟨d, hd, e⟩)
      have first : writtenAt ((x, v) :: l) x = some v := by simp [writtenAt]
      rw [first, List.filter_cons]
      by_cases hp : p (x, v) = true
      · simp [hp, writtenAt, Option.filter_some]
      · simp [hp, ih, missing, Option.filter_some]
    · have skip : ∀ m, writtenAt ((x, v) :: m) a = writtenAt m a := fun m => by
        simp [writtenAt, at_]
      rw [skip, ← ih, List.filter_cons]
      split
      · exact skip _
      · rfl

/-- The window after a transaction's bytes have landed, none of them a Status byte. -/
theorem read_landed (window : s.windowOk) (nodup : (l.map Prod.fst).Nodup) (slot : ∀ c ∈ l, isSlotStatus c.1 = false)
    (a : Nat) : Memory.read (s.window.writeAll (landed s l)) a = match writtenAt l a with
      | some v => if s.landing a v = .lands then v else Memory.read s.window a
      | none => Memory.read s.window a := by
  have landedNodup : ((landed s l).map Prod.fst).Nodup := nodup.sublist (List.filter_sublist.map Prod.fst)
  rw [Memory.read_writeAll _ _ _ window landedNodup, landed_eq, writtenAt_filter_nodup _ _ nodup]
  cases written : writtenAt l a with
  | none => rfl
  | some v =>
    have := slot _ (mem_of_writtenAt written)
    by_cases lands : s.landing a v = .lands <;> simp [Option.filter_some, lands, this]

theorem setWindow_self (s : State) : setWindow s.window s = s := rfl

/-- Settles O13: the bytes collected and the memory by their lemmas; a transaction that hands nothing on and has nothing
discarded ends with the bytes that land. -/
theorem windowWriteLands : Obligations.WindowWriteLands := by
  refine ⟨?_, fun tx => windowCollected_of_no_address, fun a => ⟨isCommit_iff a, isSlotStatus_iff a⟩,
    fun m a x v l wf => ⟨?_, ?_⟩, fun m l x => Memory.read_writeAll m l x, fun tx s window takes ended outside incomplete fields => ?_⟩
  · rintro hi lo data tx start bytes rfl
    exact ⟨windowCollected_eq hi lo data bytes, fun a ha => writtenAt_windowCollected bytes ha⟩
  · split_ifs with h
    · rw [h, Memory.read_write_self m a v wf]
    · exact Memory.read_write_other m a x v h
  · split_ifs with h
    · obtain ⟨i, rfl⟩ := Nat.exists_eq_add_of_le h.1
      have hi : i < l.length := by omega
      rw [Memory.read_writeBytes m a i l wf hi, Nat.add_sub_cancel_left, List.getD_eq_getElem l 0 hi]
    · exact Memory.read_writeBytes_other m a x l (by omega)
  · have slot : ∀ c ∈ windowCollected tx, isSlotStatus c.1 = false := fun c hc => (fields c hc).2.2.2
    refine ⟨s.window.writeAll (landed s (windowCollected tx)), ?_,
      read_landed window (nodup_windowCollected tx) slot⟩
    by_cases empty : windowCollected tx = []
    · rw [exec_windowWrite_empty takes ended empty, empty]
      rfl
    · have nothing : ∀ c ∈ windowCollected tx, s.handsNothing c := fun c hc => by
        obtain ⟨lands, commit, snap, status⟩ := fields c hc
        refine ⟨commit, snap, fun held => ?_, fun is => absurd (status.symm.trans is) (by decide)⟩
        rw [held] at lands
        simp at lands
      have kept : ∀ c ∈ windowCollected tx, ∀ cause, s.landing c.1 c.2 ≠ .discarded cause := fun c hc cause lost => by
        have lands := (fields c hc).1
        rw [lost] at lands
        simp at lands
      have incomplete' : ¬((stepLand (windowCollected tx) s).shelf.state = .quiescing
          ∧ (stepLand (windowCollected tx) s).allComplete = true) := incomplete
      rw [exec_windowWrite takes ended outside empty, intake_of_handsNothing nothing, discards_of_none kept]
      unfold submitDiscard
      rw [quiesceTest_of_not incomplete']
      rfl

/-! ## Protected bytes -/

/-- A transaction whose bytes are all protected. -/
theorem discarded_of_length (h : (discards s l).length = l.length) {c : Nat × Byte} (hc : c ∈ l) :
    ∃ cause, s.landing c.1 c.2 = .discarded cause := by
  have all := List.filterMap_length_eq_length.mp h c hc
  revert all
  split
  · next cause lost => exact fun _ => ⟨cause, lost⟩
  · exact nofun
  · exact nofun
  · exact nofun

/-- A protected byte is no Commit byte, no SnapRequest and no byte of the Tail, and nothing of it lands. -/
theorem handsNothing_of_discarded {c : Nat × Byte} {cause : DiscardCause} (h : s.landing c.1 c.2 = .discarded cause) :
    s.handsNothing c := by
  refine ⟨?_, fun snap => ?_, by rw [h]; exact nofun, fun _ => by rw [h]; exact nofun⟩
  · rw [Bool.eq_false_iff]
    intro commit
    rcases (isCommit_iff _).mp commit with shelf | ⟨b, intent⟩
    · rw [shelf, landing_shelf s c.2 (by omega), if_pos (by omega)] at h
      cases h
    · rw [intent, landing_intent s b c.2 (by omega)] at h
      cases h
  · rw [snap, landing_shelf s c.2 (by omega), if_pos (by omega)] at h
    cases h

theorem discardBay_of_shelf_level {a : Nat} (h : a < 0x100 ∨ 0x800 ≤ a) : discardBay a = none := by
  unfold discardBay areaOf
  split_ifs
  any_goals omega
  all_goals rfl

/-- Settles O14: bytes that are all protected hand nothing on, and none lands. -/
theorem windowWriteDiscarded : Obligations.WindowWriteDiscarded := by
  refine ⟨fun tx s a cause rest takes ended outside incomplete first all => ?_, fun s l => ?_, fun b o h => ?_,
    fun b o h => ?_, fun a => discardBay_of_shelf_level⟩
  · have protected_ : ∀ c ∈ windowCollected tx, ∃ cause, s.landing c.1 c.2 = .discarded cause :=
      fun c => discarded_of_length all
    have nothing : ∀ c ∈ windowCollected tx, s.handsNothing c := fun c hc =>
      (protected_ c hc).elim fun _ => handsNothing_of_discarded
    have nonempty : windowCollected tx ≠ [] := fun empty => by
      rw [empty] at first
      cases first
    have land : stepLand (windowCollected tx) s = s := by
      unfold stepLand landed
      rw [List.filter_eq_nil_iff.mpr fun c hc => ?_]
      · rfl
      · obtain ⟨cause, lost⟩ := protected_ c hc
        rw [lost]
        simp
    have commit : (windowCollected tx).any (fun c => isCommit c.1) = false := by
      rw [List.any_eq_false]
      exact fun c hc => by simp [(nothing c hc).1]
    rw [exec_windowWrite takes ended outside nonempty, intake_of_handsNothing nothing, land]
    unfold submitDiscard
    rw [first]
    dsimp only
    rw [commit, ← all, first, quiesceTest_of_not]
    rw [submit_shelf, allComplete_congr (submit_stateOf _ s)]
    exact incomplete
  · refine List.filterMap_congr fun c _ => ?_
    cases s.landing c.1 c.2 <;> rfl
  · unfold discardBay
    rw [areaOf_intent b o h]
  · unfold discardBay
    rw [areaOf_outbox b o h]

/-! ## What a transaction hands on -/

theorem candidateOffset_eq (l : List (Nat × Byte)) (j : Journal) : candidateOffset l j
    = ((writtenAt l 0x48).getD (BitVec.ofNat 8 j.tail)).toNat
      + 256 * ((writtenAt l 0x49).getD (BitVec.ofNat 8 (j.tail / 256))).toNat := rfl

theorem candidateWrap_eq (l : List (Nat × Byte)) (j : Journal) :
    candidateWrap l j = ((writtenAt l 0x4A).getD (if j.tailWrap then 1 else 0)).toNat := by
  show ((writtenAt l 0x4A).getD (byteOf (bitOf j.tailWrap))).toNat = _
  rw [byteOf_bitOf]

theorem stepLand_eq (l : List (Nat × Byte)) (s : State) : stepLand l s = setWindow (Memory.writeAll s.window
    (l.filter (fun c => s.landing c.1 c.2 = .lands ∧ isSlotStatus c.1 = false))) s := by
  unfold stepLand
  rw [landed_eq]

theorem stepShelf_eq (l : List (Nat × Byte)) (s : State) :
    stepShelf l s = if (writtenAt l 0x0F).isSome then commitShelf s else s := by
  unfold stepShelf
  rw [wrote_eq_isSome]
  rfl

theorem stepSnapshot_eq (l : List (Nat × Byte)) (s : State) : stepSnapshot l s = if (writtenAt l 0x0E).isSome then
    requestSnapshot (BitVec.ofNat 16 (s.shelfWord 0x0C)) (s.shelfByte 0x0B == 1) s else s := by
  unfold stepSnapshot
  rw [wrote_eq_isSome]
  rfl

theorem stepTail_eq (l : List (Nat × Byte)) (s : State) : stepTail l s
    = if (writtenAt l 0x48).isSome ∨ (writtenAt l 0x49).isSome ∨ (writtenAt l 0x4A).isSome then
        writeTail (((writtenAt l 0x48).getD (BitVec.ofNat 8 s.journal.tail)).toNat
            + 256 * ((writtenAt l 0x49).getD (BitVec.ofNat 8 (s.journal.tail / 256))).toNat)
          ((writtenAt l 0x4A).getD (if s.journal.tailWrap then 1 else 0)).toNat s
      else s := by
  unfold stepTail
  simp only [wrote_eq_isSome, Bool.or_eq_true, or_assoc, candidateOffset_eq, candidateWrap_eq]
  rfl

theorem stepBay_eq (l : List (Nat × Byte)) (b : BayId) (s : State) :
    stepBay l b s = if (writtenAt l (intentAddr b 2)).isSome then commitBay b s else s := by
  unfold stepBay
  rw [wrote_eq_isSome]

/-- Before the bays' commits a single byte of a table entry has landed, if it lands, and done no more. -/
theorem windowCollected_single {hi lo v : Byte} {n : Nat} {e : Bool} {a : Nat} (ha : 256 * hi.toNat + lo.toNat = a)
    (h : a < 0x2000) : windowCollected ⟨[hi, lo, v], n, e⟩ = [(a, v)] := by
  rw [windowCollected_eq hi lo [v] rfl, ha]
  simp [h]

/-- The first two steps of one byte that is not protected. -/
theorem submitDiscard_single {a : Nat} {v : Byte} (h : ∀ cause, s.landing a v ≠ .discarded cause) (t : State) :
    submitDiscard [(a, v)] (discards s [(a, v)]) t = t := by
  rw [discards_of_none fun c hc => by
    rw [List.mem_singleton.mp hc]
    exact h]
  rfl

theorem stepLand_single {a : Nat} {v : Byte} (h : s.landing a v = .lands) (slot : isSlotStatus a = false) :
    stepLand [(a, v)] s = setWindow (Memory.write s.window a v) s := by
  rw [stepLand_eq]
  simp [h, slot, Memory.writeAll]

theorem intentAddr_lt (b : BayId) : 0x102 ≤ intentAddr b 2 ∧ intentAddr b 2 < 0x500 := by
  have := b.isLt
  unfold intentAddr intentBase
  omega

theorem outboxAddr_lt (b : BayId) : 0x500 ≤ outboxAddr b 0 ∧ outboxAddr b 0 < 0x800 := by
  have := b.isLt
  unfold outboxAddr outboxBase
  omega

theorem intentAddr_inj {b c : BayId} (h : intentAddr b 2 = intentAddr c 2) : b = c := by
  unfold intentAddr intentBase at h
  exact Fin.ext (by omega)

theorem outboxAddr_inj {b c : BayId} (h : outboxAddr b 0 = outboxAddr c 0) : b = c := by
  unfold outboxAddr outboxBase at h
  exact Fin.ext (by omega)

theorem isSlotStatus_of_lt {a : Nat} (h : a < 0x500) : isSlotStatus a = false := by
  rw [Bool.eq_false_iff]
  intro slot
  obtain ⟨b, rfl⟩ := (isSlotStatus_iff a).mp slot
  have := outboxAddr_lt b
  omega

theorem writtenAt_single_ne {a x : Nat} {v : Byte} (h : a ≠ x) : writtenAt [(a, v)] x = none := by
  rw [writtenAt_singleton, if_neg h]

theorem writtenAt_single_self (a : Nat) (v : Byte) : writtenAt [(a, v)] a = some v := by
  rw [writtenAt_singleton, if_pos rfl]

/-- No slot is handed over by a byte that is no Status byte. -/
theorem noSlot_single {a : Nat} {v : Byte} (h : isSlotStatus a = false) (t : State) :
    forBays (fun b => stepSlot (landedStatus s [(a, v)] b) b) t = t :=
  forBays_of_id (fun b _ => by
    rw [landedStatus_eq, writtenAt_single_ne fun at_ => by
      rw [(isSlotStatus_iff a).mpr ⟨b, at_⟩] at h
      cases h]
    rfl) t

theorem noBay_single {a : Nat} {v : Byte} (h : ∀ b, a ≠ intentAddr b 2) (t : State) :
    forBays (stepBay [(a, v)]) t = t :=
  forBays_of_id (fun b _ => stepBay_of_none (writtenAt_single_ne (h b))) t

theorem noTail_single {a : Nat} {v : Byte} (h : a < 0x48 ∨ 0x4A < a) (t : State) : stepTail [(a, v)] t = t :=
  stepTail_of_none (writtenAt_single_ne (by omega)) (writtenAt_single_ne (by omega)) (writtenAt_single_ne (by omega))

/-- The Commit byte of a bay's record, alone. -/
theorem intake_commitBay (b : BayId) (v : Byte) (s : State) : intake [(intentAddr b 2, v)] s
    = quiesceTest (commitBay b (setWindow (Memory.write s.window (intentAddr b 2) v) s)) := by
  have range := intentAddr_lt b
  have lands : s.landing (intentAddr b 2) v = .lands := landing_intent s b v (by omega)
  unfold intake
  rw [stepLand_single lands (isSlotStatus_of_lt range.2), submitDiscard_single (by rw [lands]; exact nofun),
    stepShelf_of_none (writtenAt_single_ne (by omega)), stepSnapshot_of_none (writtenAt_single_ne (by omega)),
    noTail_single (by omega), noSlot_single (isSlotStatus_of_lt range.2),
    forBays_of_only b fun c hc _ => stepBay_of_none (writtenAt_single_ne fun h => hc (intentAddr_inj h).symm),
    stepBay_eq, writtenAt_single_self]
  rfl

/-- A byte of the shelf record alone hands on to the shelf commit or the snapshot request. -/
theorem intake_shelf {a : Nat} (v : Byte) (s : State) (h : a ≤ 0x0F) : intake [(a, v)] s
    = quiesceTest (stepSnapshot [(a, v)] (stepShelf [(a, v)] (setWindow (Memory.write s.window a v) s))) := by
  have lands : s.landing a v = .lands := by rw [landing_shelf s v (by omega), if_pos h]
  unfold intake
  rw [stepLand_single lands (isSlotStatus_of_lt (by omega)), submitDiscard_single (by rw [lands]; exact nofun),
    noTail_single (by omega), noSlot_single (isSlotStatus_of_lt (by omega)), noBay_single fun b => by
      have := intentAddr_lt b
      omega]

/-- The low byte of the Tail alone: the rest of the candidate as the fields stand. -/
theorem intake_tailLow (v : Byte) (s : State) : intake [(0x48, v)] s
    = quiesceTest (writeTail (v.toNat + 256 * (BitVec.ofNat 8 (s.journal.tail / 256)).toNat)
      (if s.journal.tailWrap then 1 else 0) s) := by
  have held : s.landing 0x48 v = .heldBack := rfl
  have land : stepLand [(0x48, v)] s = s := by
    rw [stepLand_eq]
    simp [held, Memory.writeAll, setWindow_self]
  have wrap : (if s.journal.tailWrap then (1 : Byte) else 0).toNat = if s.journal.tailWrap then 1 else 0 := by
    split <;> rfl
  unfold intake
  rw [land, submitDiscard_single (by rw [held]; exact nofun), stepShelf_of_none (writtenAt_single_ne (by omega)),
    stepSnapshot_of_none (writtenAt_single_ne (by omega)), noSlot_single (isSlotStatus_of_lt (by omega)),
    noBay_single fun b => by
      have := intentAddr_lt b
      omega]
  rw [stepTail_eq, writtenAt_single_self, writtenAt_single_ne (show 0x48 ≠ 0x49 by omega),
    writtenAt_single_ne (show 0x48 ≠ 0x4A by omega), if_pos (.inl rfl), Option.getD_some, Option.getD_none,
    Option.getD_none, wrap]

/-- The Status byte of a slot alone. -/
theorem intake_status (b : BayId) (v : Byte) (s : State) (value : v.toNat ≤ 1)
    (free : (s.bay b).dialogue.slotStatus ≠ .sending) :
    intake [(outboxAddr b 0, v)] s = quiesceTest (handOver b (v == 1) s) := by
  have range := outboxAddr_lt b
  have lands : s.landing (outboxAddr b 0) v = .lands := by
    rw [landing_outbox s b v (by omega), landOutbox_field _ v (by omega), if_neg free, if_neg (by omega)]
  have land : stepLand [(outboxAddr b 0, v)] s = s := by
    rw [stepLand_eq]
    simp [(isSlotStatus_iff _).mpr ⟨b, rfl⟩, Memory.writeAll, setWindow_self]
  have others : ∀ c, c ≠ b → landedStatus s [(outboxAddr b 0, v)] c = none := fun c hc => by
    rw [landedStatus_eq, writtenAt_single_ne fun h => hc (outboxAddr_inj h).symm]
    rfl
  have status : landedStatus s [(outboxAddr b 0, v)] b = some (v == 1) := by
    rw [landedStatus_eq, writtenAt_single_self, Option.bind_some, if_pos ⟨value, free⟩]
  unfold intake
  rw [land, submitDiscard_single (by rw [lands]; exact nofun), stepShelf_of_none (writtenAt_single_ne (by omega)),
    stepSnapshot_of_none (writtenAt_single_ne (by omega)), noTail_single (by omega), noBay_single fun c => by
      have := intentAddr_lt c
      omega]
  rw [forBays_of_only b fun c hc _ => by rw [others c hc]; rfl, status]
  rfl

/-- Settles O15: single bytes by the lemmas above, and the seven steps each by its equation. -/
theorem windowWriteHandsOver : Obligations.WindowWriteHandsOver := by
  refine ⟨fun hi lo v n s takes outside => ?_,
    fun tx l s s1 s2 s3 s4 s5 s6 s7 takes ended outside hl nonempty h1 h2 h3 h4 h5 h6 h7 => ?_⟩
  · have single : ∀ a, 256 * hi.toNat + lo.toNat = a → a < 0x2000 → exec (.windowWrite ⟨[hi, lo, v], n, true⟩) s
        = .next (setMiso [0, 0, 0, 0] (setPort .idle (intake [(a, v)] s))) := fun a at_ below => by
      have collected := windowCollected_single (v := v) (n := n) (e := true) at_ below
      rw [exec_windowWrite takes rfl outside (by rw [collected]; exact nofun), collected]
      rfl
    refine ⟨fun b at_ => ?_, fun at_ => ?_, fun at_ => ?_, fun at_ => ?_, fun b at_ value free => ?_⟩
    · have := intentAddr_lt b
      rw [single _ at_ (by omega), intake_commitBay]
    · rw [single _ at_ (by omega), intake_shelf v s (by omega), stepShelf_eq, writtenAt_single_self,
        stepSnapshot_of_none (writtenAt_single_ne (by omega))]
      rfl
    · rw [single _ at_ (by omega), intake_shelf v s (by omega), stepShelf_of_none (writtenAt_single_ne (by omega)),
        stepSnapshot_eq, writtenAt_single_self]
      rfl
    · rw [single _ at_ (by omega), intake_tailLow]
    · have := outboxAddr_lt b
      rw [single _ at_ (by omega), intake_status b v s value free]
  · subst hl
    have landed : stepLand (windowCollected tx) s = s1 := (stepLand_eq _ s).trans h1.symm
    have discarded : submitDiscard (windowCollected tx) (discards s (windowCollected tx)) s1 = s2 := by
      rw [h2]
      cases discards s (windowCollected tx) <;> rfl
    have slots : forBays (fun b => stepSlot (landedStatus s (windowCollected tx) b) b) s6 = s7 := by
      rw [h7]
      unfold forBays allBays
      congr 1
      funext t b
      show stepSlot (landedStatus s (windowCollected tx) b) b t = _
      rw [landedStatus_eq]
      cases writtenAt (windowCollected tx) (outboxAddr b 0) with
      | none => rfl
      | some v =>
        rw [Option.bind_some]
        by_cases taken : v.toNat ≤ 1 ∧ (s.bay b).dialogue.slotStatus ≠ .sending
        · rw [if_pos taken]
          exact (if_pos taken).symm
        · rw [if_neg taken]
          exact (if_neg taken).symm
    have bays : forBays (stepBay (windowCollected tx)) s5 = s6 := by
      rw [h6]
      unfold forBays allBays
      simp only [stepBay_eq]
    rw [exec_windowWrite takes ended outside nonempty]
    unfold intake
    rw [landed, discarded, stepShelf_eq, ← h3, stepSnapshot_eq, ← h4, stepTail_eq, ← h5, bays, slots]

end Sys2Proof.Machine

/-! The commits: refused, and the hand-over of the outbox slots. The statements O18 and O24. -/

namespace Sys2Proof.Machine

variable {s : State} {b : BayId}

/-! ## Refused commits -/

theorem getD_of_lt {l : List Byte} {i : Nat} (h : i < l.length) : l.getD i 0 = l[i] := by
  rw [List.getD_eq_getElem?_getD, List.getElem?_eq_getElem h, Option.getD_some]

theorem unlockedBytes_length (i : Intent) : i.unlockedBytes.length = 2 := rfl

theorem lockedBytes_length (i : Intent) : i.lockedBytes.length = 15 := rfl

theorem byteOf_bitOf_ite (x : Bool) : byteOf (bitOf x) = if x then 1 else 0 := by
  cases x <;> rfl

/-- The memory that `rewriteIntent` leaves. -/
def rewrittenIntent (s : State) (b : BayId) : Memory :=
  Memory.writeBytes (Memory.writeBytes s.window (intentAddr b 0) (s.intentOf b).unlockedBytes) (intentAddr b 4)
    (s.intentOf b).lockedBytes

theorem read_rewrittenIntent_unlocked (window : s.windowOk) {i : Nat} (hi : i < 2) :
    Memory.read (rewrittenIntent s b) (intentAddr b i) = (s.intentOf b).unlockedBytes.getD i 0 := by
  have before : intentAddr b i < intentAddr b 4 := by unfold intentAddr; omega
  have place : intentAddr b i = intentAddr b 0 + i := by unfold intentAddr; omega
  rw [rewrittenIntent, Memory.read_writeBytes_other _ _ _ _ (.inl before), place,
    Memory.read_writeBytes _ _ _ _ window hi, getD_of_lt hi]

theorem read_rewrittenIntent_locked (window : s.windowOk) {i : Nat} (hi : i < 15) :
    Memory.read (rewrittenIntent s b) (intentAddr b (4 + i)) = (s.intentOf b).lockedBytes.getD i 0 := by
  have place : intentAddr b (4 + i) = intentAddr b 4 + i := by unfold intentAddr; omega
  rw [rewrittenIntent, place, Memory.read_writeBytes _ _ _ _ (Memory.wf_writeBytes _ _ _ window) hi, getD_of_lt hi]

theorem read_rewrittenIntent_other {a : Nat} (low : a < intentAddr b 0 ∨ intentAddr b 2 ≤ a)
    (high : a < intentAddr b 4 ∨ intentAddr b 0x13 ≤ a) :
    Memory.read (rewrittenIntent s b) a = Memory.read s.window a := by
  have two : intentAddr b 2 = intentAddr b 0 + 2 := by unfold intentAddr; omega
  have nineteen : intentAddr b 0x13 = intentAddr b 4 + 15 := by unfold intentAddr; omega
  rw [rewrittenIntent, Memory.read_writeBytes_other _ _ _ _ (by rw [lockedBytes_length]; omega),
    Memory.read_writeBytes_other _ _ _ _ (by rw [unlockedBytes_length]; omega)]

theorem commitBay_refused {f : CommitFailure} (h : firstFailure (bayTests s b) = some f) :
    commitBay b s = refuseBay b f s := by
  rw [commitBay, h]

theorem commitBay_accepted (h : firstFailure (bayTests s b) = none) : commitBay b s = acceptBay b s := by
  rw [commitBay, h]

theorem commitShelf_refused {f : CommitFailure} (h : firstFailure (shelfTests s) = some f) :
    commitShelf s = refuseShelf f s := by
  rw [commitShelf, h]

theorem commitShelf_accepted (h : firstFailure (shelfTests s) = none) : commitShelf s = acceptShelf s := by
  rw [commitShelf, h]

theorem commitBay_refuses (window : s.windowOk) {f : CommitFailure} (h : firstFailure (bayTests s b) = some f) : ∃ m,
    commitBay b s = submit (.refused (some b) .intent f.reason f.field (s.intentByte b 2) f.value) (setWindow m s)
    ∧ (∀ i, i < 2 → Memory.read m (intentAddr b i) = (s.intentOf b).unlockedBytes.getD i 0)
    ∧ (∀ i, i < 15 → Memory.read m (intentAddr b (4 + i)) = (s.intentOf b).lockedBytes.getD i 0)
    ∧ ∀ a, (a < intentAddr b 0 ∨ intentAddr b 2 ≤ a) → (a < intentAddr b 4 ∨ intentAddr b 0x13 ≤ a) →
      Memory.read m a = Memory.read s.window a :=
  ⟨rewrittenIntent s b, commitBay_refused h, fun _ hi => read_rewrittenIntent_unlocked window hi,
    fun _ hi => read_rewrittenIntent_locked window hi, fun _ low high => read_rewrittenIntent_other low high⟩

theorem commitShelf_refuses (window : s.windowOk) {f : CommitFailure} (h : firstFailure (shelfTests s) = some f) : ∃ m,
    commitShelf s = submit (.refused none .shelf f.reason f.field (s.shelfByte 0x0F) f.value) (setWindow m s)
    ∧ (∀ i, i < 11 → Memory.read m i = s.shelf.context.bytes.getD i 0)
    ∧ ∀ a, 11 ≤ a → Memory.read m a = Memory.read s.window a := by
  refine ⟨Memory.writeBytes s.window shelfBase s.shelf.context.bytes, commitShelf_refused h, fun i hi => ?_,
    fun a ha => ?_⟩
  · have within : i < s.shelf.context.bytes.length := hi
    have place : shelfBase + i = i := Nat.zero_add i
    have field := Memory.read_writeBytes s.window shelfBase i s.shelf.context.bytes window within
    rw [place] at field
    rw [field, getD_of_lt within]
  · exact Memory.read_writeBytes_other _ _ _ _ (.inr ha)

/-- Settles O18: a refused commit writes back the context's bytes, which the tables give. -/
theorem commitRefused : Obligations.CommitRefused := by
  refine fun s f window => ⟨fun b h => commitBay_refuses window h, fun h => commitShelf_refuses window h,
    fun i => ⟨rfl, ?_⟩, fun c => ?_, fun _ => rfl, rfl, rfl, rfl⟩
  · unfold Intent.lockedBytes
    rw [byteOf_bitOf_ite, byteOf_bitOf_ite]
    rfl
  · unfold ShelfContext.bytes
    rw [byteOf_bitOf_ite]
    rfl

/-! ## The outbox -/

theorem mayTake_iff (s : State) (b : BayId) : s.mayTake b = true ↔
    (s.bay b).dialogue.slotStatus = .posted ∧ (s.bay b).link.linkState = .bound
      ∧ txListed .parcel (s.bay b).link.txList = false ∧ inFlightIs .parcel (s.bay b).link = false := by
  simp [State.mayTake, and_assoc]

theorem takeParcel_none (h : s.mayTake b = false) : takeParcel b s = s := by
  unfold takeParcel
  rw [h, if_neg Bool.false_ne_true]

theorem takeParcel_long (h : s.mayTake b = true) (length : 32 < s.slotLength b) : takeParcel b s = refuseParcel b s := by
  unfold takeParcel
  rw [if_pos h, if_pos length]

theorem takeParcel_copies (h : s.mayTake b = true) (length : s.slotLength b ≤ 32) :
    takeParcel b s = copyParcel b (s.slotPayload b (s.slotLength b)) s := by
  unfold takeParcel
  rw [if_pos h, if_neg (Nat.not_lt.mpr length)]

theorem copyParcel_eq (payload : List Byte) (bound : (s.bay b).link.linkState = .bound)
    (list : txListed .parcel (s.bay b).link.txList = false) :
    copyParcel b payload s = modBay b (fun y => { y with
      dialogue := { y.dialogue with slotStatus := .sending, parcelCopy := some payload },
      link := { y.link with txList := y.link.txList ++ [.parcel payload] } }) s := by
  have place : txPlace (.parcel payload) (s.bay b).link.txList = (s.bay b).link.txList ++ [.parcel payload] := by
    rw [txPlace_of_slot_ne_prepare (by simp [TxEntry.slot]), show TxEntry.slot (.parcel payload) = .parcel from rfl, list,
      if_neg Bool.false_ne_true]
  rw [copyParcel, modDialogue, placeEntry_eq_ite, modBay_bay_self, if_pos (.inl bound), modBay_modBay]
  exact modBay_congr b _ _ s (by rw [← place])

/-- A post on a slot that has nothing in it to send. -/
theorem handOver_post (h : (s.bay b).dialogue.slotStatus ∈ [.free, .sent, .failed, .abandoned]) :
    handOver b true s = post b s := by
  unfold handOver
  cases status : (s.bay b).dialogue.slotStatus
  case posted | sending => simp [status] at h
  all_goals rfl

theorem handOver_posted (b : BayId) (h : (s.bay b).dialogue.slotStatus = .posted) : handOver b true s = s := by
  unfold handOver
  rw [h]

theorem handOver_free (h : (s.bay b).dialogue.slotStatus ≠ .sending) :
    handOver b false s = modBay b (fun y => { y with dialogue := { y.dialogue with slotStatus := .free } }) s := by
  unfold handOver
  cases status : (s.bay b).dialogue.slotStatus
  case sending => exact absurd status h
  case free =>
    refine (modBay_id b s).symm.trans (modBay_congr b _ _ s ?_)
    rw [← status]
  all_goals rfl

theorem post_long (length : 32 < s.slotLength b) : post b s = refuseParcel b s := by
  unfold post
  rw [if_pos length]

theorem post_short (length : s.slotLength b ≤ 32) : post b s = takeParcel b (setSlot b .posted s) := by
  unfold post
  rw [if_neg (Nat.not_lt.mpr length)]

theorem setSlot_bay (st : SlotStatus) (s : State) :
    (setSlot b st s).bay b = { s.bay b with dialogue := { (s.bay b).dialogue with slotStatus := st } } :=
  modBay_bay_self b _ s

theorem mayTake_setSlot_posted (s : State) (b : BayId) : (setSlot b .posted s).mayTake b = true ↔
    (s.bay b).link.linkState = .bound
      ∧ txListed .parcel (s.bay b).link.txList = false ∧ inFlightIs .parcel (s.bay b).link = false := by
  rw [mayTake_iff, setSlot_bay]
  simp

theorem post_waits (length : s.slotLength b ≤ 32) (waits : (s.bay b).link.linkState ≠ .bound
    ∨ txListed .parcel (s.bay b).link.txList = true ∨ inFlightIs .parcel (s.bay b).link = true) :
    post b s = setSlot b .posted s := by
  rw [post_short length]
  refine takeParcel_none (eq_false_of_ne_true fun may => ?_)
  obtain ⟨bound, list, flight⟩ := (mayTake_setSlot_posted s b).mp may
  rw [list, flight] at waits
  simp [bound] at waits

theorem post_sends (length : s.slotLength b ≤ 32) (bound : (s.bay b).link.linkState = .bound)
    (list : txListed .parcel (s.bay b).link.txList = false) (flight : inFlightIs .parcel (s.bay b).link = false) :
    post b s = modBay b (fun y => { y with
      dialogue := { y.dialogue with
        slotStatus := .sending, parcelCopy := some (s.slotPayload b (s.slotLength b)) },
      link := { y.link with txList := y.link.txList ++ [.parcel (s.slotPayload b (s.slotLength b))] } }) s := by
  have may := (mayTake_setSlot_posted s b).mpr ⟨bound, list, flight⟩
  have boundThen : ((setSlot b .posted s).bay b).link.linkState = .bound := by rw [setSlot_bay]; exact bound
  have listThen : txListed .parcel ((setSlot b .posted s).bay b).link.txList = false := by rw [setSlot_bay]; exact list
  rw [post_short length, takeParcel_copies may length, copyParcel_eq _ boundThen listThen, setSlot, modDialogue,
    modBay_modBay]
  rfl

theorem takeParcel_short (posted : (s.bay b).dialogue.slotStatus = .posted) (length : s.slotLength b ≤ 32)
    (bound : (s.bay b).link.linkState = .bound) (list : txListed .parcel (s.bay b).link.txList = false)
    (flight : inFlightIs .parcel (s.bay b).link = false) :
    takeParcel b s = modBay b (fun y => { y with
      dialogue := { y.dialogue with
        slotStatus := .sending, parcelCopy := some (s.slotPayload b (s.slotLength b)) },
      link := { y.link with txList := y.link.txList ++ [.parcel (s.slotPayload b (s.slotLength b))] } }) s := by
  rw [takeParcel_copies ((mayTake_iff s b).mpr ⟨posted, bound, list, flight⟩) length, copyParcel_eq _ bound list]

theorem takeParcel_waits (waits : (s.bay b).dialogue.slotStatus ≠ .posted ∨ (s.bay b).link.linkState ≠ .bound
    ∨ txListed .parcel (s.bay b).link.txList = true ∨ inFlightIs .parcel (s.bay b).link = true) :
    takeParcel b s = s := by
  refine takeParcel_none (eq_false_of_ne_true fun may => ?_)
  obtain ⟨posted, bound, list, flight⟩ := (mayTake_iff s b).mp may
  rw [list, flight] at waits
  simp [posted, bound] at waits

/-- Settles O24: the posts by length and link, the frees, and the takes of a POSTED parcel. -/
theorem outboxHandedOver : Obligations.OutboxHandedOver := by
  refine fun s b => ⟨fun h => ?_, handOver_posted b, handOver_free, fun posted bound list flight => ?_, takeParcel_waits,
    rfl, fun n => List.map_congr_left fun i _ => ?_⟩
  · rw [handOver_post h]
    exact ⟨post_long, post_waits, post_sends⟩
  · exact ⟨fun length => takeParcel_short posted length bound list flight,
      takeParcel_long ((mayTake_iff s b).mpr ⟨posted, bound, list, flight⟩)⟩
  · exact congrArg (Memory.read s.window) (Nat.add_assoc _ 2 i)

end Sys2Proof.Machine

/-! The moves of a bay as whole states: a STATE record, one changed bay, and from ON the Raise that leaves. The statements
O20, O36 and O37. -/

namespace Sys2Proof.Machine

variable {s : State} {b : BayId} {w new : BayState} {reason : StateReason} {g h : Bay → Bay}

/-! ## A bay that moves -/

/-- A state with the STATE record of a bay's move written; from ON the bay's Raise leaves with its ADMIT record. -/
def State.moved (s : State) (b : BayId) (w : BayState) (r : Record) (t : State) : State :=
  (if w = .on then setQueue (queueWithout s.queue b) else id)
    (submitAll (r :: if w = .on then s.leaving b .withdrawn else []) t)

theorem moved_of_ne_on {r : Record} {t : State} (plain : w ≠ .on) : s.moved b w r t = submitAll [r] t := by
  rw [State.moved, if_neg plain, if_neg plain]
  rfl

theorem moved_from_on {r : Record} {t : State} : s.moved b .on r t
    = setQueue (queueWithout s.queue b) (submitAll (r :: s.leaving b .withdrawn) t) := rfl

/-- Whether the Raise leaves or not, an operation beside the records and the queue passes the move. -/
theorem moved_comm {r : Record} {t : State} {op : State → State}
    (records : ∀ l u, op (submitAll l u) = submitAll l (op u)) (queue : ∀ q u, op (setQueue q u) = setQueue q (op u)) :
    op (s.moved b w r t) = s.moved b w r (op t) := by
  by_cases on : w = .on
  · subst on
    rw [moved_from_on, moved_from_on, queue, records]
  · rw [moved_of_ne_on on, moved_of_ne_on on, records]

theorem modBay_moved {r : Record} {t : State} : modBay b g (s.moved b w r t) = s.moved b w r (modBay b g t) :=
  moved_comm (fun l u => (submitAll_modBay l b g u).symm) (fun q u => modBay_setQueue b g q u)

theorem setCharge_setQueue (v : Nat) (q : List QueueEntry) (s : State) :
    setCharge b v (setQueue q s) = setQueue q (setCharge b v s) := rfl

theorem setCharge_moved {r : Record} {t : State} {v : Nat} :
    setCharge b v (s.moved b w r t) = s.moved b w r (setCharge b v t) :=
  moved_comm (fun l _ => setCharge_submitAll v l) (fun q u => setCharge_setQueue v q u)

theorem raiseFault_moved {r : Record} {t : State} : raiseFault (s.moved b w r t) = s.moved b w r (raiseFault t) :=
  moved_comm (fun l u => (submitAll_raiseFault l u).symm) (fun q u => raiseFault_setQueue q u)

theorem moved_bay {r : Record} {t : State} (c : BayId) : (s.moved b w r t).bay c = t.bay c := by
  by_cases on : w = .on
  · subst on
    rw [moved_from_on, show (setQueue (queueWithout s.queue b) (submitAll (r :: s.leaving b .withdrawn) t)).bay c
      = (submitAll (r :: s.leaving b .withdrawn) t).bay c from rfl, submitAll_bay]
  · rw [moved_of_ne_on on, submitAll_bay]

/-! ## Changes of state -/

/-- Every change of state that locks nothing (R5). -/
theorem changeState_moved {surprise : Bool} {n : Nat} (state : s.stateOf b = w) (unlocking : (!w.locked && new.locked) = false)
    (bay : Bay.changed s.shelf.state w new reason n (s.bay b) = g (s.bay b)) :
    changeState b new reason surprise n s = s.moved b w (.state b w new reason surprise) (modBay b g s) := by
  by_cases on : w = .on
  · subst on
    rw [changeState_fromOn new reason surprise n s state, moved_from_on, submitAll_modBay]
    congr 1
    exact modBay_congr b _ _ _ (by rw [submitAll_bay, bay])
  · rw [changeState_plain w new reason surprise n s state unlocking on, moved_of_ne_on on, submitAll_modBay]
    exact modBay_congr b _ _ _ (by rw [submit_bay, bay])

theorem changed_eq_inState {shelf : ShelfState} {n : Nat} {y : Bay} (outcome : quiesceOutcomeOf new reason = none)
    (pending : pendingAfter w new y.ctx.pending = y.ctx.pending) :
    Bay.changed shelf w new reason n y = y.inState new (n * 1000) := by
  unfold Bay.changed Bay.inState ms
  rw [outcome, pending, Option.getD_none, ite_self]

/-- A change of state that touches neither Pending nor the quiesce outcome. -/
theorem changeState_inState {surprise : Bool} {n : Nat} (state : s.stateOf b = w)
    (unlocking : (!w.locked && new.locked) = false) (outcome : quiesceOutcomeOf new reason = none)
    (pending : ∀ p, pendingAfter w new p = p) :
    changeState b new reason surprise n s
      = s.moved b w (.state b w new reason surprise) (modBay b (Bay.inState new (n * 1000)) s) :=
  changeState_moved state unlocking (changed_eq_inState outcome (pending _))

theorem changeState_inState_plain {surprise : Bool} {n : Nat} (state : s.stateOf b = w) (plain : w ≠ .on)
    (unlocking : (!w.locked && new.locked) = false) (outcome : quiesceOutcomeOf new reason = none)
    (pending : ∀ p, pendingAfter w new p = p) :
    changeState b new reason surprise n s
      = submitAll [.state b w new reason surprise] (modBay b (Bay.inState new (n * 1000)) s) := by
  rw [changeState_inState state unlocking outcome pending, moved_of_ne_on plain]

theorem changeState_queued_off (state : s.stateOf b = .queued) (outcome : quiesceOutcomeOf .off reason = none) :
    changeState b .off reason false 0 s
      = submitAll [.state b .queued .off reason false] (modBay b (Bay.inState .off 0) s) :=
  changeState_inState_plain state (by decide) rfl outcome fun _ => rfl

/-! ## A Start withdrawn, or refused as it is replaced -/

theorem stateOf_setQueue (q : List QueueEntry) (s : State) : (setQueue q s).stateOf b = s.stateOf b := rfl

theorem stateOf_submitAll (l : List Record) (s : State) : (submitAll l s).stateOf b = s.stateOf b := by
  rw [stateOf_eq, submitAll_bay, stateOf_eq]

theorem stateOf_modBay (g : Bay → Bay) (s : State) : (modBay b g s).stateOf b = (g (s.bay b)).ctx.state := by
  rw [stateOf_eq, modBay_bay_self]

theorem stateOf_modBay_kept (kept : (g (s.bay b)).ctx.state = (s.bay b).ctx.state) :
    (modBay b g s).stateOf b = s.stateOf b := by
  rw [stateOf_modBay, kept, stateOf_eq]

theorem intentOf_modBay_kept (kept : (g (s.bay b)).ctx.intent = (s.bay b).ctx.intent) :
    (modBay b g s).intentOf b = s.intentOf b := by
  rw [intentOf_eq, modBay_bay_self, kept, intentOf_eq]

theorem leaveQueue_then_off {outcome : AdmitOutcome} (state : s.stateOf b = .queued)
    (quiesce : quiesceOutcomeOf .off reason = none) :
    changeState b .off reason false 0 (leaveQueue b outcome s) = setQueue (queueWithout s.queue b)
      (submitAll (s.leaving b outcome ++ [.state b .queued .off reason false]) (modBay b (Bay.inState .off 0) s)) := by
  rw [leaveQueue_eq, changeState_queued_off (by rw [stateOf_setQueue, stateOf_submitAll, state]) quiesce,
    modBay_setQueue, submitAll_setQueue, ← submitAll_modBay, ← submitAll_append]

theorem withdrawStart_eq (state : s.stateOf b = .queued) (quiesce : quiesceOutcomeOf .off reason = none) :
    withdrawStart b reason s = setQueue (queueWithout s.queue b)
      (submitAll (s.leaving b .withdrawn ++ [.state b .queued .off reason false]) (modBay b (Bay.inState .off 0) s)) :=
  leaveQueue_then_off state quiesce

/-! ## REST (R17, R19, R20, R26) -/

theorem modInputs_eq (f : BayInputs → BayInputs) (s : State) :
    modInputs b f s = modBay b (fun y => { y with inputs := f y.inputs }) s := rfl

theorem modCtx_eq (f : BayContext → BayContext) (s : State) :
    modCtx b f s = modBay b (fun y => { y with ctx := f y.ctx }) s := rfl

/-- The rest period of a bay, in µs. -/
theorem ms_restPeriod (s : State) (b : BayId) : restPeriod s b * 1000 = (s.intentOf b).restInterval * 10000 := by
  unfold restPeriod
  omega

theorem leaveFaulted_eq (state : s.stateOf b = .faulted) :
    leaveFaulted b s = restIfZero b (submitAll [.state b .faulted .rest .commit false]
      (modBay b (fun y => { (y.inState .rest ((s.intentOf b).restInterval * 10000)) with
        inputs := { y.inputs with fltTicks := 0, fltLevel := false } }) s)) := by
  unfold leaveFaulted clearFilter
  rw [changeState_inState_plain state (by decide) rfl rfl fun _ => rfl, modInputs_eq, ← submitAll_modBay,
    modBay_modBay, ms_restPeriod]
  rfl

theorem discharge_eq (state : s.stateOf b = .cutoff) :
    discharge b s = restIfZero b (submitAll [.state b .cutoff .rest .discharged false]
      (setCharge b 0 (modBay b (Bay.inState .rest ((s.intentOf b).restInterval * 10000)) s))) := by
  unfold discharge
  rw [changeState_inState_plain state (by decide) rfl rfl fun _ => rfl, setCharge_submitAll, ms_restPeriod]

theorem endRest_absent (state : s.stateOf b = .rest) (absent : (s.bay b).inputs.presConfirmed = false) :
    endRest b s = submitAll [.state b .rest .empty .restDone false] (modBay b (Bay.inState .empty 0) s) := by
  unfold endRest
  rw [absent, if_neg Bool.false_ne_true, changeState_inState_plain state (by decide) rfl rfl fun _ => rfl]

theorem endRest_present (state : s.stateOf b = .rest) (present : (s.bay b).inputs.presConfirmed = true) :
    endRest b s = reconcileOff b (submitAll [.state b .rest .off .restDone false] (modBay b (Bay.inState .off 0) s)) := by
  unfold endRest
  rw [present, if_pos rfl, changeState_inState_plain state (by decide) rfl rfl fun _ => rfl]

theorem exec_restExpiry (state : s.stateOf b = .rest) (timer : (s.bay b).ctx.phaseTimer = 0)
    (shelf : s.shelf.state ≠ .init) : exec (.restExpiry b) s = .next (finish (endRest b s)) :=
  congrArg Host.Outcome.next (if_pos ⟨state, timer, inInit_eq_false.mpr shelf⟩)

/-- Settles O37: REST ends by the confirmed presence. -/
theorem restEnds : Obligations.RestEnds := fun _ _ =>
  ⟨exec_restExpiry, endRest_absent, endRest_present, rfl⟩

/-! ## FAULTED (R25, R70, R72) -/

/-- A bay is latched off, but for its charge. -/
theorem latch_moved (state : s.stateOf b = w) (unlocking : (!w.locked && BayState.faulted.locked) = false) :
    raiseFault (modInputs b (fun i => { i with faultCount := min 255 (i.faultCount + 1) })
      (modCtx b (fun c => { c with clearRequested := false, pending := false })
        (changeState b .faulted reason false 0 s)))
      = s.moved b w (.state b w .faulted reason false)
        (raiseFault (modBay b (fun y => y.latched.quiescedAs .faulted s.shelf.state) s)) := by
  rw [changeState_moved state unlocking rfl, modCtx_eq, modInputs_eq, modBay_modBay, modBay_moved, modBay_modBay,
    raiseFault_moved]
  rfl

theorem enterFaulted_eq (state : s.stateOf b = w) (unlocking : (!w.locked && BayState.faulted.locked) = false) :
    enterFaulted b reason s = s.moved b w (.state b w .faulted reason false)
      ((if (s.bay b).inputs.pgLevel then id else setCharge b 0)
        (raiseFault (modBay b (fun y => y.latched.quiescedAs .faulted s.shelf.state) s))) := by
  unfold enterFaulted releaseIfDown
  rw [latch_moved state unlocking, moved_bay, raiseFault_bay, modBay_bay_self]
  by_cases power : (s.bay b).inputs.pgLevel = true
  · rw [if_pos power]
    exact if_pos power
  · rw [if_neg power, ← setCharge_moved]
    exact if_neg power

/-! ## CUTOFF and DRAIN (R15 to R18) -/

/-- The bay that enters CUTOFF, or goes on from it to REST, with its outcome. -/
def Bay.cutTo (w : BayState) (o : QuiesceOutcome) (shelf : ShelfState) (st : BayState) (n : Nat) (y : Bay) : Bay :=
  ((y.inState st n).quiescedAs o shelf).withPending (if w = .ramp ∨ w = .settle then false else y.ctx.pending)

theorem cutTo_inputs (o : QuiesceOutcome) (shelf : ShelfState) (st : BayState) (n : Nat) (y : Bay) :
    (y.cutTo w o shelf st n).inputs = y.inputs := rfl

theorem pendingAfter_cutoff (p : Bool) :
    pendingAfter w .cutoff p = if w = .ramp ∨ w = .settle then false else p := by
  cases w <;> rfl

theorem changed_cutoff {o : QuiesceOutcome} {shelf : ShelfState} {n : Nat} (outcome : quiesceOutcomeOf .cutoff reason = some o)
    (y : Bay) : Bay.changed shelf w .cutoff reason n y = y.cutTo w o shelf .cutoff (n * 1000) := by
  unfold Bay.changed
  rw [outcome, pendingAfter_cutoff]
  rfl

theorem changeState_cutoff {o : QuiesceOutcome} {n : Nat} (state : s.stateOf b = w)
    (unlocking : (!w.locked && BayState.cutoff.locked) = false) (outcome : quiesceOutcomeOf .cutoff reason = some o) :
    changeState b .cutoff reason false n s = s.moved b w (.state b w .cutoff reason false)
      (modBay b (Bay.cutTo w o s.shelf.state .cutoff (n * 1000)) s) :=
  changeState_moved state unlocking (changed_cutoff outcome _)

theorem enterCutoff_eq (b : BayId) (reason : StateReason) (s : State) : enterCutoff b reason s
    = cutoffNext b (changeState b .cutoff reason false (s.intentOf b).dischargeWindow s) := rfl

theorem enterCutoff_powered {o : QuiesceOutcome} (state : s.stateOf b = w)
    (unlocking : (!w.locked && BayState.cutoff.locked) = false) (outcome : quiesceOutcomeOf .cutoff reason = some o)
    (power : (s.bay b).inputs.pgLevel = true) (period : (s.intentOf b).dischargeWindow ≠ 0) :
    enterCutoff b reason s = s.moved b w (.state b w .cutoff reason false)
      (modBay b (Bay.cutTo w o s.shelf.state .cutoff ((s.intentOf b).dischargeWindow * 1000)) s) := by
  have timer : (s.intentOf b).dischargeWindow * 1000 ≠ 0 := by omega
  rw [enterCutoff_eq, changeState_cutoff state unlocking outcome]
  unfold cutoffNext
  rw [moved_bay, modBay_bay_self, cutTo_inputs, power, if_neg Bool.noConfusion]
  exact if_neg timer

theorem enterCutoff_unpowered {o : QuiesceOutcome} (state : s.stateOf b = w)
    (unlocking : (!w.locked && BayState.cutoff.locked) = false) (outcome : quiesceOutcomeOf .cutoff reason = some o)
    (power : (s.bay b).inputs.pgLevel = false) :
    enterCutoff b reason s = restIfZero b (submitAll [.state b .cutoff .rest .discharged false]
      (setCharge b 0 (s.moved b w (.state b w .cutoff reason false)
        (modBay b (Bay.cutTo w o s.shelf.state .rest ((s.intentOf b).restInterval * 10000)) s)))) := by
  rw [enterCutoff_eq, changeState_cutoff state unlocking outcome]
  unfold cutoffNext
  rw [moved_bay, modBay_bay_self, cutTo_inputs, if_pos power, discharge_eq (by rw [stateOf_eq, moved_bay, modBay_bay_self]; rfl),
    modBay_moved, modBay_modBay, intentOf_eq, moved_bay, modBay_bay_self]
  rfl

theorem drain_reason_quiesce (r : DrainReason) : quiesceOutcomeOf .drain r.toState = none := rfl

/-- The state that a bay in ON leaves as it begins to drain, its PREPARE not yet sent. -/
theorem changeState_drain {r : DrainReason} (state : s.stateOf b = .on) :
    changeState b .drain r.toState false ((s.intentOf b).drainWait * 10) s
      = setQueue (queueWithout s.queue b) (submitAll (.state b .on .drain r.toState false :: s.leaving b .withdrawn)
        (modBay b (Bay.inState .drain ((s.intentOf b).drainWait * 10000)) s)) := by
  rw [changeState_inState state rfl (drain_reason_quiesce r) fun _ => rfl, Nat.mul_assoc]
  rfl

theorem enterDrain_eq (r : DrainReason) (state : s.stateOf b = .on) :
    enterDrain b r s = drainNext b r (s.moved b .on (.state b .on .drain r.toState false)
      (modBay b (Bay.inState .drain ((s.intentOf b).drainWait * 10000)) s)) :=
  congrArg (drainNext b r) (changeState_drain state)

theorem intentOf_moved {r : Record} {t : State} : (s.moved b w r t).intentOf b = t.intentOf b := by
  rw [intentOf_eq, moved_bay, intentOf_eq]

theorem drainNext_eq (r : DrainReason) (d : State) : drainNext b r d
    = if (d.bay b).link.linkState = .bound then
        if (d.intentOf b).drainWait = 0 then
          enterCutoff b .drainExpired (placeEntry b (.prepare (d.intentOf b).drainWait r) d)
        else placeEntry b (.prepare (d.intentOf b).drainWait r) d
      else enterCutoff b .linkLost d := rfl

theorem enterDrain_cases {r : DrainReason} {d : State} (state : s.stateOf b = .on)
    (draining : d = setQueue (queueWithout s.queue b) (submitAll (.state b .on .drain r.toState false :: s.leaving b .withdrawn)
      (modBay b (Bay.inState .drain ((s.intentOf b).drainWait * 10000)) s))) :
    ((s.bay b).link.linkState ≠ .bound → enterDrain b r s = enterCutoff b .linkLost d)
    ∧ ((s.bay b).link.linkState = .bound → (s.intentOf b).drainWait ≠ 0 →
      enterDrain b r s = placeEntry b (.prepare (s.intentOf b).drainWait r) d)
    ∧ ((s.bay b).link.linkState = .bound → (s.intentOf b).drainWait = 0 →
      enterDrain b r s = enterCutoff b .drainExpired (placeEntry b (.prepare 0 r) d)) := by
  rw [← moved_from_on] at draining
  have link : (d.bay b).link = (s.bay b).link := by rw [draining, moved_bay, modBay_bay_self]; rfl
  have intent : d.intentOf b = s.intentOf b := by rw [draining, intentOf_moved, intentOf_modBay_kept rfl]
  rw [enterDrain_eq r state, ← draining, drainNext_eq, link, intent]
  refine ⟨fun apart => if_neg apart, fun bound wait => ?_, fun bound wait => ?_⟩
  · rw [if_pos bound, if_neg wait]
  · rw [if_pos bound, if_pos wait, wait]

theorem exec_drainExpiry (state : s.stateOf b = .drain) (timer : (s.bay b).ctx.phaseTimer = 0) :
    exec (.drainExpiry b) s = .next (finish (enterCutoff b .drainExpired s)) :=
  congrArg Host.Outcome.next (if_pos ⟨state, timer⟩)

theorem quiesceOutcome_of_cut {r : StateReason} {o : QuiesceOutcome}
    (pair : (r, o) ∈ [(StateReason.released, QuiesceOutcome.released), (.drainExpired, .expired), (.linkLost, .expired),
      (.quiesceDeadline, .cut), (.cut, .cut), (.trouble, .cut), (.latchOpen, .cut), (.shed, .cut)]) :
    quiesceOutcomeOf .cutoff r = some o := by
  simp only [List.mem_cons, Prod.mk.injEq, List.not_mem_nil, or_false] at pair
  rcases pair with ⟨rfl, rfl⟩ | ⟨rfl, rfl⟩ | ⟨rfl, rfl⟩ | ⟨rfl, rfl⟩ | ⟨rfl, rfl⟩ | ⟨rfl, rfl⟩ | ⟨rfl, rfl⟩ | ⟨rfl, rfl⟩ <;> rfl

theorem unlocking_of_powered (powered : w ∈ [.ramp, .settle, .on, .drain]) (new : BayState) :
    (!w.locked && new.locked) = false := by
  simp only [List.mem_cons, List.not_mem_nil, or_false] at powered
  rcases powered with rfl | rfl | rfl | rfl <;> rfl

/-- Settles O36: the expiry of DRAIN, the ways through CUTOFF, and those through DRAIN. -/
theorem powerDown : Obligations.PowerDown := by
  refine fun s b => ⟨exec_drainExpiry, fun r o w timer next pair state powered moved => ?_,
    fun r d state draining => enterDrain_cases state draining⟩
  have outcome := quiesceOutcome_of_cut pair
  have unlocking := unlocking_of_powered powered .cutoff
  subst moved
  refine ⟨enterCutoff_powered state unlocking outcome, fun power period => ?_⟩
  rw [period]
  exact enterCutoff_unpowered state unlocking outcome power

/-! ## The committed Target (R21) -/

theorem reconcileOff_of_not (h : s.stateOf b ≠ .off ∨ s.startOk b = false) : reconcileOff b s = s := by
  unfold reconcileOff
  refine if_neg fun ⟨off, ok⟩ => ?_
  rw [ok] at h
  exact h.elim (absurd off) Bool.noConfusion

theorem reconcileOff_start (off : s.stateOf b = .off) (ok : s.startOk b = true) :
    reconcileOff b s = joinStart b (chooseBasis b s) := if_pos ⟨off, ok⟩

theorem leaving_of_entry {e : QueueEntry} {outcome : AdmitOutcome} (entry : queueEntryOf s.queue b = some e) :
    s.leaving b outcome = [.admission b e.kind outcome e.amount (queuePosition s.queue b) e.clipped s.pool.committed] := by
  unfold State.leaving
  rw [entry]

theorem leaving_of_none {outcome : AdmitOutcome} (entry : queueEntryOf s.queue b = none) : s.leaving b outcome = [] := by
  unfold State.leaving
  rw [entry]

theorem takeTarget_off (off : s.stateOf b = .off) : takeTarget b s = reconcileOff b s := by
  unfold takeTarget
  rw [off]

theorem takeTarget_queued (target : (s.intentOf b).target ≠ .on) (state : s.stateOf b = .queued) :
    takeTarget b s = withdrawStart b (if (s.intentOf b).target = .cut then .cut else .target) s := by
  unfold takeTarget
  rw [state]
  cases wanted : (s.intentOf b).target
  case on => exact absurd wanted target
  all_goals rfl

theorem takeTarget_faulted (target : (s.intentOf b).target ≠ .on) (state : s.stateOf b = .faulted) :
    takeTarget b s = clearFault b s := by
  unfold takeTarget
  rw [state]
  cases wanted : (s.intentOf b).target
  case on => exact absurd wanted target
  all_goals rfl

theorem takeTarget_on (target : (s.intentOf b).target = .on) (state : s.stateOf b ≠ .off) : takeTarget b s = s := by
  unfold takeTarget
  rw [target]
  cases now : s.stateOf b
  case off => exact absurd now state
  all_goals rfl

theorem takeTarget_unpowered (state : s.stateOf b ∈ [.empty, .rest, .cutoff]) :
    takeTarget b s = s := by
  simp only [List.mem_cons, List.not_mem_nil, or_false] at state
  unfold takeTarget
  rcases state with now | now | now <;> rw [now]

theorem takeTarget_off_waits (target : (s.intentOf b).target = .off) (state : s.stateOf b ∈ [.ramp, .settle, .drain]) :
    takeTarget b s = s := by
  simp only [List.mem_cons, List.not_mem_nil, or_false] at state
  unfold takeTarget
  rcases state with now | now | now <;> rw [now, target]

theorem takeTarget_cut (target : (s.intentOf b).target = .cut) (state : s.stateOf b ∈ [.ramp, .settle, .on, .drain]) :
    takeTarget b s = enterCutoff b .cut s := by
  simp only [List.mem_cons, List.not_mem_nil, or_false] at state
  unfold takeTarget
  rcases state with now | now | now | now <;> rw [now, target]

theorem takeTarget_drains (target : (s.intentOf b).target = .off) (state : s.stateOf b = .on) :
    takeTarget b s = enterDrain b .target s := by
  unfold takeTarget
  rw [state, target]

theorem startOk_target (target : (s.intentOf b).target ≠ .on) : s.startOk b = false := by
  simp [State.startOk, ← intentOf_eq, target]

theorem clearFault_powered (power : (s.bay b).inputs.pgLevel = true) :
    clearFault b s = modBay b (fun y => { y with ctx := { y.ctx with clearRequested := true } }) s := if_pos power

theorem clearFault_unpowered (power : (s.bay b).inputs.pgLevel = false) : clearFault b s = leaveFaulted b s := by
  unfold clearFault
  rw [power, if_neg Bool.false_ne_true]

/-- Settles O20: the Target by bay state. -/
theorem targetTaken : Obligations.TargetTaken := by
  refine fun s b => ⟨takeTarget_on, fun _ state => takeTarget_off state, fun target state => ?_, takeTarget_off_waits,
    takeTarget_cut, takeTarget_drains, fun e target state entry => ?_, fun target state power => ?_,
    fun target state power => ?_⟩
  · by_cases off : s.stateOf b = .off
    · rw [takeTarget_off off, reconcileOff_of_not (.inr (startOk_target target))]
    · exact takeTarget_unpowered (by simpa [off] using state)
  · have outcome : quiesceOutcomeOf .off (if (s.intentOf b).target = .cut then .cut else .target) = none := rfl
    rw [takeTarget_queued target state, withdrawStart_eq state outcome, leaving_of_entry entry, submitAll_setQueue]
    rfl
  · rw [takeTarget_faulted target state, clearFault_powered power]
  · rw [takeTarget_faulted target state, clearFault_unpowered power, leaveFaulted_eq state]

end Sys2Proof.Machine

/-! The inputs and the timers that latch a bay: FLT, PG, LATCH. The statements O28, O30, O31, O32 and O34. -/

namespace Sys2Proof.Machine

variable {s : State} {b : BayId} {w : BayState} {reason : StateReason} {g : Bay → Bay}

/-! ## The records of a bay that another change came before -/

theorem leaving_modBay {outcome : AdmitOutcome} : (modBay b g s).leaving b outcome = s.leaving b outcome := rfl

/-- A Start withdrawn after another change of its bay. -/
theorem withdrawStart_modBay (state : (g (s.bay b)).ctx.state = .queued) (quiesce : quiesceOutcomeOf .off reason = none) :
    withdrawStart b reason (modBay b g s) = setQueue (queueWithout s.queue b)
      (submitAll (s.leaving b .withdrawn ++ [.state b .queued .off reason false])
        (modBay b (fun y => (g y).inState .off 0) s)) := by
  rw [withdrawStart_eq (by rw [stateOf_modBay, state]) quiesce, leaving_modBay, modBay_modBay]
  rfl

/-! ## FLT (R65, R66) -/

theorem onFaultConfirmed_ignored (state : s.stateOf b ∈ [.empty, .off, .rest, .cutoff, .faulted]) :
    onFaultConfirmed b s = s := by
  simp only [List.mem_cons, List.not_mem_nil, or_false] at state
  unfold onFaultConfirmed
  rcases state with now | now | now | now | now <;> rw [now]

theorem onFaultConfirmed_powered (state : s.stateOf b = w) (powered : w ∈ [.ramp, .settle, .on, .drain]) :
    onFaultConfirmed b s = enterFaulted b .switchFault s := by
  simp only [List.mem_cons, List.not_mem_nil, or_false] at powered
  unfold onFaultConfirmed
  rcases powered with rfl | rfl | rfl | rfl <;> rw [state]

theorem onFaultConfirmed_queued (state : s.stateOf b = .queued) :
    onFaultConfirmed b s = withdrawStart b .preconditionLost s := by
  unfold onFaultConfirmed
  rw [state]

theorem handFlt_same {x : Bool} (level : (s.bay b).inputs.fltLevel = x) : handFlt b x s = s := by
  unfold handFlt
  rw [level]
  cases x <;> rfl

theorem handFlt_falls (level : (s.bay b).inputs.fltLevel = false) : handFlt b true s = reconcileOff b s := by
  unfold handFlt
  rw [level]

theorem handFlt_rises (level : (s.bay b).inputs.fltLevel = true) : handFlt b false s = onFaultConfirmed b s := by
  unfold handFlt
  rw [level]

theorem exec_fltEdge (b : BayId) (x : Bool) (s : State) : exec (.fltEdge b x) s
    = .next (finish (handFlt b (s.bay b).inputs.fltLevel
      (modInputs b (BayInputs.fltEdge (faultThreshold (s.intentOf b)) x) s))) := rfl

theorem exec_fltEdge_same {x : Bool}
    (level : (x && (s.bay b).inputs.fltTicks == faultThreshold (s.intentOf b)) = (s.bay b).inputs.fltLevel) :
    exec (.fltEdge b x) s = .next (finish (modBay b (fun y => { y with
      inputs := { y.inputs with fltPin := x, fltTickDue := x && y.inputs.fltTickDue } }) s)) := by
  have edge : modInputs b (BayInputs.fltEdge (faultThreshold (s.intentOf b)) x) s = modBay b (fun y => { y with
      inputs := { y.inputs with fltPin := x, fltTickDue := x && y.inputs.fltTickDue } }) s := by
    refine modBay_congr b _ _ s ?_
    unfold BayInputs.fltEdge
    rw [level]
  rw [exec_fltEdge, edge, handFlt_same]
  rw [modBay_bay_self]

theorem exec_fltEdge_falls (level : (s.bay b).inputs.fltLevel = true) :
    exec (.fltEdge b false) s = .next (finish (reconcileOff b (modBay b (fun y => { y with
      inputs := { y.inputs with fltPin := false, fltLevel := false, fltTickDue := false } }) s))) := by
  rw [exec_fltEdge, level, handFlt_falls]
  · rfl
  · rw [modInputs_eq, modBay_bay_self]
    rfl

theorem exec_fltEdge_confirms (ticks : (s.bay b).inputs.fltTicks = faultThreshold (s.intentOf b))
    (level : (s.bay b).inputs.fltLevel = false) :
    exec (.fltEdge b true) s = .next (finish (onFaultConfirmed b (modBay b (fun y => { y with
      inputs := { y.inputs with fltPin := true, fltTicks := faultThreshold (s.intentOf b), fltLevel := true,
                                fltTickDue := (s.bay b).inputs.fltTickDue } }) s))) := by
  have edge : modInputs b (BayInputs.fltEdge (faultThreshold (s.intentOf b)) true) s = modBay b (fun y => { y with
      inputs := { y.inputs with fltPin := true, fltTicks := faultThreshold (s.intentOf b), fltLevel := true,
                                fltTickDue := (s.bay b).inputs.fltTickDue } }) s := by
    refine modBay_congr b _ _ s ?_
    unfold BayInputs.fltEdge
    rw [← ticks, beq_self_eq_true, Bool.and_self, Bool.true_and]
  rw [exec_fltEdge, edge, level, handFlt_rises]
  rw [modBay_bay_self]

theorem exec_faultConfirmed_idle (due : (s.bay b).inputs.fltTickDue = false) : exec (.faultConfirmed b) s = .next s := by
  refine congrArg Host.Outcome.next (if_neg ?_)
  unfold State.faultDue
  rw [due]
  exact Bool.false_ne_true

theorem exec_faultConfirmed (outside : s.shelf.state ≠ .init) (pin : (s.bay b).inputs.fltPin = true)
    (due : (s.bay b).inputs.fltTickDue = true) (ticks : (s.bay b).inputs.fltTicks + 1 = faultThreshold (s.intentOf b)) :
    exec (.faultConfirmed b) s = .next (finish (onFaultConfirmed b (modBay b (fun y => { y with
      inputs := { y.inputs with fltPin := true, fltTicks := faultThreshold (s.intentOf b), fltLevel := true,
                                fltTickDue := false } }) s))) := by
  have counted : s.faultDue b = true := by
    simp [State.faultDue, due, inInit_eq_false.mpr outside, pin, ticks]
  have tick : modInputs b (fun i => { i with fltTicks := i.fltTicks + 1, fltLevel := true, fltTickDue := false }) s
      = modBay b (fun y => { y with
        inputs := { y.inputs with fltPin := true, fltTicks := faultThreshold (s.intentOf b), fltLevel := true,
                                  fltTickDue := false } }) s := by
    refine modBay_congr b _ _ s ?_
    rw [← ticks, ← pin]
  refine congrArg Host.Outcome.next ((if_pos counted).trans ?_)
  rw [tick]

theorem faultThreshold_eq (i : Intent) : faultThreshold i = if i.faultFilter = 0 then 1 else i.faultFilter := by
  unfold faultThreshold
  split <;> omega

/-- Settles O30: the edges and the ticks of FLT, and what a confirmed fault does by bay state. -/
theorem faultFilter : Obligations.FaultFilter := by
  refine fun s b => ⟨fun x => exec_fltEdge_same, exec_fltEdge_falls, fun i n due confirmed => ?_,
    exec_faultConfirmed_idle, onFaultConfirmed_ignored, fun w state powered => ?_, fun state => ?_, faultThreshold_eq _⟩
  · rcases confirmed with ⟨rfl, ticks, level, rfl, rfl⟩ | ⟨rfl, outside, pin, tick, ticks, rfl, rfl⟩
    · exact exec_fltEdge_confirms ticks level
    · exact exec_faultConfirmed outside pin tick ticks
  · rw [onFaultConfirmed_powered state powered, enterFaulted_eq state (unlocking_of_powered powered _)]
    rfl
  · rw [onFaultConfirmed_queued state, withdrawStart_eq state rfl]

/-! ## PG (R69) -/

theorem exec_pgBecomesActive (level : (s.bay b).inputs.pgLevel = false) :
    exec (.pgBecomesActive b) s = .next (finish (onPgActive b (setPg b true s))) :=
  congrArg Host.Outcome.next (if_pos level)

theorem exec_pgBecomesInactive (level : (s.bay b).inputs.pgLevel = true) :
    exec (.pgBecomesInactive b) s = .next (finish (onPgInactive b (setPg b false s))) :=
  congrArg Host.Outcome.next (if_pos level)

theorem setPg_eq (b : BayId) (level : Bool) (s : State) :
    setPg b level s = modBay b (fun y => { y with inputs := { y.inputs with pgLevel := level } }) s := rfl

theorem setPg_bay (level : Bool) : (setPg b level s).bay b = { s.bay b with
    inputs := { (s.bay b).inputs with pgLevel := level } } := by
  rw [setPg_eq, modBay_bay_self]

theorem stateOf_setPg (level : Bool) : (setPg b level s).stateOf b = s.stateOf b := stateOf_modBay_kept rfl

theorem intentOf_setPg (level : Bool) : (setPg b level s).intentOf b = s.intentOf b := intentOf_modBay_kept rfl

theorem onPgActive_other (state : s.stateOf b ≠ .ramp) : onPgActive b s = s := by
  unfold onPgActive
  cases now : s.stateOf b
  case ramp => exact absurd now state
  all_goals rfl

theorem onPgActive_ramp (state : s.stateOf b = .ramp) : onPgActive b s = enterSettle b s := by
  unfold onPgActive
  rw [state]

theorem enterSettle_eq (state : s.stateOf b = .ramp) :
    enterSettle b s = (if (s.intentOf b).settleDelay = 0 then enterOn b else id)
      (submitAll [.state b .ramp .settle .powerGood false]
        (modBay b (Bay.inState .settle ((s.intentOf b).settleDelay * 1000)) s)) := by
  unfold enterSettle settleNext
  rw [changeState_inState_plain state (by decide) rfl rfl fun _ => rfl, submitAll_bay, modBay_bay_self]
  by_cases delay : (s.intentOf b).settleDelay = 0
  · rw [if_pos delay]
    exact if_pos (by rw [Bay.inState, delay])
  · rw [if_neg delay]
    exact if_neg fun timer : (s.intentOf b).settleDelay * 1000 = 0 => delay (by omega)

/-- Settles O31: PG rises in RAMP, and elsewhere. -/
theorem powerGoodRises : Obligations.PowerGoodRises := by
  refine fun s b level => ⟨fun state => ?_, fun state => ?_⟩
  · rw [exec_pgBecomesActive level, onPgActive_other (by rwa [stateOf_setPg]), setPg_eq]
  · have now : (setPg b true s).stateOf b = .ramp := by rw [stateOf_setPg, state]
    rw [exec_pgBecomesActive level, onPgActive_ramp now, enterSettle_eq now, intentOf_setPg, setPg_eq, modBay_modBay]
    rfl

theorem onPgInactive_ignored (state : s.stateOf b ∈ [.empty, .off, .rest, .queued, .ramp]) : onPgInactive b s = s := by
  simp only [List.mem_cons, List.not_mem_nil, or_false] at state
  unfold onPgInactive
  rcases state with now | now | now | now | now <;> rw [now]

theorem onPgInactive_powered (state : s.stateOf b = w) (powered : w ∈ [.settle, .on, .drain]) :
    onPgInactive b s = enterFaulted b .powerLost s := by
  simp only [List.mem_cons, List.not_mem_nil, or_false] at powered
  unfold onPgInactive
  rcases powered with rfl | rfl | rfl <;> rw [state]

theorem onPgInactive_cutoff (state : s.stateOf b = .cutoff) : onPgInactive b s = discharge b s := by
  unfold onPgInactive
  rw [state]

theorem onPgInactive_faulted (state : s.stateOf b = .faulted) : onPgInactive b s
    = if (s.bay b).ctx.clearRequested then leaveFaulted b (setCharge b 0 s) else setCharge b 0 s := by
  unfold onPgInactive
  rw [state]
  rfl

theorem enterFaulted_after_pgFall (state : s.stateOf b = w) (unlocking : (!w.locked && BayState.faulted.locked) = false) :
    enterFaulted b reason (setPg b false s) = s.moved b w (.state b w .faulted reason false)
      (setCharge b 0 (raiseFault (modBay b (fun y => { (y.latched.quiescedAs .faulted s.shelf.state) with
        inputs := { y.latched.inputs with pgLevel := false } }) s))) := by
  have level : ((setPg b false s).bay b).inputs.pgLevel = false := by rw [setPg_bay]
  rw [enterFaulted_eq (by rw [stateOf_setPg, state]) unlocking, level, if_neg Bool.false_ne_true, setPg_eq, modBay_modBay]
  rfl

theorem stateOf_setCharge (v : Nat) : (setCharge b v s).stateOf b = s.stateOf b := by
  rw [stateOf_eq, setCharge_bay_self, stateOf_eq]

theorem intentOf_setCharge (v : Nat) : (setCharge b v s).intentOf b = s.intentOf b := by
  rw [intentOf_eq, setCharge_bay_self, intentOf_eq]

theorem leaveFaulted_after_pgFall (state : s.stateOf b = .faulted) :
    leaveFaulted b (setCharge b 0 (setPg b false s)) = restIfZero b (submitAll [.state b .faulted .rest .commit false]
      (setCharge b 0 (modBay b (fun y => { (y.inState .rest ((s.intentOf b).restInterval * 10000)) with
        inputs := { y.inputs with pgLevel := false, fltTicks := 0, fltLevel := false } }) s))) := by
  rw [leaveFaulted_eq (by rw [stateOf_setCharge, stateOf_setPg, state]), intentOf_setCharge, intentOf_setPg]
  refine congrArg (fun t => restIfZero b (submitAll _ t)) ?_
  refine (setCharge_modBay 0 _ ?_ ?_).trans ?_
  · exact fun _ => rfl
  · exact fun _ => rfl
  · rw [setPg_eq, modBay_modBay]
    rfl

/-- Settles O32: PG falls, by bay state. -/
theorem powerGoodFalls : Obligations.PowerGoodFalls := by
  refine fun s b level => ⟨fun state => ?_, fun w state powered => ?_, fun state => ?_, fun state asked => ?_,
    fun state asked => ?_⟩
  all_goals rw [exec_pgBecomesInactive level]
  · rw [onPgInactive_ignored (by rwa [stateOf_setPg]), setPg_eq]
  · have unlocking : (!w.locked && BayState.faulted.locked) = false := Bool.and_false _
    rw [onPgInactive_powered (by rwa [stateOf_setPg]) powered, enterFaulted_after_pgFall state unlocking]
    rfl
  · have now : (setPg b false s).stateOf b = .cutoff := by rw [stateOf_setPg, state]
    rw [onPgInactive_cutoff now, discharge_eq now, intentOf_setPg, setPg_eq, modBay_modBay]
    rfl
  · rw [onPgInactive_faulted (by rwa [stateOf_setPg]), setPg_bay, asked, if_neg Bool.false_ne_true, setPg_eq]
  · rw [onPgInactive_faulted (by rwa [stateOf_setPg]), setPg_bay, asked, if_pos rfl, leaveFaulted_after_pgFall state]

/-! ## Timers that latch a bay -/

theorem exec_rampExpiry (state : s.stateOf b = .ramp) (timer : (s.bay b).ctx.phaseTimer = 0) :
    exec (.rampExpiry b) s = .next (finish (enterFaulted b .noPowerGood s)) :=
  congrArg Host.Outcome.next (if_pos ⟨state, timer⟩)

theorem exec_dischargeExpiry (state : s.stateOf b = .cutoff) (timer : (s.bay b).ctx.phaseTimer = 0)
    (level : (s.bay b).inputs.pgLevel = true) :
    exec (.dischargeExpiry b) s = .next (finish (enterFaulted b .stuck s)) :=
  congrArg Host.Outcome.next (if_pos ⟨state, timer, level⟩)

/-- Settles O34: both expiries latch the bay; the charge goes where PG is inactive. -/
theorem faultedByTimer : Obligations.FaultedByTimer := by
  refine fun s b timer => ⟨fun state level => ?_, fun state level => ?_⟩
  · rw [exec_rampExpiry state timer, enterFaulted_eq state rfl, level, if_neg Bool.false_ne_true]
    rfl
  · rw [exec_dischargeExpiry state timer level, enterFaulted_eq state rfl, level, if_pos rfl]
    rfl

/-! ## LATCH (R22, R63) -/

theorem confirmLatch_eq (b : BayId) (s : State) : confirmLatch b s = modBay b (fun y => { y with
    inputs := { y.inputs with latchTimer := none, latchConfirmed := y.inputs.latchPin } }) s := rfl

theorem confirmLatch_of_pin {x : Bool} (pin : (s.bay b).inputs.latchPin = x) :
    confirmLatch b s = modBay b (fun y => { y with
      inputs := { y.inputs with latchTimer := none, latchConfirmed := x } }) s := by
  rw [confirmLatch_eq]
  exact modBay_congr b _ _ s (by rw [pin])

theorem exec_latchConfirmed (outside : s.shelf.state ≠ .init) (timer : (s.bay b).inputs.latchTimer = some 0)
    (changed : (s.bay b).inputs.latchPin ≠ (s.bay b).inputs.latchConfirmed) :
    exec (.latchConfirmed b) s = .next (finish (wakeEvent b .latch (handLatch b (confirmLatch b s)))) :=
  congrArg Host.Outcome.next (if_pos ⟨latchDue_of outside timer, changed⟩)

theorem handLatch_unsensed (sensed : (s.intentOf b).latchSensed = false) : handLatch b s = s := by
  unfold handLatch
  rw [sensed, if_neg Bool.false_ne_true]

theorem handLatch_closed (sensed : (s.intentOf b).latchSensed = true) (closed : (s.bay b).inputs.latchConfirmed = true) :
    handLatch b s = reconcileOff b s := by
  unfold handLatch
  rw [sensed, if_pos rfl, closed, if_pos rfl]

theorem handLatch_open (sensed : (s.intentOf b).latchSensed = true) (opened : (s.bay b).inputs.latchConfirmed = false) :
    handLatch b s = onLatchOpen b s := by
  unfold handLatch
  rw [sensed, if_pos rfl, opened, if_neg Bool.false_ne_true]

theorem onLatchOpen_ignored (state : s.stateOf b ∈ [.empty, .off, .rest, .drain, .cutoff, .faulted]) :
    onLatchOpen b s = s := by
  simp only [List.mem_cons, List.not_mem_nil, or_false] at state
  unfold onLatchOpen
  rcases state with now | now | now | now | now | now <;> rw [now]

theorem onLatchOpen_on (state : s.stateOf b = .on) : onLatchOpen b s = enterDrain b .latchOpen s := by
  unfold onLatchOpen
  rw [state]

theorem onLatchOpen_rising (state : s.stateOf b ∈ [.ramp, .settle]) : onLatchOpen b s = enterCutoff b .latchOpen s := by
  simp only [List.mem_cons, List.not_mem_nil, or_false] at state
  unfold onLatchOpen
  rcases state with now | now <;> rw [now]

theorem onLatchOpen_queued (state : s.stateOf b = .queued) : onLatchOpen b s = withdrawStart b .latchOpen s := by
  unfold onLatchOpen
  rw [state]

theorem stateOf_confirmLatch : (confirmLatch b s).stateOf b = s.stateOf b := stateOf_modBay_kept rfl

theorem intentOf_confirmLatch : (confirmLatch b s).intentOf b = s.intentOf b := intentOf_modBay_kept rfl

theorem latchConfirmed_confirmLatch : ((confirmLatch b s).bay b).inputs.latchConfirmed = (s.bay b).inputs.latchPin := by
  rw [confirmLatch_eq, modBay_bay_self]

/-- A confirmed opening that the Sequencer is told of. -/
theorem handLatch_opened (sensed : (s.intentOf b).latchSensed = true) (opened : (s.bay b).inputs.latchPin = false) :
    handLatch b (confirmLatch b s) = onLatchOpen b (confirmLatch b s) :=
  handLatch_open (by rw [intentOf_confirmLatch, sensed]) (by rw [latchConfirmed_confirmLatch, opened])

/-- Settles O28: the confirmed levels of LATCH, by LatchSensed and bay state. -/
theorem latchConfirmed : Obligations.LatchConfirmed := by
  refine fun s b outside timer changed => ⟨fun ignored => ?_, fun sensed closed => ?_,
    fun sensed opened => ⟨fun state => ?_, fun state => ?_, fun state => ?_⟩⟩
  all_goals rw [exec_latchConfirmed outside timer changed]
  · by_cases sensed : (s.intentOf b).latchSensed = false
    · rw [handLatch_unsensed (by rw [intentOf_confirmLatch, sensed]), confirmLatch_eq]
    · obtain ⟨opened, state⟩ := ignored.resolve_left sensed
      rw [handLatch_opened (eq_true_of_ne_false sensed) opened, onLatchOpen_ignored (by rwa [stateOf_confirmLatch]),
        confirmLatch_eq]
  · rw [handLatch_closed (by rw [intentOf_confirmLatch, sensed]) (by rw [latchConfirmed_confirmLatch, closed]),
      confirmLatch_of_pin closed]
  · rw [handLatch_opened sensed opened, onLatchOpen_on (by rw [stateOf_confirmLatch, state]), confirmLatch_of_pin opened]
  · rw [handLatch_opened sensed opened, onLatchOpen_rising (by rwa [stateOf_confirmLatch]), confirmLatch_of_pin opened]
  · rw [handLatch_opened sensed opened, onLatchOpen_queued (by rw [stateOf_confirmLatch, state]),
      confirmLatch_of_pin opened, withdrawStart_modBay state rfl]
    rfl

end Sys2Proof.Machine

/-! The confirmed levels of PRES: insertion and removal of a module. The statements O26 and O27. -/

namespace Sys2Proof.Machine

variable {s : State} {b : BayId} {w : BayState} {g : Bay → Bay}

/-! ## Insertion (R23, R98) -/

theorem confirmPres_of_pin {x : Bool} (pin : (s.bay b).inputs.presPin = x) :
    confirmPres b s = modBay b (fun y => { y with
      inputs := { y.inputs with presTimer := none, presConfirmed := x } }) s := by
  unfold confirmPres
  rw [modInputs_eq]
  exact modBay_congr b _ _ s (by rw [← pin])

theorem exec_presConfirmed (outside : s.shelf.state ≠ .init) (timer : (s.bay b).inputs.presTimer = some 0)
    (changed : (s.bay b).inputs.presPin ≠ (s.bay b).inputs.presConfirmed) :
    exec (.presConfirmed b) s = .next (finish (wakeEvent b .presence (handPres b (confirmPres b s)))) :=
  congrArg Host.Outcome.next (if_pos ⟨presDue_of outside timer, changed⟩)

/-- A bay whose link leaves DETACHED, with PROBE listed. -/
def Bay.attached (y : Bay) : Bay := { y with link := { y.link with
  linkState := .unbound, counters := ⟨0, 0, 0, 0⟩, reported := ⟨false, false, false, false⟩, nextSequence := 0
  txList := if y.link.txList.any (fun e => e.slot == .probe) || inFlightIs .probe y.link then y.link.txList
    else y.link.txList ++ [.probe] } }

theorem attachLink_eq (detached : (s.bay b).link.linkState = .detached) : attachLink b s = modBay b Bay.attached s := by
  unfold attachLink modLink
  rw [if_pos detached, placeProbe_eq, modBay_modBay]
  rfl

theorem insertModule_empty (state : s.stateOf b = .empty) :
    insertModule b s = submitAll [.state b .empty .off .inserted false] (modBay b (Bay.inState .off 0) s) := by
  unfold insertModule
  rw [state]
  exact changeState_inState_plain state (by decide) rfl rfl fun _ => rfl

theorem insertModule_rest (state : s.stateOf b = .rest) : insertModule b s = s := by
  unfold insertModule
  rw [state]

theorem onPresent_empty (state : s.stateOf b = .empty) (detached : (s.bay b).link.linkState = .detached) :
    onPresent b s = reconcileOff b (submitAll [.state b .empty .off .inserted false]
      (modBay b (fun y => y.attached.inState .off 0) s)) := by
  unfold onPresent
  rw [insertModule_empty state, attachLink_eq (by rw [submitAll_bay, modBay_bay_self]; exact detached),
    ← submitAll_modBay, modBay_modBay]
  rfl

theorem onPresent_rest (state : s.stateOf b = .rest) (detached : (s.bay b).link.linkState = .detached) :
    onPresent b s = modBay b Bay.attached s := by
  unfold onPresent
  rw [insertModule_rest state, attachLink_eq detached,
    reconcileOff_of_not (.inl (by rw [stateOf_modBay_kept rfl, state]; decide))]

theorem handPres_present (present : (s.bay b).inputs.presConfirmed = true) : handPres b s = onPresent b s :=
  if_pos present

theorem handPres_absent (absent : (s.bay b).inputs.presConfirmed = false) : handPres b s = onAbsent b s := by
  unfold handPres
  rw [absent, if_neg Bool.false_ne_true]

/-- Settles O26: the module is inserted from EMPTY, and noted in REST. -/
theorem presenceConfirmed : Obligations.PresenceConfirmed := by
  rintro s u b outside timer pin confirmed detached rfl
  have changed : (s.bay b).inputs.presPin ≠ (s.bay b).inputs.presConfirmed := by rw [pin, confirmed]; decide
  have taken : exec (.presConfirmed b) s = .next (finish (wakeEvent b .presence (onPresent b (modBay b (fun y => { y with
      inputs := { y.inputs with presTimer := none, presConfirmed := true } }) s)))) := by
    rw [exec_presConfirmed outside timer changed, confirmPres_of_pin pin, handPres_present (by rw [modBay_bay_self])]
  rw [taken]
  refine ⟨fun state => ?_, fun state => ?_⟩
  · rw [onPresent_empty (by rw [stateOf_modBay_kept rfl, state]) (by rw [modBay_bay_self]; exact detached),
      modBay_modBay, modBay_modBay]
    rfl
  · rw [onPresent_rest (by rw [stateOf_modBay_kept rfl, state]) (by rw [modBay_bay_self]; exact detached), modBay_modBay]
    rfl

/-! ## The link of a module that has gone (R97, R126, R127) -/

/-- The PARCEL record of a parcel that is abandoned, if there is one. -/
def abandonedRecords (b : BayId) (cause : ParcelCause) : Option OwedParcel → List Record
  | some o => [.parcel b .abandoned cause o.length o.attempts]
  | none => []

theorem submitAbandoned_eq (b : BayId) (cause : ParcelCause) (p : Option OwedParcel) (s : State) :
    submitAbandoned b cause p s = submitAll (abandonedRecords b cause p) s := by
  cases p <;> rfl

theorem parcelToAbandon_congr {t : State} (window : t.window = s.window)
    (dialogue : (t.bay b).dialogue = (s.bay b).dialogue) (link : (t.bay b).link = (s.bay b).link) :
    t.parcelToAbandon b = s.parcelToAbandon b := by
  unfold State.parcelToAbandon State.slotLength
  rw [window, dialogue, link]

theorem parcelToAbandon_modBay (dialogue : (g (s.bay b)).dialogue = (s.bay b).dialogue)
    (link : (g (s.bay b)).link = (s.bay b).link) : (modBay b g s).parcelToAbandon b = s.parcelToAbandon b :=
  parcelToAbandon_congr rfl (by rw [modBay_bay_self, dialogue]) (by rw [modBay_bay_self, link])

/-- A bay whose link goes DETACHED. -/
def Bay.detached (y : Bay) : Bay := { y with
  link := y.link.detach, dialogue := .cleared y.dialogue.slotStatus.dropped, ctx := { y.ctx with demand := none } }

theorem detachLink_eq (attached : (s.bay b).link.linkState ≠ .detached) :
    detachLink b s = submitAll (.link b .detached :: abandonedRecords b .detached (s.parcelToAbandon b))
      (modBay b Bay.detached s) := by
  unfold detachLink submitLink
  rw [if_neg attached, submitAbandoned_eq]
  rfl

theorem surprise_eq (w : BayState) :
    w.surprise = decide (w ∈ [BayState.ramp, .settle, .on, .drain, .cutoff]) := by
  cases w <;> rfl

/-! ## Removal (R24) -/

/-- A state that a bay's charge and entry have left, with records and the bay changed. -/
def State.vacated (s : State) (b : BayId) (l : List Record) (g : Bay → Bay) : State :=
  setQueue (queueWithout s.queue b) (submitAll l (setCharge b 0 (modBay b g s)))

theorem submitAll_vacated (l m : List Record) : submitAll m (s.vacated b l g) = s.vacated b (l ++ m) g := by
  rw [State.vacated, submitAll_setQueue, ← submitAll_append]
  rfl

theorem modBay_vacated (l : List Record) (h : Bay → Bay) (kept : ∀ y, (h y).charge = y.charge)
    (apart : ∀ y, h { y with charge := 0 } = { h y with charge := 0 }) :
    modBay b h (s.vacated b l g) = s.vacated b l (fun y => h (g y)) := by
  rw [State.vacated, modBay_setQueue, ← submitAll_modBay, setCharge_modBay 0 h kept apart, modBay_modBay]
  rfl

theorem vacated_bay (l : List Record) : (s.vacated b l g).bay b = { g (s.bay b) with charge := 0 } := by
  rw [State.vacated, setQueue_bay, submitAll_bay, setCharge_bay_self,
    modBay_bay_self]

theorem vacated_shelf (l : List Record) : (s.vacated b l g).shelf = s.shelf := submitAll_shelf _ _

theorem queueEntryOf_without (q : List QueueEntry) (b : BayId) : queueEntryOf (queueWithout q b) b = none := by
  unfold queueEntryOf queueWithout
  rw [List.find?_eq_none]
  intro e he
  simpa using (List.mem_filter.mp he).2

/-- From a state without an entry of the bay, a move is a record alone. -/
theorem moved_of_no_entry {r : Record} {t : State} (entry : queueEntryOf s.queue b = none) (queue : t.queue = s.queue) :
    s.moved b w r t = submitAll [r] t := by
  by_cases on : w = .on
  · subst on
    rw [moved_from_on, leaving_of_none entry, queueWithout_of_none _ _ entry, ← queue, ← submitAll_queue [r] t]
    rfl
  · exact moved_of_ne_on on

theorem pendingAfter_false (w new : BayState) : pendingAfter w new false = false := by
  cases w <;> cases new <;> rfl

/-- What the move into EMPTY does to a bay whose Pending is clear. -/
def Bay.emptied (shelf : ShelfState) (y : Bay) : Bay := (y.inState .empty 0).quiescedAs .absent shelf

theorem changed_emptied {shelf : ShelfState} {y : Bay} (pending : y.ctx.pending = false) :
    Bay.changed shelf w .empty .removed 0 y = y.emptied shelf := by
  unfold Bay.changed
  rw [pending, pendingAfter_false, ← pending]
  rfl

/-- The fault filter of a bay that a module has left, cleared where it was FAULTED (R68). -/
def Bay.unfaulted (w : BayState) (y : Bay) : Bay := { y with inputs := { y.inputs with
  fltTicks := if w = .faulted then 0 else y.inputs.fltTicks, fltLevel := if w = .faulted then false else y.inputs.fltLevel } }

theorem clearIfFaulted_eq (b : BayId) (w : BayState) (s : State) :
    clearIfFaulted b w s = modBay b (Bay.unfaulted w) s := by
  unfold clearIfFaulted
  by_cases faulted : w = .faulted
  · subst faulted
    rfl
  · rw [if_neg faulted]
    refine (modBay_id b s).symm.trans (modBay_congr b _ _ s ?_)
    rw [Bay.unfaulted, if_neg faulted, if_neg faulted]

/-- A bay whose Pending and TroubleHold are cleared. -/
def Bay.released (y : Bay) : Bay := { y with ctx := { y.ctx with pending := false, troubleHold := false } }

/-- A bay that its module has left. -/
def Bay.removed (w : BayState) (shelf : ShelfState) (y : Bay) : Bay :=
  (y.released.detached.emptied shelf).unfaulted w

theorem detachLink_vacated (attached : (g (s.bay b)).link.linkState ≠ .detached)
    (dialogue : (g (s.bay b)).dialogue = (s.bay b).dialogue) (link : (g (s.bay b)).link = (s.bay b).link) :
    detachLink b (s.vacated b [] g)
      = s.vacated b (.link b .detached :: abandonedRecords b .detached (s.parcelToAbandon b)) (fun y => (g y).detached) := by
  have parcel : (s.vacated b [] g).parcelToAbandon b = s.parcelToAbandon b :=
    parcelToAbandon_congr rfl (by rw [vacated_bay, ← dialogue]) (by rw [vacated_bay, ← link])
  rw [detachLink_eq (by rw [vacated_bay]; exact attached), parcel, modBay_vacated, submitAll_vacated]
  · rfl
  · exact fun _ => rfl
  · exact fun _ => rfl

theorem changeState_vacated (l : List Record) {surprise : Bool} (state : (g (s.bay b)).ctx.state = w)
    (pending : (g (s.bay b)).ctx.pending = false) :
    changeState b .empty .removed surprise 0 (s.vacated b l g)
      = s.vacated b (l ++ [.state b w .empty .removed surprise]) (fun y => (g y).emptied s.shelf.state) := by
  have now : (s.vacated b l g).stateOf b = w := by rw [stateOf_eq, vacated_bay]; exact state
  have emptied : Bay.changed (s.vacated b l g).shelf.state w .empty .removed 0 ((s.vacated b l g).bay b)
      = ((s.vacated b l g).bay b).emptied s.shelf.state := by
    rw [vacated_shelf]
    exact changed_emptied (by rw [vacated_bay]; exact pending)
  have entry : queueEntryOf (s.vacated b l g).queue b = none := queueEntryOf_without s.queue b
  rw [changeState_moved now (Bool.and_false _) emptied, moved_of_no_entry entry (modBay_queue _ _ _), modBay_vacated,
    submitAll_vacated]
  · exact fun _ => rfl
  · exact fun _ => rfl

/-- Pending and TroubleHold cleared in a bay that its charge and entry have left. -/
theorem modCtx_vacated (g : Bay → Bay) :
    modCtx b (fun c => { c with pending := false, troubleHold := false }) (s.vacated b [] g)
      = s.vacated b [] (fun y => (g y).released) :=
  modBay_vacated [] Bay.released (fun _ => rfl) (fun _ => rfl)

theorem removeModule_modBay (state : (g (s.bay b)).ctx.state = w) (attached : (g (s.bay b)).link.linkState ≠ .detached)
    (dialogue : (g (s.bay b)).dialogue = (s.bay b).dialogue) (link : (g (s.bay b)).link = (s.bay b).link) :
    removeModule b (modBay b g s) = s.vacated b
      (.link b .detached :: abandonedRecords b .detached (s.parcelToAbandon b)
        ++ [.state b w .empty .removed w.surprise])
      (fun y => (g y).removed w s.shelf.state) := by
  have leaves : setQueue (queueWithout (modBay b g s).queue b) (setCharge b 0 (modBay b g s)) = s.vacated b [] g := rfl
  unfold removeModule
  rw [stateOf_modBay, state, leaves, modCtx_vacated,
    detachLink_vacated (g := fun y => (g y).released) attached dialogue link,
    changeState_vacated (g := fun y => (g y).released.detached) _ state rfl,
    clearIfFaulted_eq, modBay_vacated]
  · rfl
  · exact fun _ => rfl
  · exact fun _ => rfl

theorem onAbsent_empty (state : s.stateOf b = .empty) : onAbsent b s = detachLink b s := by
  unfold onAbsent
  rw [state]

theorem onAbsent_rest (state : s.stateOf b = .rest) :
    onAbsent b s = detachLink b (modCtx b (fun c => { c with troubleHold := false }) s) := by
  unfold onAbsent
  rw [state]

theorem onAbsent_removes (notEmpty : s.stateOf b ≠ .empty) (notRest : s.stateOf b ≠ .rest) :
    onAbsent b s = removeModule b s := by
  unfold onAbsent
  cases now : s.stateOf b
  case empty => exact absurd now notEmpty
  case rest => exact absurd now notRest
  all_goals rfl

theorem detachLink_modBay (attached : (g (s.bay b)).link.linkState ≠ .detached)
    (dialogue : (g (s.bay b)).dialogue = (s.bay b).dialogue) (link : (g (s.bay b)).link = (s.bay b).link) :
    detachLink b (modBay b g s) = submitAll (.link b .detached :: abandonedRecords b .detached (s.parcelToAbandon b))
      (modBay b (fun y => (g y).detached) s) := by
  rw [detachLink_eq (by rw [modBay_bay_self]; exact attached), parcelToAbandon_modBay dialogue link, modBay_modBay]

theorem parcelToAbandon_cases (s : State) (b : BayId) : s.parcelToAbandon b
    = if (s.bay b).dialogue.slotStatus = .posted then some ⟨s.slotLength b, 0⟩
      else if (s.bay b).dialogue.slotStatus = .sending then
        some ⟨(s.bay b).dialogue.parcelLength,
          ((s.bay b).link.inFlight.map fun m => if m.entry.slot = .parcel then m.made else 0).getD 0⟩
      else none := by
  unfold State.parcelToAbandon
  cases (s.bay b).dialogue.slotStatus <;> cases (s.bay b).link.inFlight <;> rfl

theorem made_eq (m : InFlight) : m.made = if m.phase = .awaitingResend then m.attempts - 1 else m.attempts := by
  unfold InFlight.made
  cases m.phase <;> rfl

/-- The attempts of a parcel that is abandoned: those of the message in flight, where that is the parcel. -/
theorem parcelAttempts_eq (m : InFlight) : (if m.entry.slot = .parcel then m.made else 0)
    = if m.entry.slot ≠ .parcel then 0 else if m.phase = .awaitingResend then m.attempts - 1 else m.attempts := by
  rw [made_eq, ite_not]

/-- A bay that a confirmed absence leaves DETACHED. -/
def Bay.gone (y : Bay) : Bay :=
  { y with
    ctx := { y.ctx with demand := none }
    inputs := { y.inputs with presTimer := none, presConfirmed := false }
    link := { y.link with
      linkState := .detached, lineState := .idle, rxBuffer := [], pendingAck := none, txList := [],
      inFlight := none, filterValid := false, linkTimer := none, txFrame := none }
    dialogue := ⟨none, if y.dialogue.slotStatus ∈ [SlotStatus.posted, .sending] then .abandoned else y.dialogue.slotStatus,
      0, 0, 0, [0, 0, 0, 0, 0, 0, 0, 0]⟩ }

/-- A bay as a confirmed absence is handed on. -/
def Bay.absent (y : Bay) : Bay := { y with inputs := { y.inputs with presTimer := none, presConfirmed := false } }

theorem absent_detached (y : Bay) : y.absent.detached = y.gone := by
  unfold Bay.detached Bay.gone
  rw [← dropped_eq]
  rfl

theorem absent_unheld (y : Bay) :
    ({ y.absent with ctx := { y.absent.ctx with troubleHold := false } } : Bay).detached
      = { y.gone with ctx := { y.gone.ctx with troubleHold := false } } := by
  rw [← absent_detached]
  rfl

theorem absent_removed (w : BayState) (shelf : ShelfState) (y : Bay) : y.absent.removed w shelf
    = ({ y.gone with
        ctx := { y.gone.ctx with state := .empty, phaseTimer := 0, pending := false, troubleHold := false }
        inputs := { y.gone.inputs with
          fltTicks := if w = .faulted then 0 else y.inputs.fltTicks,
          fltLevel := if w = .faulted then false else y.inputs.fltLevel } } : Bay).quiescedAs .absent shelf := by
  rw [← absent_detached]
  rfl

theorem exec_presConfirmed_absent (outside : s.shelf.state ≠ .init) (timer : (s.bay b).inputs.presTimer = some 0)
    (pin : (s.bay b).inputs.presPin = false) (confirmed : (s.bay b).inputs.presConfirmed = true) :
    exec (.presConfirmed b) s = .next (finish (wakeEvent b .presence (onAbsent b (modBay b Bay.absent s)))) := by
  have changed : (s.bay b).inputs.presPin ≠ (s.bay b).inputs.presConfirmed := by rw [pin, confirmed]; decide
  rw [exec_presConfirmed outside timer changed, confirmPres_of_pin pin, handPres_absent (by rw [modBay_bay_self])]
  rfl

/-- Settles O27: the parcel that is abandoned, and the removal by bay state. -/
theorem removalConfirmed : Obligations.RemovalConfirmed := by
  refine ⟨fun s b => ?_, ?_⟩
  · rw [parcelToAbandon_cases]
    cases (s.bay b).link.inFlight with
    | none => rfl
    | some m =>
      rw [Option.map_some, Option.getD_some, parcelAttempts_eq]
      rfl
  · rintro s b w gone records outside timer pin confirmed state attached rfl given
    have listed : records = .link b .detached :: abandonedRecords b .detached (s.parcelToAbandon b) := by
      rw [given]
      cases s.parcelToAbandon b <;> rfl
    have now : (modBay b Bay.absent s).stateOf b = w := by rw [stateOf_modBay_kept rfl, state]
    rw [exec_presConfirmed_absent outside timer pin confirmed, listed]
    refine ⟨fun notEmpty notRest => ?_, fun empty => ?_, fun rest => ?_⟩
    · rw [onAbsent_removes (by rwa [now]) (by rwa [now]), removeModule_modBay state attached rfl rfl, surprise_eq]
      simp only [absent_removed]
      rfl
    · rw [onAbsent_empty (by rw [now, empty]), detachLink_modBay attached rfl rfl]
      simp only [absent_detached]
      rfl
    · rw [onAbsent_rest (by rw [now, rest]), modCtx_eq, modBay_modBay, detachLink_modBay attached rfl rfl]
      simp only [absent_unheld]
      rfl

end Sys2Proof.Machine

/-! The line of a bay: its timers and collisions, what the part sends, and receptions without a message. The statements
O40, O42, O43 and O44. -/

namespace Sys2Proof.Machine

variable {s : State} {b : BayId} {m : InFlight} {seq : Sequence}

theorem modLink_eq (f : LinkEngine → LinkEngine) (s : State) :
    modLink b f s = modBay b (fun y => { y with link := f y.link }) s := rfl

/-- A link changed to what it is to become, as the state stands. -/
theorem modLink_of_eq {f h : LinkEngine → LinkEngine} (link : f (s.bay b).link = h (s.bay b).link) :
    modLink b f s = modBay b (fun y => { y with link := h y.link }) s := by
  rw [modLink_eq]
  exact modBay_congr b _ _ s (by rw [link])

theorem modLink_of_self {f : LinkEngine → LinkEngine} (link : f (s.bay b).link = (s.bay b).link) : modLink b f s = s := by
  rw [modLink_of_eq (h := fun l => l) link]
  exact modBay_id b s

/-! ## Timers and collisions -/

theorem exec_linkTimerExpiry (lost : (s.bay b).link.linkState = .lost) (timer : (s.bay b).link.linkTimer = some 0) :
    exec (.linkTimerExpiry b) s = .next (modBay b (fun y => { y with link := { y.link with
      linkTimer := some 1000000
      txList := if y.link.txList.any (fun e => e.slot == .probe) || inFlightIs .probe y.link then y.link.txList
        else y.link.txList ++ [.probe] } }) s) := by
  refine congrArg Host.Outcome.next ((if_pos ⟨lost, timer⟩).trans ?_)
  rw [modLink_eq, placeProbe_eq, modBay_modBay]
  rfl

theorem attemptFailed_again (left : m.attempts ≤ (s.intentOf b).retryLimit) : attemptFailed b m s = modBay b (fun y => { y with
    link := { y.link with inFlight := some ⟨m.entry, m.sequence, m.attempts + 1, .awaitingResend, some 3000⟩ } }) s :=
  if_pos left

theorem attemptFailed_last (used : (s.intentOf b).retryLimit < m.attempts) :
    attemptFailed b m s = failMessage b m.entry m.attempts s := if_neg (Nat.not_le.mpr used)

theorem exec_ackTimerExpiry (flight : (s.bay b).link.inFlight = some m) (timer : m.ackTimer = some 0) :
    exec (.ackTimerExpiry b) s = .next (finish (attemptFailed b m s)) := by
  refine congrArg Host.Outcome.next ?_
  unfold ackTimerEnd
  rw [flight]
  exact if_pos timer

theorem driving_of {l : LinkEngine} (line : l.lineState = .transmitting) (frame : l.txFrame.isSome = true) :
    l.driving = true := by
  unfold LinkEngine.driving
  rw [line, frame]
  rfl

theorem sendingMessage_some {l : LinkEngine} (flight : l.inFlight = some m) (phase : m.phase = .sending) :
    l.sendingMessage = some m := by
  unfold LinkEngine.sendingMessage
  rw [flight]
  exact if_pos phase

theorem sendingMessage_none {l : LinkEngine} (apart : ∀ m, l.inFlight = some m → m.phase ≠ .sending) :
    l.sendingMessage = none := by
  unfold LinkEngine.sendingMessage
  cases flight : l.inFlight with
  | none => rfl
  | some m => exact if_neg (apart m flight)

theorem stopDriving_eq (b : BayId) (s : State) :
    stopDriving b s = modBay b (fun y => { y with link := { y.link with lineHigh := false, txFrame := none } }) s := rfl

theorem exec_collision_message (flight : (s.bay b).link.inFlight = some m) (phase : m.phase = .sending)
    (line : (s.bay b).link.lineState = .transmitting) (frame : (s.bay b).link.txFrame.isSome = true) :
    exec (.collision b) s = .next (finish (attemptFailed b m (stopDriving b s))) := by
  refine congrArg Host.Outcome.next ?_
  unfold collide
  rw [if_pos (driving_of line frame), sendingMessage_some flight phase]

theorem exec_collision_ack (apart : ∀ m, (s.bay b).link.inFlight = some m → m.phase ≠ .sending)
    (line : (s.bay b).link.lineState = .transmitting) (frame : (s.bay b).link.txFrame.isSome = true) :
    exec (.collision b) s = .next (stopDriving b s) := by
  refine congrArg Host.Outcome.next ?_
  unfold collide
  rw [if_pos (driving_of line frame), sendingMessage_none apart]

/-- Settles O40: the LinkTimer, attempts that are made again, and a collision on an ACK. -/
theorem linkTimersAndCollisions : Obligations.LinkTimersAndCollisions := by
  refine fun s b => ⟨exec_linkTimerExpiry, fun m flight left => ⟨fun timer => ?_, fun phase line frame => ?_⟩,
    exec_collision_ack⟩
  · rw [exec_ackTimerExpiry flight timer, attemptFailed_again left]
  · rw [exec_collision_message flight phase line frame, stopDriving_eq,
      attemptFailed_again (by rwa [intentOf_modBay_kept rfl]), modBay_modBay]

/-! ## What the part sends (R81, R89, R93, R94) -/

theorem mayDrive_of {l : LinkEngine} (attached : l.linkState ≠ .detached) (idle : l.lineState = .idle)
    (free : 150 ≤ l.idleTime) : l.mayDrive = true := by
  have turn : Config.turnaround ≤ l.idleTime := free
  simp [LinkEngine.mayDrive, attached, idle, turn]

theorem mayDrive_of_not {l : LinkEngine} (h : l.linkState = .detached ∨ l.lineState ≠ .idle ∨ l.idleTime < 150) :
    l.mayDrive = false := by
  have turn : Config.turnaround = 150 := rfl
  rcases h with h | h | h <;> simp [LinkEngine.mayDrive, turn, h]

theorem startSending_front {l : LinkEngine} {e : TxEntry} {rest : List TxEntry} (drive : l.mayDrive = true)
    (list : l.txList = e :: rest) (flight : l.inFlight = none) (ack : l.pendingAck = none) :
    l.startSending = l.sendFront e rest := by
  unfold LinkEngine.startSending
  rw [list, flight, ack]
  exact if_pos drive

theorem startSending_none {l : LinkEngine} (h : l.mayDrive = false ∨ l.pendingAck.isSome = true) : l.startSending = l := by
  unfold LinkEngine.startSending
  cases l.txList with
  | nil => rfl
  | cons e rest =>
    cases l.inFlight with
    | some m => rfl
    | none =>
      cases ack : l.pendingAck with
      | some seq => rfl
      | none =>
        rw [ack] at h
        simp only [Option.isSome_none, Bool.false_eq_true, or_false] at h
        simp only [h, Bool.false_eq_true, if_false]

theorem resendable_some {l : LinkEngine} (drive : l.mayDrive = true) (flight : l.inFlight = some m)
    (phase : m.phase = .awaitingResend) (ack : l.pendingAck = none) : l.resendable = some m := by
  unfold LinkEngine.resendable
  rw [flight, ack]
  exact if_pos ⟨phase, drive⟩

theorem resendable_none {l : LinkEngine} (h : l.mayDrive = false ∨ l.pendingAck.isSome = true) : l.resendable = none := by
  unfold LinkEngine.resendable
  cases l.inFlight with
  | none => rfl
  | some m =>
    cases ack : l.pendingAck with
    | some seq => rfl
    | none =>
      rw [ack] at h
      simp only [Option.isSome_none, Bool.false_eq_true, or_false] at h
      simp only [h, Bool.false_eq_true, and_false, if_false]

theorem startAck_some {l : LinkEngine} (drive : l.mayDrive = true) (ack : l.pendingAck = some seq) :
    l.startAck = l.drive (ackFrame seq) := by
  unfold LinkEngine.startAck
  rw [ack]
  exact if_pos drive

theorem startAck_none {l : LinkEngine} (drive : l.mayDrive = false) : l.startAck = l := by
  unfold LinkEngine.startAck
  cases l.pendingAck with
  | none => rfl
  | some seq => simp only [drive, Bool.false_eq_true, if_false]

theorem startResend_none (h : (s.bay b).link.mayDrive = false ∨ (s.bay b).link.pendingAck.isSome = true) :
    startResend b s = s := by
  unfold startResend
  rw [resendable_none h]

theorem startResend_some (h : (s.bay b).link.resendable = some m) :
    startResend b s = countQuality b .retries (modBay b (fun y => { y with link := { y.link with
      lineState := .transmitting, idleTime := 0, txFrame := some (m.entry.frame m.sequence)
      inFlight := some { m with phase := .sending, ackTimer := none } } }) s) := by
  unfold startResend
  rw [h]
  rfl

theorem endMessage_of {l : LinkEngine} (driving : l.driving = true) (sending : l.sendingMessage = some m) :
    l.endMessage = { l.release with inFlight := some m.sent } := by
  unfold LinkEngine.endMessage
  rw [driving, sending]

theorem endAck_of {l : LinkEngine} (driving : l.driving = true) (sending : l.sendingMessage = none) :
    l.endAck = { l.release with pendingAck := none } := by
  unfold LinkEngine.endAck
  rw [driving, sending]

theorem mkFrame_header_toNat (kind : Nat) (seq : Sequence) (payload : List Byte) (code : kind < 16)
    (length : payload.length < 64) :
    (mkFrame kind seq payload).header.toNat = kind + 16 * seq.toNat + 128 * payload.length := by
  have bound := seq.isLt
  have zeros : (0 : BitVec 3).toNat = 0 := rfl
  unfold mkFrame FrameHeader.toBits
  dsimp only
  rw [BitVec.toNat_append, BitVec.toNat_append, BitVec.toNat_append, ← Nat.shiftLeft_add_eq_or_of_lt (BitVec.isLt _),
    ← Nat.shiftLeft_add_eq_or_of_lt (BitVec.isLt _), ← Nat.shiftLeft_add_eq_or_of_lt (BitVec.isLt _)]
  simp only [Nat.shiftLeft_eq, BitVec.toNat_ofNat, Nat.mod_eq_of_lt (show kind < 2 ^ 4 from code),
    Nat.mod_eq_of_lt (show payload.length < 2 ^ 6 from length)]
  omega

theorem kindCode_lt (e : TxEntry) : e.kindCode < 16 := by
  cases e <;> simp [TxEntry.kindCode]

theorem frameCheck_eq (header : BitVec 16) (payload : List Byte) : frameCheck header payload
    = ((List.range 16).map header.getLsbD ++ payload.flatMap (fun x => (List.range 8).map x.getLsbD)).foldl
      (fun (reg : BitVec 16) bit => if bit != reg.getLsbD 15 then reg <<< 1 ^^^ 0x1021 else reg <<< 1) 0xFFFF := rfl

theorem manchester_eq : manchester = fun bit => if bit then [true, false] else [false, true] := by
  funext bit
  cases bit <;> rfl

/-- The whole wave of a frame, from preamble to end delimiter. -/
theorem wave_eq (f : Frame) : f.wave
    = (List.replicate 8 [false, true, true, false]).flatten ++ [true, true, true, true]
      ++ ((List.range 16).map f.header.getLsbD ++ f.payload.flatMap (fun x => (List.range 8).map x.getLsbD)
        ++ ((List.range 16).map f.check.getLsbD).reverse).flatMap (fun bit => if bit then [true, false] else [false, true])
      ++ [false, false, false, false] := by
  unfold Frame.wave
  rw [← manchester_eq]
  rfl

theorem linkDriven_some {f : Frame} (h : (s.bay b).link.txFrame = some f) : s.linkDriven b = f.wave := by
  unfold State.linkDriven
  rw [h]

/-- Settles O42: what begins and ends a frame of the part, and the frames themselves. -/
theorem partSends : Obligations.PartSends := by
  refine fun s b => ⟨fun attached idle free => ?_, fun busy => ?_, fun owed => ?_, fun line frame => ?_,
    fun e seq length => ?_, fun e => ?_, frameCheck_eq, ?_⟩
  · have drive := mayDrive_of attached idle free
    refine ⟨fun e rest list flight ack => ?_, fun m flight phase ack => ?_, fun seq ack => ?_⟩
    · exact congrArg Host.Outcome.next (modLink_of_eq (h := fun l => l.sendFront e rest)
        (startSending_front drive list flight ack))
    · exact congrArg Host.Outcome.next (startResend_some (resendable_some drive flight phase ack))
    · exact congrArg Host.Outcome.next (modLink_of_eq (h := fun l => l.drive (ackFrame seq)) (startAck_some drive ack))
  · have held := mayDrive_of_not busy
    exact ⟨congrArg Host.Outcome.next (modLink_of_self (startSending_none (.inl held))),
      congrArg Host.Outcome.next (startResend_none (.inl held)),
      congrArg Host.Outcome.next (modLink_of_self (startAck_none held))⟩
  · exact ⟨congrArg Host.Outcome.next (modLink_of_self (startSending_none (.inr owed))),
      congrArg Host.Outcome.next (startResend_none (.inr owed))⟩
  · have driving := driving_of line frame
    refine ⟨fun m flight phase => ?_, fun apart => ?_⟩
    · exact congrArg Host.Outcome.next (modLink_of_eq (h := fun l => { l.release with inFlight := some m.sent })
        (endMessage_of driving (sendingMessage_some flight phase)))
    · exact congrArg Host.Outcome.next (modLink_of_eq (h := fun l => { l.release with pendingAck := none })
        (endAck_of driving (sendingMessage_none apart)))
  · refine ⟨mkFrame_header_toNat _ _ _ (kindCode_lt e) (by omega), rfl, ?_, rfl, rfl, rfl⟩
    refine (mkFrame_header_toNat 0 seq [] (by omega) (by decide)).trans ?_
    simp
  · cases e with
    | prepare n reason => cases reason <;> rfl
    | _ => rfl
  · cases frame : (s.bay b).link.txFrame with
    | none =>
      unfold State.linkDriven
      rw [frame]
    | some f => rw [linkDriven_some frame, wave_eq]

/-! ## Receptions without a message (R84 to R87) -/

theorem fallingEdge_detached {l : LinkEngine} (detached : l.linkState = .detached) :
    l.fallingEdge = { l with lineHigh := false, idleTime := 0 } := if_pos detached

theorem fallingEdge_idle {l : LinkEngine} (attached : l.linkState ≠ .detached) (idle : l.lineState = .idle) :
    l.fallingEdge = { l with lineState := .receiving, lineHigh := false, idleTime := 0 } :=
  (if_neg attached).trans (if_pos idle)

theorem exec_preambleFailed {high : Bool} {n : Nat} (hears : s.canHear b) :
    exec (.preambleFailed b high n) s = .next (stopReception b high n s) :=
  congrArg Host.Outcome.next (if_pos (mayReceive_of_canHear hears))

theorem exec_abnormalEnd {high : Bool} {n : Nat} (hears : s.canHear b) :
    exec (.abnormalEnd b high n) s = .next (countQuality b .dropped (stopReception b high n s)) :=
  congrArg Host.Outcome.next (if_pos (mayReceive_of_canHear hears))

theorem exec_badCheckFrame {header check : BitVec 16} {payload : List Byte} (hears : s.canHear b)
    (bad : frameCheck header payload ≠ check) :
    exec (.badCheckFrame b header payload check) s = .next (dropFrame b .badCheck s) :=
  congrArg Host.Outcome.next (if_pos ⟨mayReceive_of_canHear hears, bad⟩)

theorem headerInvalid_of {header : BitVec 16} (h : header.extractLsb' 13 3 ≠ 0 ∨ 5 < (header.extractLsb' 0 4).toNat
    ∨ (header.extractLsb' 0 4 = 0 ∧ header.extractLsb' 7 6 ≠ 0)) : headerInvalid (FrameHeader.ofBits header) = true := by
  unfold headerInvalid FrameHeader.ofBits
  simp only [Bool.or_eq_true, Bool.and_eq_true, bne_iff_ne, beq_iff_eq, decide_eq_true_eq, or_assoc]
  exact h

theorem exec_invalidFrame {header : BitVec 16} {payload : List Byte} (hears : s.canHear b)
    (invalid : headerInvalid (FrameHeader.ofBits header) = true) :
    exec (.invalidFrame b header payload) s = .next (dropFrame b .dropped s) :=
  congrArg Host.Outcome.next (if_pos ⟨mayReceive_of_canHear hears, invalid⟩)

theorem exec_oversizeFrame {header : BitVec 16} (hears : s.canHear b) (long : 32 < (header.extractLsb' 7 6).toNat) :
    exec (.oversizeFrame b header) s = .next (abandonOversize b header s) :=
  congrArg Host.Outcome.next (if_pos ⟨mayReceive_of_canHear hears, long⟩)

theorem byteOf_toNat_low (header : BitVec 16) : byteOf header.toNat = header.extractLsb' 0 8 := by
  apply BitVec.eq_of_toNat_eq
  simp [byteOf, BitVec.extractLsb'_toNat]

theorem byteOf_toNat_high (header : BitVec 16) : byteOf (header.toNat / 256) = header.extractLsb' 8 8 := by
  apply BitVec.eq_of_toNat_eq
  simp [byteOf, BitVec.extractLsb'_toNat, Nat.shiftRight_eq_div_pow]

theorem le16_toNat (header : BitVec 16) :
    le16 header.toNat = [header.extractLsb' 0 8, header.extractLsb' 8 8] := by
  rw [le16, byteOf_toNat_low, byteOf_toNat_high]

theorem abandonOversize_eq (b : BayId) (header : BitVec 16) (s : State) :
    abandonOversize b header s = countQuality b .dropped (modBay b (fun y => { y with
      link := { y.link with
        lineState := .discarding, idleTime := 0
        rxBuffer := [header.extractLsb' 0 8, header.extractLsb' 8 8] } }) s) := by
  rw [abandonOversize, le16_toNat]
  rfl

/-! ## The quality counters (R103) -/

theorem qualityDue_of_not {l : LinkEngine} {k : QualityKind} (h : l.counters.get k + 1 ≠ 128 ∨ l.reported.get k = true) :
    l.qualityDue k = false := by
  have threshold : Config.qualityThreshold = 128 := rfl
  unfold LinkEngine.qualityDue
  rcases h with count | reported
  · rw [threshold, beq_false_of_ne count, Bool.false_and]
  · rw [reported, Bool.not_true, Bool.and_false]

theorem qualityDue_of {l : LinkEngine} {k : QualityKind} (count : l.counters.get k = 127) (first : l.reported.get k = false) :
    l.qualityDue k = true := by
  have threshold : Config.qualityThreshold = 128 := rfl
  simp [LinkEngine.qualityDue, threshold, count, first]

theorem countQuality_silent {k : QualityKind} (h : (s.bay b).link.counters.get k + 1 ≠ 128 ∨ (s.bay b).link.reported.get k = true) :
    countQuality b k s = modBay b (fun y => { y with link := { y.link with counters := y.link.counters.bump k } }) s := by
  unfold countQuality
  rw [qualityDue_of_not h, if_neg Bool.false_ne_true, modLink_eq]

theorem countQuality_reports {k : QualityKind} (count : (s.bay b).link.counters.get k = 127)
    (first : (s.bay b).link.reported.get k = false) :
    countQuality b k s = submitAll [.quality b k ((s.bay b).link.counters.bump k)] (modBay b (fun y => { y with
      link := { y.link with counters := y.link.counters.bump k, reported := y.link.reported.mark k } }) s) := by
  unfold countQuality reportQuality
  rw [if_pos (qualityDue_of count first), modLink_eq, modLink_eq, modBay_modBay, modBay_bay_self]
  rfl

theorem get_bump (c : QualityCounters) (k j : QualityKind) :
    (c.bump k).get j = if j = k then min 255 (c.get k + 1) else c.get j := by
  cases k <;> cases j <;> rfl

theorem get_mark (r : ReportedFlags) (k j : QualityKind) : (r.mark k).get j = if j = k then true else r.get j := by
  cases k <;> cases j <;> rfl

/-- Settles O43: the receptions that end without a message, and the counters. -/
theorem receptionsWithoutMessage : Obligations.ReceptionsWithoutMessage := by
  refine fun s b high n => ⟨fun detached => ?_, fun attached idle => ?_, fun line passed => ?_, fun early => ?_,
    fun low => ?_, fun hears => ⟨exec_preambleFailed hears, exec_abnormalEnd hears,
      fun header payload check bad => exec_badCheckFrame hears bad,
      fun header payload invalid => exec_invalidFrame hears (headerInvalid_of invalid),
      fun header long => ?_⟩,
    fun k => countQuality_silent, fun k => countQuality_reports, get_bump, get_mark, fun _ => rfl, fun _ => rfl⟩
  · exact congrArg Host.Outcome.next (modLink_of_eq (h := fun l => { l with lineHigh := false, idleTime := 0 })
      (fallingEdge_detached detached))
  · exact congrArg Host.Outcome.next (modLink_of_eq
      (h := fun l => { l with lineState := .receiving, lineHigh := false, idleTime := 0 }) (fallingEdge_idle attached idle))
  · exact congrArg Host.Outcome.next (modLink_of_eq
      (h := fun l => { l with lineState := .idle, lineHigh := true, idleTime := n }) (if_pos ⟨line, passed⟩))
  · exact congrArg Host.Outcome.next (modLink_of_self (if_neg fun ⟨_, passed⟩ => absurd early (Nat.not_le.mpr passed)))
  · exact congrArg Host.Outcome.next (modLink_of_eq
      (h := fun l => { l with lineState := .idle, lineHigh := true, idleTime := 0 }) (if_pos low))
  · rw [exec_oversizeFrame hears long, abandonOversize_eq]

/-! ## ACKs (R93) -/

theorem exec_ack (hears : s.canHear b) :
    exec (.ack b seq) s = .next (matchAck b seq (endReception b (frameBuffer 0 seq []) s)) :=
  congrArg Host.Outcome.next (if_pos (mayReceive_of_canHear hears))

theorem matchAck_other (h : ∀ m, (s.bay b).link.inFlight = some m → m.sequence ≠ seq ∨ m.phase = .sending) :
    matchAck b seq s = s := by
  unfold matchAck
  cases flight : (s.bay b).link.inFlight with
  | none => rfl
  | some m =>
    refine if_neg fun ⟨same, phase⟩ => ?_
    exact (h m flight).elim (absurd same) phase

theorem matchAck_own (flight : (s.bay b).link.inFlight = some m) (own : m.sequence = seq) (phase : m.phase ≠ .sending) :
    matchAck b seq s = completeMessage b m s := by
  unfold matchAck
  rw [flight]
  exact if_pos ⟨own, phase⟩

theorem clearInFlight_eq (b : BayId) (s : State) :
    clearInFlight b s = modBay b (fun y => { y with link := { y.link with inFlight := none } }) s := rfl

theorem reportParcel_other {e : TxEntry} {outcome : SlotStatus} {cause : ParcelCause} {n : Nat} (other : e.slot ≠ .parcel) :
    reportParcel b e outcome cause n s = s := by
  unfold reportParcel
  cases slot : e.slot
  case parcel => exact absurd slot other
  all_goals rfl

theorem reportParcel_parcel {e : TxEntry} {outcome : SlotStatus} {cause : ParcelCause} {n : Nat} (parcel : e.slot = .parcel) :
    reportParcel b e outcome cause n s = endParcel b outcome cause n s := by
  unfold reportParcel
  rw [parcel]

/-- A parcel that ends, with the Length of its copy as it was. -/
theorem endParcel_modBay {g : Bay → Bay} (outcome : SlotStatus) (cause : ParcelCause) (n : Nat)
    (kept : (g (s.bay b)).dialogue = (s.bay b).dialogue) :
    endParcel b outcome cause n (modBay b g s)
      = submitAll [.parcel b outcome cause (s.bay b).dialogue.parcelLength n] (modBay b (fun y => { g y with
        dialogue := { (g y).dialogue with parcelCopy := none, slotStatus := outcome } }) s) := by
  rw [endParcel, modDialogue, modBay_bay_self, kept, modBay_modBay]
  rfl

/-- Settles O44: an ACK that completes the message in flight, and any other. -/
theorem ackCompletes : Obligations.AckCompletes := by
  rintro s b seq u hears rfl
  have received : endReception b (frameBuffer 0 seq []) s = modBay b (fun y => { y with link := { y.link with
      lineState := .idle, lineHigh := true, idleTime := 0, rxBuffer := frameBuffer 0 seq [] } }) s := rfl
  rw [exec_ack hears, received]
  refine ⟨fun other => ?_, fun m flight own phase => ?_⟩
  · rw [matchAck_other (by rw [modBay_bay_self]; exact other)]
  · rw [matchAck_own (by rw [modBay_bay_self]; exact flight) own phase, completeMessage]
    refine ⟨fun other => ?_, fun parcel => ?_⟩
    · rw [reportParcel_other other, clearInFlight_eq]
    · rw [reportParcel_parcel parcel, clearInFlight_eq, modBay_modBay, endParcel_modBay _ _ _ rfl, modBay_modBay, made_eq]

end Sys2Proof.Machine

/-! A message that fails for good, and its link that goes LOST. The statement O41. -/

namespace Sys2Proof.Machine

variable {s v u : State} {b : BayId} {m : InFlight}

/-! ## The Sequencer told of a lost link -/

theorem leaving_congr {outcome : AdmitOutcome} (queue : u.queue = s.queue) (pool : u.pool = s.pool) :
    u.leaving b outcome = s.leaving b outcome := by
  unfold State.leaving
  rw [queue, pool]

theorem withdrawStart_of {reason : StateReason} (state : u.stateOf b = .queued) (quiesce : quiesceOutcomeOf .off reason = none)
    (queue : u.queue = s.queue) (pool : u.pool = s.pool) :
    withdrawStart b reason u = setQueue (queueWithout s.queue b)
      (submitAll (s.leaving b .withdrawn ++ [.state b .queued .off reason false]) (modBay b (Bay.inState .off 0) u)) := by
  rw [withdrawStart_eq state quiesce, queue, leaving_congr queue pool]

theorem onLinkLost_drain (state : s.stateOf b = .drain) : onLinkLost b s = enterCutoff b .linkLost s := if_pos state

theorem onLinkLost_queued (state : s.stateOf b = .queued) (sighted : (s.intentOf b).blind = false) :
    onLinkLost b s = withdrawStart b .preconditionLost s := by
  unfold onLinkLost
  rw [if_neg (by rw [state]; decide)]
  exact if_pos ⟨state, sighted⟩

theorem onLinkLost_other (drain : s.stateOf b ≠ .drain) (blind : s.stateOf b = .queued → (s.intentOf b).blind = true) :
    onLinkLost b s = s := by
  unfold onLinkLost
  rw [if_neg drain]
  refine if_neg fun ⟨state, sighted⟩ => ?_
  rw [blind state] at sighted
  exact Bool.noConfusion sighted

/-! ## Lists flushed -/

theorem abandonListed_none {cause : ParcelCause} (list : txListed .parcel (s.bay b).link.txList = false) :
    abandonListed b cause s = s := by
  unfold abandonListed
  rw [list, if_neg Bool.false_ne_true]

theorem abandonListed_parcel {cause : ParcelCause} (list : txListed .parcel (s.bay b).link.txList = true) :
    abandonListed b cause s = endParcel b .abandoned cause 0 s := if_pos list

theorem failNext_lost (kind attempts : Nat) (lost : (s.bay b).link.linkState = .lost) :
    failNext b kind attempts s = flushList b .linkLost s := if_pos lost

theorem failNext_losing (kind attempts : Nat) (holding : (s.bay b).link.linkState ≠ .lost) :
    failNext b kind attempts s = enterLost b kind attempts s := if_neg holding

/-- A message that fails in LOST, with no parcel about. -/
theorem failMessage_lost (lost : (v.bay b).link.linkState = .lost) (other : m.entry.slot ≠ .parcel)
    (list : txListed .parcel (v.bay b).link.txList = false) :
    failMessage b m.entry m.attempts v
      = modBay b (fun y => { y with link := { y.link with inFlight := none, txList := [] } }) v := by
  rw [failMessage, reportParcel_other other, clearInFlight_eq, failNext_lost _ _ (by rw [modBay_bay_self]; exact lost),
    flushList, abandonListed_none (by rw [modBay_bay_self]; exact list), modLink_eq, modBay_modBay]

/-! ## The link that goes LOST -/

/-- A bay whose link goes LOST, its Dialogue Unit as given. -/
def Bay.lostLink (d : DialogueUnit) (y : Bay) : Bay := { y with
  dialogue := d
  link := { y.link with
    linkState := .lost, inFlight := none, txList := [], filterValid := false, linkTimer := some 1000000 } }

/-- The records and the Dialogue Unit of a bay whose message fails as its link goes LOST: no parcel, one in flight, or one
listed. -/
def failsWith (v : State) (b : BayId) (m : InFlight) (records : List Record) (d : DialogueUnit) : Prop :=
  (m.entry.slot ≠ .parcel ∧ txListed .parcel (v.bay b).link.txList = false ∧ records = [] ∧ d = (v.bay b).dialogue)
  ∨ (m.entry.slot = .parcel ∧ txListed .parcel (v.bay b).link.txList = false
    ∧ records = [.parcel b .failed .failed (v.bay b).dialogue.parcelLength m.attempts]
    ∧ d = { (v.bay b).dialogue with parcelCopy := none, slotStatus := .failed })
  ∨ (m.entry.slot ≠ .parcel ∧ txListed .parcel (v.bay b).link.txList = true
    ∧ records = [.parcel b .abandoned .linkLost (v.bay b).dialogue.parcelLength 0]
    ∧ d = { (v.bay b).dialogue with parcelCopy := none, slotStatus := .abandoned })

/-- What is left of entry into LOST once a parcel has been reported. -/
theorem submitLink_lose {kind attempts : Nat} {g : Bay → Bay} {records : List Record} {d : DialogueUnit}
    (bay : { g (v.bay b) with link := (g (v.bay b)).link.lose } = (v.bay b).lostLink d) :
    submitLink b (.lost kind attempts) (modLink b LinkEngine.lose (submitAll records (modBay b g v)))
      = submitAll (records ++ [.link b (.lost kind attempts)]) (modBay b (Bay.lostLink d) v) := by
  rw [modLink_eq, ← submitAll_modBay, modBay_modBay, modBay_congr b _ (Bay.lostLink d) v bay, submitAll_append]
  rfl

theorem enterLost_eq (b : BayId) (kind attempts : Nat) (s : State) : enterLost b kind attempts s
    = onLinkLost b (submitLink b (.lost kind attempts) (modLink b LinkEngine.lose (abandonListed b .linkLost s))) := rfl

theorem clearInFlight_bay : (clearInFlight b v).bay b
    = { v.bay b with link := { (v.bay b).link with inFlight := none } } := modBay_bay_self b _ v

theorem failMessage_loses {records : List Record} {d : DialogueUnit} (holding : (v.bay b).link.linkState ≠ .lost)
    (fails : failsWith v b m records d) :
    failMessage b m.entry m.attempts v = onLinkLost b
      (submitAll (records ++ [.link b (.lost m.entry.kindCode m.attempts)]) (modBay b (Bay.lostLink d) v)) := by
  rcases fails with ⟨other, list, rfl, rfl⟩ | ⟨parcel, list, rfl, rfl⟩ | ⟨other, list, rfl, rfl⟩
  · rw [failMessage, reportParcel_other other, failNext_losing _ _ (by rw [clearInFlight_bay]; exact holding), enterLost_eq,
      abandonListed_none (by rw [clearInFlight_bay]; exact list), clearInFlight_eq, ← submitAll_nil (modBay b _ v),
      submitLink_lose (d := (v.bay b).dialogue) rfl]
  · rw [failMessage, reportParcel_parcel parcel, clearInFlight_eq, endParcel_modBay _ _ _ rfl,
      failNext_losing _ _ (by rw [submitAll_bay, modBay_bay_self]; exact holding), enterLost_eq,
      abandonListed_none (by rw [submitAll_bay, modBay_bay_self]; exact list),
      submitLink_lose (d := { (v.bay b).dialogue with parcelCopy := none, slotStatus := .failed }) rfl]
  · rw [failMessage, reportParcel_other other, failNext_losing _ _ (by rw [clearInFlight_bay]; exact holding), enterLost_eq,
      abandonListed_parcel (by rw [clearInFlight_bay]; exact list), clearInFlight_eq, endParcel_modBay _ _ _ rfl,
      submitLink_lose (d := { (v.bay b).dialogue with parcelCopy := none, slotStatus := .abandoned }) rfl]

/-- A last attempt that fails, by its AckTimer or by a collision. -/
theorem exec_lastAttempt {i : Instr} (flight : (s.bay b).link.inFlight = some m) (used : (s.intentOf b).retryLimit < m.attempts)
    (way : (i = .ackTimerExpiry b ∧ m.ackTimer = some 0 ∧ v = s)
      ∨ (i = .collision b ∧ m.phase = .sending ∧ (s.bay b).link.lineState = .transmitting
        ∧ (s.bay b).link.txFrame.isSome = true ∧ v = stopDriving b s)) :
    exec i s = .next (finish (failMessage b m.entry m.attempts v)) := by
  rcases way with ⟨rfl, timer, rfl⟩ | ⟨rfl, phase, line, frame, rfl⟩
  · rw [exec_ackTimerExpiry flight timer, attemptFailed_last used]
  · rw [exec_collision_message flight phase line frame,
      attemptFailed_last (by rw [stopDriving_eq, intentOf_modBay_kept rfl]; exact used)]

/-- Settles O41: the flush in LOST, and the entry into LOST by bay state. -/
theorem messageFails : Obligations.MessageFails := by
  refine ⟨fun _ => rfl, fun s v b m i flight used way => ?_⟩
  have fails := exec_lastAttempt flight used way
  obtain ⟨link, list, dialogue, state, intent, queue, pool⟩ : (v.bay b).link.linkState = (s.bay b).link.linkState
      ∧ (v.bay b).link.txList = (s.bay b).link.txList ∧ (v.bay b).dialogue = (s.bay b).dialogue
      ∧ v.stateOf b = s.stateOf b ∧ v.intentOf b = s.intentOf b ∧ v.queue = s.queue ∧ v.pool = s.pool := by
    rcases way with ⟨rfl, timer, rfl⟩ | ⟨rfl, phase, line, frame, rfl⟩
    · exact ⟨rfl, rfl, rfl, rfl, rfl, rfl, rfl⟩
    · rw [stateOf_modBay_kept rfl, intentOf_modBay_kept rfl, modBay_bay_self]
      exact ⟨rfl, rfl, rfl, rfl, rfl, rfl, rfl⟩
  refine ⟨fun lost other unlisted => ?_, fun records d u holding given loses => ?_⟩
  · rw [fails, failMessage_lost (by rw [link, lost]) other (by rw [list, unlisted])]
  · have parcel : failsWith v b m records d := by
      unfold failsWith
      rw [list, dialogue]
      exact given
    have lost : failMessage b m.entry m.attempts v = onLinkLost b u := by
      rw [loses]
      exact failMessage_loses (by rw [link]; exact holding) parcel
    have now : u.stateOf b = s.stateOf b := by rw [loses, stateOf_submitAll, stateOf_modBay_kept rfl, state]
    have intentNow : u.intentOf b = s.intentOf b := by
      rw [loses, intentOf_eq, submitAll_bay, ← intentOf_eq, intentOf_modBay_kept rfl, intent]
    rw [fails, lost]
    refine ⟨fun drain blind => ?_, fun drain => ?_, fun queued sighted => ?_⟩
    · rw [onLinkLost_other (by rwa [now]) (by rwa [now, intentNow])]
    · rw [onLinkLost_drain (by rw [now, drain])]
    · have queueNow : u.queue = s.queue := by rw [loses, submitAll_queue]; exact queue
      have poolNow : u.pool = s.pool := by rw [loses, submitAll_pool]; exact pool
      rw [onLinkLost_queued (by rw [now, queued]) (by rw [intentNow, sighted]),
        withdrawStart_of (by rw [now, queued]) rfl queueNow poolNow]

end Sys2Proof.Machine

/-! What the Sequencer and the Admission Controller leave of every bay: the intent, the demand, the Trouble hold, the pins and
confirmed levels, the Dialogue Unit, and of the link all but its transmit list. -/

namespace Sys2Proof.Machine

/-! ## The part of a bay that is kept -/

/-- A bay with all that the Sequencer and the Admission Controller may change put to one value. -/
def Bay.fixed (y : Bay) : Bay := { y with
  ctx := { y.ctx with
    state := .empty, phaseTimer := 0, pending := false, basis := .blind, admissionStamp := 0, clearRequested := false }
  inputs := { y.inputs with fltTicks := 0, fltLevel := false, faultCount := 0 }
  link := { y.link with txList := [] }
  charge := 0, grantedHold := 0, settledFrom := none, quiesceOutcome := .none }

/-- Every bay is as it was, but for what the Sequencer and the Admission Controller change. -/
def Fixed (s t : State) : Prop := ∀ c, (t.bay c).fixed = (s.bay c).fixed

variable {r s t : State} {b c : BayId}

theorem Fixed.refl (s : State) : Fixed s s := fun _ => rfl

theorem Fixed.trans (first : Fixed r s) (second : Fixed s t) : Fixed r t := fun c => (second c).trans (first c)

theorem Fixed.intent (h : Fixed s t) : t.intentOf c = s.intentOf c := congrArg (fun y => y.ctx.intent) (h c)

theorem Fixed.demand (h : Fixed s t) : (t.bay c).ctx.demand = (s.bay c).ctx.demand := congrArg (fun y => y.ctx.demand) (h c)

theorem Fixed.troubleHold (h : Fixed s t) : (t.bay c).ctx.troubleHold = (s.bay c).ctx.troubleHold :=
  congrArg (fun y => y.ctx.troubleHold) (h c)

theorem Fixed.applied (h : Fixed s t) : (t.bay c).applied = (s.bay c).applied := congrArg (fun y => y.applied) (h c)

theorem Fixed.lineState (h : Fixed s t) : (t.bay c).link.lineState = (s.bay c).link.lineState :=
  congrArg (fun y => y.link.lineState) (h c)

theorem Fixed.pendingAck (h : Fixed s t) : (t.bay c).link.pendingAck = (s.bay c).link.pendingAck :=
  congrArg (fun y => y.link.pendingAck) (h c)

theorem Fixed.linkState (h : Fixed s t) : (t.bay c).link.linkState = (s.bay c).link.linkState :=
  congrArg (fun y => y.link.linkState) (h c)

/-! ## The operations on the state -/

theorem Fixed.ofBays (h : Fixed r s) (bays : t.bays = s.bays) : Fixed r t := fun c => by
  have bay : t.bay c = s.bay c := by unfold State.bay; rw [bays]
  rw [bay]
  exact h c

theorem Fixed.modBay {f : Bay → Bay} (h : Fixed r s) (kept : ∀ y, (f y).fixed = y.fixed) :
    Fixed r (Machine.modBay b f s) := fun c => by
  refine Eq.trans ?_ (h c)
  by_cases own : c = b
  · subst own
    rw [modBay_bay_self, kept]
  · rw [modBay_bay_ne own]

theorem Fixed.ite {P : Prop} [Decidable P] (yes : P → Fixed r s) (no : ¬P → Fixed r t) : Fixed r (if P then s else t) := by
  by_cases holds : P
  · rw [if_pos holds]
    exact yes holds
  · rw [if_neg holds]
    exact no holds

section
variable (h : Fixed r s)
include h

theorem Fixed.submit (x : Record) : Fixed r (Machine.submit x s) := h.ofBays (submit_bays x s)

theorem Fixed.setCharge (v : Nat) : Fixed r (Machine.setCharge b v s) :=
  (h.modBay (b := b) (f := fun y => { y with charge := v }) fun _ => rfl).ofBays rfl

theorem Fixed.setQueue (q : List QueueEntry) : Fixed r (Machine.setQueue q s) := h.ofBays rfl

theorem Fixed.raiseFault : Fixed r (Machine.raiseFault s) := h.ofBays rfl

theorem Fixed.placeEntry (e : TxEntry) : Fixed r (Machine.placeEntry b e s) := by
  rw [placeEntry_eq_ite]
  exact .ite (fun _ => h.modBay fun _ => rfl) fun _ => h

theorem Fixed.leaveQueue (o : AdmitOutcome) : Fixed r (Machine.leaveQueue b o s) := by
  unfold Machine.leaveQueue
  split
  · exact (h.setQueue _).submit _
  · exact h

/-! ## The moves of a bay -/

theorem Fixed.noteQuiesce (new : BayState) (reason : StateReason) : Fixed r (Machine.noteQuiesce b new reason s) := by
  refine .ite (fun _ => ?_) fun _ => h
  split
  · exact h.modBay fun _ => rfl
  · exact h

theorem Fixed.leaveOn (old : BayState) : Fixed r (Machine.leaveOn b old s) := .ite (fun _ => h.leaveQueue _) fun _ => h

theorem Fixed.rewriteLocked (old new : BayState) : Fixed r (Machine.rewriteLocked b old new s) :=
  .ite (fun _ => h.ofBays rfl) fun _ => h

theorem Fixed.changeState (new : BayState) (reason : StateReason) (surprise : Bool) (timer : Nat) :
    Fixed r (Machine.changeState b new reason surprise timer s) := by
  unfold Machine.changeState
  refine (Fixed.rewriteLocked (Fixed.modBay (h.submit _) ?_) _ _).noteQuiesce _ _ |>.leaveOn _
  exact fun _ => rfl

theorem Fixed.announceQueued (kind : EntryKind) (amount : Nat) (clipped : Bool) :
    Fixed r (Machine.announceQueued b kind amount clipped s) := (h.submit _).placeEntry _

theorem Fixed.joinQueue (kind : EntryKind) (amount : Nat) (clipped : Bool) :
    Fixed r (Machine.joinQueue b kind amount clipped s) := h.ofBays rfl

theorem Fixed.joinStart : Fixed r (Machine.joinStart b s) :=
  .ite (fun _ => h.submit _) fun _ => ((h.changeState _ _ _ _).joinQueue _ _ _).announceQueued _ _ _

theorem Fixed.chooseBasis : Fixed r (Machine.chooseBasis b s) := h.modBay fun _ => rfl

theorem Fixed.reconcileOff : Fixed r (Machine.reconcileOff b s) :=
  .ite (fun _ => h.chooseBasis.joinStart) fun _ => h

theorem Fixed.withdrawStart (reason : StateReason) : Fixed r (Machine.withdrawStart b reason s) :=
  (h.leaveQueue _).changeState _ _ _ _

theorem Fixed.endRest : Fixed r (Machine.endRest b s) :=
  .ite (fun _ => (h.changeState _ _ _ _).reconcileOff) fun _ => h.changeState _ _ _ _

theorem Fixed.restIfZero : Fixed r (Machine.restIfZero b s) := .ite (fun _ => h.endRest) fun _ => h

theorem Fixed.discharge : Fixed r (Machine.discharge b s) := ((h.changeState _ _ _ _).setCharge _).restIfZero

theorem Fixed.clearFilter : Fixed r (Machine.clearFilter b s) := h.modBay fun _ => rfl

theorem Fixed.leaveFaulted : Fixed r (Machine.leaveFaulted b s) := (h.changeState _ _ _ _).clearFilter.restIfZero

theorem Fixed.releaseIfDown : Fixed r (Machine.releaseIfDown b s) := .ite (fun _ => h) fun _ => h.setCharge _

theorem Fixed.enterFaulted (reason : StateReason) : Fixed r (Machine.enterFaulted b reason s) := by
  unfold Machine.enterFaulted
  refine Fixed.releaseIfDown (Fixed.raiseFault (Fixed.modBay (Fixed.modBay (h.changeState _ _ _ _) ?_) ?_))
  · exact fun _ => rfl
  · exact fun _ => rfl

theorem Fixed.cutoffNext : Fixed r (Machine.cutoffNext b s) :=
  .ite (fun _ => h.discharge) fun _ => .ite (fun _ => h.enterFaulted _) fun _ => h

theorem Fixed.enterCutoff (reason : StateReason) : Fixed r (Machine.enterCutoff b reason s) :=
  (h.changeState _ _ _ _).cutoffNext

theorem Fixed.drainNext (reason : DrainReason) : Fixed r (Machine.drainNext b reason s) :=
  .ite (fun _ => .ite (fun _ => (h.placeEntry _).enterCutoff _) fun _ => h.placeEntry _) fun _ => h.enterCutoff _

theorem Fixed.enterDrain (reason : DrainReason) : Fixed r (Machine.enterDrain b reason s) :=
  (h.changeState _ _ _ _).drainNext _

theorem Fixed.grantCharge : Fixed r (Machine.grantCharge b s) := h.placeEntry _

theorem Fixed.requestRaise (hold : Nat) (clipped : Bool) : Fixed r (Machine.requestRaise b hold clipped s) :=
  .ite (fun _ => (Fixed.ite (fun _ => h.leaveQueue _) fun _ => h.submit _).grantCharge)
    fun _ => (Fixed.ite (fun _ => h.setQueue _) fun _ => h.joinQueue _ _ _).announceQueued _ _ _

theorem Fixed.admitRaise (e : QueueEntry) : Fixed r (Machine.admitRaise e s) :=
  (((h.setQueue _).setCharge _).submit _).grantCharge

theorem Fixed.admitAtOnce : Fixed r (Machine.admitAtOnce b s) := by
  unfold Machine.admitAtOnce
  split
  · exact .ite (fun _ => h.admitRaise _) fun _ => h
  · exact h

theorem Fixed.takeRaise (hold : Nat) (clipped : Bool) : Fixed r (Machine.takeRaise b hold clipped s) :=
  .ite (fun _ => (h.requestRaise _ _).admitAtOnce) fun _ => h.requestRaise _ _

theorem Fixed.takeLower (hold : Nat) : Fixed r (Machine.takeLower b hold s) :=
  ((h.leaveQueue _).setCharge _).grantCharge

/-! ## RAMP, SETTLE and ON -/

theorem Fixed.resolvePending (d : Demand) : Fixed r (Machine.resolvePending b d s) :=
  .ite (fun _ => h.setCharge _) fun _ => .ite (fun _ => (h.setCharge _).grantCharge)
    fun _ => (h.setCharge _).requestRaise _ _

theorem Fixed.settleCharge : Fixed r (Machine.settleCharge b s) := by
  unfold Machine.settleCharge
  split
  · exact h.resolvePending _
  · exact h.setCharge _

theorem Fixed.clearPending : Fixed r (Machine.clearPending b s) := h.modBay fun _ => rfl

theorem Fixed.reconcileOn : Fixed r (Machine.reconcileOn b s) := by
  unfold Machine.reconcileOn
  split
  · exact h.enterDrain _
  · exact h

theorem Fixed.enterOn : Fixed r (Machine.enterOn b s) := by
  unfold Machine.enterOn
  refine (Fixed.modBay (h.changeState _ _ _ _) ?_).settleCharge.clearPending.reconcileOn
  exact fun _ => rfl

theorem Fixed.enterSettle : Fixed r (Machine.enterSettle b s) :=
  .ite (fun _ => (h.changeState _ _ _ _).enterOn) fun _ => h.changeState _ _ _ _

theorem Fixed.rampNext : Fixed r (Machine.rampNext b s) :=
  .ite (fun _ => h.enterSettle) fun _ => .ite (fun _ => h.enterFaulted _) fun _ => h

theorem Fixed.enterRamp (amount : Nat) : Fixed r (Machine.enterRamp b amount s) :=
  ((h.changeState _ _ _ _).clearFilter.placeEntry _).rampNext

/-! ## Events by bay state -/

theorem Fixed.onFaultConfirmed : Fixed r (Machine.onFaultConfirmed b s) := by
  unfold Machine.onFaultConfirmed
  cases s.stateOf b
  case ramp | settle | on | drain => exact h.enterFaulted _
  case queued => exact h.withdrawStart _
  all_goals exact h

theorem Fixed.clearFault : Fixed r (Machine.clearFault b s) :=
  .ite (fun _ => h.modBay fun _ => rfl) fun _ => h.leaveFaulted

theorem Fixed.takeTarget : Fixed r (Machine.takeTarget b s) := by
  unfold Machine.takeTarget
  split
  · exact h.reconcileOff
  · exact h.withdrawStart _
  · exact h.enterDrain _
  · exact h.clearFault
  · exact h.withdrawStart _
  · exact h.enterCutoff _
  · exact h.enterCutoff _
  · exact h.enterCutoff _
  · exact h.enterCutoff _
  · exact h.clearFault
  · exact h

theorem Fixed.replaceStart (amount : Nat) (clipped : Bool) : Fixed r (Machine.replaceStart b amount clipped s) :=
  .ite (fun _ => (h.leaveQueue _).changeState _ _ _ _) fun _ => (h.setQueue _).announceQueued _ _ _

theorem Fixed.onDemandUnknown : Fixed r (Machine.onDemandUnknown b s) := by
  unfold Machine.onDemandUnknown
  cases s.stateOf b
  case queued =>
    refine .ite (fun _ => (Fixed.modBay h ?_).replaceStart _ _) fun _ => h.withdrawStart _
    exact fun _ => rfl
  case ramp | settle => exact h.clearPending
  all_goals exact h

theorem Fixed.onDemand (d : Demand) : Fixed r (Machine.onDemand b d s) := by
  unfold Machine.onDemand
  cases s.stateOf b
  case off => exact h.reconcileOff
  case queued =>
    refine (Fixed.modBay h ?_).replaceStart _ _
    exact fun _ => rfl
  case ramp | settle => exact h.modBay fun _ => rfl
  case on => exact .ite (fun _ => h.takeRaise _ _) fun _ => h.takeLower _
  all_goals exact h

theorem Fixed.onRelease : Fixed r (Machine.onRelease b s) := .ite (fun _ => h.enterCutoff _) fun _ => h

/-! ## The head of the queue and the end of an event -/

theorem Fixed.grantStamp (stamp : BitVec 32) : Fixed r (Machine.grantStamp b stamp s) := h.modBay fun _ => rfl

theorem Fixed.advanceCounter : Fixed r (Machine.advanceCounter s) := h.ofBays rfl

theorem Fixed.admitStart (e : QueueEntry) : Fixed r (Machine.admitStart e s) :=
  ((((h.setQueue _).setCharge _).grantStamp _).advanceCounter.submit _).enterRamp _

theorem Fixed.admitEntry (e : QueueEntry) : Fixed r (Machine.admitEntry e s) := by
  unfold Machine.admitEntry
  cases e.kind
  · exact h.admitStart e
  · exact h.admitRaise e

theorem Fixed.evaluateLoop (n : Nat) : Fixed r (Machine.evaluateLoop n s) := by
  induction n generalizing s with
  | zero => exact h
  | succ n ih =>
    unfold Machine.evaluateLoop
    split
    · exact ih (h.admitEntry _)
    · exact h

theorem Fixed.evaluateHead : Fixed r (Machine.evaluateHead s) := h.evaluateLoop _

theorem Fixed.foldl {f : State → BayId → State} (step : ∀ t b, Fixed r t → Fixed r (f t b)) (l : List BayId) :
    Fixed r (l.foldl f s) := by
  induction l generalizing s with
  | nil => exact h
  | cons b l ih => exact ih (step s b h)

theorem Fixed.forBays {f : BayId → State → State} (step : ∀ b t, Fixed r t → Fixed r (f b t)) :
    Fixed r (Machine.forBays f s) := h.foldl (f := fun t b => f b t) (fun t b k => step b t k) allBays

theorem Fixed.settleOutcome (b : BayId) :
    Fixed r (Machine.modBay b (fun y => { y with quiesceOutcome := finalOutcome y }) s) := h.modBay fun _ => rfl

theorem Fixed.settleOutcomes : Fixed r (Machine.settleOutcomes s) := h.forBays fun b _ k => k.settleOutcome b

theorem Fixed.submitQuiesced : Fixed r (Machine.submitQuiesced s) := h.submit _

theorem Fixed.enterStandby : Fixed r (Machine.enterStandby s) := h.ofBays rfl

theorem Fixed.quiesceTest : Fixed r (Machine.quiesceTest s) := by
  unfold Machine.quiesceTest
  exact .ite (fun _ => h.settleOutcomes.submitQuiesced.enterStandby) fun _ => h

theorem Fixed.finish : Fixed r (Machine.finish s) := h.evaluateHead.quiesceTest

theorem Fixed.raiseWake : Fixed r (Machine.raiseWake s) := .ite (fun _ => h.ofBays rfl) fun _ => h

theorem Fixed.modShelf (f : Shelf → Shelf) : Fixed r (Machine.modShelf f s) := h.ofBays rfl

theorem Fixed.wakeEvent (source : WakeSource) : Fixed r (Machine.wakeEvent b source s) :=
  .ite (fun _ => ((h.modShelf _).submit _).raiseWake) fun _ => h

end

end Sys2Proof.Machine

/-! The messages of a module: the ACK that each owes, the HELLO, and the Demand becoming unknown. The statements O46, O47, O48,
O51, O52 and O53. -/

namespace Sys2Proof.Machine

variable {r s t : State} {b : BayId} {seq : Sequence} {payload : List Byte}

/-! ## What deliveries leave of the line -/

/-- Every line is as it was, with the ACK it owes. -/
def LineKept (s t : State) : Prop :=
  ∀ c, (t.bay c).link.lineState = (s.bay c).link.lineState ∧ (t.bay c).link.pendingAck = (s.bay c).link.pendingAck

theorem LineKept.trans (first : LineKept r s) (second : LineKept s t) : LineKept r t := fun c =>
  ⟨(second c).1.trans (first c).1, (second c).2.trans (first c).2⟩

theorem Fixed.lineKept (h : Fixed s t) : LineKept s t := fun _ => ⟨h.lineState, h.pendingAck⟩

theorem LineKept.refl (s : State) : LineKept s s := (Fixed.refl s).lineKept

theorem lineKept_modBay {f : Bay → Bay} (kept : ∀ y, (f y).link.lineState = y.link.lineState
    ∧ (f y).link.pendingAck = y.link.pendingAck) (s : State) : LineKept s (modBay b f s) := fun c => by
  by_cases own : c = b
  · subst own
    rw [modBay_bay_self]
    exact kept _
  · rw [modBay_bay_ne own]
    exact ⟨rfl, rfl⟩

theorem lineKept_submit (x : Record) (s : State) : LineKept s (submit x s) := ((Fixed.refl s).submit x).lineKept

theorem lineKept_modCtx (f : BayContext → BayContext) (s : State) : LineKept s (modCtx b f s) := by
  refine lineKept_modBay ?_ s
  exact fun _ => ⟨rfl, rfl⟩

theorem lineKept_modDialogue (f : DialogueUnit → DialogueUnit) (s : State) : LineKept s (modDialogue b f s) := by
  refine lineKept_modBay ?_ s
  exact fun _ => ⟨rfl, rfl⟩

theorem lineKept_modLink {f : LinkEngine → LinkEngine} (kept : ∀ l, (f l).lineState = l.lineState
    ∧ (f l).pendingAck = l.pendingAck) (s : State) : LineKept s (modLink b f s) :=
  lineKept_modBay (fun y => kept y.link) s

theorem lineKept_countQuality (k : QualityKind) (s : State) : LineKept s (countQuality b k s) := by
  have bump := lineKept_modLink (b := b) (f := fun l => { l with counters := l.counters.bump k }) (fun _ => ⟨rfl, rfl⟩)
  have mark := lineKept_modLink (b := b) (f := fun l => { l with reported := l.reported.mark k }) (fun _ => ⟨rfl, rfl⟩)
  unfold countQuality
  split
  · exact ((bump s).trans (mark _)).trans (lineKept_submit _ _)
  · exact bump s

theorem lineKept_placeProbe (s : State) : LineKept s (placeProbe b s) := by
  rw [placeProbe_eq]
  refine lineKept_modBay ?_ s
  exact fun _ => ⟨rfl, rfl⟩

theorem lineKept_makeDemandUnknown (s : State) : LineKept s (makeDemandUnknown b s) :=
  (lineKept_modCtx _ s).trans (Fixed.refl _).onDemandUnknown.lineKept

theorem lineKept_endParcel (outcome : SlotStatus) (cause : ParcelCause) (n : Nat) (s : State) :
    LineKept s (endParcel b outcome cause n s) := (lineKept_modDialogue _ s).trans (lineKept_submit _ _)

theorem lineKept_flushList (cause : ParcelCause) (s : State) : LineKept s (flushList b cause s) := by
  have flush := lineKept_modLink (b := b) (f := fun l => { l with txList := [] }) (fun _ => ⟨rfl, rfl⟩)
  unfold flushList abandonListed
  split
  · exact (lineKept_endParcel _ _ _ s).trans (flush _)
  · exact flush s

theorem lineKept_takeParcel (s : State) : LineKept s (takeParcel b s) := by
  unfold takeParcel
  split
  · split
    · exact (lineKept_modDialogue _ s).trans (lineKept_submit _ _)
    · exact (lineKept_modDialogue _ s).trans ((Fixed.refl _).placeEntry _).lineKept
  · exact .refl s

theorem lineKept_deliverHello (payload : List Byte) (s : State) : LineKept s (deliverHello b payload s) := by
  have bind := lineKept_modLink (b := b) (f := LinkEngine.bind) (fun _ => ⟨rfl, rfl⟩)
  have unbound := lineKept_modLink (b := b) (f := fun l => { l with linkState := .unbound }) (fun _ => ⟨rfl, rfl⟩)
  unfold deliverHello
  split
  · exact ((((bind s).trans (lineKept_submit _ _)).trans (lineKept_makeDemandUnknown _)).trans
      (lineKept_modDialogue _ _)).trans (((Fixed.refl _).placeEntry _).lineKept.trans (lineKept_takeParcel _))
  · unfold refuseHello
    split
    · exact (((lineKept_submit _ s).trans (unbound _)).trans (lineKept_flushList _ _)).trans (lineKept_makeDemandUnknown _)
    · exact lineKept_submit _ s

theorem lineKept_deliverDemand (payload : List Byte) (s : State) : LineKept s (deliverDemand b payload s) := by
  unfold deliverDemand
  split
  · exact (lineKept_modCtx _ s).trans ((Fixed.refl _).onDemand _).lineKept
  · exact lineKept_modDialogue _ s

theorem lineKept_deliverRelease (payload : List Byte) (s : State) : LineKept s (deliverRelease b payload s) := by
  unfold deliverRelease
  split
  · exact (Fixed.refl s).onRelease.lineKept
  · exact lineKept_modDialogue _ s

theorem lineKept_onTrouble (severity : Nat) (s : State) : LineKept s (onTrouble b severity s) := by
  have hold := lineKept_modCtx (b := b) (fun c => { c with troubleHold := true }) s
  unfold onTrouble
  cases troubleActionOf severity (s.stateOf b)
  case none => exact .refl s
  case hold => exact hold
  case withdrawn => exact hold.trans ((Fixed.refl _).withdrawStart _).lineKept
  case drain => exact hold.trans ((Fixed.refl _).enterDrain _).lineKept
  case cut => exact hold.trans ((Fixed.refl _).enterCutoff _).lineKept

theorem lineKept_deliverTrouble (payload : List Byte) (s : State) : LineKept s (deliverTrouble b payload s) := by
  unfold deliverTrouble
  split
  · exact ((lineKept_submit _ s).trans (lineKept_onTrouble _ _)).trans ((Fixed.refl _).wakeEvent _).lineKept
  · exact lineKept_modDialogue _ s

theorem lineKept_deliverNote (payload : List Byte) (s : State) : LineKept s (deliverNote b payload s) :=
  (((Fixed.refl s).submit _).wakeEvent _).lineKept

/-! ## Every message owes its ACK (R88, R90, R98) -/

theorem oweAck_eq (k : Nat) (seq : Sequence) (payload : List Byte) (s : State) :
    oweAck b seq (endReception b (frameBuffer k seq payload) s) = modBay b (Bay.owing k seq payload) s := by
  unfold oweAck endReception
  rw [modLink_eq, modLink_eq, modBay_modBay]
  rfl

/-- A command that is the completion of a module message. -/
def receives (i : Instr) (b : BayId) (k : Nat) (isHello : Bool) (seq : Sequence) (payload : List Byte)
    (deliver : State → State) (s : State) : Prop :=
  exec i s = .next (receiveMessage b k isHello seq payload deliver s)

theorem exec_receives {i : Instr} {k : Nat} {isHello : Bool} {deliver : State → State} (hears : s.canHear b)
    (message : receives i b k isHello seq payload deliver s) :
    exec i s = .next (finish (takeByLinkState b isHello seq deliver (modBay b (Bay.owing k seq payload) s))) := by
  rw [message, receiveMessage, if_pos (mayReceive_of_canHear hears), oweAck_eq]

theorem duplicate_of_not_isNew (h : ¬s.isNew b seq) : (s.bay b).link.duplicate seq = true := by
  unfold State.isNew at h
  push Not at h
  obtain ⟨valid, last⟩ := h
  simp [LinkEngine.duplicate, valid, last]

theorem takeByLinkState_duplicate {isHello : Bool} {deliver : State → State}
    (through : isHello = true ∨ (s.bay b).link.linkState = .bound) (duplicate : (s.bay b).link.duplicate seq = true) :
    takeByLinkState b isHello seq deliver s = countQuality b .duplicates s := by
  unfold takeByLinkState filterMessage
  rw [if_pos through, if_pos duplicate]

theorem takeByLinkState_apart {isHello : Bool} {deliver : State → State}
    (apart : ¬(isHello = true ∨ (s.bay b).link.linkState = .bound)) :
    takeByLinkState b isHello seq deliver s = placeProbe b s := if_neg apart

theorem lineKept_takeByLinkState {isHello : Bool} {deliver : State → State} (kept : ∀ t, LineKept t (deliver t))
    (s : State) : LineKept s (takeByLinkState b isHello seq deliver s) := by
  have note := lineKept_modLink (b := b) (f := fun l => { l with lastSequence := seq, filterValid := true })
    (fun _ => ⟨rfl, rfl⟩)
  unfold takeByLinkState filterMessage
  split
  · split
    · exact lineKept_countQuality _ s
    · exact (note s).trans (kept _)
  · exact lineKept_placeProbe s

/-- What every module message does with its ACK, and what it does where it is not delivered. -/
theorem message_owes {i : Instr} {k : Nat} {isHello : Bool} {deliver : State → State} (hears : s.canHear b)
    (message : receives i b k isHello seq payload deliver s) (hello : isHello = true ↔ i = .hello b seq payload)
    (kept : ∀ t, LineKept t (deliver t)) (code : k < 16) :
    (¬s.isNew b seq → (s.bay b).link.linkState = .bound ∨ i = .hello b seq payload →
      exec i s = .next (finish (countQuality b .duplicates (modBay b (Bay.owing k seq payload) s))))
    ∧ ((s.bay b).link.linkState ≠ .bound → i ≠ .hello b seq payload →
      exec i s = .next (finish (modBay b (fun y => { y.owing k seq payload with
        link := { (y.owing k seq payload).link with
          txList := if y.link.txList.any (fun e => e.slot == .probe) || inFlightIs .probe y.link then y.link.txList
            else y.link.txList ++ [.probe] } }) s)))
    ∧ (∃ t, exec i s = .next t ∧ (t.bay b).link.pendingAck = some seq ∧ (t.bay b).link.lineState = .idle)
    ∧ ∀ n, payload.length < 64 → n = k + 16 * seq.toNat + 128 * payload.length →
      frameBuffer k seq payload = le16 n ++ payload := by
  rw [exec_receives hears message]
  refine ⟨fun old through => ?_, fun apart other => ?_, ⟨_, rfl, ?_⟩,
    fun n length header => frameBuffer_eq k n seq payload code length header⟩
  · rw [takeByLinkState_duplicate (by rw [modBay_bay_self, hello]; exact through.symm)
      (by rw [modBay_bay_self]; exact duplicate_of_not_isNew old)]
  · have silent : ¬(isHello = true ∨ ((modBay b (Bay.owing k seq payload) s).bay b).link.linkState = .bound) := by
      rw [modBay_bay_self, hello]
      exact not_or.mpr ⟨other, apart⟩
    rw [takeByLinkState_apart silent, placeProbe_eq, modBay_modBay]
    rfl
  · have line := ((lineKept_takeByLinkState (b := b) (isHello := isHello) (seq := seq) kept
      (modBay b (Bay.owing k seq payload) s)).trans
      (Fixed.refl _).finish.lineKept) b
    rw [line.1, line.2, modBay_bay_self]
    exact ⟨rfl, rfl⟩

/-- Settles O46: the five messages owe their ACK alike. -/
theorem messagesOweAck : Obligations.MessagesOweAck := by
  intro s b seq payload i k hears kind
  simp only [List.mem_cons, Prod.mk.injEq, List.not_mem_nil, or_false] at kind
  rcases kind with ⟨rfl, rfl⟩ | ⟨rfl, rfl⟩ | ⟨rfl, rfl⟩ | ⟨rfl, rfl⟩ | ⟨rfl, rfl⟩
  · exact message_owes (isHello := true) (deliver := deliverHello b payload) hears rfl (by simp)
      (lineKept_deliverHello payload) (by decide)
  · exact message_owes (isHello := false) (deliver := deliverDemand b payload) hears rfl (by simp)
      (lineKept_deliverDemand payload) (by decide)
  · exact message_owes (isHello := false) (deliver := deliverRelease b payload) hears rfl (by simp)
      (lineKept_deliverRelease payload) (by decide)
  · exact message_owes (isHello := false) (deliver := deliverTrouble b payload) hears rfl (by simp)
      (lineKept_deliverTrouble payload) (by decide)
  · exact message_owes (isHello := false) (deliver := deliverNote b payload) hears rfl (by simp)
      (lineKept_deliverNote payload) (by decide)

/-! ## The Demand becoming unknown (R113) -/

theorem makeDemandUnknown_eq (b : BayId) (s : State) : makeDemandUnknown b s
    = onDemandUnknown b (modBay b (fun y => { y with ctx := { y.ctx with demand := none } }) s) := rfl

theorem onDemandUnknown_ignored (state : s.stateOf b ∈ [.empty, .off, .rest, .on, .drain, .cutoff, .faulted]) :
    onDemandUnknown b s = s := by
  simp only [List.mem_cons, List.not_mem_nil, or_false] at state
  unfold onDemandUnknown
  rcases state with now | now | now | now | now | now | now <;> rw [now]

theorem onDemandUnknown_rising (state : s.stateOf b ∈ [.ramp, .settle]) :
    onDemandUnknown b s = modBay b (Bay.withPending false) s := by
  simp only [List.mem_cons, List.not_mem_nil, or_false] at state
  unfold onDemandUnknown
  rcases state with now | now <;> rw [now] <;> rfl

theorem onDemandUnknown_queued (state : s.stateOf b = .queued) : onDemandUnknown b s
    = if (s.intentOf b).blind then
        replaceStart b (s.intentOf b).cap false (modCtx b (fun c => { c with basis := .blind }) s)
      else withdrawStart b .preconditionLost s := by
  unfold onDemandUnknown
  rw [state]

/-- Settles O48: what a Demand that becomes unknown does by bay state. -/
theorem demandUnknown : Obligations.DemandUnknown := by
  rintro s u b rfl
  rw [makeDemandUnknown_eq]
  refine ⟨fun state => onDemandUnknown_ignored ?_, fun state => onDemandUnknown_rising ?_, fun state sighted => ?_,
    fun state blind => ?_⟩
  · rwa [stateOf_modBay_kept rfl]
  · rwa [stateOf_modBay_kept rfl]
  · rw [onDemandUnknown_queued (by rw [stateOf_modBay_kept rfl, state]), intentOf_modBay_kept rfl, sighted,
      if_neg Bool.false_ne_true]
    exact withdrawStart_of (s := s) (by rw [stateOf_modBay_kept rfl, state]) rfl rfl rfl
  · rw [onDemandUnknown_queued (by rw [stateOf_modBay_kept rfl, state]), intentOf_modBay_kept rfl, blind, if_pos rfl,
      modCtx_eq]

/-! ## RELEASE (R115) -/

theorem countMalformed_heard (k : Nat) (seq : Sequence) (payload : List Byte) (s : State) :
    countMalformed b (modBay b (Bay.heard k seq payload) s) = modBay b (fun y => { y.heard k seq payload with
      dialogue := { y.dialogue with malformed := min 255 (y.dialogue.malformed + 1) } }) s := by
  rw [countMalformed, modDialogue, modBay_modBay]
  rfl

theorem stateOf_heard (k : Nat) : (modBay b (Bay.heard k seq payload) s).stateOf b = s.stateOf b := stateOf_modBay_kept rfl

theorem intentOf_heard (k : Nat) : (modBay b (Bay.heard k seq payload) s).intentOf b = s.intentOf b :=
  intentOf_modBay_kept rfl

theorem onRelease_drain (state : s.stateOf b = .drain) : onRelease b s = enterCutoff b .released s := if_pos state

theorem onRelease_other (state : s.stateOf b ≠ .drain) : onRelease b s = s := if_neg state

theorem deliverRelease_empty (s : State) : deliverRelease b [] s = onRelease b s := rfl

theorem deliverRelease_malformed (h : payload ≠ []) : deliverRelease b payload s = countMalformed b s :=
  if_neg fun length => h (List.length_eq_zero_iff.mp length)

/-- Settles O51: a RELEASE in DRAIN, elsewhere, and one with a payload. -/
theorem release : Obligations.Release := by
  intro s b seq payload hears new bound
  obtain ⟨-, delivered, -, -⟩ := exec_message payload hears new bound
  rw [delivered]
  refine ⟨?_, ?_, fun long => ?_⟩
  · rintro rfl state
    rw [deliverRelease_empty, onRelease_other (by rwa [stateOf_heard])]
  · rintro rfl state
    rw [deliverRelease_empty, onRelease_drain (by rwa [stateOf_heard])]
  · rw [deliverRelease_malformed long, countMalformed_heard]

/-! ## NOTE and the wake events (R117, R174, R175) -/

theorem wakeEvent_outside (source : WakeSource) (state : s.shelf.state ≠ .standby) : wakeEvent b source s = s :=
  if_neg state

theorem wakeEvent_standby (source : WakeSource) (state : s.shelf.state = .standby) : wakeEvent b source s
    = raiseWake (submit (.wake b source (s.shelf.wakeBits ||| bayBit b))
        (modShelf (fun h => { h with wakeBits := h.wakeBits ||| bayBit b }) s)) := if_pos state

theorem raiseWake_eq (s : State) : raiseWake s
    = (if s.shelf.context.wakeEnable then modAttn (fun c => { c with wake := true }) else id) s := by
  unfold raiseWake
  by_cases wake : s.shelf.context.wakeEnable = true
  · rw [if_pos wake, if_pos wake]
  · rw [if_neg wake, if_neg wake]
    rfl

theorem bayBit_eq (b : BayId) : bayBit b = BitVec.twoPow 16 b.val := rfl

/-- Settles O53: the NOTE record, and the wake events inside and outside STANDBY. -/
theorem notesAndWakeEvents : Obligations.NotesAndWakeEvents := by
  refine fun s b => ⟨fun seq payload hears new bound => ?_, fun source => wakeEvent_outside source,
    fun source bits state merged => ?_⟩
  · obtain ⟨-, -, -, delivered⟩ := exec_message payload hears new bound
    rw [delivered]
    rfl
  · rw [wakeEvent_standby source state, raiseWake_eq, submit_shelf, modShelf_shelf, bayBit_eq, merged]
    rfl

/-! ## TROUBLE (R116) -/

theorem troubleWellShaped_iff (payload : List Byte) : troubleWellShaped payload = true
    ↔ payload.length = 3 ∧ 1 ≤ (byteAt payload 0).toNat ∧ (byteAt payload 0).toNat ≤ 3 := by
  simp only [troubleWellShaped, Bool.and_eq_true, beq_iff_eq, decide_eq_true_eq, and_assoc]
  exact Iff.rfl

theorem deliverTrouble_malformed (h : ¬(payload.length = 3 ∧ 1 ≤ (byteAt payload 0).toNat ∧ (byteAt payload 0).toNat ≤ 3)) :
    deliverTrouble b payload s = countMalformed b s := if_neg fun shaped => h ((troubleWellShaped_iff payload).mp shaped)

theorem troubleActionOf_one (w : BayState) : troubleActionOf 1 w = .none := rfl

theorem troubleActionOf_unpowered {n : Nat} {w : BayState} (severe : n ≠ 1) (state : w ∈ [.empty, .off, .rest, .cutoff, .faulted]) :
    troubleActionOf n w = .hold := by
  simp only [List.mem_cons, List.not_mem_nil, or_false] at state
  unfold troubleActionOf
  rw [if_neg severe]
  rcases state with rfl | rfl | rfl | rfl | rfl <;> rfl

theorem troubleActionOf_two {w : BayState} (state : w ∈ [.ramp, .settle, .drain]) : troubleActionOf 2 w = .hold := by
  simp only [List.mem_cons, List.not_mem_nil, or_false] at state
  rcases state with rfl | rfl | rfl <;> rfl

theorem troubleActionOf_queued {n : Nat} (severe : n ≠ 1) : troubleActionOf n .queued = .withdrawn := if_neg severe

theorem troubleActionOf_three {w : BayState} (state : w ∈ [.ramp, .settle, .on, .drain]) : troubleActionOf 3 w = .cut := by
  simp only [List.mem_cons, List.not_mem_nil, or_false] at state
  rcases state with rfl | rfl | rfl | rfl <;> rfl

/-- The state in which a TROUBLE is acted on: its record written, the hold set where it is severe. -/
def State.troubled (s : State) (b : BayId) (seq : Sequence) (payload : List Byte) (severity : Nat) (code : Nat)
    (action : TroubleAction) : State :=
  submitAll [.trouble b severity (s.stateOf b) code action] (modBay b (fun y =>
    { y.heard 4 seq payload with ctx := { y.ctx with troubleHold := y.ctx.troubleHold || decide (severity ≠ 1) } }) s)

theorem troubled_mild {code : Nat} {action : TroubleAction} :
    s.troubled b seq payload 1 code action
      = submit (.trouble b 1 (s.stateOf b) code action) (modBay b (Bay.heard 4 seq payload) s) := by
  refine congrArg (submit _) (modBay_congr b _ _ s ?_)
  rw [show decide (1 ≠ 1) = false from rfl, Bool.or_false]
  rfl

theorem troubled_severe {severity code : Nat} {action : TroubleAction} (severe : severity ≠ 1) :
    modCtx b (fun c => { c with troubleHold := true })
        (submit (.trouble b severity (s.stateOf b) code action) (modBay b (Bay.heard 4 seq payload) s))
      = s.troubled b seq payload severity code action := by
  rw [modCtx_eq, ← submit_modBay, modBay_modBay]
  refine congrArg (submit _) (modBay_congr b _ _ s ?_)
  rw [decide_eq_true severe, Bool.or_true]
  rfl

theorem troubled_queue {severity code : Nat} {action : TroubleAction} :
    (s.troubled b seq payload severity code action).queue = s.queue := submitAll_queue _ _

theorem troubled_pool {severity code : Nat} {action : TroubleAction} :
    (s.troubled b seq payload severity code action).pool = s.pool := submitAll_pool _ _

theorem stateOf_troubled {severity code : Nat} {action : TroubleAction} :
    (s.troubled b seq payload severity code action).stateOf b = s.stateOf b := by
  rw [State.troubled, stateOf_submitAll, stateOf_modBay_kept rfl]

/-- A TROUBLE of an action, acted on after its record. -/
theorem deliverTrouble_acts {sev lo hi : Byte} {action : TroubleAction} {f : State → State} (low : 1 ≤ sev.toNat)
    (high : sev.toNat ≤ 3) (acts : troubleActionOf sev.toNat (s.stateOf b) = action)
    (taken : ∀ t : State, t.stateOf b = s.stateOf b → onTrouble b sev.toNat t
      = f (if sev.toNat = 1 then t else modCtx b (fun c => { c with troubleHold := true }) t)) :
    deliverTrouble b [sev, lo, hi] (modBay b (Bay.heard 4 seq payload) s)
      = wakeEvent b .trouble (f (s.troubled b seq payload sev.toNat (lo.toNat + 256 * hi.toNat) action)) := by
  have shaped : troubleWellShaped [sev, lo, hi] = true := (troubleWellShaped_iff _).mpr ⟨rfl, low, high⟩
  have severity : troubleSeverity [sev, lo, hi] = sev.toNat := rfl
  have code : troubleCode [sev, lo, hi] = lo.toNat + 256 * hi.toNat := rfl
  unfold deliverTrouble
  rw [if_pos shaped, severity, code, stateOf_heard, acts, taken _ (by rw [stateOf_eq, submit_bay, ← stateOf_eq, stateOf_heard])]
  by_cases mild : sev.toNat = 1
  · rw [if_pos mild, mild, troubled_mild]
  · rw [if_neg mild, troubled_severe mild]

theorem onTrouble_none {n : Nat} (acts : troubleActionOf n (t.stateOf b) = .none) : onTrouble b n t = t := by
  unfold onTrouble
  rw [acts]

theorem onTrouble_hold {n : Nat} (acts : troubleActionOf n (t.stateOf b) = .hold) :
    onTrouble b n t = modCtx b (fun c => { c with troubleHold := true }) t := by
  unfold onTrouble
  rw [acts]

theorem onTrouble_withdrawn {n : Nat} (acts : troubleActionOf n (t.stateOf b) = .withdrawn) :
    onTrouble b n t = withdrawStart b .trouble (modCtx b (fun c => { c with troubleHold := true }) t) := by
  unfold onTrouble
  rw [acts]

theorem onTrouble_drain {n : Nat} (acts : troubleActionOf n (t.stateOf b) = .drain) :
    onTrouble b n t = enterDrain b .trouble (modCtx b (fun c => { c with troubleHold := true }) t) := by
  unfold onTrouble
  rw [acts]

theorem onTrouble_cut {n : Nat} (acts : troubleActionOf n (t.stateOf b) = .cut) :
    onTrouble b n t = enterCutoff b .trouble (modCtx b (fun c => { c with troubleHold := true }) t) := by
  unfold onTrouble
  rw [acts]

theorem deliverTrouble_mild {sev lo hi : Byte} (mild : sev.toNat = 1) :
    deliverTrouble b [sev, lo, hi] (modBay b (Bay.heard 4 seq payload) s)
      = wakeEvent b .trouble (s.troubled b seq payload sev.toNat (lo.toNat + 256 * hi.toNat) .none) := by
  have acts : troubleActionOf sev.toNat (s.stateOf b) = .none := by rw [mild, troubleActionOf_one]
  refine deliverTrouble_acts (f := id) (by omega) (by omega) acts fun t now => ?_
  rw [onTrouble_none (by rw [now, acts]), if_pos mild]
  rfl

theorem deliverTrouble_holds {sev lo hi : Byte} (low : 1 ≤ sev.toNat) (high : sev.toNat ≤ 3) (severe : sev.toNat ≠ 1)
    (acts : troubleActionOf sev.toNat (s.stateOf b) = .hold) :
    deliverTrouble b [sev, lo, hi] (modBay b (Bay.heard 4 seq payload) s)
      = wakeEvent b .trouble (s.troubled b seq payload sev.toNat (lo.toNat + 256 * hi.toNat) .hold) := by
  refine deliverTrouble_acts (f := id) low high acts fun t now => ?_
  rw [onTrouble_hold (by rw [now, acts]), if_neg severe]
  rfl

/-- Settles O52: a malformed TROUBLE, and a well-formed one by severity and bay state. -/
theorem trouble : Obligations.Trouble := by
  intro s b seq payload hears new bound
  obtain ⟨-, -, delivered, -⟩ := exec_message payload hears new bound
  rw [delivered]
  refine ⟨fun malformed => ?_, ?_⟩
  · rw [deliverTrouble_malformed malformed, countMalformed_heard]
  · rintro sev lo hi action w u rfl low high rfl given
    have acted : u = s.troubled b seq [sev, lo, hi] sev.toNat (lo.toNat + 256 * hi.toNat) action := given
    rw [acted]
    refine ⟨?_, ?_, ?_, ?_⟩
    · rintro (⟨rfl, mild⟩ | ⟨rfl, severe, state⟩ | ⟨rfl, two, state⟩)
      · rw [deliverTrouble_mild mild]
      · rw [deliverTrouble_holds low high severe (troubleActionOf_unpowered severe state)]
      · rw [deliverTrouble_holds low high (by omega) (by rw [two, troubleActionOf_two state])]
    · rintro rfl severe state
      have acts : troubleActionOf sev.toNat (s.stateOf b) = .withdrawn := by rw [state, troubleActionOf_queued severe]
      rw [deliverTrouble_acts (f := withdrawStart b .trouble) low high acts fun t now => by
        rw [onTrouble_withdrawn (by rw [now, acts]), if_neg severe]]
      rw [withdrawStart_of (s := s) (by rw [stateOf_troubled, state]) rfl troubled_queue troubled_pool]
    · rintro rfl two state
      have acts : troubleActionOf sev.toNat (s.stateOf b) = .drain := by rw [state, two]; rfl
      rw [deliverTrouble_acts (f := enterDrain b .trouble) low high acts fun t now => by
        rw [onTrouble_drain (by rw [now, acts]), if_neg (by omega)]]
    · rintro rfl three state
      have acts : troubleActionOf sev.toNat (s.stateOf b) = .cut := by rw [three, troubleActionOf_three state]
      rw [deliverTrouble_acts (f := enterCutoff b .trouble) low high acts fun t now => by
        rw [onTrouble_cut (by rw [now, acts]), if_neg (by omega)]]

/-! ## HELLO (R99, R106 to R108) -/

theorem helloAccepted_iff (payload : List Byte) : helloAccepted payload = true
    ↔ payload.length = 10 ∧ (byteAt payload 0).toNat ≤ 2 ∧ byteAt payload 9 = 1 := by
  simp [helloAccepted, and_assoc]

theorem padTo_eq (n : Nat) (l : List Byte) : padTo n l = (List.range n).map (fun i => l.getD i 0) := by
  unfold padTo
  refine List.ext_getElem ?_ fun i left right => ?_
  · simp only [List.length_take, List.length_append, List.length_replicate, List.length_map, List.length_range]
    omega
  · rw [List.getElem_take, List.getElem_map, List.getElem_range, List.getD_eq_getElem?_getD, List.getElem_append]
    by_cases within : i < l.length
    · rw [dif_pos within, List.getElem?_eq_getElem within, Option.getD_some]
    · rw [dif_neg within, List.getElem?_eq_none (Nat.not_lt.mp within), List.getElem_replicate, Option.getD_none]

theorem padTo_of_length {n : Nat} {l : List Byte} (h : n ≤ l.length) : padTo n l = l.take n := by
  rw [padTo, List.take_append_of_le_length h]

theorem helloFields_identity (payload : List Byte) :
    (helloFields payload).identity = (List.range 8).map (fun i => payload.getD (i + 1) 0) := by
  refine (padTo_eq 8 (payload.drop 1)).trans (List.map_congr_left fun i _ => ?_)
  rw [List.getD_eq_getElem?_getD, List.getElem?_drop, List.getD_eq_getElem?_getD, Nat.add_comm]

theorem deliverHello_accepted (accepted : helloAccepted payload = true) :
    deliverHello b payload s = acceptHello b (helloFields payload) s := if_pos accepted

theorem deliverHello_refused (refused : ¬helloAccepted payload = true) :
    deliverHello b payload s = refuseHello b (helloFields payload) s := if_neg refused

theorem bindEvent_eq (was : LinkState) (h : HelloFields) :
    bindEvent was h = if was = .bound then .rebound h else .bound h := by
  cases was <;> rfl

theorem makeDemandUnknown_linkState : ((makeDemandUnknown b s).bay b).link.linkState = (s.bay b).link.linkState := by
  rw [makeDemandUnknown_eq, (Fixed.refl _).onDemandUnknown.linkState, modBay_bay_self]

theorem makeDemandUnknown_intent : (makeDemandUnknown b s).intentOf b = s.intentOf b := by
  rw [makeDemandUnknown_eq, (Fixed.refl _).onDemandUnknown.intent, intentOf_modBay_kept rfl]

/-- LIMIT placed on a BOUND link after the directory entry is written (R107, R118). -/
theorem placeLimit_writeDirectory (h : HelloFields) (bound : (s.bay b).link.linkState = .bound) :
    placeLimit b (writeDirectory b h s) = modBay b (fun y => { y with
      dialogue := { y.dialogue with
        moduleClass := h.moduleClass, linkRevision := h.linkRevision, identity := h.identity }
      link := { y.link with txList := txPlace (.limit (s.intentOf b).cap) y.link.txList } }) s := by
  rw [placeLimit, writeDirectory, modDialogue, intentOf_modBay_kept rfl, placeEntry_eq_ite, modBay_bay_self,
    if_pos (.inl bound), modBay_modBay]

/-- A link that a HELLO binds, after its LINK record. -/
theorem submitLink_bind (event : LinkEvent) (k : Nat) : submitLink b event
    (modLink b LinkEngine.bind (modBay b (Bay.heard k seq payload) s)) = submitAll [.link b event] (modBay b (fun y =>
      { y.heard k seq payload with link := { (y.heard k seq payload).link with
        linkState := .bound, linkTimer := none
        txList := y.link.txList.filter (fun e => e.slot != .probe) } }) s) := by
  rw [modLink_eq, modBay_modBay]
  rfl

theorem acceptHello_heard (h : HelloFields) (k : Nat) (s : State) :
    acceptHello b h (modBay b (Bay.heard k seq payload) s) = takeParcel b (modBay b (fun y => { y with
        dialogue := { y.dialogue with
          moduleClass := h.moduleClass, linkRevision := h.linkRevision, identity := h.identity }
        link := { y.link with txList := txPlace (.limit (s.intentOf b).cap) y.link.txList } })
      (makeDemandUnknown b (submitAll [.link b (if (s.bay b).link.linkState = .bound then .rebound h else .bound h)]
        (modBay b (fun y => { y.heard k seq payload with link := { (y.heard k seq payload).link with
          linkState := .bound, linkTimer := none
          txList := y.link.txList.filter (fun e => e.slot != .probe) } }) s)))) := by
  have was : ((modBay b (Bay.heard k seq payload) s).bay b).link.linkState = (s.bay b).link.linkState := by
    rw [modBay_bay_self]
    rfl
  unfold acceptHello
  rw [was, submitLink_bind, bindEvent_eq,
    placeLimit_writeDirectory h (by rw [makeDemandUnknown_linkState, submitAll_bay, modBay_bay_self]),
    makeDemandUnknown_intent, intentOf_eq, submitAll_bay, ← intentOf_eq, intentOf_modBay_kept rfl]

theorem refuseHello_apart (h : HelloFields) (apart : (s.bay b).link.linkState ≠ .bound) :
    refuseHello b h s = submitAll [.link b (.refused h)] s := if_neg apart

theorem refuseHello_bound (h : HelloFields) (bound : (s.bay b).link.linkState = .bound) :
    refuseHello b h s = makeDemandUnknown b (flushList b .unbound
      (modLink b (fun l => { l with linkState := .unbound }) (submit (.link b (.refused h)) s))) := if_pos bound

theorem flushList_none {cause : ParcelCause} (list : txListed .parcel (s.bay b).link.txList = false) :
    flushList b cause s = modBay b (fun y => { y with link := { y.link with txList := [] } }) s := by
  rw [flushList, abandonListed_none list, modLink_eq]

theorem flushList_parcel {cause : ParcelCause} (list : txListed .parcel (s.bay b).link.txList = true) :
    flushList b cause s = submitAll [.parcel b .abandoned cause (s.bay b).dialogue.parcelLength 0]
      (modBay b (fun y => { y with
        link := { y.link with txList := [] }
        dialogue := { y.dialogue with parcelCopy := none, slotStatus := .abandoned } }) s) := by
  have ended := endParcel_modBay (s := s) (b := b) (g := fun y => y) .abandoned cause 0 rfl
  rw [modBay_id] at ended
  rw [flushList, abandonListed_parcel list, ended, modLink_eq, ← submitAll_modBay, modBay_modBay]

/-- The state in which a BOUND link has been dropped by a refused HELLO, its list not yet flushed. -/
theorem submit_unbind (h : HelloFields) (k : Nat) :
    modLink b (fun l => { l with linkState := .unbound }) (submit (.link b (.refused h)) (modBay b (Bay.heard k seq payload) s))
      = submitAll [.link b (.refused h)] (modBay b (fun y => { y.heard k seq payload with
        link := { (y.heard k seq payload).link with linkState := .unbound } }) s) := by
  rw [modLink_eq, ← submit_modBay, modBay_modBay]
  rfl

/-- Settles O47: a HELLO accepted, and one refused by the state of the link. -/
theorem hello : Obligations.Hello := by
  rintro s b seq payload h hears new rfl
  rw [exec_hello payload hears new]
  refine ⟨⟨rfl, rfl, helloFields_identity payload⟩, fun length low revision => ?_, fun refused => ?_⟩
  · have identity : (helloFields payload).identity = (payload.drop 1).take 8 :=
      padTo_of_length (by rw [List.length_drop]; omega)
    have revised : (helloFields payload).linkRevision = 1 := revision
    rw [deliverHello_accepted ((helloAccepted_iff payload).mpr ⟨length, low, revision⟩), acceptHello_heard, identity, revised]
    rfl
  · have link : ((modBay b (Bay.heard 1 seq payload) s).bay b).link.linkState = (s.bay b).link.linkState := by
      rw [modBay_bay_self]
      rfl
    rw [deliverHello_refused fun accepted => refused ((helloAccepted_iff payload).mp accepted)]
    refine ⟨fun apart => ?_, fun bound list => ?_, fun bound list => ?_⟩
    · rw [refuseHello_apart _ (by rwa [link])]
    · rw [refuseHello_bound _ (by rwa [link]), submit_unbind,
        flushList_none (by rw [submitAll_bay, modBay_bay_self]; exact list), ← submitAll_modBay, modBay_modBay]
    · rw [refuseHello_bound _ (by rwa [link]), submit_unbind,
        flushList_parcel (by rw [submitAll_bay, modBay_bay_self]; exact list), ← submitAll_modBay, modBay_modBay,
        ← submitAll_append, submitAll_bay, modBay_bay_self]
      rfl

end Sys2Proof.Machine

/-! Asking the Admission Controller: the Start that joins, amounts replaced, raises, and the order of the queue. The statement
O50. -/

namespace Sys2Proof.Machine

variable {s t w : State} {b : BayId} {hold : Nat} {clipped : Bool}

/-! ## A Start that joins (R6, R8, R38, R133) -/

theorem startOk_iff (s : State) (b : BayId) : s.startOk b = true
    ↔ s.shelf.state = .run ∧ (s.intentOf b).target = .on ∧ (s.bay b).inputs.presConfirmed = true
      ∧ ((s.intentOf b).latchSensed = false ∨ (s.bay b).inputs.latchConfirmed = true)
      ∧ (s.bay b).inputs.fltLevel = false ∧ (s.bay b).ctx.troubleHold = false
      ∧ (((s.bay b).link.linkState = .bound ∧ (s.bay b).ctx.demand.isSome = true) ∨ (s.intentOf b).blind = true) := by
  simp only [State.startOk, ← intentOf_eq, Bool.and_eq_true, Bool.or_eq_true, beq_iff_eq, Bool.not_eq_true', and_assoc]

/-- The figures with which a Start asks: those of the known demand on a BOUND link, else the Cap. -/
def startsWith (s : State) (b : BayId) (figure : Nat) (clipped : Bool) (basis : Basis) : Prop :=
  ((s.bay b).link.linkState = .bound ∧ basis = .demand ∧ ∃ d, (s.bay b).ctx.demand = some d ∧ figure = d.ramp
      ∧ clipped = d.clipped)
    ∨ (((s.bay b).link.linkState ≠ .bound ∨ (s.bay b).ctx.demand = none) ∧ basis = .blind
      ∧ figure = (s.intentOf b).cap ∧ clipped = false)

variable {figure : Nat} {basis : Basis}

theorem chooseBasis_eq (starts : startsWith s b figure clipped basis) :
    chooseBasis b s = modBay b (fun y => { y with ctx := { y.ctx with basis := basis } }) s := by
  unfold chooseBasis
  rw [modCtx_eq]
  refine modBay_congr b _ _ s ?_
  rcases starts with ⟨bound, rfl, d, demand, -, -⟩ | ⟨apart, rfl, -, -⟩
  · rw [if_pos ⟨bound, by rw [demand]; rfl⟩]
  · rw [if_neg]
    rintro ⟨bound, known⟩
    rcases apart with apart | unknown
    · exact apart bound
    · rw [unknown] at known
      exact Bool.noConfusion known

theorem start_figures (starts : startsWith s b figure clipped basis) :
    rampFigure ((chooseBasis b s).bay b).ctx = figure ∧ startClipped ((chooseBasis b s).bay b).ctx = clipped := by
  rw [chooseBasis_eq starts, modBay_bay_self]
  rcases starts with ⟨-, rfl, d, demand, rfl, rfl⟩ | ⟨-, rfl, rfl, rfl⟩
  · simp [rampFigure, startClipped, demand]
  · exact ⟨rfl, rfl⟩

theorem reconcileOff_refused (off : s.stateOf b = .off) (ok : s.startOk b = true)
    (starts : startsWith s b figure clipped basis) (budget : s.pool.effectiveBudget < figure) :
    reconcileOff b s = submitAll [.admission b .start .refused figure 0 clipped s.pool.committed]
      (modBay b (fun y => { y with ctx := { y.ctx with basis := basis } }) s) := by
  obtain ⟨ramp, cut⟩ := start_figures starts
  have pool : (chooseBasis b s).pool = s.pool := rfl
  rw [reconcileOff_start off ok]
  unfold joinStart submitAdmit
  rw [ramp, cut, pool, if_pos budget, chooseBasis_eq starts]
  rfl

theorem noteQuiesce_none {new : BayState} {reason : StateReason} (outcome : quiesceOutcomeOf new reason = none) :
    noteQuiesce b new reason s = s := by
  unfold noteQuiesce
  rw [outcome]
  exact ite_self s

/-- The move from OFF to QUEUED, in which the locked group is rewritten in the window (R133). -/
theorem changeState_queued (off : s.stateOf b = .off) (moved : t = submitAll [.state b .off .queued .commit false]
      (modBay b (Bay.inState .queued 0) s)) :
    changeState b .queued .commit false 0 s
      = setWindow (Memory.writeBytes t.window (intentAddr b 4) (s.intentOf b).lockedBytes) t := by
  have record : modCtx b (fun c => { c with
      state := .queued, phaseTimer := ms 0, pending := pendingAfter c.state .queued c.pending })
      (submit (.state b .off .queued .commit false) s) = t := by
    rw [modCtx_eq, moved, submitAll_modBay]
    refine modBay_congr b _ _ _ ?_
    rw [submit_bay, ← stateOf_eq, off]
    rfl
  have intent : t.intentOf b = s.intentOf b := by
    rw [moved, intentOf_eq, submitAll_bay, modBay_bay_self]
    rfl
  unfold changeState
  rw [off, record, noteQuiesce_none rfl, ← intent]
  rfl

theorem reconcileOff_joins (off : s.stateOf b = .off) (ok : s.startOk b = true)
    (starts : startsWith s b figure clipped basis) (budget : figure ≤ s.pool.effectiveBudget) :
    ∃ (q : List QueueEntry) (t : State),
      q = queueInsert ⟨b, .start, figure, (s.intentOf b).priority, s.pool.arrivalCounter, clipped⟩ s.queue
      ∧ t = submitAll [.state b .off .queued .commit false]
        (modBay b (fun y => { y with ctx := { y.ctx with state := .queued, phaseTimer := 0, basis := basis } }) s)
      ∧ reconcileOff b s = placeEntry b (.wait (queuePosition q b))
        (submitAll [.admission b .start .queued figure (queuePosition q b) clipped s.pool.committed]
          (modPool (fun p => { p with arrivalCounter := p.arrivalCounter + 1 }) (setQueue q
            (setWindow (Memory.writeBytes t.window (intentAddr b 4) (s.intentOf b).lockedBytes) t)))) := by
  refine ⟨_, _, rfl, rfl, ?_⟩
  obtain ⟨ramp, cut⟩ := start_figures starts
  have chosen := chooseBasis_eq starts
  have now : (chooseBasis b s).stateOf b = .off := by rw [chosen, stateOf_modBay_kept rfl, off]
  have intent : (chooseBasis b s).intentOf b = s.intentOf b := by rw [chosen, intentOf_modBay_kept rfl]
  have joined : modBay b (Bay.inState .queued 0) (chooseBasis b s) = modBay b (fun y => { y with
      ctx := { y.ctx with state := .queued, phaseTimer := 0, basis := basis } }) s := by
    rw [chosen, modBay_modBay]
    rfl
  have pool : (chooseBasis b s).pool = s.pool := rfl
  rw [reconcileOff_start off ok]
  unfold joinStart announceQueued joinQueue submitAdmit
  rw [ramp, cut, pool, if_neg (Nat.not_lt.mpr budget), changeState_queued now rfl, intent, joined]
  generalize moved : submitAll [Record.state b .off .queued .commit false] (modBay b (fun y => { y with
      ctx := { y.ctx with state := .queued, phaseTimer := 0, basis := basis } }) s) = t
  have queue : t.queue = s.queue := by rw [← moved, submitAll_queue]; rfl
  have poolThen : t.pool = s.pool := by rw [← moved, submitAll_pool]; rfl
  have intentThen : t.intentOf b = s.intentOf b := by
    rw [← moved, intentOf_eq, submitAll_bay, modBay_bay_self]
    rfl
  rw [← queue, ← poolThen, ← intentThen]
  rfl

/-! ## A Start's amount replaced (R40) -/

theorem replaceStart_eq (amount : Nat) (budget : amount ≤ s.pool.effectiveBudget) :
    replaceStart b amount clipped s = announceQueued b .start amount clipped
      (setQueue (queueReplace b amount clipped s.queue) s) := if_neg (Nat.not_lt.mpr budget)

theorem queuePosition_replace (amount : Nat) (q : List QueueEntry) :
    queuePosition (queueReplace b amount clipped q) b = queuePosition q b := by
  induction q with
  | nil => rfl
  | cons e q ih =>
    have bay : (if e.bay == b then { e with amount := amount, clipped := clipped } else e).bay = e.bay := by
      split <;> rfl
    unfold queuePosition
    rw [show queueReplace b amount clipped (e :: q)
      = (if e.bay == b then { e with amount := amount, clipped := clipped } else e) :: queueReplace b amount clipped q
      from rfl]
    dsimp only
    rw [bay, ih]

theorem replaceStart_refused (amount : Nat) (state : s.stateOf b = .queued) (budget : s.pool.effectiveBudget < amount) :
    replaceStart b amount clipped s = submitAll (s.leaving b .refused ++ [.state b .queued .off .shed false])
      (setQueue (queueWithout s.queue b) (modBay b (Bay.inState .off 0) s)) := by
  unfold replaceStart
  rw [if_pos budget, leaveQueue_then_off state rfl, submitAll_setQueue]

/-! ## Raises (R40, R49) -/

theorem requestRaise_refused (above : (s.bay b).charge < hold) (budget : s.pool.effectiveBudget < hold) :
    requestRaise b hold clipped s = placeEntry b (.grant (s.bay b).charge (s.bay b).charge)
      (setQueue (queueWithout s.queue b) (submitAll
        (if (queueEntryOf s.queue b).isSome then s.leaving b .refused
          else [.admission b .raise .refused (hold - (s.bay b).charge) 0 clipped s.pool.committed]) s)) := by
  unfold requestRaise grantCharge
  rw [if_pos (by omega)]
  cases entry : queueEntryOf s.queue b with
  | some e =>
    rw [Option.isSome_some, if_pos rfl, if_pos rfl, leaveQueue_eq,
      setQueue_bay, submitAll_bay]
  | none =>
    have queue : (submitAll [.admission b .raise .refused (hold - (s.bay b).charge) 0 clipped s.pool.committed] s).queue
        = s.queue := submitAll_queue _ _
    rw [Option.isSome_none, if_neg Bool.false_ne_true, if_neg Bool.false_ne_true, queueWithout_of_none _ _ entry, ← queue,
      setQueue_self, submitAdmit, submit_bay]
    rfl

theorem requestRaise_replaces (above : (s.bay b).charge < hold) (budget : hold ≤ s.pool.effectiveBudget)
    (entry : (queueEntryOf s.queue b).isSome = true) :
    requestRaise b hold clipped s = announceQueued b .raise (hold - (s.bay b).charge) clipped
      (setQueue (queueReplace b (hold - (s.bay b).charge) clipped s.queue) s) := by
  unfold requestRaise
  rw [if_neg (by omega), if_pos entry]

theorem requestRaise_joins (above : (s.bay b).charge < hold) (budget : hold ≤ s.pool.effectiveBudget)
    (entry : queueEntryOf s.queue b = none) :
    requestRaise b hold clipped s = announceQueued b .raise (hold - (s.bay b).charge) clipped
      (joinQueue b .raise (hold - (s.bay b).charge) clipped s) := by
  unfold requestRaise
  rw [if_neg (by omega), entry, Option.isSome_none, if_neg Bool.false_ne_true]

theorem announceQueued_eq (kind : EntryKind) (amount : Nat) (s : State) : announceQueued b kind amount clipped s
    = placeEntry b (.wait (queuePosition s.queue b))
      (submitAll [.admission b kind .queued amount (queuePosition s.queue b) clipped s.pool.committed] s) := rfl

theorem placeEntry_pool (e : TxEntry) (s : State) : (placeEntry b e s).pool = s.pool := by
  rw [placeEntry_eq_ite]
  split <;> rfl

theorem placeEntry_queue (e : TxEntry) (s : State) : (placeEntry b e s).queue = s.queue := by
  rw [placeEntry_eq_ite]
  split <;> rfl

theorem placeEntry_bay_charge (e : TxEntry) (s : State) : ((placeEntry b e s).bay b).charge = (s.bay b).charge := by
  rw [placeEntry_eq_ite]
  split
  · rw [modBay_bay_self]
  · rfl

/-- A raise that is asked for leaves the charge, and of the pool all but the ArrivalCounter. -/
theorem requestRaise_power (above : (s.bay b).charge < hold) (budget : hold ≤ s.pool.effectiveBudget) :
    (requestRaise b hold clipped s).pool.committed = s.pool.committed
      ∧ (requestRaise b hold clipped s).pool.effectiveBudget = s.pool.effectiveBudget
      ∧ ((requestRaise b hold clipped s).bay b).charge = (s.bay b).charge := by
  cases entry : queueEntryOf s.queue b with
  | some e =>
    rw [requestRaise_replaces above budget (by rw [entry]; rfl), announceQueued_eq, placeEntry_pool, placeEntry_bay_charge,
      submitAll_pool, submitAll_bay]
    exact ⟨rfl, rfl, rfl⟩
  | none =>
    rw [requestRaise_joins above budget entry, announceQueued_eq, placeEntry_pool, placeEntry_bay_charge, submitAll_pool,
      submitAll_bay]
    exact ⟨rfl, rfl, rfl⟩

theorem requestRaise_refused_queue (above : (s.bay b).charge < hold) (budget : s.pool.effectiveBudget < hold) :
    queueEntryOf (requestRaise b hold clipped s).queue b = none := by
  rw [requestRaise_refused above budget, placeEntry_queue]
  exact queueEntryOf_without s.queue b

theorem admitAtOnce_none (entry : queueEntryOf s.queue b = none) : admitAtOnce b s = s := by
  unfold admitAtOnce
  rw [entry]

/-- A Raise admitted in the event that made it (R45). -/
theorem admitRaise_eq (e : QueueEntry) (s : State) : admitRaise e s
    = placeEntry e.bay (.grant ((s.bay e.bay).charge + e.amount) ((s.bay e.bay).charge + e.amount))
      (submitAll [.admission e.bay .raise .admitted e.amount 1 e.clipped (s.pool.committed + e.amount)]
        (setCharge e.bay ((s.bay e.bay).charge + e.amount) (setQueue (queueWithout s.queue e.bay) s))) := by
  have committed : (setCharge e.bay ((s.bay e.bay).charge + e.amount) (setQueue (queueWithout s.queue e.bay) s)).pool.committed
      = s.pool.committed + e.amount := by
    show s.pool.committed + ((s.bay e.bay).charge + e.amount) - (s.bay e.bay).charge = _
    omega
  unfold admitRaise grantCharge submitAdmit
  rw [committed, submit_bay, setCharge_bay_self]
  rfl

theorem takeRaise_admits (above : (s.bay b).charge < hold) (settled : (s.bay b).settledAbove hold = true)
    (budget : hold ≤ s.pool.effectiveBudget)
    (fits : s.pool.committed + (hold - (s.bay b).charge) ≤ s.pool.effectiveBudget)
    (asked : w = requestRaise b hold clipped s) :
    takeRaise b hold clipped s = placeEntry b (.grant hold hold) (submitAll
      [.admission b .raise .admitted (hold - (s.bay b).charge) 1 clipped (s.pool.committed + (hold - (s.bay b).charge))]
      (setCharge b hold (setQueue (queueWithout w.queue b) w))) := by
  obtain ⟨e, bay, amount, cut, taken⟩ := takeRaise_together hold clipped settled above budget
  obtain ⟨committed, effective, charge⟩ := requestRaise_power (clipped := clipped) above budget
  rw [taken, ← asked]
  rw [← asked] at committed effective charge
  have sum : (w.bay b).charge + (hold - (s.bay b).charge) = hold := by omega
  rw [committed, effective, if_pos fits, admitRaise_eq, bay, amount, cut, committed, sum]

theorem takeRaise_waits (above : (s.bay b).charge < hold)
    (waits : (∀ r, (s.bay b).settledFrom = some r → r < hold) ∨ s.pool.effectiveBudget < hold
      ∨ s.pool.effectiveBudget < s.pool.committed + (hold - (s.bay b).charge)) :
    takeRaise b hold clipped s = requestRaise b hold clipped s := by
  by_cases settled : (s.bay b).settledAbove hold = true
  · by_cases budget : s.pool.effectiveBudget < hold
    · unfold takeRaise
      rw [if_pos settled, admitAtOnce_none (requestRaise_refused_queue above budget)]
    · obtain ⟨r, from_, within⟩ := settledAbove_iff.mp settled
      have full : s.pool.effectiveBudget < s.pool.committed + (hold - (s.bay b).charge) := by
        rcases waits with apart | short | full
        · exact absurd (apart r from_) (Nat.not_lt.mpr within)
        · exact absurd short budget
        · exact full
      obtain ⟨e, -, -, -, taken⟩ := takeRaise_together hold clipped settled above (Nat.not_lt.mp budget)
      obtain ⟨committed, effective, -⟩ := requestRaise_power (clipped := clipped) above (Nat.not_lt.mp budget)
      rw [taken, committed, effective, if_neg (Nat.not_le.mpr full)]
  · exact takeRaise_apart hold clipped (Bool.eq_false_of_not_eq_true settled)

/-! ## The order of the queue (R36) -/

theorem stampEarlier_iff (x y : BitVec 32) (b c : BayId) : stampEarlier x b y c = true
    ↔ (1 ≤ (y - x).toNat ∧ (y - x).toNat < 2147483648)
      ∨ ((y - x = 0 ∨ (y - x).toNat = 2147483648) ∧ b.val < c.val) := by
  have zero : y - x = 0 ↔ (y - x).toNat = 0 := by
    rw [← BitVec.toNat_inj]
    rfl
  unfold stampEarlier
  rw [zero]
  generalize (y - x).toNat = d
  simp only [Bool.or_eq_true, beq_iff_eq]
  split <;> simp only [decide_eq_true_eq] <;> omega

theorem queuePosition_absent (q : List QueueEntry) (absent : ∀ x ∈ q, x.bay ≠ b) : queuePosition q b = 0 := by
  induction q with
  | nil => rfl
  | cons e q ih =>
    obtain ⟨head, rest⟩ := List.forall_mem_cons.mp absent
    unfold queuePosition
    rw [ih rest, if_neg (by simpa using head)]

theorem queuePosition_behind (l r : List QueueEntry) (e : QueueEntry) (ahead : ∀ x ∈ l, x.bay ≠ e.bay) :
    queuePosition (l ++ e :: r) e.bay = l.length + 1 := by
  induction l with
  | nil => simp [queuePosition]
  | cons x l ih =>
    obtain ⟨head, rest⟩ := List.forall_mem_cons.mp ahead
    rw [List.cons_append]
    unfold queuePosition
    rw [ih rest, if_neg (by simpa using head)]
    rfl

theorem queueEntryOf_eq_head (q : List QueueEntry) (b : BayId) :
    queueEntryOf q b = (q.filter (fun e => e.bay = b)).head? := by
  rw [queueEntryOf_eq]
  rfl

theorem queueWithout_eq (q : List QueueEntry) (b : BayId) : queueWithout q b = q.filter (fun e => e.bay ≠ b) := by
  unfold queueWithout
  refine List.filter_congr fun e _ => ?_
  rw [bne, decide_not]
  rfl

theorem queueReplace_eq (q : List QueueEntry) (b : BayId) (amount : Nat) (clipped : Bool) : queueReplace b amount clipped q
    = q.map (fun e => if e.bay = b then { e with amount := amount, clipped := clipped } else e) := by
  unfold queueReplace
  refine List.map_congr_left fun e _ => ?_
  simp only [beq_iff_eq]

/-- Settles O50: Starts, replacements and raises, and the queue they join. -/
theorem requestsToTheQueue : Obligations.RequestsToTheQueue := by
  refine fun s b => ⟨startOk_iff s b, fun off ok figure clipped basis starts => ?_, reconcileOff_of_not,
    fun amount clipped state => ⟨fun budget => ?_, replaceStart_refused amount state⟩,
    fun hold clipped above => ⟨requestRaise_refused above, fun budget entry => ?_, fun q budget entry joined => ?_,
      fun ⟨r, from_, within⟩ budget fits w asked => ?_, takeRaise_waits above⟩,
    fun e q ordered recent => queueInsert_eq e q ordered recent, fun x y c => stampEarlier_iff x y b c,
    fun l r e ahead => queuePosition_behind l r e ahead, queuePosition_absent,
    fun q => ⟨queueEntryOf_eq_head q b, queueWithout_eq q b, queueReplace_eq q b⟩⟩
  · exact ⟨reconcileOff_refused off ok starts, reconcileOff_joins off ok starts⟩
  · rw [replaceStart_eq amount budget, announceQueued_eq, setQueue_queue, queuePosition_replace]
    rfl
  · rw [requestRaise_replaces above budget entry, announceQueued_eq, setQueue_queue, queuePosition_replace]
    rfl
  · rw [requestRaise_joins above budget entry, announceQueued_eq, joined]
    rfl
  · exact takeRaise_admits above (settledAbove_iff.mpr ⟨r, from_, within⟩) budget fits asked

end Sys2Proof.Machine

/-! A DEMAND by bay state, and the head of the queue. The statements O49 and O55. -/

namespace Sys2Proof.Machine

variable {s u : State} {b : BayId} {seq : Sequence} {payload : List Byte} {d : Demand}

/-! ## DEMAND (R110, R111) -/

theorem onDemand_ignored (state : s.stateOf b ∈ [.empty, .rest, .drain, .cutoff, .faulted]) : onDemand b d s = s := by
  simp only [List.mem_cons, List.not_mem_nil, or_false] at state
  unfold onDemand
  rcases state with now | now | now | now | now <;> rw [now]

theorem onDemand_off (state : s.stateOf b = .off) : onDemand b d s = reconcileOff b s := by
  unfold onDemand
  rw [state]

theorem onDemand_queued (state : s.stateOf b = .queued) : onDemand b d s = replaceStart b d.ramp d.clipped
    (modBay b (fun y => { y with ctx := { y.ctx with basis := .demand } }) s) := by
  unfold onDemand
  rw [state]
  rfl

theorem onDemand_rising (state : s.stateOf b ∈ [.ramp, .settle]) : onDemand b d s = modBay b (Bay.withPending true) s := by
  simp only [List.mem_cons, List.not_mem_nil, or_false] at state
  unfold onDemand
  rcases state with now | now <;> rw [now] <;> rfl

theorem onDemand_raises (state : s.stateOf b = .on) (above : (s.bay b).charge < d.hold) :
    onDemand b d s = takeRaise b d.hold d.clipped s := by
  unfold onDemand
  rw [state]
  exact if_pos above

theorem onDemand_lowers (state : s.stateOf b = .on) (within : d.hold ≤ (s.bay b).charge) :
    onDemand b d s = takeLower b d.hold s := by
  unfold onDemand
  rw [state]
  exact if_neg (Nat.not_lt.mpr within)

theorem grantCharge_eq (bound : (s.bay b).link.linkState = .bound) :
    grantCharge b s = modBay b (fun y => { y with
      link := { y.link with txList := txPlace (.grant (s.bay b).charge (s.bay b).charge) y.link.txList } }) s := by
  rw [grantCharge, placeEntry_eq_ite, if_pos (.inl bound)]

theorem takeLower_eq (hold : Nat) (bound : (s.bay b).link.linkState = .bound) :
    takeLower b hold s = modBay b (fun y => { y with
        link := { y.link with txList := txPlace (.grant hold hold) y.link.txList } })
      (setCharge b hold (setQueue (queueWithout s.queue b) (submitAll (s.leaving b .withdrawn) s))) := by
  rw [takeLower, leaveQueue_eq]
  have bay : (setCharge b hold (setQueue (queueWithout s.queue b) (submitAll (s.leaving b .withdrawn) s))).bay b
      = { s.bay b with charge := hold } := by
    rw [setCharge_bay_self, setQueue_bay, submitAll_bay]
  rw [grantCharge_eq (by rw [bay]; exact bound), bay]

theorem deliverDemand_malformed (h : payload.length ≠ 4) : deliverDemand b payload s = countMalformed b s := if_neg h

/-- The demand of four payload bytes, normalised against a Cap. -/
def demandOf (cap : Nat) (b0 b1 b2 b3 : Byte) : Demand :=
  ⟨min cap (max (b0.toNat + 256 * b1.toNat) (b2.toNat + 256 * b3.toNat)), min cap (b2.toNat + 256 * b3.toNat),
    decide (cap < b0.toNat + 256 * b1.toNat) || decide (cap < b2.toNat + 256 * b3.toNat)⟩

/-- A DEMAND of four bytes, stored and acted on. -/
theorem deliverDemand_heard (b0 b1 b2 b3 : Byte) (s : State) :
    deliverDemand b [b0, b1, b2, b3] (modBay b (Bay.heard 2 seq payload) s)
      = onDemand b (demandOf (s.intentOf b).cap b0 b1 b2 b3) (modBay b (fun y => { y.heard 2 seq payload with
        ctx := { y.ctx with demand := some (demandOf (s.intentOf b).cap b0 b1 b2 b3) } }) s) := by
  have stored : storeDemand b (demandOf (s.intentOf b).cap b0 b1 b2 b3) (modBay b (Bay.heard 2 seq payload) s)
      = modBay b (fun y => { y.heard 2 seq payload with
        ctx := { y.ctx with demand := some (demandOf (s.intentOf b).cap b0 b1 b2 b3) } }) s := by
    rw [storeDemand, modCtx_eq, modBay_modBay]
    rfl
  rw [← stored, ← intentOf_heard (s := s) (b := b) (seq := seq) (payload := payload) 2]
  rfl

/-- Settles O49: a DEMAND of another length, and one by bay state. -/
theorem demand : Obligations.Demand := by
  intro s b seq payload hears new bound
  obtain ⟨delivered, -, -, -⟩ := exec_message payload hears new bound
  rw [delivered]
  refine ⟨fun malformed => ?_, ?_⟩
  · rw [deliverDemand_malformed malformed, countMalformed_heard]
  · rintro b0 b1 b2 b3 ramp hold u rfl rfl rfl given
    have stored : u = modBay b (fun y => { y.heard 2 seq [b0, b1, b2, b3] with
        ctx := { y.ctx with demand := some (demandOf (s.intentOf b).cap b0 b1 b2 b3) } }) s := given
    have now : u.stateOf b = s.stateOf b := by rw [stored, stateOf_modBay_kept rfl]
    have charge : (u.bay b).charge = (s.bay b).charge := by rw [stored, modBay_bay_self]; rfl
    have link : (u.bay b).link.linkState = .bound := by rw [stored, modBay_bay_self]; exact bound
    have known : (u.bay b).ctx.demand = some (demandOf (s.intentOf b).cap b0 b1 b2 b3) := by
      rw [stored, modBay_bay_self]
    rw [deliverDemand_heard, ← stored, known]
    refine ⟨fun state => ?_, fun state => ?_, ?_, fun state => ?_, ?_, fun state within => ?_⟩
    · rw [onDemand_ignored (by rwa [now])]
    · rw [onDemand_off (by rw [now, state])]
    · rintro _ ⟨⟩ state
      rw [onDemand_queued (by rw [now, state])]
      rfl
    · rw [onDemand_rising (by rwa [now])]
    · rintro _ ⟨⟩ state above
      rw [onDemand_raises (by rw [now, state]) (by rw [charge]; exact above)]
      rfl
    · have queue : u.queue = s.queue := by rw [stored]; rfl
      have pool : u.pool = s.pool := by rw [stored]; rfl
      rw [onDemand_lowers (by rw [now, state]) (by rw [charge]; exact within), takeLower_eq _ link, queue,
        leaving_congr queue pool]
      rfl

end Sys2Proof.Machine

/-! The head of the queue: one admission of each kind, and the evaluation to its end. The statement O55. -/

namespace Sys2Proof.Machine

variable {r s t : State} {b : BayId} {e : QueueEntry} {q : List QueueEntry}

/-! ## How much evaluation a queue can take -/

/-- The admissions that an entry can lead to: a Start may be followed by the Raise of its bay (R47). -/
def EntryKind.weight : EntryKind → Nat
  | .start => 2
  | .raise => 1

/-- The admissions that a queue can lead to. -/
def queueWeight (q : List QueueEntry) : Nat := (q.map (fun e => e.kind.weight)).sum

theorem queueWeight_cons (e : QueueEntry) (q : List QueueEntry) :
    queueWeight (e :: q) = e.kind.weight + queueWeight q := List.sum_cons

theorem weight_le_two (k : EntryKind) : k.weight ≤ 2 := by
  cases k <;> decide

theorem weight_pos (k : EntryKind) : 1 ≤ k.weight := by
  cases k <;> decide

theorem queueWeight_le (q : List QueueEntry) : queueWeight q ≤ 2 * q.length := by
  induction q with
  | nil => exact Nat.zero_le _
  | cons e q ih =>
    have := weight_le_two e.kind
    rw [queueWeight_cons, List.length_cons]
    omega

theorem queueWeight_without (q : List QueueEntry) (b : BayId) : queueWeight (queueWithout q b) ≤ queueWeight q := by
  induction q with
  | nil => exact Nat.le_refl _
  | cons e q ih =>
    rw [queueWithout, List.filter_cons]
    split
    · rw [queueWeight_cons, queueWeight_cons]
      exact Nat.add_le_add_left ih _
    · rw [queueWeight_cons]
      exact ih.trans (Nat.le_add_left _ _)

/-- The bay's own entry weighs nothing in the queue without it. -/
theorem queueWeight_without_head (e : QueueEntry) (q : List QueueEntry) :
    queueWeight (queueWithout (e :: q) e.bay) + e.kind.weight ≤ queueWeight (e :: q) := by
  have own : queueWithout (e :: q) e.bay = queueWithout q e.bay := by
    unfold queueWithout
    rw [List.filter_cons, if_neg (by simp)]
  have := queueWeight_without q e.bay
  rw [own, queueWeight_cons]
  omega

theorem queueWeight_insert (e : QueueEntry) (q : List QueueEntry) :
    queueWeight (queueInsert e q) = queueWeight q + e.kind.weight := by
  induction q with
  | nil => exact Nat.add_comm _ _
  | cons x q ih =>
    unfold queueInsert
    split
    · rw [queueWeight_cons e]
      exact Nat.add_comm _ _
    · rw [queueWeight_cons, ih, queueWeight_cons]
      omega

theorem queueWeight_replace (b : BayId) (amount : Nat) (clipped : Bool) (q : List QueueEntry) :
    queueWeight (queueReplace b amount clipped q) = queueWeight q := by
  unfold queueWeight queueReplace
  rw [List.map_map]
  refine congrArg List.sum (List.map_congr_left fun e _ => ?_)
  dsimp only [Function.comp]
  split <;> rfl

/-! ## What the moves of a bay add to it -/

theorem weight_leaveQueue (o : AdmitOutcome) (s : State) : queueWeight (leaveQueue b o s).queue ≤ queueWeight s.queue := by
  rw [leaveQueue_eq]
  exact queueWeight_without s.queue b

theorem noteQuiesce_queue (new : BayState) (reason : StateReason) (s : State) : (noteQuiesce b new reason s).queue = s.queue := by
  unfold noteQuiesce
  split
  · split <;> rfl
  · rfl

theorem rewriteLocked_queue (old new : BayState) (s : State) : (rewriteLocked b old new s).queue = s.queue := by
  unfold rewriteLocked
  split <;> rfl

theorem weight_changeState (new : BayState) (reason : StateReason) (surprise : Bool) (n : Nat) (s : State) :
    queueWeight (changeState b new reason surprise n s).queue ≤ queueWeight s.queue := by
  unfold changeState leaveOn
  split
  · refine (weight_leaveQueue _ _).trans (Nat.le_of_eq ?_)
    rw [noteQuiesce_queue, rewriteLocked_queue, modCtx_eq, modBay_queue, submit_queue]
  · rw [noteQuiesce_queue, rewriteLocked_queue, modCtx_eq, modBay_queue, submit_queue]

theorem weight_enterFaulted (reason : StateReason) (s : State) :
    queueWeight (enterFaulted b reason s).queue ≤ queueWeight s.queue := by
  refine Nat.le_trans (Nat.le_of_eq ?_) (weight_changeState .faulted reason false 0 s (b := b))
  unfold enterFaulted releaseIfDown
  split <;> rfl

theorem Fixed.pgLevel {c : BayId} (h : Fixed s t) : (t.bay c).inputs.pgLevel = (s.bay c).inputs.pgLevel :=
  congrArg (fun y => y.inputs.pgLevel) (h c)

/-- A bay that is cut with PG active stays in CUTOFF or is stuck: it does not join the queue again. -/
theorem weight_enterCutoff (reason : StateReason) (power : (s.bay b).inputs.pgLevel = true) :
    queueWeight (enterCutoff b reason s).queue ≤ queueWeight s.queue := by
  have level : ((changeState b .cutoff reason false (s.intentOf b).dischargeWindow s).bay b).inputs.pgLevel = true := by
    rw [((Fixed.refl s).changeState _ _ _ _).pgLevel, power]
  unfold enterCutoff cutoffNext
  rw [level, if_neg Bool.noConfusion]
  split
  · exact (weight_enterFaulted _ _).trans (weight_changeState _ _ _ _ _)
  · exact weight_changeState _ _ _ _ _

theorem weight_enterDrain (reason : DrainReason) (power : (s.bay b).inputs.pgLevel = true) :
    queueWeight (enterDrain b reason s).queue ≤ queueWeight s.queue := by
  have drained := (Fixed.refl s).changeState (b := b) .drain reason.toState false ((s.intentOf b).drainWait * 10)
  have level := drained.pgLevel (c := b)
  unfold enterDrain
  refine Nat.le_trans ?_ (weight_changeState (b := b) .drain reason.toState false ((s.intentOf b).drainWait * 10) s)
  generalize changeState b .drain reason.toState false ((s.intentOf b).drainWait * 10) s = d at drained level
  rw [power] at level
  unfold drainNext
  split
  · split
    · refine (weight_enterCutoff _ ?_).trans (Nat.le_of_eq (congrArg queueWeight (placeEntry_queue _ _)))
      rw [((Fixed.refl d).placeEntry _).pgLevel, level]
    · rw [placeEntry_queue]
  · exact weight_enterCutoff _ level

theorem weight_requestRaise (hold : Nat) (clipped : Bool) (s : State) :
    queueWeight (requestRaise b hold clipped s).queue ≤ queueWeight s.queue + 1 := by
  unfold requestRaise grantCharge announceQueued submitAdmit
  split
  · rw [placeEntry_queue]
    split
    · exact (weight_leaveQueue _ _).trans (Nat.le_succ _)
    · rw [submit_queue]
      exact Nat.le_succ _
  · rw [placeEntry_queue, submit_queue]
    split
    · exact (Nat.le_of_eq (queueWeight_replace _ _ _ _)).trans (Nat.le_succ _)
    · exact Nat.le_of_eq (queueWeight_insert _ _)

theorem weight_settleCharge (s : State) : queueWeight (settleCharge b s).queue ≤ queueWeight s.queue + 1 := by
  unfold settleCharge
  split
  · unfold resolvePending grantCharge
    split
    · exact Nat.le_succ _
    · split
      · rw [placeEntry_queue]
        exact Nat.le_succ _
      · exact weight_requestRaise _ _ _
  · exact Nat.le_succ _

theorem weight_reconcileOn (power : (s.bay b).inputs.pgLevel = true) :
    queueWeight (reconcileOn b s).queue ≤ queueWeight s.queue := by
  unfold reconcileOn
  split
  · exact weight_enterDrain _ power
  · exact Nat.le_refl _

/-- Entry into ON adds at most the Raise of the bay. -/
theorem weight_enterOn (power : (s.bay b).inputs.pgLevel = true) :
    queueWeight (enterOn b s).queue ≤ queueWeight s.queue + 1 := by
  have level : ((clearPending b (settleCharge b (keepSettled b (changeState b .on .settled false 0 s)))).bay b).inputs.pgLevel
      = true := by
    have kept : Fixed s (keepSettled b (changeState b .on .settled false 0 s)) := by
      refine Fixed.modBay ((Fixed.refl s).changeState _ _ _ _) ?_
      exact fun _ => rfl
    rw [kept.settleCharge.clearPending.pgLevel, power]
  have changed := weight_changeState (b := b) .on .settled false 0 s
  have charged := weight_settleCharge (b := b) (keepSettled b (changeState b .on .settled false 0 s))
  exact (weight_reconcileOn level).trans (charged.trans (Nat.add_le_add_right changed 1))

theorem weight_enterSettle (power : (s.bay b).inputs.pgLevel = true) :
    queueWeight (enterSettle b s).queue ≤ queueWeight s.queue + 1 := by
  have level : ((changeState b .settle .powerGood false (s.intentOf b).settleDelay s).bay b).inputs.pgLevel = true := by
    rw [((Fixed.refl s).changeState _ _ _ _).pgLevel, power]
  have changed := weight_changeState (b := b) .settle .powerGood false (s.intentOf b).settleDelay s
  unfold enterSettle settleNext
  split
  · exact (weight_enterOn level).trans (Nat.add_le_add_right changed 1)
  · exact changed.trans (Nat.le_succ _)

theorem weight_rampNext (s : State) : queueWeight (rampNext b s).queue ≤ queueWeight s.queue + 1 := by
  unfold rampNext
  split
  · next power => exact weight_enterSettle power
  · split
    · exact (weight_enterFaulted _ _).trans (Nat.le_succ _)
    · exact Nat.le_succ _

theorem weight_enterRamp (amount : Nat) (s : State) : queueWeight (enterRamp b amount s).queue ≤ queueWeight s.queue + 1 := by
  refine (weight_rampNext _).trans (Nat.add_le_add_right ?_ 1)
  rw [placeEntry_queue]
  exact weight_changeState _ _ _ _ _

/-- An admission leaves less to admit. -/
theorem weight_admitEntry (queue : s.queue = e :: q) : queueWeight (admitEntry e s).queue + 1 ≤ queueWeight s.queue := by
  have without := queueWeight_without_head e q
  rw [← queue] at without
  unfold admitEntry
  cases kind : e.kind with
  | start =>
    have ramped := weight_enterRamp (b := e.bay) e.amount (submitAdmit e.bay .start .admitted e.amount 1 e.clipped
      (advanceCounter (grantStamp e.bay s.pool.arrivalCounter
        (setCharge e.bay e.amount (setQueue (queueWithout s.queue e.bay) s)))))
    rw [submitAdmit, submit_queue] at ramped
    rw [kind] at without
    exact (Nat.add_le_add_right ramped 1).trans without
  | raise =>
    rw [kind] at without
    refine Nat.le_trans (Nat.add_le_add_right (Nat.le_of_eq ?_) 1) without
    show queueWeight (admitRaise e s).queue = _
    rw [admitRaise_eq, placeEntry_queue, submitAll_queue]
    rfl

/-! ## The evaluation to its end (R43) -/

theorem headThatFits_cons (h : headThatFits s = some e) : ∃ q, s.queue = e :: q := by
  unfold headThatFits at h
  cases queue : s.queue with
  | nil => rw [queue] at h; exact nomatch h
  | cons x q =>
    rw [queue] at h
    dsimp only at h
    split at h
    · exact ⟨q, by rw [Option.some.inj h]⟩
    · exact nomatch h

theorem evaluateLoop_none (n : Nat) (h : headThatFits s = none) : evaluateLoop n s = s := by
  cases n with
  | zero => rfl
  | succ n =>
    unfold evaluateLoop
    rw [h]

theorem evaluateLoop_some (n : Nat) (h : headThatFits s = some e) :
    evaluateLoop (n + 1) s = evaluateLoop n (admitEntry e s) := by
  rw [evaluateLoop, h]

/-- Enough evaluation ends with a head that does not fit. -/
theorem headThatFits_evaluateLoop {n : Nat} (enough : queueWeight s.queue ≤ n) : headThatFits (evaluateLoop n s) = none := by
  induction n generalizing s with
  | zero =>
    cases head : headThatFits s with
    | none => exact head
    | some e =>
      obtain ⟨q, queue⟩ := headThatFits_cons head
      have := weight_pos e.kind
      rw [queue, queueWeight_cons] at enough
      omega
  | succ n ih =>
    cases head : headThatFits s with
    | none =>
      rw [evaluateLoop_none _ head]
      exact head
    | some e =>
      obtain ⟨q, queue⟩ := headThatFits_cons head
      rw [evaluateLoop_some n head]
      have := weight_admitEntry queue
      exact ih (by omega)

/-- More evaluation than enough changes nothing. -/
theorem evaluateLoop_enough {n m : Nat} (left : queueWeight s.queue ≤ n) (right : queueWeight s.queue ≤ m) :
    evaluateLoop n s = evaluateLoop m s := by
  induction n generalizing s m with
  | zero =>
    have ended : headThatFits s = none := headThatFits_evaluateLoop left
    rw [evaluateLoop_none 0 ended, evaluateLoop_none m ended]
  | succ n ih =>
    cases head : headThatFits s with
    | none => rw [evaluateLoop_none _ head, evaluateLoop_none _ head]
    | some e =>
      obtain ⟨q, queue⟩ := headThatFits_cons head
      have less := weight_admitEntry queue
      obtain ⟨m, rfl⟩ : ∃ k, m = k + 1 := ⟨m - 1, by omega⟩
      rw [evaluateLoop_some n head, evaluateLoop_some m head]
      exact ih (by omega) (by omega)

theorem evaluateHead_eq (s : State) : evaluateHead s = evaluateLoop (2 * s.queue.length) s := rfl

theorem evaluateHead_none (h : headThatFits s = none) : evaluateHead s = s := evaluateLoop_none _ h

theorem headThatFits_evaluateHead (s : State) : headThatFits (evaluateHead s) = none :=
  headThatFits_evaluateLoop (queueWeight_le s.queue)

theorem evaluateHead_some (h : headThatFits s = some e) : evaluateHead s = evaluateHead (admitEntry e s) := by
  obtain ⟨q, queue⟩ := headThatFits_cons h
  have less := weight_admitEntry queue
  have bound := queueWeight_le s.queue
  obtain ⟨n, count⟩ : ∃ n, 2 * s.queue.length = n + 1 := ⟨2 * s.queue.length - 1, by omega⟩
  rw [evaluateHead_eq, count, evaluateLoop_some n h, evaluateHead_eq]
  exact evaluateLoop_enough (by omega) (queueWeight_le _)

theorem headThatFits_iff (queue : s.queue = e :: q) : headThatFits s = some e
    ↔ s.shelf.state = .run ∧ s.pool.committed + e.amount ≤ s.pool.effectiveBudget := by
  unfold headThatFits
  rw [queue]
  dsimp only
  split <;> simp_all

theorem quiesceTest_none (h : ¬(s.shelf.state = .quiescing ∧ s.allComplete = true)) : quiesceTest s = s := if_neg h

theorem finish_undisturbed (h : s.Undisturbed) : finish s = s := by
  obtain ⟨head, quiesce⟩ := h
  rw [finish, evaluateHead_none head, quiesceTest_none quiesce]

/-! ## A Start at the head (R10, R44) -/

/-- A bay whose Start is admitted, its charge not yet set. -/
def Bay.admitted (hold timer : Nat) (stamp : BitVec 32) (y : Bay) : Bay := { y with
  grantedHold := hold
  ctx := { y.ctx with state := .ramp, phaseTimer := timer, admissionStamp := stamp }
  inputs := { y.inputs with fltTicks := 0, fltLevel := false } }

/-- The state in which a Start has been admitted, its bay in RAMP. -/
def State.admittedStart (s : State) (e : QueueEntry) (hold : Nat) : State :=
  placeEntry e.bay (.grant e.amount hold)
    (submitAll [.admission e.bay .start .admitted e.amount 1 e.clipped (s.pool.committed + e.amount),
        .state e.bay .queued .ramp .admitted false]
      (modPool (fun p => { p with arrivalCounter := p.arrivalCounter + 1 }) (setCharge e.bay e.amount
        (setQueue (queueWithout s.queue e.bay)
          (modBay e.bay (Bay.admitted hold ((s.intentOf e.bay).rampWindow * 1000) s.pool.arrivalCounter) s)))))

/-- The state in which a Start has been admitted, its bay not yet in RAMP. -/
def State.granted (s : State) (e : QueueEntry) : State :=
  submitAdmit e.bay .start .admitted e.amount 1 e.clipped
    (advanceCounter (grantStamp e.bay s.pool.arrivalCounter
      (setCharge e.bay e.amount (setQueue (queueWithout s.queue e.bay) s))))

/-- What the grant makes of a bay, its charge not yet set. -/
def Bay.granted (stamp : BitVec 32) (y : Bay) : Bay :=
  { y with grantedHold := holdFigure y.ctx, ctx := { y.ctx with admissionStamp := stamp } }

theorem granted_eq (free : (s.bay e.bay).charge = 0) : s.granted e
    = submitAll [.admission e.bay .start .admitted e.amount 1 e.clipped (s.pool.committed + e.amount)]
      (modPool (fun p => { p with arrivalCounter := p.arrivalCounter + 1 }) (setCharge e.bay e.amount
        (setQueue (queueWithout s.queue e.bay) (modBay e.bay (Bay.granted s.pool.arrivalCounter) s)))) := by
  have charged : grantStamp e.bay s.pool.arrivalCounter (setCharge e.bay e.amount (setQueue (queueWithout s.queue e.bay) s))
      = setCharge e.bay e.amount (setQueue (queueWithout s.queue e.bay) (modBay e.bay (Bay.granted s.pool.arrivalCounter) s)) :=
    setCharge_modBay e.amount (Bay.granted s.pool.arrivalCounter) (fun _ => rfl) (fun _ => rfl)
  have before : ((setQueue (queueWithout s.queue e.bay) (modBay e.bay (Bay.granted s.pool.arrivalCounter) s)).bay
      e.bay).charge = 0 := by
    rw [setQueue_bay, modBay_bay_self]
    exact free
  have sum : (setCharge e.bay e.amount (setQueue (queueWithout s.queue e.bay)
      (modBay e.bay (Bay.granted s.pool.arrivalCounter) s))).pool.committed = s.pool.committed + e.amount := by
    show s.pool.committed + e.amount - _ = _
    rw [before, Nat.sub_zero]
  unfold State.granted submitAdmit
  rw [charged]
  refine congrArg (fun n => submit (.admission e.bay .start .admitted e.amount 1 e.clipped n) _) sum

theorem granted_bay : (s.granted e).bay e.bay = { (s.bay e.bay).granted s.pool.arrivalCounter with charge := e.amount } := by
  unfold State.granted submitAdmit grantStamp advanceCounter
  rw [submit_bay, modPool_bay, modBay_bay_self, setCharge_bay_self]
  rfl

/-- The move into RAMP, with the filter cleared and GRANT placed. -/
theorem ramp_granted {hold : Nat} (state : s.stateOf e.bay = .queued) (free : (s.bay e.bay).charge = 0)
    (figure : holdFigure (s.bay e.bay).ctx = hold) :
    clearFilter e.bay (changeState e.bay .ramp .admitted false ((s.granted e).intentOf e.bay).rampWindow (s.granted e))
      = submitAll [.admission e.bay .start .admitted e.amount 1 e.clipped (s.pool.committed + e.amount),
          .state e.bay .queued .ramp .admitted false]
        (modPool (fun p => { p with arrivalCounter := p.arrivalCounter + 1 }) (setCharge e.bay e.amount
          (setQueue (queueWithout s.queue e.bay)
            (modBay e.bay (Bay.admitted hold ((s.intentOf e.bay).rampWindow * 1000) s.pool.arrivalCounter) s)))) := by
  have now : (s.granted e).stateOf e.bay = .queued := by rw [stateOf_eq, granted_bay]; exact state
  have intent : (s.granted e).intentOf e.bay = s.intentOf e.bay := by rw [intentOf_eq, granted_bay]; rfl
  have bay : modBay e.bay (Bay.admitted hold ((s.intentOf e.bay).rampWindow * 1000) s.pool.arrivalCounter) s
      = modBay e.bay (fun y => { ((y.granted s.pool.arrivalCounter).inState .ramp ((s.intentOf e.bay).rampWindow * 1000)) with
        inputs := { y.inputs with fltTicks := 0, fltLevel := false } }) s := by
    refine modBay_congr e.bay _ _ s ?_
    rw [← figure]
    rfl
  rw [changeState_inState_plain now (by decide) rfl rfl fun _ => rfl, clearFilter, modInputs_eq, ← submitAll_modBay,
    modBay_modBay, intent, granted_eq free, ← submitAll_modBay, ← submitAll_append, modBay_modPool, bay]
  refine congrArg (fun t => submitAll _ (modPool _ t)) ?_
  refine (setCharge_modBay e.amount _ ?_ ?_).trans ?_
  · exact fun _ => rfl
  · exact fun _ => rfl
  · rw [modBay_setQueue, modBay_modBay]
    rfl

theorem admitStart_eq {hold : Nat} (state : s.stateOf e.bay = .queued) (free : (s.bay e.bay).charge = 0)
    (figure : holdFigure (s.bay e.bay).ctx = hold) : admitStart e s = rampNext e.bay (s.admittedStart e hold) := by
  have granted : ((s.granted e).bay e.bay).grantedHold = hold := by
    rw [granted_bay]
    exact figure
  have ramped : admitStart e s = enterRamp e.bay e.amount (s.granted e) := rfl
  rw [ramped]
  unfold enterRamp
  rw [ramp_granted state free figure, granted]
  rfl

theorem admittedStart_bay (hold : Nat) :
    ((s.admittedStart e hold).bay e.bay).inputs.pgLevel = (s.bay e.bay).inputs.pgLevel
      ∧ ((s.admittedStart e hold).bay e.bay).ctx.phaseTimer = (s.intentOf e.bay).rampWindow * 1000
      ∧ ((s.admittedStart e hold).bay e.bay).ctx.state = .ramp
      ∧ ((s.admittedStart e hold).bay e.bay).ctx.intent = (s.bay e.bay).ctx.intent := by
  unfold State.admittedStart
  rw [placeEntry_eq_ite]
  split
  · rw [modBay_bay_self, submitAll_bay, modPool_bay, setCharge_bay_self, setQueue_bay, modBay_bay_self]
    exact ⟨rfl, rfl, rfl, rfl⟩
  · rw [submitAll_bay, modPool_bay, setCharge_bay_self, setQueue_bay, modBay_bay_self]
    exact ⟨rfl, rfl, rfl, rfl⟩

theorem rampNext_waits (power : (s.bay b).inputs.pgLevel = false) (timer : (s.bay b).ctx.phaseTimer ≠ 0) :
    rampNext b s = s := by
  unfold rampNext
  rw [power, if_neg Bool.false_ne_true, if_neg timer]

theorem rampNext_powered (power : (s.bay b).inputs.pgLevel = true) : rampNext b s = enterSettle b s := if_pos power

theorem admitEntry_raise (kind : e.kind = .raise) : admitEntry e s = admitRaise e s := by
  unfold admitEntry
  rw [kind]

theorem admitEntry_start (kind : e.kind = .start) : admitEntry e s = admitStart e s := by
  unfold admitEntry
  rw [kind]

theorem holdFigure_of {y : BayContext} {hold : Nat} (figure : (y.basis = .blind ∧ hold = y.intent.cap)
    ∨ (y.basis = .demand ∧ ∃ d, y.demand = some d ∧ hold = d.hold)) : holdFigure y = hold := by
  unfold holdFigure
  rcases figure with ⟨blind, rfl⟩ | ⟨known, d, demand, rfl⟩
  · rw [blind]
  · rw [known, demand]

/-- Settles O55: the evaluation reaches its end, and the admission of each kind. -/
theorem headIsEvaluated : Obligations.HeadIsEvaluated := by
  refine fun s => ⟨rfl, headThatFits_evaluateHead s, evaluateHead_none, finish_undisturbed, fun e q queue =>
    ⟨headThatFits_iff queue, evaluateHead_some, fun kind => ?_, ?_⟩⟩
  · rw [admitEntry_raise kind, admitRaise_eq]
  · rintro u hold kind state free figure given
    have admitted : u = s.admittedStart e hold := given
    obtain ⟨power, timer, ramp, intent⟩ := admittedStart_bay (s := s) (e := e) hold
    rw [admitEntry_start kind, admitStart_eq state free (holdFigure_of figure), admitted]
    refine ⟨fun level window => rampNext_waits (by rw [power, level]) (by rw [timer]; omega), fun level => ?_⟩
    rw [rampNext_powered (by rw [power, level]), enterSettle_eq ramp, intentOf_eq, intent]
    rfl

end Sys2Proof.Machine

/-! Accepted bay commits. The statement O19. -/

namespace Sys2Proof.Machine

variable {s t u v w : State} {b : BayId} {old new : Intent}

/-! ## The record of the window read as an intent (R130, R192) -/

theorem target_getD (n : Nat) : (Target.ofCode n).getD .off = if n = 1 then .on else if n = 2 then .cut else .off := by
  match n with
  | 0 => rfl
  | 1 => rfl
  | 2 => rfl
  | n + 3 => rw [if_neg (by omega), if_neg (by omega)]; rfl

theorem lamp_getD (n : Nat) : (LampMode.ofCode n).getD .auto
    = if n = 1 then .off else if n = 2 then .on else if n = 3 then .blink else .auto := by
  match n with
  | 0 => rfl
  | 1 => rfl
  | 2 => rfl
  | 3 => rfl
  | n + 4 => rw [if_neg (by omega), if_neg (by omega), if_neg (by omega)]; rfl

theorem mode_getD (n : Nat) : (Mode.ofCode n).getD .hold = if n = 1 then .run else if n = 2 then .quiesce else .hold := by
  match n with
  | 0 => rfl
  | 1 => rfl
  | 2 => rfl
  | n + 3 => rw [if_neg (by omega), if_neg (by omega)]; rfl

theorem windowIntent_eq (s : State) (b : BayId) : s.windowIntent b = {
    target := if s.intentByte b 0 = 1 then .on else if s.intentByte b 0 = 2 then .cut else .off
    lamp := if s.intentByte b 1 = 1 then .off else if s.intentByte b 1 = 2 then .on else if s.intentByte b 1 = 3 then .blink
      else .auto
    priority := s.intentByte b 4, blind := decide (s.intentByte b 5 = 1), latchSensed := decide (s.intentByte b 6 = 1)
    retryLimit := s.intentByte b 7, cap := s.intentWord b 8, rampWindow := s.intentWord b 0x0A
    settleDelay := s.intentWord b 0x0C, dischargeWindow := s.intentWord b 0x0E, drainWait := s.intentByte b 0x10
    restInterval := s.intentByte b 0x11, faultFilter := s.intentByte b 0x12 } := by
  rw [← target_getD, ← lamp_getD]
  rfl

/-! ## The steps of an accepted commit (R67, R114, R118, R137) -/

theorem firstFailure_eq_none {l : List (Bool × CommitFailure)} (h : firstFailure l = none) : ∀ c ∈ l, c.1 = false := by
  intro c hc
  have absent := List.find?_eq_none.mp (Option.map_eq_none_iff.mp h) c hc
  exact Bool.eq_false_of_not_eq_true absent

theorem faultFilter_pos (accepted : firstFailure (bayTests s b) = none) : (s.windowIntent b).faultFilter ≠ 0 := by
  have test := firstFailure_eq_none accepted (s.intentByte b 0x12 == 0, ⟨.range, 0x12, s.intentByte b 0x12⟩)
    (by simp [bayTests])
  exact beq_eq_false_iff_ne.mp test

theorem faultThreshold_of_pos (pos : new.faultFilter ≠ 0) : faultThreshold new = new.faultFilter := by
  unfold faultThreshold
  omega

/-- The copied intent, with the hold cleared. -/
def State.copied (s : State) (b : BayId) : State :=
  copyIntent b (s.windowIntent b) (Memory.read s.window (intentAddr b 2)) s

theorem copied_bay : (s.copied b).bay b = { s.bay b with
    applied := Memory.read s.window (intentAddr b 2)
    ctx := { (s.bay b).ctx with intent := s.windowIntent b, troubleHold := false } } := modBay_bay_self b _ s

theorem acceptBay_eq (b : BayId) (s : State) : acceptBay b s = evaluateHead (takeTarget b
    (applyCap b (s.intentOf b) (applyFaultFilter b (s.intentOf b) (s.copied b)))) := rfl

theorem retuneNext_eq (b : BayId) (was : Bool) (s : State) : retuneNext b was s
    = (if was = false ∧ (s.bay b).inputs.fltLevel = true then onFaultConfirmed b else id) s := by
  unfold retuneNext
  split <;> rfl

theorem applyFaultFilter_eq (intent : u.intentOf b = new) (pos : new.faultFilter ≠ 0) :
    applyFaultFilter b old u = if old.faultFilter = new.faultFilter then u else
      (if (u.bay b).inputs.fltLevel = false ∧ (u.bay b).inputs.fltPin ∧ new.faultFilter ≤ (u.bay b).inputs.fltTicks then
        onFaultConfirmed b else id)
        (modBay b (fun y => { y with inputs := { y.inputs with
          fltTicks := min new.faultFilter y.inputs.fltTicks
          fltLevel := y.inputs.fltPin && decide (new.faultFilter ≤ y.inputs.fltTicks) } }) u) := by
  have tuned : modInputs b (BayInputs.retune new.faultFilter) u = modBay b (fun y => { y with inputs := { y.inputs with
      fltTicks := min new.faultFilter y.inputs.fltTicks
      fltLevel := y.inputs.fltPin && decide (new.faultFilter ≤ y.inputs.fltTicks) } }) u := by
    rw [modInputs_eq]
    refine modBay_congr b _ _ u ?_
    rw [Bool.and_comm]
    rfl
  unfold applyFaultFilter
  rw [intent, faultThreshold_of_pos pos, tuned, retuneNext_eq, modBay_bay_self]
  simp only [Bool.and_eq_true, decide_eq_true_eq]

theorem applyCap_eq (intent : v.intentOf b = new) :
    applyCap b old v = if old.cap = new.cap then v else placeEntry b (.limit new.cap) (modBay b (fun y => { y with
      ctx := { y.ctx with demand := y.ctx.demand.map (fun d => ⟨min new.cap d.ramp, min new.cap d.hold,
        d.clipped || decide (new.cap < d.ramp) || decide (new.cap < d.hold)⟩) } }) v) := by
  have cut : renormalise b v = modBay b (fun y => { y with
      ctx := { y.ctx with demand := y.ctx.demand.map (fun d => ⟨min new.cap d.ramp, min new.cap d.hold,
        d.clipped || decide (new.cap < d.ramp) || decide (new.cap < d.hold)⟩) } }) v := by
    unfold renormalise
    rw [modCtx_eq]
    refine modBay_congr b _ _ v ?_
    rw [← intent]
    rfl
  unfold applyCap placeLimit
  rw [cut, intent, intentOf_modBay_kept rfl, intent]

theorem fixed_applyFaultFilter (b : BayId) (old : Intent) (s : State) : Fixed s (applyFaultFilter b old s) := by
  have tuned : Fixed s (modInputs b (BayInputs.retune (faultThreshold (s.intentOf b))) s) := by
    refine Fixed.modBay (.refl s) ?_
    exact fun _ => rfl
  unfold applyFaultFilter retuneNext
  exact .ite (fun _ => .refl s) fun _ => .ite (fun _ => tuned.onFaultConfirmed) fun _ => tuned

theorem copied_intent : (s.copied b).intentOf b = s.windowIntent b := by
  rw [intentOf_eq, copied_bay]

theorem filtered_intent (old : Intent) : (applyFaultFilter b old (s.copied b)).intentOf b = s.windowIntent b := by
  rw [(fixed_applyFaultFilter b old _).intent, copied_intent]

/-- What the fault filter and the Cap leave of the bay's context: all but the demand, which the Cap cuts. -/
theorem capped_bay : ((applyCap b old v).bay b).ctx.intent = (v.bay b).ctx.intent
    ∧ ((applyCap b old v).bay b).applied = (v.bay b).applied
    ∧ ((applyCap b old v).bay b).ctx.troubleHold = (v.bay b).ctx.troubleHold
    ∧ ((applyCap b old v).bay b).ctx.demand = if old.cap = (v.intentOf b).cap then (v.bay b).ctx.demand
      else (v.bay b).ctx.demand.map (fun d => ⟨min (v.intentOf b).cap d.ramp, min (v.intentOf b).cap d.hold,
        d.clipped || decide ((v.intentOf b).cap < d.ramp) || decide ((v.intentOf b).cap < d.hold)⟩) := by
  rw [applyCap_eq rfl]
  by_cases same : old.cap = (v.intentOf b).cap
  · rw [if_pos same, if_pos same]
    exact ⟨rfl, rfl, rfl, rfl⟩
  · rw [if_neg same, if_neg same, ((Fixed.refl _).placeEntry _).applied, ((Fixed.refl _).placeEntry _).troubleHold,
      ((Fixed.refl _).placeEntry _).demand, ← intentOf_eq, ((Fixed.refl _).placeEntry _).intent, intentOf_eq,
      modBay_bay_self]
    exact ⟨rfl, rfl, rfl, rfl⟩

/-- The bay of an accepted commit (R137). -/
theorem acceptBay_bay : (acceptBay b s).intentOf b = s.windowIntent b
    ∧ ((acceptBay b s).bay b).applied = Memory.read s.window (intentAddr b 2)
    ∧ ((acceptBay b s).bay b).ctx.troubleHold = false
    ∧ ((acceptBay b s).bay b).ctx.demand
      = (if (s.intentOf b).cap = (s.windowIntent b).cap then (s.bay b).ctx.demand
        else (s.bay b).ctx.demand.map (fun d => ⟨min (s.windowIntent b).cap d.ramp, min (s.windowIntent b).cap d.hold,
          d.clipped || decide ((s.windowIntent b).cap < d.ramp) || decide ((s.windowIntent b).cap < d.hold)⟩)) := by
  have last : Fixed (applyCap b (s.intentOf b) (applyFaultFilter b (s.intentOf b) (s.copied b))) (acceptBay b s) :=
    (Fixed.refl _).takeTarget.evaluateHead
  have filtered := fixed_applyFaultFilter b (s.intentOf b) (s.copied b)
  obtain ⟨intent, applied, hold, demand⟩ := capped_bay (b := b) (old := s.intentOf b)
    (v := applyFaultFilter b (s.intentOf b) (s.copied b))
  rw [filtered_intent, filtered.demand] at demand
  rw [filtered.applied] at applied
  rw [filtered.troubleHold] at hold
  rw [← intentOf_eq, ← intentOf_eq, filtered_intent] at intent
  rw [last.intent, last.applied, last.troubleHold, last.demand, intent, applied, hold, demand, copied_bay]
  exact ⟨rfl, rfl, rfl, rfl⟩

theorem entriesOf_mem {q : List QueueEntry} {e : QueueEntry} (he : e ∈ q) : entriesOf q e.bay ≠ [] :=
  List.ne_nil_of_mem (mem_entriesOf he)

/-- Settles O19: the record read, the bay as the commit leaves it, and the steps in their order. -/
theorem bayCommitAccepted : Obligations.BayCommitAccepted := by
  refine ⟨fun s b byte word bytes words => ?_, fun s b accepted => ?_⟩
  · have single : byte = s.intentByte b := funext bytes
    have pair : word = s.intentWord b := funext fun o => by rw [words, single, intentWord_eq_bytes]
    rw [single, pair, windowIntent_eq]
  · have touches := touches_acceptBay (s := s) (b := b) (B := fun c => c = b ∨ entriesOf s.queue c ≠ []) (.inl rfl)
      fun e he => .inr (entriesOf_mem he)
    obtain ⟨intent, applied, hold, demand⟩ := acceptBay_bay (s := s) (b := b)
    rw [commitBay_accepted accepted]
    refine ⟨intent, applied, hold, demand, touches.shelf, touches.supply, touches.effective, touches.pending,
      fun c other none => touches.others c (not_or.mpr ⟨other, not_not.mpr none⟩), ?_⟩
    rintro old new u v w rfl rfl copied filtered capped
    have started : u = s.copied b := copied
    have pos := faultFilter_pos accepted
    have filter : v = applyFaultFilter b (s.intentOf b) u := by
      rw [filtered, applyFaultFilter_eq (by rw [started, copied_intent]) pos, started, copied_bay]
    have cap : w = applyCap b (s.intentOf b) v := by
      rw [capped, applyCap_eq (by rw [filter, started, filtered_intent])]
    rw [acceptBay_eq, cap, filter, started]

end Sys2Proof.Machine

/-! The EffectiveBudget recomputed: shedding, refusals and the BUDGET record. The statement O29. -/

namespace Sys2Proof.Machine

variable {s t u v w : State} {b : BayId} {e : QueueEntry} {cause : BudgetCause}

/-! ## What the end of an event leaves -/

theorem forBays_modBay (f : Bay → Bay) (s : State) :
    (∀ b, (forBays (fun b => modBay b f) s).bay b = f (s.bay b)) ∧ ∃ v, forBays (fun b => modBay b f) s = { s with bays := v } := by
  obtain ⟨bay, rest⟩ := foldl_modBay f allBays (List.nodup_finRange 16) s
  exact ⟨fun b => (bay b).trans (if_pos (List.mem_finRange b)), rest⟩

theorem settleOutcomes_eq (s : State) :
    (∀ b, (settleOutcomes s).bay b = { s.bay b with quiesceOutcome := finalOutcome (s.bay b) })
      ∧ ∃ v, settleOutcomes s = { s with bays := v } :=
  forBays_modBay (fun y => { y with quiesceOutcome := finalOutcome y }) s

/-- The test of completion changes no part of the pool, the supply or the queue. -/
theorem quiesceTest_apart (s : State) : (quiesceTest s).pool = s.pool ∧ (quiesceTest s).supply = s.supply
    ∧ (quiesceTest s).queue = s.queue := by
  obtain ⟨-, bays, settled⟩ := settleOutcomes_eq s
  unfold quiesceTest
  split
  · unfold enterStandby submitQuiesced
    rw [settled, modShelf_pool, modShelf_supply, modShelf_queue, submit_pool, submit_supply, submit_queue]
    exact ⟨rfl, rfl, rfl⟩
  · exact ⟨rfl, rfl, rfl⟩

theorem finish_budget (s : State) : (finish s).supply = s.supply ∧ (finish s).pool.supplyLow = s.pool.supplyLow
    ∧ (finish s).pool.effectiveBudget = s.pool.effectiveBudget := by
  obtain ⟨pool, supply, -⟩ := quiesceTest_apart (evaluateHead s)
  have evaluated := touches_evaluateHead s
  rw [finish, pool, supply]
  exact ⟨evaluated.supply, evaluated.supplyLow, evaluated.effective⟩

/-! ## A confirmed change of SUPPLY_LOW (R73) -/

theorem exec_supplyLowConfirmed (timer : s.supply.timer = some 0) (changed : s.supply.pin ≠ s.supply.confirmed) :
    exec .supplyLowConfirmed s = .next (finish (recomputeBudget (supplyCause s.supply.pin) (confirmSupply s))) :=
  congrArg Host.Outcome.next (if_pos ⟨timer, changed⟩)

/-! ## The budget recomputed (R33, R52, R55) -/

theorem recomputeBudget_same (same : derivedBudget s.pool = s.pool.effectiveBudget) : recomputeBudget cause s = s :=
  if_pos same

theorem recomputeBudget_rises (rises : s.pool.effectiveBudget < derivedBudget s.pool) : recomputeBudget cause s
    = submitBudget s.pool.effectiveBudget cause 0 0 (setEffective (derivedBudget s.pool) s) := by
  unfold recomputeBudget
  rw [if_neg (Nat.ne_of_gt rises), if_pos rises]

theorem recomputeBudget_falls (falls : derivedBudget s.pool < s.pool.effectiveBudget) : recomputeBudget cause s
    = budgetFall s.pool.effectiveBudget cause (setEffective (derivedBudget s.pool) s) := by
  unfold recomputeBudget
  rw [if_neg (Nat.ne_of_lt falls), if_neg (Nat.not_lt.mpr falls.le)]

theorem shedBay_eq (b : BayId) (s : State) : shedBay b s = if s.stateOf b = .on then enterDrain b .shed s
    else if s.stateOf b ∈ [BayState.ramp, .settle] then enterCutoff b .shed s else s := by
  unfold shedBay
  cases s.stateOf b <;> rfl

theorem shedAll_eq (l : List BayId) (s : State) : shedAll l s = l.foldl (fun t b =>
    if t.stateOf b = .on then enterDrain b .shed t
    else if t.stateOf b ∈ [BayState.ramp, .settle] then enterCutoff b .shed t else t) s := by
  unfold shedAll
  simp only [shedBay_eq]

theorem touches_shedAll (l : List BayId) (s : State) : Touches everyBay s (shedAll l s) :=
  (Touches.refl everyBay s).foldBays (fun t b => shedBay b t) id l (fun _ _ => trivial)
    fun _ _ _ k => k.shedBay trivial

theorem touches_refuseAll (l : List (QueueEntry × Nat)) (s : State) : Touches everyBay s (refuseAll l s) :=
  (Touches.refl everyBay s).foldBays (fun t (x : QueueEntry × Nat) => refuseEntry x.1 x.2 t) (fun x => x.1.bay) l (fun _ _ => trivial)
    fun x _ _ k => k.refuseEntry x.1 x.2 trivial

theorem unservable_eq (s : State) (e : QueueEntry) : unservable s e
    = decide (s.pool.effectiveBudget < e.amount + (if e.kind = .raise then (s.bay e.bay).charge else 0)) := by
  unfold unservable
  cases e.kind <;> rfl

theorem refusalList_eq (s : State) : refusalList s = (s.queue.filter (fun e => s.pool.effectiveBudget
      < e.amount + (if e.kind = .raise then (s.bay e.bay).charge else 0))).map
    (fun e => (e, queuePosition s.queue e.bay)) := by
  unfold refusalList
  rw [show unservable s = _ from funext (unservable_eq s)]

theorem budgetFall_eq (old : Nat) (cause : BudgetCause) (s : State) : budgetFall old cause s
    = submitAll [.budget old s.pool.effectiveBudget cause (shedList s).length
        (refusalList (shedAll (shedList s) s)).length
        (refuseAll (refusalList (shedAll (shedList s) s)) (shedAll (shedList s) s)).pool.committed]
      (refuseAll (refusalList (shedAll (shedList s) s)) (shedAll (shedList s) s)) := by
  have effective := ((touches_shedAll (shedList s) s).trans (touches_refuseAll (refusalList (shedAll (shedList s) s)) _)).effective
  unfold budgetFall fallNext submitBudget
  rw [effective]
  rfl

/-! ## The shedding order (R35, R53) -/

theorem shedOrder_perm (s : State) (among : BayState → Bool) :
    (shedOrder s among).Perm (allBays.filter (fun b => among (s.stateOf b) && (s.bay b).charge != 0)) :=
  foldr_shedInsert_perm s _

theorem isOn_iff (st : BayState) : st.isOn = true ↔ st = .on := by
  cases st <;> simp [BayState.isOn]

theorem isRising_iff (st : BayState) : st.isRising = true ↔ st ∈ [BayState.ramp, .settle] := by
  cases st <;> simp [BayState.isRising]

theorem powered_iff (st : BayState) : st.powered = true ↔ st ∈ [BayState.ramp, .settle, .on] := by
  cases st <;> simp [BayState.powered]

theorem powered_split (st : BayState) (n : Nat) : (if st.powered then n else 0)
    = (if st.isOn && n != 0 then n else 0) + (if st.isRising && n != 0 then n else 0) := by
  rcases Nat.eq_zero_or_pos n with rfl | pos
  · simp
  · have nonzero : (n != 0) = true := by simpa using pos.ne'
    rw [nonzero]
    cases st <;> simp [BayState.powered, BayState.isOn, BayState.isRising]

theorem sum_map_filter (p : BayId → Bool) (f : BayId → Nat) (l : List BayId) :
    ((l.filter p).map f).sum = (l.map (fun b => if p b then f b else 0)).sum := by
  induction l with
  | nil => rfl
  | cons b l ih =>
    rw [List.filter_cons, List.map_cons, List.sum_cons, ← ih]
    split
    · rw [List.map_cons, List.sum_cons]
    · rw [Nat.zero_add]

/-- The powered sum is what the candidates for shedding hold. -/
theorem poweredSum_eq (s : State) : s.poweredSum = ((shedCandidates s).map (fun b => (s.bay b).charge)).sum := by
  have total : ∀ among : BayState → Bool, ((shedOrder s among).map (fun b => (s.bay b).charge)).sum
      = (allBays.map (fun b => if among (s.stateOf b) && (s.bay b).charge != 0 then (s.bay b).charge else 0)).sum :=
    fun among => (((shedOrder_perm s among).map _).sum_eq).trans (sum_map_filter _ _ _)
  unfold shedCandidates State.poweredSum
  rw [List.map_append, List.sum_append, total, total, ← List.sum_map_add]
  exact congrArg List.sum (List.map_congr_left fun b _ => powered_split _ _)

theorem mem_shedOrder_on (s : State) (b : BayId) :
    b ∈ shedOrder s BayState.isOn ↔ s.stateOf b = .on ∧ (s.bay b).charge ≠ 0 := by
  rw [mem_shedOrder, isOn_iff]

theorem mem_shedOrder_rising (s : State) (b : BayId) :
    b ∈ shedOrder s BayState.isRising ↔ s.stateOf b ∈ [BayState.ramp, .settle] ∧ (s.bay b).charge ≠ 0 := by
  rw [mem_shedOrder, isRising_iff]

theorem nodup_shedCandidates (s : State) : (shedCandidates s).Nodup := by
  refine List.nodup_append.mpr ⟨nodup_shedOrder _ _, nodup_shedOrder _ _, fun b on c rising same => ?_⟩
  subst same
  have state := ((mem_shedOrder_on s b).mp on).1
  have other := ((mem_shedOrder_rising s b).mp rising).1
  rw [state] at other
  exact absurd other (by decide)

/-- The bays that are shed: a first part of the candidates, in their order, enough of them and no more. -/
theorem shedList_spec (s : State) : ∃ on rising rest : List BayId, shedList s ++ rest = on ++ rising ∧ (on ++ rising).Nodup
    ∧ (∀ b, b ∈ on ↔ s.stateOf b = .on ∧ (s.bay b).charge ≠ 0)
    ∧ (∀ b, b ∈ rising ↔ s.stateOf b ∈ [.ramp, .settle] ∧ (s.bay b).charge ≠ 0)
    ∧ (∀ l ∈ [on, rising], l.Pairwise (fun x y => (s.intentOf y).priority ≤ (s.intentOf x).priority)
      ∧ ((∀ b ∈ l, (s.pool.arrivalCounter - (s.bay b).ctx.admissionStamp).toNat < 2147483648) →
        l.Pairwise (fun x y => (s.intentOf y).priority = (s.intentOf x).priority →
          stampEarlier (s.bay y).ctx.admissionStamp y (s.bay x).ctx.admissionStamp x = true)))
    ∧ s.poweredSum = ((List.finRange 16).map (fun b =>
      if s.stateOf b ∈ [.ramp, .settle, .on] then (s.bay b).charge else 0)).sum
    ∧ s.poweredSum ≤ s.pool.effectiveBudget + ((shedList s).map (fun b => (s.bay b).charge)).sum
    ∧ ∀ l b, shedList s = l ++ [b] → s.pool.effectiveBudget + (l.map (fun b => (s.bay b).charge)).sum < s.poweredSum := by
  obtain ⟨rest, whole⟩ := shedChoice_prefix s.pool.effectiveBudget (fun b => (s.bay b).charge) (shedCandidates s) s.poweredSum
  refine ⟨shedOrder s BayState.isOn, shedOrder s BayState.isRising, rest, whole, nodup_shedCandidates s,
    mem_shedOrder_on s, mem_shedOrder_rising s, fun l hl => ?_, ?_, ?_, fun l b last => ?_⟩
  · simp only [List.mem_cons, List.not_mem_nil, or_false] at hl
    rcases hl with rfl | rfl
    · exact ⟨shedOrder_priority s _, fun recent => shedOrder_stamps s _ recent⟩
    · exact ⟨shedOrder_priority s _, fun recent => shedOrder_stamps s _ recent⟩
  · refine congrArg List.sum (List.map_congr_left fun b _ => ?_)
    simp only [powered_iff]
  · refine shedChoice_enough _ _ _ _ ?_
    rw [poweredSum_eq]
    exact Nat.le_add_left _ _
  · exact shedChoice_least _ _ _ _ _ _ last

/-! ## Refusals (R54) -/

theorem refuseEntry_start (n : Nat) (kind : e.kind = .start) (state : s.stateOf e.bay = .queued) :
    refuseEntry e n s = submitAll
      [.admission e.bay .start .refused e.amount n e.clipped s.pool.committed, .state e.bay .queued .off .shed false]
      (setQueue (queueWithout s.queue e.bay) (modBay e.bay (Bay.inState .off 0) s)) := by
  unfold refuseEntry submitAdmit
  rw [kind]
  have now : (submit (.admission e.bay .start .refused e.amount n e.clipped
      (setQueue (queueWithout s.queue e.bay) s).pool.committed) (setQueue (queueWithout s.queue e.bay) s)).stateOf e.bay
      = .queued := by
    rw [stateOf_eq, submit_bay]
    exact state
  exact (changeState_queued_off now rfl).trans (by rw [← submit_modBay]; rfl)

theorem refuseEntry_raise (n : Nat) (kind : e.kind = .raise) : refuseEntry e n s
    = placeEntry e.bay (.grant (s.bay e.bay).charge (s.bay e.bay).charge) (setQueue (queueWithout s.queue e.bay)
      (submitAll [.admission e.bay .raise .refused e.amount n e.clipped s.pool.committed] s)) := by
  unfold refuseEntry submitAdmit grantCharge
  rw [kind]
  dsimp only
  rw [submit_bay, submit_setQueue]
  rfl

/-- Settles O29: the confirmed level, the budget recomputed, what is shed and what is refused. -/
theorem supplyLowConfirmed : Obligations.SupplyLowConfirmed := by
  refine ⟨fun s u timer changed confirmed => ?_, fun cause s u v w shed refused lowered chosen dropped listed refusals => ?_,
    shedList_spec, fun _ => rfl, fun s e n => ⟨refuseEntry_start n, refuseEntry_raise n⟩⟩
  · have level : confirmSupply s = u := confirmed.symm
    rw [exec_supplyLowConfirmed timer changed, level]
    obtain ⟨supply, low, effective⟩ := finish_budget (recomputeBudget (supplyCause s.supply.pin) u)
    have recomputed := touches_recompute (supplyCause s.supply.pin) u
    refine ⟨⟨_, rfl, supply.trans recomputed.supply, ?_, effective.trans recomputed.effective⟩, rfl⟩
    rw [low, recomputed.supplyLow, confirmed]
    rfl
  · have set : setEffective (derivedBudget s.pool) s = u := lowered.symm
    have shedding : v = shedAll (shedList u) u := by rw [dropped, chosen, shedAll_eq]
    have budget : v.pool.effectiveBudget = derivedBudget s.pool := by
      rw [shedding, (touches_shedAll _ _).effective, lowered]
    have list : refused = refusalList v := by rw [listed, refusalList_eq, budget]
    have refusing : w = refuseAll (refusalList v) v := by rw [refusals, list]; rfl
    refine ⟨recomputeBudget_same, fun rises => ?_, fun falls => ?_⟩
    · rw [recomputeBudget_rises rises, set, lowered]
      rfl
    · rw [recomputeBudget_falls falls, set, budgetFall_eq, ← shedding, ← refusing, ← list, chosen, lowered]

end Sys2Proof.Machine

/-! A shelf that is not in RUN: entry into QUIESCING, its completion and its deadline. The statements O38 and O56. -/

namespace Sys2Proof.Machine

variable {s t u v : State} {b c : BayId} {w new : BayState} {reason : StateReason}

/-! ## Bays that rest outside RUN -/

theorem reconcileOff_outside (outside : s.shelf.state ≠ .run) : reconcileOff b s = s :=
  reconcileOff_of_not (.inr (eq_false_of_ne_true fun ok => outside ((startOk_iff s b).mp ok).1))

/-- The state to which a rest period that ends takes a bay outside RUN. -/
def Bay.restedState (y : Bay) : BayState := if y.inputs.presConfirmed then .off else .empty

theorem endRest_outside (rest : s.stateOf b = .rest) (outside : s.shelf.state ≠ .run) :
    endRest b s = submitAll [.state b .rest (s.bay b).restedState .restDone false]
      (modBay b (Bay.inState (s.bay b).restedState 0) s) := by
  unfold Bay.restedState
  cases present : (s.bay b).inputs.presConfirmed
  · exact endRest_absent rest present
  · refine (endRest_present rest present).trans (reconcileOff_outside ?_)
    rw [submitAll_shelf]
    exact outside

theorem restIfZero_outside (rest : s.stateOf b = .rest) (outside : s.shelf.state ≠ .run) :
    (restIfZero b s).bay b = (if (s.bay b).ctx.phaseTimer = 0 then (s.bay b).inState (s.bay b).restedState 0 else s.bay b)
      ∧ (restIfZero b s).queue = s.queue := by
  unfold restIfZero
  by_cases timer : (s.bay b).ctx.phaseTimer = 0
  · rw [if_pos timer, if_pos timer, endRest_outside rest outside, submitAll_bay, modBay_bay_self, submitAll_queue]
    exact ⟨rfl, rfl⟩
  · rw [if_neg timer, if_neg timer]
    exact ⟨rfl, rfl⟩

theorem restedState_ne_on (y : Bay) : y.restedState ≠ .on := by
  unfold Bay.restedState
  split <;> decide

theorem restIfZero_leaves (rest : s.stateOf b = .rest) (outside : s.shelf.state ≠ .run) :
    (restIfZero b s).stateOf b ≠ .on ∧ (restIfZero b s).queue = s.queue := by
  obtain ⟨bay, queue⟩ := restIfZero_outside rest outside
  refine ⟨?_, queue⟩
  rw [stateOf_eq, bay]
  split
  · exact restedState_ne_on _
  · rw [← stateOf_eq, rest]
    decide

/-! ## Every change of state arrives -/

theorem leaveQueue_bay (outcome : AdmitOutcome) (s : State) : (leaveQueue b outcome s).bay c = s.bay c := by
  rw [leaveQueue_eq, setQueue_bay, submitAll_bay]

theorem noteQuiesce_ctx (new : BayState) (reason : StateReason) (s : State) :
    ((noteQuiesce b new reason s).bay b).ctx = (s.bay b).ctx := by
  unfold noteQuiesce
  split
  · split
    · rw [modBay_bay_self]
    · rfl
  · rfl

theorem changeState_state (surprise : Bool) (n : Nat) (s : State) :
    (changeState b new reason surprise n s).stateOf b = new := by
  have left : ∀ (old : BayState) (t : State), (leaveOn b old t).bay b = t.bay b := by
    intro old t
    unfold leaveOn
    split
    · exact leaveQueue_bay _ t
    · rfl
  have locked : ∀ (old : BayState) (t : State), (rewriteLocked b old new t).bay b = t.bay b := by
    intro old t
    unfold rewriteLocked
    split <;> rfl
  unfold changeState
  rw [stateOf_eq, left, noteQuiesce_ctx, locked, modCtx_eq, modBay_bay_self]

theorem changeState_shelf {surprise : Bool} {n : Nat} (timed : new.timed = false → n = 0) :
    (changeState b new reason surprise n s).shelf = s.shelf :=
  ((Touches.refl everyBay s).changeState trivial new reason surprise n timed).shelf

/-! ## A bay that is powered down leaves ON for good -/

/-- A bay is not in ON, and the queue has lost entries alone. -/
def leavesOn (b : BayId) (s t : State) : Prop := t.stateOf b ≠ .on ∧ queueWeight t.queue ≤ queueWeight s.queue

theorem leavesOn_enterFaulted (reason : StateReason) (s : State) : leavesOn b s (enterFaulted b reason s) := by
  refine ⟨?_, weight_enterFaulted reason s⟩
  have state : (enterFaulted b reason s).stateOf b = .faulted := by
    unfold enterFaulted releaseIfDown
    rw [modCtx_eq, modInputs_eq]
    have faulted := changeState_state (b := b) (new := .faulted) (reason := reason) false 0 s
    split
    · rw [raiseFault_stateOf, stateOf_modBay_kept rfl, stateOf_modBay_kept rfl, faulted]
    · rw [stateOf_setCharge, raiseFault_stateOf, stateOf_modBay_kept rfl, stateOf_modBay_kept rfl, faulted]
  rw [state]
  decide

theorem leavesOn_discharge (outside : s.shelf.state ≠ .run) : leavesOn b s (discharge b s) := by
  have moved := changeState_state (b := b) (new := .rest) (reason := .discharged) false (restPeriod s b) s
  have shelf : (changeState b .rest .discharged false (restPeriod s b) s).shelf = s.shelf :=
    changeState_shelf fun untimed => Bool.noConfusion untimed
  have weight := weight_changeState (b := b) .rest .discharged false (restPeriod s b) s
  unfold discharge
  generalize changeState b .rest .discharged false (restPeriod s b) s = t at moved shelf weight
  obtain ⟨state, queue⟩ := restIfZero_leaves (s := setCharge b 0 t) (b := b) (by rw [stateOf_setCharge, moved])
    (by rw [show (setCharge b 0 t).shelf = t.shelf from rfl, shelf]; exact outside)
  refine ⟨state, ?_⟩
  rw [queue]
  exact weight

theorem leavesOn_enterCutoff (reason : StateReason) (outside : s.shelf.state ≠ .run) :
    leavesOn b s (enterCutoff b reason s) := by
  have moved := changeState_state (b := b) (new := .cutoff) (reason := reason) false (s.intentOf b).dischargeWindow s
  have shelf : (changeState b .cutoff reason false (s.intentOf b).dischargeWindow s).shelf = s.shelf :=
    changeState_shelf fun untimed => Bool.noConfusion untimed
  have weight := weight_changeState (b := b) .cutoff reason false (s.intentOf b).dischargeWindow s
  rw [enterCutoff_eq]
  generalize changeState b .cutoff reason false (s.intentOf b).dischargeWindow s = t at moved shelf weight
  unfold cutoffNext
  split
  · obtain ⟨state, less⟩ := leavesOn_discharge (b := b) (s := t) (by rwa [shelf])
    exact ⟨state, less.trans weight⟩
  · split
    · obtain ⟨state, less⟩ := leavesOn_enterFaulted (b := b) .stuck t
      exact ⟨state, less.trans weight⟩
    · exact ⟨by rw [moved]; decide, weight⟩

theorem stateOf_placeEntry (e : TxEntry) (s : State) : (placeEntry b e s).stateOf b = s.stateOf b := by
  rw [placeEntry_eq_ite]
  split
  · exact stateOf_modBay_kept rfl
  · rfl

theorem placeEntry_shelf (e : TxEntry) (s : State) : (placeEntry b e s).shelf = s.shelf := by
  rw [placeEntry_eq_ite]
  split <;> rfl

theorem leavesOn_enterDrain (reason : DrainReason) (outside : s.shelf.state ≠ .run) :
    leavesOn b s (enterDrain b reason s) := by
  have moved := changeState_state (b := b) (new := .drain) (reason := reason.toState) false ((s.intentOf b).drainWait * 10) s
  have shelf : (changeState b .drain reason.toState false ((s.intentOf b).drainWait * 10) s).shelf = s.shelf :=
    changeState_shelf fun untimed => Bool.noConfusion untimed
  have weight := weight_changeState (b := b) .drain reason.toState false ((s.intentOf b).drainWait * 10) s
  unfold enterDrain
  generalize changeState b .drain reason.toState false ((s.intentOf b).drainWait * 10) s = t at moved shelf weight
  have still : t.shelf.state ≠ .run := by rwa [shelf]
  rw [drainNext_eq]
  split
  · split
    · obtain ⟨state, less⟩ := leavesOn_enterCutoff (b := b)
        (s := placeEntry b (.prepare (t.intentOf b).drainWait reason) t) .drainExpired (by rw [placeEntry_shelf]; exact still)
      rw [placeEntry_queue] at less
      exact ⟨state, less.trans weight⟩
    · refine ⟨by rw [stateOf_placeEntry, moved]; decide, ?_⟩
      rw [placeEntry_queue]
      exact weight
  · obtain ⟨state, less⟩ := leavesOn_enterCutoff (b := b) .linkLost still
    exact ⟨state, less.trans weight⟩

theorem nil_of_weight {q : List QueueEntry} (h : queueWeight q ≤ 0) : q = [] := by
  cases q with
  | nil => rfl
  | cons e q =>
    have := weight_pos e.kind
    rw [queueWeight_cons] at h
    omega

/-! ## Bay after bay -/

/-- What is done for each bay of a list finds the bay as it was, in a state in which what every step keeps still holds. -/
theorem foldl_at {f : BayId → State → State} {keep : State → Prop} (kept : ∀ b t, keep t → keep (f b t))
    (others : ∀ b c t, keep t → c ≠ b → (f b t).bay c = t.bay c) (l : List BayId) (each : l.Nodup) (start : keep s) :
    keep (l.foldl (fun t b => f b t) s)
      ∧ (∀ b ∈ l, ∃ t, keep t ∧ t.bay b = s.bay b ∧ (l.foldl (fun t b => f b t) s).bay b = (f b t).bay b)
      ∧ ∀ b ∉ l, (l.foldl (fun t b => f b t) s).bay b = s.bay b := by
  induction l generalizing s with
  | nil => exact ⟨start, fun b hb => absurd hb (List.not_mem_nil), fun _ _ => rfl⟩
  | cons a l ih =>
    obtain ⟨fresh, rest⟩ := List.nodup_cons.mp each
    obtain ⟨last, inside, outside⟩ := ih rest (kept a s start)
    refine ⟨last, fun b hb => ?_, fun b hb => ?_⟩
    · rcases List.mem_cons.mp hb with rfl | hb
      · exact ⟨s, start, rfl, outside b fresh⟩
      · have other : b ≠ a := fun same => fresh (same ▸ hb)
        obtain ⟨t, holds, bay, end_⟩ := inside b hb
        exact ⟨t, holds, bay.trans (others a b s start other), end_⟩
    · obtain ⟨other, hb⟩ := not_or.mp fun h => hb (List.mem_cons.mpr h)
      exact (outside b hb).trans (others a b s start other)

/-- The same for all sixteen bays. -/
theorem forBays_at {f : BayId → State → State} {keep : State → Prop} (kept : ∀ b t, keep t → keep (f b t))
    (others : ∀ b c t, keep t → c ≠ b → (f b t).bay c = t.bay c) (start : keep s) :
    keep (forBays f s) ∧ ∀ b, ∃ t, keep t ∧ t.bay b = s.bay b ∧ (forBays f s).bay b = (f b t).bay b := by
  obtain ⟨last, inside, -⟩ := foldl_at kept others allBays (List.nodup_finRange 16) start
  exact ⟨last, fun b => inside b (List.mem_finRange b)⟩

/-! ## Entry into QUIESCING (R169) -/

/-- The state in which the entry begins, bay by bay. -/
theorem beginQuiesce_eq (s : State) : (∀ b, (beginQuiesce s).bay b = { s.bay b with quiesceOutcome := .none })
    ∧ { beginQuiesce s with bays := s.bays } = { s with
      shelf := { s.shelf with
        state := .quiescing, deadlineTimer := some (s.shelf.context.quiesceDeadline * 100000) }
      queue := [] } := by
  obtain ⟨bay, v, rest⟩ := forBays_modBay (fun y => { y with quiesceOutcome := .none }) s
  refine ⟨bay, ?_⟩
  have deadline : ms (deadlineMs s.shelf.context) = s.shelf.context.quiesceDeadline * 100000 := by
    unfold ms deadlineMs
    omega
  unfold beginQuiesce
  rw [rest, ← deadline]
  rfl

/-- A bay's part of the entry. -/
def quiescePart (s : State) (b : BayId) (t : State) : State :=
  quiesceBay b (quiesceAdmit s.queue s.pool.committed b t)

theorem quiescePart_eq (s : State) (b : BayId) (t : State) : quiescePart s b t
    = if t.stateOf b = .queued then
        submitAll (s.leaving b .withdrawn ++ [.state b .queued .off .quiesce false]) (modBay b (Bay.inState .off 0) t)
      else if t.stateOf b = .on then enterDrain b .quiesce (submitAll (s.leaving b .withdrawn) t)
      else submitAll (s.leaving b .withdrawn) t := by
  unfold quiescePart
  rw [quiesceAdmit_eq, quiesceBay_eq, stateOf_submitAll, ← submitAll_modBay, ← submitAll_append]

/-- What bay after bay keeps: the shelf as the entry began, and an empty queue. -/
def quiescedShelf (s t : State) : Prop := t.shelf = (beginQuiesce s).shelf ∧ t.queue = []

theorem beginQuiesce_shelf (s : State) : (beginQuiesce s).shelf = { s.shelf with
    state := .quiescing, deadlineTimer := some (s.shelf.context.quiesceDeadline * 100000) } :=
  congrArg State.shelf (beginQuiesce_eq s).2

theorem quiescedShelf_outside (h : quiescedShelf s t) : t.shelf.state ≠ .run := by
  rw [h.1, beginQuiesce_shelf]
  exact fun same => nomatch same

theorem touches_quiescePart (s : State) (b : BayId) (t : State) : Touches (only b) t (quiescePart s b t) := by
  rw [quiescePart, quiesceAdmit_eq]
  have records : ∀ (l : List Record) (u : State), Touches (only b) t u → Touches (only b) t (submitAll l u) := by
    intro l
    induction l with
    | nil => exact fun _ h => h
    | cons r l ih => exact fun u h => ih _ (h.submit r)
  have part := records (s.leaving b .withdrawn) t (Touches.refl _ t)
  have own : only b b := rfl
  unfold quiesceBay
  split
  case h_1 => exact part.changeState own .off _ _ 0 (fun _ => rfl)
  case h_2 => exact part.enterDrain own _
  all_goals exact part

theorem quiescePart_queue (s : State) (b : BayId) (h : quiescedShelf u t) : quiescedShelf u (quiescePart s b t) := by
  obtain ⟨shelf, queue⟩ := h
  refine ⟨(touches_quiescePart s b t).shelf.trans shelf, ?_⟩
  rw [quiescePart_eq]
  split
  · rw [submitAll_queue]
    exact queue
  · split
    · have less := (leavesOn_enterDrain (b := b) (s := submitAll (s.leaving b .withdrawn) t) .quiesce
        (by rw [submitAll_shelf]; exact quiescedShelf_outside ⟨shelf, queue⟩)).2
      rw [submitAll_queue, queue] at less
      exact nil_of_weight less
    · rw [submitAll_queue]
      exact queue

/-- Where the entry takes each bay. -/
theorem quiescePart_bay (h : quiescedShelf u t) : (quiescePart s b t).stateOf b ≠ .on
    ∧ (t.stateOf b = .queued → (quiescePart s b t).stateOf b = .off)
    ∧ (t.stateOf b ∉ [.queued, .on] → (quiescePart s b t).bay b = t.bay b) := by
  rw [quiescePart_eq]
  by_cases queued : t.stateOf b = .queued
  · rw [if_pos queued]
    have off : (submitAll (s.leaving b .withdrawn ++ [.state b .queued .off .quiesce false])
        (modBay b (Bay.inState .off 0) t)).stateOf b = .off := by
      rw [stateOf_eq, submitAll_bay, modBay_bay_self]
      rfl
    exact ⟨by rw [off]; decide, fun _ => off, fun apart => absurd (by rw [queued]; decide) apart⟩
  · rw [if_neg queued]
    refine ⟨?_, fun same => absurd same queued, fun apart => ?_⟩
    · split
      · exact (leavesOn_enterDrain .quiesce (by rw [submitAll_shelf]; exact quiescedShelf_outside h)).1
      · rwa [stateOf_submitAll]
    · rw [if_neg fun on => apart (by rw [on]; decide), submitAll_bay]

theorem enterQuiescing_eq (s : State) : enterQuiescing s = forBays (quiescePart s) (beginQuiesce s) := rfl

/-- The entry, bay by bay. -/
theorem enterQuiescing_at (s : State) : quiescedShelf s (enterQuiescing s)
    ∧ ∀ b, ∃ t, quiescedShelf s t ∧ t.bay b = { s.bay b with quiesceOutcome := .none }
      ∧ (enterQuiescing s).bay b = (quiescePart s b t).bay b := by
  have queue : (beginQuiesce s).queue = [] := congrArg State.queue (beginQuiesce_eq s).2
  rw [enterQuiescing_eq]
  obtain ⟨last, inside⟩ := forBays_at (f := quiescePart s) (keep := quiescedShelf s)
    (fun b t h => quiescePart_queue s b h) (fun b c t _ other => (touches_quiescePart s b t).others c other)
    ⟨rfl, queue⟩
  refine ⟨last, fun b => ?_⟩
  obtain ⟨t, holds, bay, final⟩ := inside b
  exact ⟨t, holds, bay.trans ((beginQuiesce_eq s).1 b), final⟩

theorem enterQuiescing_shelf (s : State) : (enterQuiescing s).shelf = { s.shelf with
    state := .quiescing, deadlineTimer := some (s.shelf.context.quiesceDeadline * 100000) } :=
  (enterQuiescing_at s).1.1.trans (beginQuiesce_shelf s)

/-! ## Completion -/

theorem complete_iff (w : BayState) : w.complete = true ↔ w ∈ [BayState.empty, .off, .rest, .faulted] := by
  cases w <;> decide

theorem allComplete_iff (s : State) :
    s.allComplete = true ↔ ∀ b, s.stateOf b ∈ [BayState.empty, .off, .rest, .faulted] := by
  unfold State.allComplete
  rw [List.all_eq_true]
  exact ⟨fun all b => (complete_iff _).mp (all b (List.mem_finRange b)), fun all b _ => (complete_iff _).mpr (all b)⟩

theorem finalOutcome_eq (y : Bay) : finalOutcome y = if y.quiesceOutcome ≠ .none then y.quiesceOutcome
    else if y.ctx.state = .empty then .absent else if y.ctx.state = .faulted then .faulted else .wasOff := by
  unfold finalOutcome
  cases y.quiesceOutcome with
  | none =>
    cases y.ctx.state <;> rfl
  | released | expired | cut | faulted | absent | wasOff => rfl

/-- The test of completion when it succeeds. -/
theorem quiesceTest_complete (quiescing : s.shelf.state = .quiescing) (complete : s.allComplete = true) :
    quiesceTest s = enterStandby (submitQuiesced (settleOutcomes s)) :=
  if_pos ⟨quiescing, complete⟩

/-- Settles O56: the entry runs over the bays one after the other, and each leaves the shelf out of RUN and the queue
empty as it found them. -/
theorem quiesceRuns : Obligations.QuiesceRuns := by
  unfold Obligations.QuiesceRuns
  intro s
  obtain ⟨last, bays⟩ := enterQuiescing_at s
  refine ⟨⟨enterQuiescing_shelf s, last.2, fun b => ?_⟩, ⟨beginQuiesce s, (beginQuiesce_eq s).1, (beginQuiesce_eq s).2, ?_⟩,
    allComplete_iff s, fun rest => ?_, fun outcome quiescing complete outcomes => ?_⟩
  · obtain ⟨t, holds, before, final⟩ := bays b
    obtain ⟨notOn, queued, apart⟩ := quiescePart_bay (s := s) (b := b) holds
    have state : t.stateOf b = s.stateOf b := by rw [stateOf_eq, before, stateOf_eq]
    have arrives : (enterQuiescing s).stateOf b = (quiescePart s b t).stateOf b := by rw [stateOf_eq, final, stateOf_eq]
    rw [state] at queued apart
    rw [arrives, final, ← before]
    exact ⟨notOn, queued, apart⟩
  · simp only [← quiescePart_eq]
    rfl
  · refine quiesceTest_none fun ⟨quiescing, complete⟩ => ?_
    rcases rest with other | ⟨b, other⟩
    · exact other quiescing
    · exact other ((allComplete_iff s).mp complete b)
  · obtain ⟨settled, v, same⟩ := settleOutcomes_eq s
    have final : ∀ b, finalOutcome (s.bay b) = outcome b := fun b => by
      rw [outcomes b, finalOutcome_eq, stateOf_eq]
    refine ⟨settleOutcomes s, fun b => by rw [settled, final], by rw [same], ?_⟩
    have list : (settleOutcomes s).outcomes = (List.finRange 16).map outcome :=
      List.map_congr_left fun b _ => by rw [settled, final]
    rw [quiesceTest_complete quiescing ((allComplete_iff s).mpr complete), submitQuiesced, list]
    rfl

end Sys2Proof.Machine

/-! The quiesce deadline. The statement O38. -/

namespace Sys2Proof.Machine

variable {s t : State} {b : BayId}

/-- The states of a bay that the deadline cuts off. -/
def cutAtDeadline (w : BayState) : Prop := w ∈ [BayState.ramp, .settle, .on, .drain]

theorem onDeadline_cut (powered : cutAtDeadline (s.stateOf b)) : onDeadline b s = enterCutoff b .quiesceDeadline s := by
  simp only [cutAtDeadline, List.mem_cons, List.not_mem_nil, or_false] at powered
  unfold onDeadline
  rcases powered with state | state | state | state <;> rw [state]

theorem onDeadline_other (other : ¬cutAtDeadline (s.stateOf b)) : onDeadline b s = s := by
  unfold onDeadline
  unfold cutAtDeadline at other
  split
  case h_1 now | h_2 now | h_3 now | h_4 now => exact absurd (by rw [now]; decide) other
  all_goals rfl

/-- A bay with power good is cut off for its DischargeWindow. -/
theorem onDeadline_powered (powered : cutAtDeadline (s.stateOf b)) (power : (s.bay b).inputs.pgLevel = true)
    (period : (s.intentOf b).dischargeWindow ≠ 0) : (onDeadline b s).bay b
      = (s.bay b).cutTo (s.stateOf b) .cut s.shelf.state .cutoff ((s.intentOf b).dischargeWindow * 1000) := by
  rw [onDeadline_cut powered, enterCutoff_powered rfl (unlocking_of_powered powered .cutoff) rfl power period, moved_bay,
    modBay_bay_self]

theorem moved_shelf {w : BayState} {r : Record} : (s.moved b w r t).shelf = t.shelf := by
  unfold State.moved
  split
  · exact submitAll_shelf _ _
  · exact submitAll_shelf _ _

/-- A bay without power good rests, and where it need not rest it is done at once. -/
theorem onDeadline_unpowered (powered : cutAtDeadline (s.stateOf b)) (power : (s.bay b).inputs.pgLevel = false)
    (outside : s.shelf.state ≠ .run) : ∃ st, (onDeadline b s).bay b
        = { (s.bay b).cutTo (s.stateOf b) .cut s.shelf.state st ((s.intentOf b).restInterval * 10000) with charge := 0 }
      ∧ st = if (s.intentOf b).restInterval ≠ 0 then .rest else (s.bay b).restedState := by
  rw [onDeadline_cut powered, enterCutoff_unpowered rfl (unlocking_of_powered powered .cutoff) rfl power]
  generalize rested : submitAll _ (setCharge b 0 _) = u
  have bay : u.bay b = { (s.bay b).cutTo (s.stateOf b) .cut s.shelf.state .rest ((s.intentOf b).restInterval * 10000) with
      charge := 0 } := by
    rw [← rested, submitAll_bay, setCharge_bay_self, moved_bay, modBay_bay_self]
  have shelf : u.shelf = s.shelf := by
    rw [← rested, submitAll_shelf, setCharge_moved, moved_shelf]
    rfl
  refine ⟨_, ?_, rfl⟩
  rw [(restIfZero_outside (by rw [stateOf_eq, bay]; rfl) (by rwa [shelf])).1, bay]
  by_cases interval : (s.intentOf b).restInterval = 0
  · refine (if_pos (show (s.intentOf b).restInterval * 10000 = 0 by omega)).trans ?_
    rw [if_neg (by omega), interval]
    rfl
  · refine (if_neg (show ¬(s.intentOf b).restInterval * 10000 = 0 by omega)).trans ?_
    rw [if_pos interval]

/-! ## The end of the event -/

theorem quiesceTest_bay (s : State) (b : BayId) : (quiesceTest s).bay b = s.bay b
    ∨ (quiesceTest s).bay b = { s.bay b with quiesceOutcome := finalOutcome (s.bay b) } := by
  by_cases complete : s.shelf.state = .quiescing ∧ s.allComplete = true
  · right
    rw [quiesceTest_complete complete.1 complete.2, enterStandby, modShelf_bay, submitQuiesced, submit_bay]
    exact (settleOutcomes_eq s).1 b
  · left
    rw [quiesceTest_none complete]

theorem headThatFits_outside (outside : s.shelf.state ≠ .run) : headThatFits s = none := by
  cases head : headThatFits s with
  | none => rfl
  | some e =>
    obtain ⟨q, queue⟩ := headThatFits_cons head
    exact absurd ((headThatFits_iff queue).mp head).1 outside

/-- The end of an event outside RUN admits nothing; a bay that has its outcome keeps it. -/
theorem finish_outside (outside : s.shelf.state ≠ .run) (b : BayId) : ((finish s).bay b).ctx = (s.bay b).ctx
    ∧ ((finish s).bay b).charge = (s.bay b).charge ∧ ((finish s).bay b).link = (s.bay b).link
    ∧ ((s.bay b).quiesceOutcome ≠ .none → ((finish s).bay b).quiesceOutcome = (s.bay b).quiesceOutcome) := by
  rw [finish, evaluateHead_none (headThatFits_outside outside)]
  rcases quiesceTest_bay s b with same | settled
  · rw [same]
    exact ⟨rfl, rfl, rfl, fun _ => rfl⟩
  · rw [settled]
    refine ⟨rfl, rfl, rfl, fun chosen => ?_⟩
    rw [finalOutcome_eq, if_pos chosen]

theorem finish_deadline (outside : s.shelf.state ≠ .run) (stopped : s.shelf.deadlineTimer = none) :
    (finish s).shelf.deadlineTimer = none := by
  rw [finish, evaluateHead_none (headThatFits_outside outside)]
  unfold quiesceTest
  split
  · rfl
  · exact stopped

/-- Settles O38: the deadline finds each bay as it was at the event, and the shelf in QUIESCING. -/
theorem quiesceDeadline : Obligations.QuiesceDeadline := by
  unfold Obligations.QuiesceDeadline
  intro s quiescing expired
  obtain ⟨shelf, bays⟩ := forBays_at (f := onDeadline) (s := modShelf (fun h => { h with deadlineTimer := none }) s)
    (keep := fun t => t.shelf = { s.shelf with deadlineTimer := none })
    (fun b t h => ((Touches.refl everyBay t).onDeadline trivial).shelf.trans h)
    (fun b c t _ other => ((Touches.refl (only b) t).onDeadline (show only b b from rfl)).others c other) rfl
  refine ⟨_, congrArg Host.Outcome.next (if_pos ⟨quiescing, expired⟩), ?_⟩
  unfold deadlineExpiry
  generalize forBays onDeadline _ = u at shelf bays
  have outside : u.shelf.state ≠ .run := by
    rw [shelf]
    exact fun same => nomatch quiescing.symm.trans same
  refine ⟨finish_deadline outside (by rw [shelf]), fun b powered power period => ?_, fun b powered power => ?_,
    fun b other => ?_⟩
  all_goals
    obtain ⟨ctx, charge, link, outcome⟩ := finish_outside outside b
    obtain ⟨t, before, same, final⟩ := bays b
    have now : t.shelf.state = .quiescing := by rw [before]; exact quiescing
    rw [modShelf_bay] at same
    have state : t.stateOf b = s.stateOf b := by rw [stateOf_eq, same, stateOf_eq]
    have intent : t.intentOf b = s.intentOf b := by rw [intentOf_eq, same, intentOf_eq]
  · have bay := onDeadline_powered (s := t) (b := b) (by rwa [state]) (by rwa [same]) (by rwa [intent])
    rw [state, intent, same, now, ← final] at bay
    rw [stateOf_eq, ctx, charge, outcome (by rw [bay]; exact fun unset => nomatch unset), bay]
    exact ⟨rfl, rfl, rfl, rfl⟩
  · obtain ⟨st, bay, rests⟩ := onDeadline_unpowered (s := t) (b := b) (by rwa [state]) (by rwa [same])
      (by rw [now]; exact fun run => nomatch run)
    rw [state, intent, same, now, ← final] at bay
    rw [intent, same] at rests
    rw [stateOf_eq, ctx, charge, outcome (by rw [bay]; exact fun unset => nomatch unset), bay]
    exact ⟨rests, rfl, rfl, rfl⟩
  · rw [onDeadline_other (by rwa [state]), same] at final
    rw [ctx, charge, link, final]
    exact ⟨rfl, rfl, rfl⟩

end Sys2Proof.Machine

/-! A shelf commit that is accepted: its figures, then its Mode. The statement O21. -/

namespace Sys2Proof.Machine

variable {s t : State} {b : BayId} {m : Mode}

/-! ## Entry into RUN, bay by bay (R168) -/

theorem reconcile_off (off : s.stateOf b = .off) : reconcile b s = reconcileOff b s := by
  unfold reconcile
  rw [off]

theorem reconcile_on (on : s.stateOf b = .on) : reconcile b s = reconcileOn b s := by
  unfold reconcile
  rw [on]

theorem reconcile_other (notOff : s.stateOf b ≠ .off) (notOn : s.stateOf b ≠ .on) : reconcile b s = s := by
  unfold reconcile
  split
  · next off => exact absurd off notOff
  · next on => exact absurd on notOn
  all_goals rfl

theorem touches_reconcile (r : State) (b : BayId) (t : State) (h : Touches everyBay r t) :
    Touches everyBay r (reconcile b t) := by
  by_cases off : t.stateOf b = .off
  · rw [reconcile_off off]
    exact h.reconcileOff trivial
  · by_cases on : t.stateOf b = .on
    · rw [reconcile_on on]
      exact h.reconcileOn trivial
    · rw [reconcile_other off on]
      exact h

/-! ## The Mode taken (R166) -/

/-- The state to which a committed Mode takes the shelf. -/
def Mode.takes (m : Mode) (w : ShelfState) : ShelfState :=
  match w, m with
  | .held, .run | .standby, .run => .run
  | .run, .hold | .standby, .hold => .held
  | .held, .quiesce | .run, .quiesce => .quiescing
  | w, _ => w

/-- The Modes that a state of the shelf takes. -/
def Mode.taken : List (Mode × ShelfState) :=
  [(.run, .held), (.run, .standby), (.hold, .run), (.hold, .standby), (.quiesce, .held), (.quiesce, .run)]

theorem takeMode_run (state : s.shelf.state ∈ [.held, .standby]) : takeMode .run s = enterRun s := by
  simp only [List.mem_cons, List.not_mem_nil, or_false] at state
  unfold takeMode
  rcases state with now | now <;> rw [now]

theorem takeMode_hold (state : s.shelf.state ∈ [.run, .standby]) : takeMode .hold s = enterHeld s := by
  simp only [List.mem_cons, List.not_mem_nil, or_false] at state
  unfold takeMode
  rcases state with now | now <;> rw [now]

theorem takeMode_quiesce (state : s.shelf.state ∈ [.held, .run]) : takeMode .quiesce s = enterQuiescing s := by
  simp only [List.mem_cons, List.not_mem_nil, or_false] at state
  unfold takeMode
  rcases state with now | now <;> rw [now]

theorem takeMode_stays (other : (m, s.shelf.state) ∉ Mode.taken) : takeMode m s = s := by
  unfold takeMode
  split
  case h_7 => rfl
  all_goals
    next now =>
      rw [now] at other
      exact absurd (by decide) other

theorem takes_stays {w : ShelfState} (other : (m, w) ∉ Mode.taken) : m.takes w = w := by
  revert other
  cases m <;> cases w <;> decide

theorem enterHeld_eq (s : State) : enterHeld s = { s with shelf := { s.shelf with state := .held } } := rfl

/-- A committed Mode changes the state of the shelf and its deadline; the rest is the bays' part. -/
theorem touches_enterRun (s : State) :
    Touches everyBay { s with shelf := { s.shelf with state := .run } } (enterRun s) :=
  (touches_forBays reconcile touches_reconcile _).trans (touches_evaluateHead _)

theorem touches_enterQuiescing (s : State) : Touches everyBay { s with shelf := { s.shelf with
    state := .quiescing, deadlineTimer := some (s.shelf.context.quiesceDeadline * 100000) } } (enterQuiescing s) := by
  have deadline : ms (deadlineMs s.shelf.context) = s.shelf.context.quiesceDeadline * 100000 := by
    unfold ms deadlineMs
    omega
  rw [← deadline]
  have shelfFirst : beginQuiesce s = setQueue [] (forBays (fun b => modBay b (fun y => { y with quiesceOutcome := .none }))
      (modShelf (fun h => { h with state := .quiescing, deadlineTimer := some (ms (deadlineMs h.context)) }) s)) :=
    congrArg (setQueue []) (List.foldl_hom (modShelf fun h =>
      { h with state := .quiescing, deadlineTimer := some (ms (deadlineMs h.context)) }) fun _ _ => rfl).symm
  have blank := touches_forBays (fun b => modBay b (fun y => { y with quiesceOutcome := .none }))
    (fun _ _ t k => k.trans (touches_modBay trivial _ t rfl (fun x => x) (fun x => x)))
    (modShelf (fun h => { h with state := .quiescing, deadlineTimer := some (ms (deadlineMs h.context)) }) s)
  have emptied := blank.trans (touches_setQueue [] _ (fun _ apart => absurd trivial apart) fun _ => List.Pairwise.nil)
  rw [← shelfFirst] at emptied
  exact emptied.trans (touches_forBays (quiescePart s) (fun _ b t k => k.trans ((touches_quiescePart s b t).mono fun _ _ => trivial)) _)

/-- A committed Mode in the whole: what the bays do after it does not touch the shelf. -/
theorem touches_takeMode (m : Mode) (s : State) : ∃ d, Touches everyBay
    { s with shelf := { s.shelf with state := m.takes s.shelf.state, deadlineTimer := d } } (takeMode m s) := by
  by_cases takes : (m, s.shelf.state) ∈ Mode.taken
  · simp only [Mode.taken, List.mem_cons, Prod.mk.injEq, List.not_mem_nil, or_false] at takes
    rcases takes with ⟨rfl, now⟩ | ⟨rfl, now⟩ | ⟨rfl, now⟩ | ⟨rfl, now⟩ | ⟨rfl, now⟩ | ⟨rfl, now⟩
    case inl | inr.inl =>
      rw [takeMode_run (by rw [now]; decide), now]
      exact ⟨_, touches_enterRun s⟩
    case inr.inr.inl | inr.inr.inr.inl =>
      rw [takeMode_hold (by rw [now]; decide), now]
      exact ⟨_, Touches.refl _ _⟩
    all_goals
      rw [takeMode_quiesce (by rw [now]; decide), now]
      exact ⟨_, touches_enterQuiescing s⟩
  · rw [takeMode_stays takes, takes_stays takes]
    exact ⟨_, Touches.refl _ _⟩

/-! ## The commit in its parts -/

/-- The state in which the pool is recomputed: the context and its figures are committed. -/
def State.contextCopied (s : State) : State := { s with
  shelf := { s.shelf with context := s.windowContext, applied := Memory.read s.window 0x0F }
  pool := { s.pool with budget := s.shelfWord 2, reserve := s.shelfWord 4, lowBudget := s.shelfWord 6 } }

theorem commitShelf_eq (accepted : firstFailure (shelfTests s) = none) : commitShelf s
    = takeMode s.windowContext.mode (evaluateHead (recomputeBudget .commit s.contextCopied)) :=
  commitShelf_accepted accepted

theorem windowContext_eq (s : State) (byte word : Nat → Nat) (bytes : ∀ o, byte o = (Memory.read s.window o).toNat)
    (words : ∀ o, word o = byte o + 256 * byte (o + 1)) : s.windowContext = {
      mode := if byte 0x00 = 1 then .run else if byte 0x00 = 2 then .quiesce else .hold
      quiesceDeadline := byte 0x01, budget := word 0x02, reserve := word 0x04, lowBudget := word 0x06
      holdoff := byte 0x08, blinkHalfPeriod := byte 0x09, wakeEnable := decide (byte 0x0A = 1) } := by
  have byteAt : ∀ o, s.shelfByte o = byte o := fun o => by
    rw [bytes, State.shelfByte, show shelfBase + o = o from Nat.zero_add o]
  have wordAt : ∀ o, s.shelfWord o = word o := fun o => by
    rw [words, bytes, bytes, State.shelfWord, show shelfBase + o = o from Nat.zero_add o, Memory.read16]
  unfold State.windowContext
  rw [byteAt, byteAt, byteAt, byteAt, byteAt, wordAt, wordAt, wordAt, mode_getD]
  rfl

theorem recomputeBudget_touches (cause : BudgetCause) (s : State) : Touches everyBay
    (setEffective (derivedBudget s.pool) s) (evaluateHead (recomputeBudget cause s)) :=
  (touches_recompute cause s).trans (touches_evaluateHead _)

/-- Settles O21: the pool takes the new figures, then the Mode is taken in the state so reached. -/
theorem shelfCommitAccepted : Obligations.ShelfCommitAccepted := by
  unfold Obligations.ShelfCommitAccepted
  refine ⟨windowContext_eq, fun s accepted => ?_⟩
  have whole := commitShelf_eq accepted
  have figures := recomputeBudget_touches .commit s.contextCopied
  generalize pool : evaluateHead (recomputeBudget .commit s.contextCopied) = u at whole figures
  obtain ⟨d, mode⟩ := touches_takeMode s.windowContext.mode u
  generalize taken : takeMode s.windowContext.mode u = t at whole mode
  have shelf : u.shelf = { s.shelf with context := s.windowContext, applied := Memory.read s.window 0x0F } := figures.shelf
  have state : u.shelf.state = s.shelf.state := by rw [shelf]
  rw [whole, mode.shelf, mode.budget, mode.reserve, mode.lowBudget, mode.effective, mode.supply, mode.pending, mode.enable,
    shelf]
  refine ⟨rfl, rfl, figures.budget, figures.reserve, figures.lowBudget, figures.effective, rfl, figures.supply,
    figures.pending, figures.enable, ?_, ?_⟩
  · unfold Mode.takes
    cases s.shelf.state <;> cases s.windowContext.mode <;> rfl
  · intro st m v hst hm hv
    obtain rfl : v = u := hv.trans pool
    rw [← hm] at taken
    rw [hst, ← state, ← taken]
    refine ⟨fun run from_ => ?_, fun hold from_ => ?_, fun quiesce from_ => ?_, takeMode_stays⟩
    · rw [run, takeMode_run from_]
      refine congrArg evaluateHead (List.foldl_ext _ _ _ fun t b _ => ?_)
      split
      · next off => exact reconcile_off off
      · next notOff =>
        split
        · next on => exact reconcile_on on
        · next notOn => exact reconcile_other notOff notOn
    · rw [hold, takeMode_hold from_, enterHeld_eq]
    · rw [quiesce, takeMode_quiesce from_]

end Sys2Proof.Machine

/-! INIT ends: the bays rest, each with the records that the reset owes. The statement O33. -/

namespace Sys2Proof.Machine

variable {s t u : State} {b : BayId}

theorem aside_withBays (v : Vector Bay 16) : Aside fun s => { s with bays := v } := by constructor <;> intros <;> rfl

theorem submitAll_withBays (l : List Record) (v : Vector Bay 16) (s : State) :
    { submitAll l s with bays := v } = submitAll l { s with bays := v } := by
  induction l generalizing s with
  | nil => rfl
  | cons r l ih => exact (ih (submit r s)).trans (congrArg (submitAll l) ((aside_withBays v).submit r s).symm)

/-- Where each bay's part submits records and changes that bay, all of it is the records, then the bays. -/
theorem foldl_submits {f : BayId → State → State} {g : Bay → Bay} {records : BayId → List Record} (l : List BayId)
    (each : l.Nodup) (part : ∀ b ∈ l, ∀ u : State, u.bay b = s.bay b →
      f b u = submitAll (records b) (modBay b g u)) (bays : ∀ b ∈ l, t.bay b = s.bay b) :
    l.foldl (fun u b => f b u) t = submitAll (l.flatMap records) (l.foldl (fun u b => modBay b g u) t) := by
  induction l generalizing t with
  | nil => rfl
  | cons a l ih =>
    obtain ⟨fresh, rest⟩ := List.nodup_cons.mp each
    have first := part a List.mem_cons_self t (bays a List.mem_cons_self)
    have later := ih (t := submitAll (records a) (modBay a g t)) rest (fun b hb => part b (List.mem_cons_of_mem a hb)) fun b hb => by
        have other : b ≠ a := fun same => fresh (same ▸ hb)
        rw [submitAll_bay, modBay_bay_ne other]
        exact bays b (List.mem_cons_of_mem a hb)
    have commute : l.foldl (fun u b => modBay b g u) (submitAll (records a) (modBay a g t))
        = submitAll (records a) (l.foldl (fun u b => modBay b g u) (modBay a g t)) :=
      List.foldl_hom (submitAll (records a)) fun u b => (submitAll_modBay (records a) b g u).symm
    rw [List.foldl_cons, first, later, commute, List.flatMap_cons, List.foldl_cons, submitAll_append]

/-- A bay as HELD is entered: in REST, or out of it where the rest period is 0. -/
def Bay.heldEntry (y : Bay) : Bay := { y with
  ctx := { y.ctx with state := if y.ctx.phaseTimer = 0 then .empty else .rest }
  owedParcel := none }

theorem heldEntry_ends {y : Bay} (timer : y.ctx.phaseTimer = 0) :
    Bay.inState .empty 0 { y with owedParcel := none } = y.heldEntry := by
  unfold Bay.heldEntry
  rw [if_pos timer]
  exact congrArg (fun n => Bay.inState .empty n { y with owedParcel := none }) timer.symm

theorem heldEntry_rests {y : Bay} (timer : y.ctx.phaseTimer ≠ 0) (rest : y.ctx.state = .rest) :
    { y with owedParcel := none } = y.heldEntry := by
  unfold Bay.heldEntry
  rw [if_neg timer, ← rest]

/-- The records that a bay owes as HELD is entered. -/
def owedRecords (s : State) (b : BayId) : List Record :=
  abandonedRecords b .reset (s.bay b).owedParcel ++ [.state b (s.bay b).resetOldState .rest .reset false]
    ++ (if (s.bay b).ctx.phaseTimer = 0 then [.state b .rest .empty .restDone false] else [])

theorem startRest_eq (rest : s.stateOf b = .rest) (absent : (s.bay b).inputs.presConfirmed = false) :
    startRest b s = submitAll (owedRecords s b) (modBay b Bay.heldEntry s) := by
  have reset : startRest b s = restIfZero b (submitAll (abandonedRecords b .reset (s.bay b).owedParcel
      ++ [.state b (s.bay b).resetOldState .rest .reset false]) (modBay b (fun y => { y with owedParcel := none }) s)) := by
    unfold startRest submitReset submitOwed
    rw [submitAbandoned_eq, modBay_bay_self, submitAll_bay, ← submitAll_modBay, submitAll_append]
    rfl
  rw [reset]
  generalize owed : abandonedRecords b .reset (s.bay b).owedParcel ++ [.state b (s.bay b).resetOldState .rest .reset false] = l
  have bay : (submitAll l (modBay b (fun y => { y with owedParcel := none }) s)).bay b
      = { s.bay b with owedParcel := none } := by
    rw [submitAll_bay, modBay_bay_self]
  unfold owedRecords restIfZero
  rw [owed, bay]
  by_cases timer : (s.bay b).ctx.phaseTimer = 0
  · rw [if_pos timer, if_pos timer, endRest_absent (by rw [stateOf_eq, bay]; exact rest) (by rw [bay]; exact absent),
      ← submitAll_modBay, modBay_modBay, submitAll_append]
    exact congrArg (submitAll _) (congrArg (submitAll _) (modBay_congr b _ _ s (heldEntry_ends timer)))
  · rw [if_neg timer, if_neg timer, List.append_nil]
    exact congrArg (submitAll _) (modBay_congr b _ _ s (heldEntry_rests timer rest))

theorem read_clearedWindow (scope : ClearScope) (w : Memory) (a : Nat) :
    Memory.read (clearedWindow scope w) a = if scope = .partOwned ∧ a < 0x1000 then Memory.read w a else 0 := by
  cases scope with
  | whole =>
    rw [if_neg fun h => nomatch h.1]
    rfl
  | partOwned =>
    refine (Memory.read_clearFrom w Config.ringBase a).trans ?_
    by_cases below : a < 0x1000
    · exact (if_pos below).trans (if_pos ⟨rfl, below⟩).symm
    · exact (if_neg below).trans (if_neg fun h => below h.2).symm

/-- A submission writes in the ring alone. -/
theorem submitAll_below {l : List Record} {a : Nat} (below : a < 0x1000) (s : State) :
    Memory.read (submitAll l s).window a = Memory.read s.window a := by
  induction l generalizing s with
  | nil => rfl
  | cons r l ih =>
    have own := ((Touches.refl (fun _ => False) s).submit r).below a below fun _ none => none.elim
    rw [submitAll_cons, ih, own]

/-- Settles O33: each bay's part submits its records and takes the bay out of INIT. -/
theorem initEnds : Obligations.InitEnds := by
  unfold Obligations.InitEnds
  intro s records init expired resting owed
  have list : records = allBays.flatMap (owedRecords s) := by
    rw [owed]
    refine List.flatMap_congr fun b _ => ?_
    unfold owedRecords abandonedRecords
    cases (s.bay b).owedParcel <;> rfl
  have leave : (∀ b, (leaveInit s).bay b = s.bay b) := fun _ => rfl
  have part : endInit s = submitAll records (forBays (fun b => modBay b Bay.heldEntry) (leaveInit s)) := by
    rw [list]
    unfold endInit forBays
    refine foldl_submits (s := s) allBays (List.nodup_finRange 16) (fun b _ u same => ?_) fun b _ => leave b
    obtain ⟨rest, absent⟩ := resting b
    have owes : owedRecords u b = owedRecords s b := by
      unfold owedRecords
      rw [same]
    rw [startRest_eq (by rw [stateOf_eq, same]; exact rest) (by rw [same]; exact absent), owes]
  obtain ⟨bays, v, rest⟩ := forBays_modBay Bay.heldEntry (leaveInit s)
  refine ⟨_, clearedWindow s.shelf.clearScope s.window, congrArg Host.Outcome.next (if_pos ⟨init, expired⟩),
    read_clearedWindow _ _, ?_, ?_, ?_⟩
  · rw [part, submitAll_withBays, rest]
    rfl
  · intro b
    rw [part, submitAll_bay, bays, leave]
    rfl
  · intro a below
    rw [part, submitAll_below below, rest]
    rfl

end Sys2Proof.Machine

/-! What an append writes, and where: the GAP, the PAD and the record, and the causes it sets. -/

namespace Sys2Proof.Machine

variable {s : State} {j : Journal} {m : Memory} {time : BitVec 32} {kind n : Nat} {bay : Byte} {body : List Byte}

/-! ## Runs of bytes in the window -/

theorem Memory.readBytes_writeBytes (m : Memory) (a : Nat) (l : List Byte) (wf : Memory.wf m) :
    Memory.readBytes (m.writeBytes a l) a l.length = l := by
  refine List.ext_getElem (by simp [Memory.readBytes]) fun i left right => ?_
  simp only [Memory.readBytes, List.getElem_map, List.getElem_range]
  exact Memory.read_writeBytes m a i l wf right

theorem Memory.readBytes_writeBytes_other (m : Memory) {a c k : Nat} {l : List Byte}
    (apart : a + k ≤ c ∨ c + l.length ≤ a ∨ l = []) :
    Memory.readBytes (m.writeBytes c l) a k = Memory.readBytes m a k := by
  refine List.map_congr_left fun i inside => ?_
  have below := List.mem_range.mp inside
  rcases apart with before | after | rfl
  · exact Memory.read_writeBytes_other m c _ l (.inl (by omega))
  · exact Memory.read_writeBytes_other m c _ l (.inr (by omega))
  · rfl

/-! ## The three pieces -/

/-- The GAP that an append writes first: what it owes, or nothing. -/
def Journal.gapPiece (j : Journal) : List Byte := if j.overflow then gapBytes j.stamp j.lost j.shelfTime else []

/-- The Stamp that follows the GAP. -/
def Journal.padStamp (j : Journal) : Byte := j.stamp + if j.overflow then 1 else 0

/-- The PAD that an append of a record of a length writes next, or nothing. -/
def Journal.padPiece (j : Journal) (n : Nat) : List Byte :=
  if j.padLength n = 0 then [] else recordBytes padKind 255 j.padStamp j.shelfTime [] (j.padLength n)

/-- The Stamp of the record. -/
def Journal.recordStamp (j : Journal) (n : Nat) : Byte := j.padStamp + if j.padLength n = 0 then 0 else 1

theorem recordBytes_length (kind : Nat) (bay stamp : Byte) (time : BitVec 32) (body : List Byte) (n : Nat) :
    (recordBytes kind bay stamp time body n).length = n := padTo_length _ _

theorem gapPiece_length (j : Journal) : j.gapPiece.length = j.gapLength := by
  unfold Journal.gapPiece Journal.gapLength
  split <;> rfl

theorem padPiece_length (j : Journal) (n : Nat) : (j.padPiece n).length = j.padLength n := by
  unfold Journal.padPiece
  split
  · next unpadded => exact unpadded.symm
  · exact recordBytes_length ..

/-- The window after an append. -/
def Journal.written (j : Journal) (kind : Nat) (bay : Byte) (time : BitVec 32) (body : List Byte) (n : Nat) (m : Memory) :
    Memory :=
  (((m.writeBytes (0x1000 + j.head) j.gapPiece).writeBytes (0x1000 + j.recordStart) (j.padPiece n)).writeBytes
    (0x1000 + j.recordOffset n) (recordBytes kind bay (j.recordStamp n) time body n))

/-- The Writer after an append, but for its timer. -/
def Journal.appended (j : Journal) (n : Nat) : Journal :=
  { Journal.advance (j.gapLength + j.padLength n + n) j with
    stamp := j.recordStamp n + 1, lost := if j.overflow then 0 else j.lost, overflow := false }

theorem writeGap_eq (s : State) : writeGap s = { s with
    window := s.window.writeBytes (0x1000 + s.journal.head) s.journal.gapPiece
    journal := { s.journal with stamp := s.journal.padStamp } } := by
  unfold writeGap Journal.gapPiece Journal.padStamp
  cases owed : s.journal.overflow
  · rw [if_neg Bool.false_ne_true, if_neg Bool.false_ne_true, if_neg Bool.false_ne_true, add_zero]
    rfl
  · rfl

theorem writePad_eq (s : State) (offset length : Nat) : writePad offset length s = { s with
    window := s.window.writeBytes (0x1000 + offset)
      (if length = 0 then [] else recordBytes padKind 255 s.journal.stamp s.journal.shelfTime [] length)
    journal := { s.journal with stamp := s.journal.stamp + if length = 0 then 0 else 1 } } := by
  unfold writePad
  by_cases unpadded : length = 0
  · rw [if_pos unpadded, if_pos unpadded, if_pos unpadded, add_zero]
    rfl
  · rw [if_neg unpadded, if_neg unpadded, if_neg unpadded]
    rfl

/-- An append as a whole. -/
theorem appendAt_eq (s : State) : appendAt s.journal kind bay time body n s = causeAfterAppend s.journal.unread { s with
    window := s.journal.written kind bay time body n s.window, journal := s.journal.appended n } := by
  unfold appendAt writeRecord
  rw [writeGap_eq, writePad_eq]
  rfl

/-! ## Where the pieces lie -/

/-- The GAP begins at Head and does not wrap; the record begins behind it, or at 0 behind a PAD that ends the ring. -/
theorem layout (positions : j.positionsOk) (fits : j.fits n = true) :
    j.head < 4096 ∧ j.head + j.gapLength ≤ 4096 ∧ j.recordStart = (j.head + j.gapLength) % 4096
      ∧ j.gapLength + j.padLength n + n + 8 ≤ 4096
      ∧ (j.padLength n = 0 ∧ j.recordOffset n = j.recordStart ∧ j.recordStart + n ≤ 4096
        ∨ j.padLength n ≠ 0 ∧ j.recordOffset n = 0 ∧ j.recordStart + j.padLength n = 4096) := by
  obtain ⟨aligned, inside, -, -, -⟩ := positions
  have size : Config.ringSize = 4096 := rfl
  have room := j.fits_room n fits
  have gap : j.gapLength = 0 ∨ j.gapLength = 8 := by
    unfold Journal.gapLength
    split
    · exact .inr rfl
    · exact .inl rfl
  have start : j.recordStart < 4096 := Nat.mod_lt _ (by decide)
  have pad : j.padLength n = if n ≤ 4096 - j.recordStart then 0 else 4096 - j.recordStart := rfl
  refine ⟨by omega, by omega, rfl, by omega, ?_⟩
  by_cases short : n ≤ 4096 - j.recordStart
  · rw [if_pos short] at pad
    exact .inl ⟨pad, if_pos pad, by omega⟩
  · rw [if_neg short] at pad
    exact .inr ⟨by omega, if_neg (by omega), by omega⟩

theorem read_written_record (window : Memory.wf m) (j : Journal) :
    Memory.readBytes (j.written kind bay time body n m) (0x1000 + j.recordOffset n) n
      = recordBytes kind bay (j.recordStamp n) time body n := by
  have read := Memory.readBytes_writeBytes ((m.writeBytes (0x1000 + j.head) j.gapPiece).writeBytes (0x1000 + j.recordStart)
    (j.padPiece n)) (0x1000 + j.recordOffset n) (recordBytes kind bay (j.recordStamp n) time body n)
    (Memory.wf_writeBytes _ _ _ (Memory.wf_writeBytes _ _ _ window))
  rwa [recordBytes_length] at read

theorem read_written_pad (window : Memory.wf m) (positions : j.positionsOk) (fits : j.fits n = true)
    (padded : j.padLength n ≠ 0) :
    Memory.readBytes (j.written kind bay time body n m) (0x1000 + j.recordStart) (j.padLength n)
      = recordBytes padKind 255 j.padStamp j.shelfTime [] (j.padLength n) := by
  obtain ⟨-, -, -, room, place⟩ := layout positions fits
  have read := Memory.readBytes_writeBytes (m.writeBytes (0x1000 + j.head) j.gapPiece) (0x1000 + j.recordStart)
    (j.padPiece n) (Memory.wf_writeBytes _ _ _ window)
  have piece : j.padPiece n = recordBytes padKind 255 j.padStamp j.shelfTime [] (j.padLength n) := if_neg padded
  unfold Journal.written
  rw [Memory.readBytes_writeBytes_other _ (by rw [recordBytes_length]; omega)]
  rw [padPiece_length] at read
  exact read.trans piece

theorem read_written_gap (window : Memory.wf m) (positions : j.positionsOk) (fits : j.fits n = true) :
    Memory.readBytes (j.written kind bay time body n m) (0x1000 + j.head) j.gapLength = j.gapPiece := by
  obtain ⟨head, gap, start, room, place⟩ := layout positions fits
  have read := Memory.readBytes_writeBytes m (0x1000 + j.head) j.gapPiece window
  unfold Journal.written
  rw [Memory.readBytes_writeBytes_other _ (by rw [recordBytes_length]; omega),
    Memory.readBytes_writeBytes_other _ (by rw [padPiece_length]; omega)]
  rwa [gapPiece_length] at read

/-- An append writes nowhere but in the bytes behind Head that it takes. -/
theorem read_written_other (positions : j.positionsOk) (fits : j.fits n = true) {a : Nat}
    (apart : ∀ i, i < j.gapLength + j.padLength n + n → a ≠ 0x1000 + (j.head + i) % 4096) :
    Memory.read (j.written kind bay time body n m) a = Memory.read m a := by
  obtain ⟨head, gap, start, room, place⟩ := layout positions fits
  have outside : ∀ c k first, first + k ≤ j.gapLength + j.padLength n + n →
      (∀ i, i < k → (j.head + (first + i)) % 4096 = c + i) → a < 0x1000 + c ∨ 0x1000 + c + k ≤ a := by
    intro c k first inside covers
    by_contra within
    obtain ⟨i, rfl⟩ : ∃ i, a = 0x1000 + c + i := ⟨a - (0x1000 + c), by omega⟩
    exact apart (first + i) (by omega) (by rw [covers i (by omega)]; omega)
  unfold Journal.written
  rw [Memory.read_writeBytes_other, Memory.read_writeBytes_other, Memory.read_writeBytes_other]
  · rw [gapPiece_length]
    exact outside _ _ 0 (by omega) fun i below => by omega
  · rw [padPiece_length]
    exact outside _ _ j.gapLength (by omega) fun i below => by omega
  · rw [recordBytes_length]
    exact outside _ _ (j.gapLength + j.padLength n) (by omega) fun i below => by omega

/-! ## The Writer after it -/

theorem appended_unread (positions : j.positionsOk) (fits : j.fits n = true) :
    (j.appended n).unread = j.unread + (j.gapLength + j.padLength n + n) := by
  have room := j.fits_room n fits
  exact Journal.unread_advance _ j positions (by
    have size : Config.ringSize = 4096 := rfl
    omega)

theorem appended_head (j : Journal) (n : Nat) :
    (j.appended n).head = (j.head + (j.gapLength + j.padLength n + n)) % 4096 := by
  show (ringPosition j.head j.headWrap + _) % 8192 % 4096 = _
  unfold ringPosition
  have size : Config.ringSize = 4096 := rfl
  split <;> omega

/-! ## The JOURNAL cause (R157, R158) -/

/-- The timer after an append, of which `before` is what was unread. -/
def State.timerAfter (s : State) (before : Nat) : Option Nat :=
  if 2048 ≤ s.journal.unread then none
  else if before = 0 ∧ s.attnPending.journal = false ∧ s.shelf.context.holdoff ≠ 0 then
    some (s.shelf.context.holdoff * 1000)
  else s.journal.holdoffTimer

theorem causeAfterAppend_eq (before : Nat) (grows : 0 < s.journal.unread) : causeAfterAppend before s = { s with
    attnPending := { s.attnPending with journal := s.attnPending.journal
      || (before == 0 && s.shelf.context.holdoff == 0) || decide (2048 ≤ s.journal.unread) }
    journal := { s.journal with holdoffTimer := s.timerAfter before } } := by
  have started : (if before = 0 ∧ 0 < s.journal.unread ∧ s.attnPending.journal = false then startHoldoff s else s)
      = { s with
        attnPending := { s.attnPending with
          journal := s.attnPending.journal || (before == 0 && s.shelf.context.holdoff == 0) }
        journal := { s.journal with
          holdoffTimer := if before = 0 ∧ s.attnPending.journal = false ∧ s.shelf.context.holdoff ≠ 0 then
            some (s.shelf.context.holdoff * 1000) else s.journal.holdoffTimer } } := by
    by_cases first : before = 0
    · cases set : s.attnPending.journal
      · rw [if_pos ⟨first, grows, rfl⟩]
        unfold startHoldoff
        by_cases immediate : s.shelf.context.holdoff = 0
        · rw [if_pos immediate, if_neg fun h => h.2.2 immediate, first, immediate]
          rfl
        · rw [if_neg immediate, if_pos ⟨first, rfl, immediate⟩, beq_false_of_ne immediate, Bool.and_false, Bool.or_false, ← set]
          rfl
      · rw [if_neg (fun h => nomatch h.2.2), if_neg (fun h => nomatch h.2.1), Bool.true_or, ← set]
    · rw [if_neg fun h => first h.1, if_neg fun h => first h.1, beq_false_of_ne first, Bool.false_and, Bool.or_false]
  unfold causeAfterAppend
  dsimp only
  rw [started]
  unfold State.timerAfter
  by_cases half : 2048 ≤ s.journal.unread
  · rw [if_pos half, decide_eq_true half, Bool.or_true]
    exact if_pos half
  · rw [if_neg half, decide_eq_false half, Bool.or_false]
    exact if_neg half

/-- An append that fits, in the whole. -/
theorem appendAt_fits (positions : s.journal.positionsOk) (fits : s.journal.fits n = true) (long : 0 < n) :
    appendAt s.journal kind bay time body n s = { s with
      window := s.journal.written kind bay time body n s.window
      attnPending := { s.attnPending with journal := s.attnPending.journal
        || (s.journal.unread == 0 && s.shelf.context.holdoff == 0) || decide (2048 ≤ (s.journal.appended n).unread) }
      journal := { s.journal.appended n with
        holdoffTimer := { s with journal := s.journal.appended n }.timerAfter s.journal.unread } } := by
  rw [appendAt_eq]
  refine causeAfterAppend_eq _ ?_
  show 0 < (s.journal.appended n).unread
  rw [appended_unread positions fits]
  omega

end Sys2Proof.Machine

/-! Every submission to the Journal Writer: the bytes of a record, and what becomes of it. The statement O54. -/

namespace Sys2Proof.Machine

variable {s : State} {j : Journal} {n : Nat}

/-! ## The bytes of a record (R148, R149) -/

theorem padTo_of_le {n : Nat} {l : List Byte} (short : l.length ≤ n) : padTo n l = l ++ List.replicate (n - l.length) 0 :=
  List.take_of_length_le (by rw [List.length_append, List.length_replicate]; omega)

theorem padTo_eq_take (n : Nat) (l : List Byte) : padTo n l = (l ++ List.replicate n 0).take n := by
  rw [padTo, List.take_append, List.take_append, List.take_replicate, List.take_replicate, min_self,
    min_eq_left (Nat.sub_le _ _)]

theorem padTo_hello (event : Byte) (h : HelloFields) : padTo 16 (event :: h.moduleClass :: h.linkRevision :: 0#8 :: h.identity)
    = [event, h.moduleClass, h.linkRevision, 0] ++ (h.identity ++ List.replicate 12 0).take 12 := by
  rw [← padTo_eq_take, padTo, padTo, List.length_cons, List.length_cons, List.length_cons, List.length_cons,
    show 16 - (h.identity.length + 1 + 1 + 1 + 1) = 12 - h.identity.length by omega]
  rfl

theorem recordBytes_eq (kind length : Nat) (bay stamp : Byte) (time : BitVec 32) (body : List Byte)
    (room : 8 + body.length ≤ length) : recordBytes kind bay stamp time body length
      = [BitVec.ofNat 8 kind, BitVec.ofNat 8 (length / 8), bay, stamp] ++ le32 time.toNat ++ body
        ++ List.replicate (length - (8 + body.length)) 0 := by
  have size : ([byteOf kind, byteOf (length / 8), bay, stamp] ++ le32 time.toNat ++ body).length = 8 + body.length := by
    simp only [List.length_append, le32, List.length_cons, List.length_nil]
  unfold recordBytes
  rw [padTo_of_le (by rw [size]; exact room), size]
  rfl

theorem record_format (r : Record) : r.length = (8 + r.body.length + 7) / 8 * 8 ∧ 8 ≤ r.length := by
  have length : r.length = (8 + r.body.length + 7) / 8 * 8 := rfl
  exact ⟨length, by omega⟩

/-! ## A submission (R151 to R154) -/

/-- The positions in figures (R147, R151). -/
theorem journal_figures (j : Journal) (n start : Nat) (at_ : start = (j.head + if j.overflow then 8 else 0) % 4096) :
    j.unread = (j.head + (if j.headWrap then 4096 else 0) + 8192 - (j.tail + if j.tailWrap then 4096 else 0)) % 8192
    ∧ j.free = 4096 - j.unread ∧ j.gapLength = (if j.overflow then 8 else 0)
    ∧ j.padLength n = (if n ≤ 4096 - start then 0 else 4096 - start)
    ∧ j.recordOffset n = (if j.padLength n = 0 then start else 0)
    ∧ (j.fits n = true ↔ j.gapLength + j.padLength n + n + 8 ≤ j.free) := by
  have begins : j.recordStart = start := by rw [at_]; rfl
  refine ⟨rfl, rfl, rfl, ?_, ?_, decide_eq_true_iff⟩
  · rw [← begins]
    rfl
  · rw [← begins]
    rfl

theorem submit_lost {r : Record} (lost : s.journal.waitingSnapshot.isSome = true
      ∨ s.journal.free < s.journal.gapLength + s.journal.padLength r.length + r.length + 8) :
    submit r s = { s with
      journal := { s.journal with lost := min 65535 (s.journal.lost + 1), overflow := true }
      attnPending := { s.attnPending with overflow := s.attnPending.overflow || !s.journal.overflow } } := by
  unfold submit
  refine if_neg fun taken => ?_
  obtain ⟨free, fits⟩ := Bool.and_eq_true_iff.mp taken
  rcases lost with waits | short
  · rw [Option.isNone_iff_eq_none.mp free] at waits
    exact nomatch waits
  · exact absurd (of_decide_eq_true fits) (Nat.not_le.mpr short)

theorem submit_taken {r : Record} (free : s.journal.waitingSnapshot = none) (fits : s.journal.fits r.length = true) :
    submit r s = appendAt s.journal r.kind (bayByte r.bay) s.journal.shelfTime r.body r.length s :=
  if_pos (by rw [free, fits]; rfl)

/-- The Stamp after an append, counted from the one before. -/
theorem appended_stamp (j : Journal) (n : Nat) : (j.appended n).stamp
    = j.stamp + 1 + (if j.overflow then 1 else 0) + (if j.padLength n = 0 then 0 else 1) := by
  show j.stamp + _ + _ + 1 = _
  ring

theorem appended_stamp_record (j : Journal) (n : Nat) : (j.appended n).stamp - 1 = j.recordStamp n :=
  add_sub_cancel_right _ _

theorem appended_stamp_pad (padded : j.padLength n ≠ 0) : (j.appended n).stamp - 2 = j.padStamp := by
  show j.padStamp + (if j.padLength n = 0 then 0 else 1) + 1 - 2 = j.padStamp
  rw [if_neg padded]
  ring

theorem padBytes_eq {length : Nat} (stamp : Byte) (time : BitVec 32) (room : 8 ≤ length) :
    recordBytes padKind 255 stamp time [] length
      = [1, BitVec.ofNat 8 (length / 8), 255, stamp] ++ le32 time.toNat ++ List.replicate (length - 8) 0 := by
  rw [recordBytes_eq padKind length 255 stamp time [] room, List.append_nil]
  rfl

/-- Settles O54: a record that fits is appended behind the GAP and the PAD that it needs. -/
theorem journalSubmission : Obligations.JournalSubmission := by
  unfold Obligations.JournalSubmission
  refine ⟨fun r => ⟨(record_format r).1, ?_⟩, ⟨rfl, rfl, rfl, rfl, rfl, rfl, rfl, rfl, rfl, rfl, rfl, rfl⟩, ?_, fun _ _ _ => rfl,
    fun _ => rfl, ⟨rfl, fun _ => rfl⟩, journal_figures, ?_⟩
  · cases r with
    | link b event =>
      cases event with
      | bound h => exact congrArg (fun l => (6, some b, l)) (padTo_hello 0 h)
      | rebound h => exact congrArg (fun l => (6, some b, l)) (padTo_hello 1 h)
      | refused h => exact congrArg (fun l => (6, some b, l)) (padTo_hello 2 h)
      | lost kind attempts => rfl
      | detached => rfl
    | state b old new reason surprise => cases surprise <;> rfl
    | admission b kind outcome amount position clipped committed => cases clipped <;> rfl
    | discard b cause committed first count => cases committed <;> rfl
    | _ => rfl
  · exact fun kind length bay stamp time body room => recordBytes_eq kind length bay stamp time body room
  · intro r s j window hj positions short
    subst hj
    refine ⟨submit_lost, fun free room => ?_⟩
    have fits : s.journal.fits r.length = true := decide_eq_true room
    rw [submit_taken free fits, appendAt_fits positions fits (by have := (record_format r).2; omega)]
    refine ⟨(appended_unread positions fits).trans (by omega), (appended_head _ _).trans (by rw [Nat.add_assoc]; omega),
      appended_stamp _ _, rfl, fun owed => if_pos owed, rfl, rfl, rfl, rfl, rfl, rfl, rfl, ?_, fun owed => ?_,
      fun padded => ?_, rfl, rfl, fun a apart => read_written_other positions fits apart⟩
    · refine (read_written_record window _).trans ?_
      rw [← appended_stamp_record]
    · have read := read_written_gap (kind := r.kind) (bay := bayByte r.bay) (time := s.journal.shelfTime) (body := r.body)
        window positions fits
      rw [show s.journal.gapLength = 8 from if_pos owed] at read
      exact read.trans (if_pos owed)
    · have long : 8 ≤ s.journal.padLength r.length := by
        have aligned := s.journal.padLength_mod r.length positions
        omega
      refine (read_written_pad window positions fits padded).trans ?_
      rw [padBytes_eq _ _ long, ← appended_stamp_pad padded]

end Sys2Proof.Machine

/-! The Tail of the journal and the snapshots that wait for room. The statements O22 and O23. -/

namespace Sys2Proof.Machine

variable {s : State} {offset wrap n : Nat}

/-! ## A Tail write (R142, R156) -/

theorem ringPosition_wrap (fits : wrap ≤ 1) : ringPosition offset (wrap == 1) = offset + 4096 * wrap := by
  unfold ringPosition
  obtain rfl | rfl : wrap = 0 ∨ wrap = 1 := by omega
  · rfl
  · rfl

theorem distance_eq (j : Journal) (fits : wrap ≤ 1) : j.distance offset (wrap == 1)
    = (offset + 4096 * wrap + 8192 - (j.tail + if j.tailWrap then 4096 else 0)) % 8192 := by
  unfold Journal.distance
  rw [ringPosition_wrap fits]
  rfl

theorem tailValid_iff (j : Journal) (offset wrap : Nat) : j.tailValid offset wrap = true
    ↔ offset % 8 = 0 ∧ offset ≤ 4088 ∧ wrap ≤ 1
      ∧ (offset + 4096 * wrap + 8192 - (j.tail + if j.tailWrap then 4096 else 0)) % 8192 ≤ j.unread := by
  unfold Journal.tailValid
  rw [Bool.and_eq_true, Bool.and_eq_true, Bool.and_eq_true, beq_iff_eq, decide_eq_true_iff, decide_eq_true_iff,
    decide_eq_true_iff, and_assoc, and_assoc]
  exact and_congr_right fun _ => and_congr_right fun _ => and_congr_right fun fits => by rw [distance_eq j fits]

/-- The Writer after a valid Tail write that leaves `n` bytes unread. -/
def State.tailTaken (offset wrap n : Nat) (s : State) : State := { s with
  journal := { s.journal with
    tail := offset, tailWrap := wrap == 1, badTail := false
    holdoffTimer := if n = 0 then none else s.journal.holdoffTimer }
  attnPending := { s.attnPending with journal := s.attnPending.journal && n != 0 } }

/-- What a valid Tail gives back is no longer unread. -/
theorem tailTaken_unread (positions : s.journal.positionsOk) (valid : s.journal.tailValid offset wrap = true)
    (left : n = s.journal.unread
      - (offset + 4096 * wrap + 8192 - (s.journal.tail + if s.journal.tailWrap then 4096 else 0)) % 8192) :
    (s.tailTaken offset wrap n).journal.unread = n := by
  obtain ⟨aligned, inside, fits, distance⟩ := (tailValid_iff _ _ _).mp valid
  obtain ⟨-, headIn, -, tailIn, -⟩ := positions
  have head := ringPosition_lt s.journal.head s.journal.headWrap headIn
  have tail := ringPosition_lt s.journal.tail s.journal.tailWrap tailIn
  have unread : (s.tailTaken offset wrap n).journal.unread
      = (ringPosition s.journal.head s.journal.headWrap + 8192 - ringPosition offset (wrap == 1)) % 8192 := rfl
  have before : s.journal.unread = (ringPosition s.journal.head s.journal.headWrap + 8192
      - ringPosition s.journal.tail s.journal.tailWrap) % 8192 := rfl
  have size : Config.ringSize = 4096 := rfl
  have position : (s.journal.tail + if s.journal.tailWrap then 4096 else 0)
      = ringPosition s.journal.tail s.journal.tailWrap := rfl
  rw [position] at left distance
  rw [unread, ringPosition_wrap fits]
  omega

theorem writeTail_valid (positions : s.journal.positionsOk) (valid : s.journal.tailValid offset wrap = true)
    (left : n = s.journal.unread
      - (offset + 4096 * wrap + 8192 - (s.journal.tail + if s.journal.tailWrap then 4096 else 0)) % 8192) :
    writeTail offset wrap s = retrySnapshot (s.tailTaken offset wrap n) := by
  have unread := tailTaken_unread positions valid left
  unfold writeTail takeTail
  rw [if_pos valid]
  refine congrArg retrySnapshot ?_
  unfold causeAfterTail
  by_cases empty : n = 0
  · refine (if_pos (unread.trans empty)).trans ?_
    unfold State.tailTaken
    rw [if_pos empty, empty, bne_self_eq_false, Bool.and_false]
    rfl
  · refine (if_neg fun zero => empty (unread.symm.trans zero)).trans ?_
    unfold State.tailTaken
    rw [if_neg empty, bne_iff_ne.mpr empty, Bool.and_true]
    rfl

theorem retrySnapshot_none (free : s.journal.waitingSnapshot = none) : retrySnapshot s = s := by
  rw [retrySnapshot, free]

theorem retrySnapshot_fits {p : Snapshot} (waits : s.journal.waitingSnapshot = some p)
    (fits : s.journal.fits p.length = true) : retrySnapshot s = appendSnapshot p s := by
  rw [retrySnapshot, waits]
  exact if_pos fits

theorem retrySnapshot_waits {p : Snapshot} (waits : s.journal.waitingSnapshot = some p)
    (full : s.journal.fits p.length = false) : retrySnapshot s = s := by
  rw [retrySnapshot, waits]
  exact if_neg (ne_true_of_eq_false full)

/-- Settles O22: an invalid Tail is noted; a valid one gives back what was read, and a waiting snapshot is tried again. -/
theorem tailWriteTaken : Obligations.TailWriteTaken := by
  unfold Obligations.TailWriteTaken
  intro offset wrap s positions
  refine ⟨fun invalid => if_neg fun valid => invalid ((tailValid_iff _ _ _).mp valid), ?_⟩
  intro n u aligned inside fits distance left hu
  have valid := (tailValid_iff _ _ _).mpr ⟨aligned, inside, fits, distance⟩
  obtain rfl : u = s.tailTaken offset wrap n := hu
  rw [writeTail_valid positions valid left]
  exact ⟨tailTaken_unread positions valid left, fun free => retrySnapshot_none free,
    fun p waits => ⟨fun room => retrySnapshot_fits waits room, fun full => retrySnapshot_waits waits full⟩⟩

end Sys2Proof.Machine

/-! Snapshots: what one latches, its record, and the counters that it clears. The statement O23. -/

namespace Sys2Proof.Machine

variable {s : State} {mask : BitVec 16} {clear : Bool} {p : Snapshot} {b : BayId}

/-! ## What a snapshot holds (R180) -/

theorem snapshot_bays (s : State) (mask : BitVec 16) :
    (s.snapshot mask).entries.map SnapEntry.bay = (List.finRange 16).filter (fun b => mask.getLsbD b.val) := by
  show ((maskBays mask).map s.snapEntry).map SnapEntry.bay = maskBays mask
  rw [List.map_map]
  exact List.map_id _

theorem le16_mask (mask : BitVec 16) : le16 mask.toNat = [mask.extractLsb' 0 8, mask.extractLsb' 8 8] := by
  have high : mask.toNat >>> 8 = mask.toNat / 256 := Nat.shiftRight_eq_div_pow _ _
  unfold BitVec.extractLsb'
  rw [high]
  rfl

theorem snapEntry_bytes (s : State) (b : BayId) : (s.snapEntry b).bytes
    = [BitVec.ofNat 8 b.val, BitVec.ofNat 8 (s.stateOf b).code,
        BitVec.ofNat 8 ((s.bay b).link.linkState.code + 4 * (s.intentOf b).target.code),
        BitVec.ofNat 8 (queuePosition s.queue b)]
      ++ le16 (s.bay b).charge ++ le16 (((s.bay b).ctx.phaseTimer + 999) / 1000) ++ le16 (raiseAmount s.queue b)
      ++ [0#3 ++ BitVec.ofBool (s.enOutput b) ++ BitVec.ofBool (s.bay b).inputs.pgLevel
          ++ BitVec.ofBool (s.bay b).inputs.fltLevel ++ BitVec.ofBool (s.bay b).inputs.latchConfirmed
          ++ BitVec.ofBool (s.bay b).inputs.presConfirmed,
        BitVec.ofNat 8 (s.bay b).inputs.faultCount, BitVec.ofNat 8 (s.bay b).link.counters.badCheck,
        BitVec.ofNat 8 (s.bay b).link.counters.dropped, BitVec.ofNat 8 (s.bay b).link.counters.duplicates,
        BitVec.ofNat 8 (s.bay b).link.counters.retries] := by
  unfold SnapEntry.bytes
  rw [pinsByte_eq]
  rfl

theorem snapshot_body (s : State) (mask : BitVec 16) : (s.snapshot mask).body
    = [mask.extractLsb' 0 8, mask.extractLsb' 8 8, BitVec.ofNat 8 (s.snapshot mask).entries.length, 0, 0, 0, 0, 0]
      ++ ((List.finRange 16).filter (fun b => mask.getLsbD b.val)).flatMap (fun b => (s.snapEntry b).bytes) := by
  unfold Snapshot.body
  rw [show (s.snapshot mask).mask = mask from rfl, le16_mask]
  have entries : (s.snapshot mask).entries.flatMap SnapEntry.bytes
      = (maskBays mask).flatMap (fun b => (s.snapEntry b).bytes) :=
    List.flatMap_map _ _ _
  rw [entries]
  rfl

/-! ## The counters cleared (R181) -/

/-- A bay whose quality counters and Reported flags are cleared (R103). -/
def Bay.countersCleared (y : Bay) : Bay :=
  { y with link := { y.link with counters := ⟨0, 0, 0, 0⟩, reported := ⟨false, false, false, false⟩ } }

/-- The state that SnapClear leaves. -/
def State.snapCleared (mask : BitVec 16) (clear : Bool) (s : State) : State := if clear then snapClear mask s else s

theorem snapCleared_eq (mask : BitVec 16) (clear : Bool) (s : State) :
    (∀ b, (s.snapCleared mask clear).bay b = if (clear && mask.getLsbD b.val) = true then (s.bay b).countersCleared else s.bay b)
      ∧ ∃ v, s.snapCleared mask clear = { s with bays := v } := by
  cases clear
  · exact ⟨fun _ => rfl, s.bays, rfl⟩
  · obtain ⟨bays, rest⟩ := foldl_modBay Bay.countersCleared (maskBays mask) ((List.nodup_finRange 16).filter _) s
    refine ⟨fun b => (bays b).trans ?_, rest⟩
    have member : b ∈ maskBays mask ↔ (true && mask.getLsbD b.val) = true := by
      rw [maskBays, List.mem_filter, Bool.true_and]
      exact and_iff_right (List.mem_finRange b)
    exact if_congr member rfl rfl

/-! ## A request (R179) -/

theorem requestSnapshot_pending (pending : s.shelf.snapStatus = .pending) : requestSnapshot mask clear s = s := by
  unfold requestSnapshot
  rw [pending]

theorem requestSnapshot_idle (idle : s.shelf.snapStatus = .idle) :
    requestSnapshot mask clear s = submitSnapshot (s.snapshot mask) (s.snapCleared mask clear) := by
  unfold requestSnapshot
  rw [idle]
  rfl

theorem submitSnapshot_fits (fits : s.journal.fits p.length = true) : submitSnapshot p s = appendSnapshot p s := if_pos fits

theorem submitSnapshot_waits (full : s.journal.fits p.length = false) : submitSnapshot p s
    = { s with shelf := { s.shelf with snapStatus := .pending }, journal := { s.journal with waitingSnapshot := some p } } :=
  if_neg (ne_true_of_eq_false full)

/-! ## A snapshot written (R155, R182) -/

theorem causeAfterAppend_lost (before : Nat) (s : State) : (causeAfterAppend before s).journal.lost = s.journal.lost := by
  have started : (if before = 0 ∧ 0 < s.journal.unread ∧ s.attnPending.journal = false then startHoldoff s else s).journal.lost
      = s.journal.lost := by
    unfold startHoldoff
    split
    · split <;> rfl
    · rfl
  unfold causeAfterAppend
  dsimp only
  generalize (if before = 0 ∧ 0 < s.journal.unread ∧ s.attnPending.journal = false then startHoldoff s else s) = k
    at started
  rw [← started]
  split <;> rfl

theorem appendSnapshot_shelf (fits : s.journal.fits p.length = true) :
    (appendSnapshot p s).shelf = { s.shelf with snapStatus := .idle, snapCount := s.shelf.snapCount + 1 }
      ∧ (appendSnapshot p s).bays = s.bays
      ∧ (appendSnapshot p s).journal.lost = (if s.journal.overflow then 0 else s.journal.lost) := by
  have appended := journaled_appendAt snapshotKind 255 p.time p.body p.length s fits p.length_mod
  have lost : (appendAt s.journal snapshotKind 255 p.time p.body p.length s).journal.lost
      = (if s.journal.overflow then 0 else s.journal.lost) := by
    rw [appendAt_eq]
    exact causeAfterAppend_lost _ _
  refine ⟨?_, appended.bays, lost⟩
  exact congrArg (fun h : Shelf => { h with snapStatus := .idle, snapCount := h.snapCount + 1 }) appended.shelf

/-- Settles O23: a snapshot latches the state before SnapClear, and is written where it fits. -/
theorem snapshotTaken : Obligations.SnapshotTaken := by
  unfold Obligations.SnapshotTaken
  intro s mask clear
  refine ⟨requestSnapshot_pending, snapshot_bays s mask, fun idle => ?_, rfl, rfl, ?_, ?_⟩
  · obtain ⟨cleared, v, rest⟩ := snapCleared_eq mask clear s
    have same : (s.snapCleared mask clear).journal = s.journal := by rw [rest]
    rw [requestSnapshot_idle idle]
    refine ⟨fun b => ?_, fun fits => ?_, fun full => ?_⟩
    · have bay : (submitSnapshot (s.snapshot mask) (s.snapCleared mask clear)).bay b = (s.snapCleared mask clear).bay b := by
        unfold submitSnapshot
        split
        · next fits => exact congrArg (fun v : Vector Bay 16 => v[b]) (appendSnapshot_shelf fits).2.1
        · rfl
      rw [bay, cleared]
      split <;> rfl
    · rw [← same] at fits
      obtain ⟨shelf, -, lost⟩ := appendSnapshot_shelf fits
      rw [submitSnapshot_fits fits]
      refine ⟨shelf.trans ?_, rfl, lost.trans (by rw [same]), _, rfl, by rw [rest]⟩
      rw [rest, ← idle]
    · rw [← same] at full
      rw [submitSnapshot_waits full, rest]
      exact ⟨rfl, rfl, rfl⟩
  · refine (snapshot_body s mask).trans ?_
    simp only [snapEntry_bytes]
    rfl
  · intro p j n window hj positions fits hn
    subst hj
    have long : 0 < p.length := by
      unfold Snapshot.length
      omega
    have unread := appended_unread positions fits
    have head := appended_head s.journal p.length
    rw [← hn] at unread head
    obtain ⟨shelf, bays, lost⟩ := appendSnapshot_shelf fits
    refine ⟨shelf, ?_⟩
    unfold appendSnapshot
    rw [appendAt_fits positions fits long]
    refine ⟨rfl, rfl, rfl, unread, head, appended_stamp _ _, rfl, rfl, rfl, ?_, fun a apart => ?_⟩
    · refine (read_written_record window _).trans ?_
      rw [← appended_stamp_record]
      rfl
    · rw [hn] at apart
      exact read_written_other positions fits apart

end Sys2Proof.Machine

/-! A bay that reaches ON from SETTLE. The statement O35, first part. -/

namespace Sys2Proof.Machine

variable {s : State} {b : BayId} {d : Demand} {r : DrainReason} {l : List Record} {v : Nat}

theorem exec_settleExpiry (state : s.stateOf b = .settle) (timer : (s.bay b).ctx.phaseTimer = 0) :
    exec (.settleExpiry b) s = .next (finish (enterOn b s)) :=
  congrArg Host.Outcome.next (if_pos ⟨state, timer⟩)

theorem reconcileOn_none (stays : drainAtOn s b = none) : reconcileOn b s = s := by
  rw [reconcileOn, stays]

theorem reconcileOn_drains (drains : drainAtOn s b = some r) : reconcileOn b s = enterDrain b r s := by
  rw [reconcileOn, drains]

/-- An update of a bay aside from its charge, beside the charge and the records. -/
theorem modBay_submitAll_setCharge (f g : Bay → Bay) (charge : ∀ y, (f y).charge = y.charge)
    (apart : ∀ y, f { y with charge := v } = { f y with charge := v }) :
    modBay b f (submitAll l (setCharge b v (modBay b g s))) = submitAll l (setCharge b v (modBay b (fun y => f (g y)) s)) := by
  rw [← submitAll_modBay, setCharge_modBay v f charge apart, modBay_modBay]

theorem requestRaise_shelf (hold : Nat) (clipped : Bool) (s : State) : (requestRaise b hold clipped s).shelf = s.shelf :=
  ((Touches.refl everyBay s).requestRaise trivial hold clipped).shelf

/-- A bay whose GRANT of a charge is listed (R93). -/
def Bay.grantListed (hold : Nat) (y : Bay) : Bay :=
  { y with link := { y.link with txList := txPlace (.grant hold hold) y.link.txList } }

/-- A GRANT listed beside the charge and the records. -/
theorem grantCharge_setCharge (g : Bay → Bay) (bound : (g (s.bay b)).link.linkState = .bound) :
    grantCharge b (submitAll l (setCharge b v (modBay b g s)))
      = submitAll l (setCharge b v (modBay b (fun y => (g y).grantListed v) s)) := by
  have bay : (submitAll l (setCharge b v (modBay b g s))).bay b = { g (s.bay b) with charge := v } := by
    rw [submitAll_bay, setCharge_bay_self, modBay_bay_self]
  rw [grantCharge_eq (by rw [bay]; exact bound), bay]
  refine (modBay_submitAll_setCharge (Bay.grantListed v) g ?_ ?_)
  · exact fun _ => rfl
  · exact fun _ => rfl

/-! ## The pending demand resolved (R47) -/

theorem reachedOn_charge : ((s.reachedOn b).bay b).charge = (s.bay b).charge := by
  rw [reachedOn_bay]
  rfl

theorem reachedOn_grantedHold : ((s.reachedOn b).bay b).grantedHold = (s.bay b).grantedHold := by
  rw [reachedOn_bay]
  rfl

theorem resolvePending_drains (drains : drainAtOn s b = some r) : resolvePending b d (s.reachedOn b)
    = submitAll [.state b .settle .on .settled false] (setCharge b (min d.hold (s.bay b).grantedHold) (modBay b Bay.settled s)) := by
  unfold resolvePending
  rw [reachedOn_drains, drains, Option.isSome_some, if_pos rfl, reachedOn_grantedHold, setCharge_submitAll]

theorem resolvePending_lowers (stays : drainAtOn s b = none) (within : d.hold ≤ (s.bay b).charge) :
    resolvePending b d (s.reachedOn b) = grantCharge b
      (submitAll [.state b .settle .on .settled false] (setCharge b d.hold (modBay b Bay.settled s))) := by
  unfold resolvePending
  rw [reachedOn_drains, stays, Option.isSome_none, if_neg Bool.false_ne_true, reachedOn_charge, if_pos within,
    setCharge_submitAll]

theorem resolvePending_raises (stays : drainAtOn s b = none) (above : (s.bay b).charge < d.hold) :
    resolvePending b d (s.reachedOn b) = requestRaise b d.hold d.clipped
      (submitAll [.state b .settle .on .settled false] (setCharge b (s.bay b).grantedHold (modBay b Bay.settled s))) := by
  unfold resolvePending
  rw [reachedOn_drains, stays, Option.isSome_none, if_neg Bool.false_ne_true, reachedOn_charge,
    if_neg (Nat.not_le.mpr above), reachedOn_grantedHold, setCharge_submitAll]

/-! ## The whole entry, by what is pending -/

section
variable (state : s.stateOf b = .settle)
include state

theorem enterOn_stays (free : (s.bay b).ctx.pending = false) (stays : drainAtOn s b = none) : enterOn b s
    = submitAll [.state b .settle .on .settled false] (setCharge b (s.bay b).grantedHold (modBay b Bay.settled s)) := by
  rw [enterOn_clear state free, reconcileOn_none ((drainAtOn_setCharge _ _ _ rfl rfl).trans stays)]

theorem enterOn_drains (free : (s.bay b).ctx.pending = false) (drains : drainAtOn s b = some r) : enterOn b s
    = enterDrain b r (submitAll [.state b .settle .on .settled false]
      (setCharge b (s.bay b).grantedHold (modBay b Bay.settled s))) := by
  rw [enterOn_clear state free, reconcileOn_drains ((drainAtOn_setCharge _ _ _ rfl rfl).trans drains)]

variable (waits : (s.bay b).ctx.pending = true) (demand : (s.bay b).ctx.demand = some d)
include waits demand

theorem enterOn_pending_drains (drains : drainAtOn s b = some r) : enterOn b s
    = enterDrain b r (submitAll [.state b .settle .on .settled false] (setCharge b (min d.hold (s.bay b).grantedHold)
      (modBay b (fun y => y.settled.withPending false) s))) := by
  rw [enterOn_pending state waits d demand, resolvePending_drains drains, clearPending_setCharge,
    reconcileOn_drains ((drainAtOn_setCharge _ _ _ rfl rfl).trans drains)]

variable (stays : drainAtOn s b = none)
include stays

theorem enterOn_unbound (within : d.hold ≤ (s.bay b).charge) (unbound : (s.bay b).link.linkState ≠ .bound) : enterOn b s
    = submitAll [.state b .settle .on .settled false] (setCharge b d.hold (modBay b (fun y => y.settled.withPending false) s)) := by
  have bay : (submitAll [.state b .settle .on .settled false] (setCharge b d.hold (modBay b Bay.settled s))).bay b
      = { (s.bay b).settled with charge := d.hold } := by rw [submitAll_bay, setCharge_bay_self, modBay_bay_self]
  rw [enterOn_pending state waits d demand, resolvePending_lowers stays within, grantCharge, placeEntry_eq_ite, if_neg,
    clearPending_setCharge, reconcileOn_none ((drainAtOn_setCharge _ _ _ rfl rfl).trans stays)]
  rw [bay]
  rintro (bound | probe)
  · exact unbound bound
  · exact nomatch probe

theorem enterOn_granted (within : d.hold ≤ (s.bay b).charge) (bound : (s.bay b).link.linkState = .bound) : enterOn b s
    = submitAll [.state b .settle .on .settled false]
      (setCharge b d.hold (modBay b (fun y => (y.settled.grantListed d.hold).withPending false) s)) := by
  rw [enterOn_pending state waits d demand, resolvePending_lowers stays within, grantCharge_setCharge _ bound,
    clearPending_setCharge, reconcileOn_none ((drainAtOn_setCharge _ _ _ rfl rfl).trans stays)]

theorem enterOn_raises (above : (s.bay b).charge < d.hold) : enterOn b s
    = modBay b (Bay.withPending false) (requestRaise b d.hold d.clipped
      (submitAll [.state b .settle .on .settled false] (setCharge b (s.bay b).grantedHold (modBay b Bay.settled s)))) := by
  rw [enterOn_pending state waits d demand, resolvePending_raises stays above]
  have reached : drainAtOn (submitAll [.state b .settle .on .settled false]
      (setCharge b (s.bay b).grantedHold (modBay b Bay.settled s))) b = none := (drainAtOn_setCharge _ _ _ rfl rfl).trans stays
  generalize submitAll [.state b .settle .on .settled false]
    (setCharge b (s.bay b).grantedHold (modBay b Bay.settled s)) = t at reached
  have ctx : ((clearPending b (requestRaise b d.hold d.clipped t)).bay b).ctx = { (t.bay b).ctx with pending := false } := by
    rw [clearPending, modCtx_eq, modBay_bay_self, requestRaise_ctx]
  refine reconcileOn_none (Eq.trans (drainAtOn_congr ?_ ?_ ?_) reached)
  · rw [intentOf_eq, ctx]
    rfl
  · rw [ctx]
  · exact congrArg Shelf.state (requestRaise_shelf _ _ t)

end

end Sys2Proof.Machine

/-! A DEMAND and the expiry of SETTLE at one moment, in either order. The statement O35. -/

namespace Sys2Proof.Machine

variable {s t u : State} {b : BayId} {d : Demand} {seq : Sequence} {payload : List Byte} {hold : Nat} {e : TxEntry}

/-! ## What is listed -/

theorem mem_txPlace (l : List TxEntry) (own : e.slot ≠ .prepare) : e ∈ txPlace e l := by
  rw [txPlace_of_slot_ne_prepare own]
  split
  · next listed =>
    obtain ⟨x, member, same⟩ := List.any_eq_true.mp listed
    exact List.mem_map.mpr ⟨x, member, if_pos same⟩
  · exact List.mem_append_right l List.mem_cons_self

/-- An entry placed on a BOUND link: it is listed, and nothing else of the bay changes. -/
theorem placeEntry_bound (bound : (s.bay b).link.linkState = .bound) (own : e.slot ≠ .prepare) :
    (placeEntry b e s).stateOf b = s.stateOf b ∧ ((placeEntry b e s).bay b).charge = (s.bay b).charge
      ∧ (placeEntry b e s).queue = s.queue ∧ e ∈ ((placeEntry b e s).bay b).link.txList := by
  refine ⟨stateOf_placeEntry e s, placeEntry_bay_charge e s, placeEntry_queue e s, ?_⟩
  rw [placeEntry_eq b e s (.inl bound), modBay_bay_self]
  exact mem_txPlace _ own

/-! ## The end of an event that admits nothing -/

theorem finish_idle (idle : s.shelf.state = .held ∨ s.queue = []) (apart : s.shelf.state ≠ .quiescing) : finish s = s := by
  have head : headThatFits s = none := by
    cases fits : headThatFits s with
    | none => rfl
    | some e =>
      obtain ⟨q, queue⟩ := headThatFits_cons fits
      rcases idle with held | empty
      · exact nomatch held.symm.trans ((headThatFits_iff queue).mp fits).1
      · exact nomatch empty.symm.trans queue
  rw [finish, evaluateHead_none head, quiesceTest_none fun h => apart h.1]

/-! ## The DEMAND by itself -/

/-- A new demand heard and stored. -/
def State.demandStored (b : BayId) (seq : Sequence) (payload : List Byte) (d : Demand) (s : State) : State :=
  modBay b (fun y => { y.heard 2 seq payload with ctx := { y.ctx with demand := some d } }) s

theorem demandStored_bay : (s.demandStored b seq payload d).bay b
    = { (s.bay b).heard 2 seq payload with ctx := { (s.bay b).ctx with demand := some d } } := modBay_bay_self _ _ _

theorem exec_demand (b0 b1 b2 b3 : Byte) (hears : s.canHear b) (new : s.isNew b seq)
    (bound : (s.bay b).link.linkState = .bound) (given : d = demandOf (s.intentOf b).cap b0 b1 b2 b3) :
    exec (.demand b seq [b0, b1, b2, b3]) s
      = .next (finish (onDemand b d (s.demandStored b seq [b0, b1, b2, b3] d))) := by
  rw [(exec_message _ hears new bound).1, deliverDemand_heard, ← given]
  rfl

/-- A bay in ON at a charge, its GRANT listed and no entry of it queued. -/
structure HoldsCharge (b : BayId) (hold : Nat) (s : State) : Prop where
  state : s.stateOf b = .on
  charge : (s.bay b).charge = hold
  entries : entriesOf s.queue b = []
  listed : TxEntry.grant hold hold ∈ (s.bay b).link.txList

theorem HoldsCharge.finish (h : HoldsCharge b hold s) (apart : s.shelf.state ≠ .quiescing) :
    HoldsCharge b hold (finish s) ∧ (Machine.finish s).pending = s.pending := by
  obtain ⟨bay, entries, -, pending⟩ := finish_apart b s h.entries apart
  refine ⟨⟨?_, by rw [bay, h.charge], entries, by rw [bay]; exact h.listed⟩, pending⟩
  rw [stateOf_eq, bay, ← stateOf_eq, h.state]

theorem takeLower_holds (state : s.stateOf b = .on) (bound : (s.bay b).link.linkState = .bound) :
    HoldsCharge b hold (takeLower b hold s) := by
  rw [takeLower_eq hold bound]
  have bay : (setCharge b hold (setQueue (queueWithout s.queue b) (submitAll (s.leaving b .withdrawn) s))).bay b
      = { s.bay b with charge := hold } := by
    rw [setCharge_bay_self, setQueue_bay, submitAll_bay]
  constructor
  · rw [stateOf_modBay, bay]
    exact state
  · rw [modBay_bay_self, bay]
  · exact entriesOf_without_self s.queue b
  · rw [modBay_bay_self]
    exact mem_txPlace _ (fun own => nomatch own)

theorem takeRaise_holds {clipped : Bool} (state : s.stateOf b = .on) (bound : (s.bay b).link.linkState = .bound)
    (above : (s.bay b).charge < hold) (settled : (s.bay b).settledAbove hold = true)
    (budget : hold ≤ s.pool.effectiveBudget)
    (fits : s.pool.committed + (hold - (s.bay b).charge) ≤ s.pool.effectiveBudget) :
    HoldsCharge b hold (takeRaise b hold clipped s) := by
  rw [takeRaise_admits above settled budget fits rfl]
  have fixed := (Fixed.refl s).requestRaise (b := b) hold clipped
  have now : (requestRaise b hold clipped s).stateOf b = .on := by rw [stateOf_eq, requestRaise_ctx, ← stateOf_eq, state]
  generalize requestRaise b hold clipped s = w at fixed now
  generalize result : submitAll _ (setCharge b hold (setQueue (queueWithout w.queue b) w)) = v
  have bay : v.bay b = { w.bay b with charge := hold } := by
    rw [← result, submitAll_bay, setCharge_bay_self, setQueue_bay]
  have queue : v.queue = queueWithout w.queue b := by
    rw [← result, submitAll_queue]
    rfl
  obtain ⟨place, charge, entries, listed⟩ := placeEntry_bound (s := v) (b := b) (e := .grant hold hold)
    (by rw [bay]; exact fixed.linkState.trans bound) (fun own => nomatch own)
  refine ⟨?_, by rw [charge, bay], ?_, listed⟩
  · rw [place, stateOf_eq, bay, ← now, stateOf_eq]
  · rw [entries, queue, entriesOf_without_self]

/-- A demand not above the charge of SETTLE becomes the charge of a bay that has just reached ON. -/
theorem onDemand_holds (state : s.stateOf b = .on) (bound : (s.bay b).link.linkState = .bound) {from_ : Nat}
    (settled : (s.bay b).settledFrom = some from_) (within : d.hold ≤ from_) (budget : d.hold ≤ s.pool.effectiveBudget)
    (fits : (s.bay b).charge < d.hold → s.pool.committed + (d.hold - (s.bay b).charge) ≤ s.pool.effectiveBudget) :
    HoldsCharge b d.hold (onDemand b d s) := by
  by_cases above : (s.bay b).charge < d.hold
  · rw [onDemand_raises state above]
    exact takeRaise_holds state bound above (settledAbove_iff.mpr ⟨from_, settled, within⟩) budget (fits above)
  · rw [onDemand_lowers state (Nat.not_lt.mp above)]
    exact takeLower_holds state bound

/-! ## A raise that waits -/

/-- A bay in ON at a charge with one Raise queued, its WAIT listed. -/
structure WaitsToRaise (b : BayId) (charge amount : Nat) (s : State) : Prop where
  state : s.stateOf b = .on
  charge : (s.bay b).charge = charge
  entry : ∃ e, entriesOf s.queue b = [e] ∧ e.kind = .raise ∧ e.amount = amount
  listed : TxEntry.wait (queuePosition s.queue b) ∈ (s.bay b).link.txList

theorem requestRaise_waits {clipped : Bool} (state : s.stateOf b = .on) (bound : (s.bay b).link.linkState = .bound)
    (above : (s.bay b).charge < hold) (budget : hold ≤ s.pool.effectiveBudget) (free : entriesOf s.queue b = []) :
    WaitsToRaise b (s.bay b).charge (hold - (s.bay b).charge) (requestRaise b hold clipped s) := by
  rw [requestRaise_joins above budget (queueEntryOf_none _ _ free), announceQueued_eq]
  generalize joined : joinQueue b .raise (hold - (s.bay b).charge) clipped s = w
  have bay : w.bay b = s.bay b := by rw [← joined]; rfl
  have queue : entriesOf w.queue b
      = [⟨b, .raise, hold - (s.bay b).charge, (s.intentOf b).priority, s.pool.arrivalCounter, clipped⟩] := by
    rw [← joined]
    exact entriesOf_insert_self _ _ free
  generalize result : submitAll _ w = v
  have bayThen : v.bay b = s.bay b := by rw [← result, submitAll_bay, bay]
  have queueThen : v.queue = w.queue := by rw [← result, submitAll_queue]
  obtain ⟨place, charge, entries, listed⟩ := placeEntry_bound (s := v) (b := b) (e := .wait (queuePosition w.queue b))
    (by rw [bayThen, bound]) (fun own => nomatch own)
  refine ⟨?_, by rw [charge, bayThen], ⟨_, by rw [entries, queueThen, queue], rfl, rfl⟩, by
    rw [entries, queueThen]
    exact listed⟩
  rw [place, stateOf_eq, bayThen, ← stateOf_eq, state]

end Sys2Proof.Machine

/-! What a bay holds as it reaches ON, accounted for. -/

namespace Sys2Proof.Machine

variable {s t u : State} {b : BayId} {from_ total : Nat} {held : Prop}

/-- A bay that has reached ON at this moment, from a charge that Committed held with the others' in `total`. Where the queue
is not held it has no entry but a Raise of this bay. -/
structure Accounted (b : BayId) (from_ total : Nat) (held : Prop) (t : State) : Prop where
  state : t.stateOf b = .on
  settled : (t.bay b).settledFrom = some from_
  account : t.pool.committed + from_ = total + (t.bay b).charge
  queue : held ∨ ∀ e ∈ t.queue, e.bay = b ∧ e.kind = .raise

section
variable (h : Accounted b from_ total held t)
include h

theorem Accounted.congr (state : u.stateOf b = t.stateOf b) (charge : (u.bay b).charge = (t.bay b).charge)
    (settled : (u.bay b).settledFrom = (t.bay b).settledFrom) (committed : u.pool.committed = t.pool.committed)
    (queue : ∀ e ∈ u.queue, e ∈ t.queue ∨ e.bay = b ∧ e.kind = .raise) : Accounted b from_ total held u where
  state := state.trans h.state
  settled := settled.trans h.settled
  account := by rw [committed, charge, h.account]
  queue := h.queue.imp_right fun own e member => (queue e member).elim (own e) id

theorem Accounted.submit (x : Record) : Accounted b from_ total held (Machine.submit x t) :=
  h.congr (by rw [stateOf_eq, submit_bay, stateOf_eq]) (by rw [submit_bay]) (by rw [submit_bay]) (by rw [submit_pool])
    fun e member => .inl (by rwa [submit_queue] at member)

theorem Accounted.placeEntry (e : TxEntry) : Accounted b from_ total held (Machine.placeEntry b e t) := by
  rw [placeEntry_eq_ite]
  split
  · refine h.congr (stateOf_modBay_kept rfl) ?_ ?_ rfl fun e member => .inl member
    · rw [modBay_bay_self]
    · rw [modBay_bay_self]
  · exact h

theorem Accounted.setCharge (within : from_ ≤ total) (v : Nat) : Accounted b from_ total held (Machine.setCharge b v t) where
  state := by rw [stateOf_setCharge]; exact h.state
  settled := by rw [setCharge_bay_self]; exact h.settled
  account := by
    have account := h.account
    rw [setCharge_bay_self]
    show t.pool.committed + v - (t.bay b).charge + from_ = total + v
    omega
  queue := h.queue

theorem Accounted.without : Accounted b from_ total held (Machine.setQueue (queueWithout t.queue b) t) :=
  h.congr rfl rfl rfl rfl fun _ member => .inl (List.mem_filter.mp member).1

theorem Accounted.leaveQueue (o : AdmitOutcome) : Accounted b from_ total held (Machine.leaveQueue b o t) := by
  unfold Machine.leaveQueue
  split
  · exact h.without.submit _
  · exact h

theorem Accounted.replace (amount : Nat) (clipped : Bool) :
    Accounted b from_ total held (Machine.setQueue (queueReplace b amount clipped t.queue) t) := by
  refine { h with queue := h.queue.imp_right fun own e member => ?_ }
  obtain ⟨x, listed, rfl⟩ := List.mem_map.mp member
  obtain ⟨bay, kind⟩ := own x listed
  split
  · exact ⟨bay, kind⟩
  · exact ⟨bay, kind⟩

theorem Accounted.joinQueue (amount : Nat) (clipped : Bool) :
    Accounted b from_ total held (Machine.joinQueue b .raise amount clipped t) :=
  h.congr rfl rfl rfl rfl fun _ member => (mem_queueInsert member).symm.imp_right fun new => by rw [new]; exact ⟨rfl, rfl⟩

theorem Accounted.requestRaise (hold : Nat) (clipped : Bool) :
    Accounted b from_ total held (Machine.requestRaise b hold clipped t) := by
  unfold Machine.requestRaise
  split
  · refine Accounted.placeEntry ?_ _
    split
    · exact h.leaveQueue _
    · exact h.submit _
  · refine Accounted.placeEntry (Accounted.submit ?_ _) _
    split
    · exact h.replace _ _
    · exact h.joinQueue _ _

theorem Accounted.settleCharge (within : from_ ≤ total) : Accounted b from_ total held (Machine.settleCharge b t) := by
  unfold Machine.settleCharge Machine.resolvePending
  split
  · split
    · exact h.setCharge within _
    · split
      · exact (h.setCharge within _).placeEntry _
      · exact (h.setCharge within _).requestRaise _ _
  · exact h.setCharge within _

theorem Accounted.clearPending : Accounted b from_ total held (Machine.clearPending b t) := by
  unfold Machine.clearPending
  rw [modCtx_eq]
  refine h.congr (stateOf_modBay_kept rfl) ?_ ?_ rfl fun e member => .inl member
  · rw [modBay_bay_self]
  · rw [modBay_bay_self]

theorem Accounted.admitRaise (within : from_ ≤ total) {e : QueueEntry} (own : e.bay = b) :
    Accounted b from_ total held (Machine.admitRaise e t) := by
  subst own
  exact ((h.without.setCharge within _).submit _).placeEntry _

end

/-- Heads admitted one after another: each is this bay's Raise. -/
theorem Accounted.evaluateLoop (h : Accounted b from_ total held t) (within : from_ ≤ total)
    (runs : t.shelf.state = .run → ¬held) (n : Nat) : Accounted b from_ total held (Machine.evaluateLoop n t) := by
  induction n generalizing t with
  | zero => exact h
  | succ n ih =>
    cases head : headThatFits t with
    | none => rwa [evaluateLoop_none _ head]
    | some e =>
      obtain ⟨q, queue⟩ := headThatFits_cons head
      have run := ((headThatFits_iff queue).mp head).1
      rw [evaluateLoop_some n head]
      rcases h.queue with waits | own
      · exact absurd waits (runs run)
      · obtain ⟨bay, kind⟩ := own e (by rw [queue]; exact List.mem_cons_self)
        have admitted : admitEntry e t = Machine.admitRaise e t := by
          unfold admitEntry
          rw [kind]
        rw [admitted]
        refine ih (h.admitRaise within bay) fun now => runs ?_
        rwa [((Touches.refl everyBay t).admitRaise (b := b) trivial e bay).shelf] at now

/-- Entry into ON, accounted for to the end of the event. -/
theorem Accounted.enterOn (state : s.stateOf b = .settle) (stays : drainAtOn s b = none)
    (idle : s.shelf.state = .held ∨ s.queue = []) (within : (s.bay b).charge ≤ s.pool.committed) :
    Accounted b (s.bay b).charge s.pool.committed (s.shelf.state = .held) (evaluateHead (Machine.enterOn b s)) := by
  have reached : Accounted b (s.bay b).charge s.pool.committed (s.shelf.state = .held) (s.reachedOn b) := by
    constructor
    · rw [stateOf_eq, reachedOn_bay]
      rfl
    · rw [reachedOn_bay]
      rfl
    · rw [reachedOn_charge]
      exact congrArg (· + (s.bay b).charge) (congrArg Pool.committed (submitAll_pool _ _))
    · refine idle.imp_right fun empty e member => ?_
      rw [submitAll_queue] at member
      rw [show (modBay b Bay.settled s).queue = s.queue from rfl, empty] at member
      exact nomatch member
  have settled : Fixed s (modBay b Bay.settled s) := by
    refine (Fixed.refl s).modBay ?_
    exact fun _ => rfl
  have record : Fixed s (s.reachedOn b) := settled.submit _
  have fixed : Fixed s (Machine.clearPending b (Machine.settleCharge b (s.reachedOn b))) := record.settleCharge.clearPending
  have before : (s.reachedOn b).shelf = s.shelf := submitAll_shelf _ _
  have shelf : (Machine.clearPending b (Machine.settleCharge b (s.reachedOn b))).shelf = s.shelf :=
    (((Touches.refl everyBay (s.reachedOn b)).settleCharge trivial).clearPending trivial).shelf.trans before
  have resolved := (reached.settleCharge within).clearPending
  have entry : Machine.enterOn b s = Machine.clearPending b (Machine.settleCharge b (s.reachedOn b)) := by
    rw [enterOn_eq state]
    exact reconcileOn_none ((drainAtOn_congr fixed.intent fixed.troubleHold (congrArg Shelf.state shelf)).trans stays)
  rw [entry, evaluateHead_eq]
  refine resolved.evaluateLoop within (fun run held => ?_) _
  rw [shelf, held] at run
  exact nomatch run

end Sys2Proof.Machine

/-! The expiry of SETTLE, alone and with a DEMAND of the same moment. The statement O35. -/

namespace Sys2Proof.Machine

variable {s t u : State} {b : BayId} {d : Demand} {seq : Sequence} {hold : Nat} {q : List Instr} {c k : Instr}
  {b0 b1 b2 b3 : Byte}

theorem two_steps (first : exec c (s.withPending (k :: q)) = .next t) (pending : t.pending = k :: q)
    (second : exec k (t.withPending q) = .next u) : step (s.withPending (c :: k :: q)) = .next t ∧ step t = .next u := by
  refine ⟨first, ?_⟩
  rw [step, pending]
  exact second

/-- A link that takes a new message of its BOUND module. -/
structure TakesMessage (b : BayId) (seq : Sequence) (s : State) : Prop where
  hears : s.canHear b
  new : s.isNew b seq
  bound : (s.bay b).link.linkState = .bound

theorem TakesMessage.fixed (h : TakesMessage b seq s) (fixed : Fixed s t) : TakesMessage b seq t where
  hears := ⟨by rw [fixed.linkState]; exact h.hears.1, by rw [fixed.lineState]; exact h.hears.2⟩
  new := by
    unfold State.isNew
    rw [show (t.bay b).link.filterValid = (s.bay b).link.filterValid from congrArg (fun y => y.link.filterValid) (fixed b),
      show (t.bay b).link.lastSequence = (s.bay b).link.lastSequence from congrArg (fun y => y.link.lastSequence) (fixed b)]
    exact h.new
  bound := fixed.linkState.trans h.bound

theorem TakesMessage.withPending (h : TakesMessage b seq s) (q : List Instr) : TakesMessage b seq (s.withPending q) :=
  ⟨h.hears, h.new, h.bound⟩

theorem outside_quiesce (stays : drainAtOn s b = none) : s.shelf.state ≠ .quiescing := by
  intro quiescing
  rw [drainAtOn_eq, quiescing] at stays
  revert stays
  split
  · exact fun no => nomatch no
  · split
    · exact fun no => nomatch no
    · exact fun no => nomatch no

/-! ## SETTLE expires first -/

/-- A bay that has reached ON at this moment and takes a demand not above the charge of SETTLE. -/
structure LowersNow (b : BayId) (seq : Sequence) (cap hold from_ : Nat) (s : State) : Prop where
  takes : TakesMessage b seq s
  cap : (s.intentOf b).cap = cap
  state : s.stateOf b = .on
  settled : (s.bay b).settledFrom = some from_
  outside : s.shelf.state ≠ .quiescing
  budget : hold ≤ s.pool.effectiveBudget
  fits : (s.bay b).charge < hold → s.pool.committed + (hold - (s.bay b).charge) ≤ s.pool.effectiveBudget

theorem LowersNow.withPending {cap from_ : Nat} (h : LowersNow b seq cap hold from_ s) :
    LowersNow b seq cap hold from_ (s.withPending q) :=
  ⟨⟨h.takes.hears, h.takes.new, h.takes.bound⟩, h.cap, h.state, h.settled, h.outside, h.budget, h.fits⟩

/-- The entry into ON leaves the bay ready for a demand of the same moment. -/
theorem settleExpiry_lowersNow (state : s.stateOf b = .settle) (stays : drainAtOn s b = none) (takes : TakesMessage b seq s)
    (idle : s.shelf.state = .held ∨ s.queue = []) (within : (s.bay b).charge ≤ s.pool.committed)
    (budget : s.pool.committed ≤ s.pool.effectiveBudget) (low : hold ≤ (s.bay b).charge) :
    LowersNow b seq (s.intentOf b).cap hold (s.bay b).charge (finish (enterOn b s))
      ∧ (finish (enterOn b s)).pending = s.pending := by
  have touches : Touches everyBay s (evaluateHead (enterOn b s)) :=
    ((Touches.refl everyBay s).enterOn trivial).trans (touches_evaluateHead _)
  have fixed : Fixed s (evaluateHead (enterOn b s)) := (Fixed.refl s).enterOn.evaluateHead
  have holds := Accounted.enterOn state stays idle within
  have ends : finish (enterOn b s) = evaluateHead (enterOn b s) := by
    refine quiesceTest_none fun now => outside_quiesce stays ?_
    rw [← touches.shelf]
    exact now.1
  rw [ends]
  refine ⟨⟨takes.fixed fixed, congrArg (fun i => i.cap) fixed.intent, holds.state, holds.settled, ?_, ?_, fun above => ?_⟩,
    touches.pending⟩
  · rw [touches.shelf]
    exact outside_quiesce stays
  · rw [touches.effective]
    omega
  · have account := holds.account
    rw [touches.effective]
    omega

theorem LowersNow.demand {cap from_ : Nat} (h : LowersNow b seq cap d.hold from_ s) (low : d.hold ≤ from_)
    (given : d = demandOf cap b0 b1 b2 b3) : ∃ u, exec (.demand b seq [b0, b1, b2, b3]) s = .next u
      ∧ u.pending = s.pending ∧ HoldsCharge b d.hold u := by
  have stored := demandStored_bay (s := s) (b := b) (seq := seq) (payload := [b0, b1, b2, b3]) (d := d)
  generalize same : s.demandStored b seq [b0, b1, b2, b3] d = v at stored
  have shelf : v.shelf = s.shelf := by rw [← same]; rfl
  have pool : v.pool = s.pool := by rw [← same]; rfl
  have touches := (Touches.refl everyBay v).onDemand (b := b) trivial d
  have holds : HoldsCharge b d.hold (onDemand b d v) := by
    refine onDemand_holds (from_ := from_) ?_ ?_ ?_ low ?_ fun above => ?_
    · rw [stateOf_eq, stored]
      exact h.state
    · rw [stored]
      exact h.takes.bound
    · rw [stored]
      exact h.settled
    · rw [pool]
      exact h.budget
    · rw [pool, stored] at *
      exact h.fits above
  obtain ⟨final, pending⟩ := holds.finish (by rw [touches.shelf, shelf]; exact h.outside)
  have executed := exec_demand (d := d) b0 b1 b2 b3 h.takes.hears h.takes.new h.takes.bound (by rw [h.cap]; exact given)
  rw [same] at executed
  refine ⟨_, executed, ?_, final⟩
  rw [pending, touches.pending, ← same]
  rfl

theorem WaitsToRaise.finish {charge amount : Nat} (h : WaitsToRaise b charge amount s) (held : s.shelf.state = .held) :
    WaitsToRaise b charge amount (finish s) := by
  rwa [finish_idle (.inl held) (by rw [held]; decide)]

/-- A bay that has reached ON in HELD at this moment and takes a demand above the charge of SETTLE. -/
structure RaisesNow (b : BayId) (seq : Sequence) (cap hold from_ charge : Nat) (s : State) : Prop where
  takes : TakesMessage b seq s
  cap : (s.intentOf b).cap = cap
  state : s.stateOf b = .on
  settled : (s.bay b).settledFrom = some from_
  charge : (s.bay b).charge = charge
  held : s.shelf.state = .held
  budget : hold ≤ s.pool.effectiveBudget
  entries : entriesOf s.queue b = []

theorem RaisesNow.withPending {cap from_ charge : Nat} (h : RaisesNow b seq cap hold from_ charge s) :
    RaisesNow b seq cap hold from_ charge (s.withPending q) :=
  ⟨h.takes.withPending q, h.cap, h.state, h.settled, h.charge, h.held, h.budget, h.entries⟩

theorem settleExpiry_raisesNow (state : s.stateOf b = .settle) (stays : drainAtOn s b = none)
    (free : entriesOf s.queue b = []) (takes : TakesMessage b seq s) (held : s.shelf.state = .held)
    (unasked : (s.bay b).ctx.pending = false) (budget : hold ≤ s.pool.effectiveBudget) :
    RaisesNow b seq (s.intentOf b).cap hold (s.bay b).charge (s.bay b).grantedHold (finish (enterOn b s))
      ∧ (finish (enterOn b s)).pending = s.pending := by
  have entered := enterOn_stays state unasked stays
  have fixed := (Fixed.refl s).enterOn (b := b)
  have touches := (Touches.refl everyBay s).enterOn (b := b) trivial
  have bay : (enterOn b s).bay b = { (s.bay b).settled with charge := (s.bay b).grantedHold } := by
    rw [entered, submitAll_bay, setCharge_bay_self, modBay_bay_self]
  have queue : (enterOn b s).queue = s.queue := by
    rw [entered, submitAll_queue]
    rfl
  have still : (enterOn b s).shelf.state = .held := by rw [touches.shelf, held]
  rw [finish_idle (.inl still) (by rw [still]; decide)]
  refine ⟨⟨takes.fixed fixed, congrArg (fun i => i.cap) fixed.intent, ?_, ?_, ?_, still, ?_, ?_⟩, touches.pending⟩
  · rw [stateOf_eq, bay]
    rfl
  · rw [bay]
    rfl
  · rw [bay]
  · rw [touches.effective]
    exact budget
  · rw [queue]
    exact free

/-- The Raise of such a demand waits. -/
theorem RaisesNow.demand {cap from_ charge : Nat} (h : RaisesNow b seq cap d.hold from_ charge s)
    (given : d = demandOf cap b0 b1 b2 b3) (high : from_ < d.hold) (above : charge < d.hold) :
    ∃ u, exec (.demand b seq [b0, b1, b2, b3]) s = .next u ∧ u.pending = s.pending
      ∧ WaitsToRaise b charge (d.hold - charge) u := by
  obtain ⟨takes, cap, state, settled, rfl, held, budget, free⟩ := h
  rw [← cap] at given
  have executed := exec_demand (d := d) b0 b1 b2 b3 takes.hears takes.new takes.bound given
  have stored := demandStored_bay (s := s) (b := b) (seq := seq) (payload := [b0, b1, b2, b3]) (d := d)
  generalize same : s.demandStored b seq [b0, b1, b2, b3] d = v at stored executed
  have shelf : v.shelf = s.shelf := by rw [← same]; rfl
  have pool : v.pool = s.pool := by rw [← same]; rfl
  have queue : v.queue = s.queue := by rw [← same]; rfl
  have now : v.stateOf b = .on := by rw [stateOf_eq, stored]; exact state
  have charge : (v.bay b).charge = (s.bay b).charge := by rw [stored]; rfl
  have touches := (Touches.refl everyBay v).onDemand (b := b) trivial d
  have taken : onDemand b d v = requestRaise b d.hold d.clipped v := by
    rw [onDemand_raises now (by rw [charge]; exact above)]
    refine takeRaise_waits (by rw [charge]; exact above) (.inl fun r from_r => ?_)
    rw [stored] at from_r
    obtain rfl : from_ = r := Option.some.inj (settled.symm.trans from_r)
    exact high
  have waits := requestRaise_waits (s := v) (b := b) (hold := d.hold) (clipped := d.clipped) now
    (by rw [stored]; exact takes.bound) (by rw [charge]; exact above) (by rw [pool]; exact budget) (by rw [queue]; exact free)
  rw [charge, ← taken] at waits
  have still : (onDemand b d v).shelf.state = .held := by rw [touches.shelf, shelf, held]
  refine ⟨_, executed, ?_, waits.finish still⟩
  rw [finish_idle (.inl still) (by rw [still]; decide), touches.pending, ← same]
  rfl

/-! ## The DEMAND is heard first -/

/-- A demand heard in SETTLE is pending. -/
def State.demandPending (b : BayId) (seq : Sequence) (payload : List Byte) (d : Demand) (s : State) : State :=
  modBay b (Bay.withPending true) (s.demandStored b seq payload d)

theorem demandPending_bay {payload : List Byte} : (s.demandPending b seq payload d).bay b
    = { (s.bay b).heard 2 seq payload with ctx := { (s.bay b).ctx with demand := some d, pending := true } } := by
  rw [State.demandPending, modBay_bay_self, demandStored_bay]
  rfl

theorem demand_pends (takes : TakesMessage b seq s) (given : d = demandOf (s.intentOf b).cap b0 b1 b2 b3)
    (state : s.stateOf b = .settle) (idle : s.shelf.state = .held ∨ s.queue = []) (outside : s.shelf.state ≠ .quiescing) :
    exec (.demand b seq [b0, b1, b2, b3]) s = .next (s.demandPending b seq [b0, b1, b2, b3] d) := by
  have now : (s.demandStored b seq [b0, b1, b2, b3] d).stateOf b = .settle := by
    rw [stateOf_eq, demandStored_bay]
    exact state
  rw [exec_demand (d := d) b0 b1 b2 b3 takes.hears takes.new takes.bound given, onDemand_rising (by rw [now]; decide)]
  exact congrArg Host.Outcome.next (finish_idle (s := s.demandPending b seq [b0, b1, b2, b3] d) idle outside)

/-- A bay in SETTLE whose timer has run out, with a demand pending and nothing that drains it. -/
structure PendsNow (b : BayId) (d : Demand) (s : State) : Prop where
  state : s.stateOf b = .settle
  timer : (s.bay b).ctx.phaseTimer = 0
  waits : (s.bay b).ctx.pending = true
  demand : (s.bay b).ctx.demand = some d
  stays : drainAtOn s b = none
  bound : (s.bay b).link.linkState = .bound
  entries : entriesOf s.queue b = []

theorem PendsNow.withPending (h : PendsNow b d s) : PendsNow b d (s.withPending q) :=
  ⟨h.state, h.timer, h.waits, h.demand, h.stays, h.bound, h.entries⟩

theorem demandPending_pendsNow {payload : List Byte} (state : s.stateOf b = .settle) (timer : (s.bay b).ctx.phaseTimer = 0)
    (stays : drainAtOn s b = none) (bound : (s.bay b).link.linkState = .bound) (free : entriesOf s.queue b = []) :
    PendsNow b d (s.demandPending b seq payload d) := by
  have bay := demandPending_bay (s := s) (b := b) (seq := seq) (payload := payload) (d := d)
  constructor
  · rw [stateOf_eq, bay]
    exact state
  · rw [bay]
    exact timer
  · rw [bay]
  · rw [bay]
  · refine (drainAtOn_congr (s := s) (t := s.demandPending b seq payload d) ?_ ?_ rfl).trans stays
    · rw [intentOf_eq, bay]
      rfl
    · rw [bay]
  · rw [bay]
    exact bound
  · exact free

/-- The demand lowers the charge as the bay reaches ON. -/
theorem PendsNow.lowers (h : PendsNow b d s) (low : d.hold ≤ (s.bay b).charge) :
    exec (.settleExpiry b) s = .next (finish (enterOn b s)) ∧ (finish (enterOn b s)).pending = s.pending
      ∧ HoldsCharge b d.hold (finish (enterOn b s)) := by
  have holds : HoldsCharge b d.hold (enterOn b s) := by
    rw [enterOn_granted h.state h.waits h.demand h.stays low h.bound]
    constructor
    · rw [stateOf_submitAll, stateOf_setCharge, stateOf_modBay]
      rfl
    · rw [submitAll_bay, setCharge_bay_self]
    · rw [submitAll_queue]
      exact h.entries
    · rw [submitAll_bay, setCharge_bay_self, modBay_bay_self]
      exact mem_txPlace _ (fun own => nomatch own)
  have touches := (Touches.refl everyBay s).enterOn (b := b) trivial
  obtain ⟨final, pending⟩ := holds.finish (by rw [touches.shelf]; exact outside_quiesce h.stays)
  exact ⟨exec_settleExpiry h.state h.timer, pending.trans touches.pending, final⟩

/-- The demand asks for a raise as the bay reaches ON in HELD. -/
theorem PendsNow.raises (h : PendsNow b d s) (held : s.shelf.state = .held) (high : (s.bay b).charge < d.hold)
    (granted : (s.bay b).grantedHold ≤ (s.bay b).charge) (budget : d.hold ≤ s.pool.effectiveBudget) :
    exec (.settleExpiry b) s = .next (finish (enterOn b s)) ∧ (finish (enterOn b s)).pending = s.pending
      ∧ WaitsToRaise b (s.bay b).grantedHold (d.hold - (s.bay b).grantedHold) (finish (enterOn b s)) := by
  have waits : WaitsToRaise b (s.bay b).grantedHold (d.hold - (s.bay b).grantedHold) (enterOn b s) := by
    rw [enterOn_raises h.state h.waits h.demand h.stays high]
    generalize entered : submitAll [Record.state b .settle .on .settled false]
      (setCharge b (s.bay b).grantedHold (modBay b Bay.settled s)) = t
    have bay : t.bay b = { (s.bay b).settled with charge := (s.bay b).grantedHold } := by
      rw [← entered, submitAll_bay, setCharge_bay_self, modBay_bay_self]
    have pool : t.pool.effectiveBudget = s.pool.effectiveBudget := by rw [← entered, submitAll_pool]; rfl
    have queue : t.queue = s.queue := by rw [← entered, submitAll_queue]; rfl
    have asked := requestRaise_waits (s := t) (b := b) (hold := d.hold) (clipped := d.clipped)
      (by rw [stateOf_eq, bay]; rfl) (by rw [bay]; exact h.bound) (by rw [bay]; exact Nat.lt_of_le_of_lt granted high)
      (by rw [pool]; exact budget) (by rw [queue]; exact h.entries)
    rw [bay] at asked
    obtain ⟨state, charge, entry, listed⟩ := asked
    refine ⟨(stateOf_modBay_kept rfl).trans state, ?_, entry, ?_⟩
    · rw [modBay_bay_self]
      exact charge
    · rw [modBay_bay_self]
      exact listed
  have touches := (Touches.refl everyBay s).enterOn (b := b) trivial
  have still : (enterOn b s).shelf.state = .held := by rw [touches.shelf, held]
  refine ⟨exec_settleExpiry h.state h.timer, ?_, waits.finish still⟩
  rw [finish_idle (.inl still) (by rw [still]; decide), touches.pending]

/-! ## Both orders -/

section
variable (state : s.stateOf b = .settle) (timer : (s.bay b).ctx.phaseTimer = 0) (stays : drainAtOn s b = none)
  (free : entriesOf s.queue b = []) (takes : TakesMessage b seq s)
  (given : d = demandOf (s.intentOf b).cap b0 b1 b2 b3)
include state timer stays free takes given

/-- A demand not above the charge of SETTLE becomes the charge in either order. -/
theorem both_orders_lower (idle : s.shelf.state = .held ∨ s.queue = []) (within : (s.bay b).charge ≤ s.pool.committed)
    (budget : s.pool.committed ≤ s.pool.effectiveBudget) (low : d.hold ≤ (s.bay b).charge) :
    ∀ commands ∈ [[Instr.settleExpiry b, .demand b seq [b0, b1, b2, b3]], [Instr.demand b seq [b0, b1, b2, b3], .settleExpiry b]],
      ∃ t u, step (s.withPending (commands ++ q)) = .next t ∧ step t = .next u ∧ u.pending = q ∧ HoldsCharge b d.hold u := by
  have outside := outside_quiesce stays
  refine List.forall_mem_cons.mpr ⟨?_, List.forall_mem_singleton.mpr ?_⟩
  · obtain ⟨ready, pending⟩ := settleExpiry_lowersNow (s := s.withPending (.demand b seq [b0, b1, b2, b3] :: q)) (hold := d.hold)
      state stays (takes.withPending _) idle within budget low
    obtain ⟨u, second, done, holds⟩ := (ready.withPending (q := q)).demand low given
    obtain ⟨one, two⟩ := two_steps (exec_settleExpiry state timer) pending second
    exact ⟨_, u, one, two, done, holds⟩
  · have first := demand_pends (s := s.withPending (.settleExpiry b :: q)) (takes.withPending _) given state idle outside
    have ready := demandPending_pendsNow (s := s.withPending (.settleExpiry b :: q)) (seq := seq) (d := d)
      (payload := [b0, b1, b2, b3]) state timer stays takes.bound free
    obtain ⟨second, done, holds⟩ := (ready.withPending (q := q)).lowers (by
      rw [show ∀ t : State, (t.withPending q).bay b = t.bay b from fun _ => rfl, demandPending_bay]
      exact low)
    obtain ⟨one, two⟩ := two_steps first rfl second
    exact ⟨_, _, one, two, done, holds⟩

/-- A demand above the charge of SETTLE waits as a Raise in either order. -/
theorem both_orders_raise (held : s.shelf.state = .held) (unasked : (s.bay b).ctx.pending = false)
    (granted : (s.bay b).grantedHold ≤ (s.bay b).charge) (high : (s.bay b).charge < d.hold)
    (budget : d.hold ≤ s.pool.effectiveBudget) :
    ∀ commands ∈ [[Instr.settleExpiry b, .demand b seq [b0, b1, b2, b3]], [Instr.demand b seq [b0, b1, b2, b3], .settleExpiry b]],
      ∃ t u, step (s.withPending (commands ++ q)) = .next t ∧ step t = .next u ∧ u.pending = q
        ∧ WaitsToRaise b (s.bay b).grantedHold (d.hold - (s.bay b).grantedHold) u := by
  have outside := outside_quiesce stays
  refine List.forall_mem_cons.mpr ⟨?_, List.forall_mem_singleton.mpr ?_⟩
  · obtain ⟨ready, pending⟩ := settleExpiry_raisesNow (s := s.withPending (.demand b seq [b0, b1, b2, b3] :: q))
      (hold := d.hold) state stays free (takes.withPending _) held unasked budget
    obtain ⟨u, second, done, waits⟩ := (ready.withPending (q := q)).demand given high (Nat.lt_of_le_of_lt granted high)
    obtain ⟨one, two⟩ := two_steps (exec_settleExpiry state timer) pending second
    exact ⟨_, u, one, two, done, waits⟩
  · have first := demand_pends (s := s.withPending (.settleExpiry b :: q)) (takes.withPending _) given state (.inl held) outside
    have ready := demandPending_pendsNow (s := s.withPending (.settleExpiry b :: q)) (seq := seq) (d := d)
      (payload := [b0, b1, b2, b3]) state timer stays takes.bound free
    have bay : (((s.withPending (.settleExpiry b :: q)).demandPending b seq [b0, b1, b2, b3] d).withPending q).bay b = _ :=
      demandPending_bay
    obtain ⟨second, done, waits⟩ := (ready.withPending (q := q)).raises held (by rw [bay]; exact high)
      (by rw [bay]; exact granted) budget
    rw [bay] at waits
    obtain ⟨one, two⟩ := two_steps first rfl second
    exact ⟨_, _, one, two, done, waits⟩

end

/-- Settles O35: what is pending resolves as the bay reaches ON, and a DEMAND of the same moment comes to the same charge
before and after it. -/
theorem settleEnds : Obligations.SettleEnds := by
  unfold Obligations.SettleEnds
  intro s b state timer
  have expires := exec_settleExpiry state timer
  refine ⟨expires, fun free stays => ?_, fun d waits demand stays within bound => ?_,
    fun d waits demand stays within unbound => ?_, fun d waits demand stays above => ?_, fun r free drains => ?_,
    fun d r waits demand drains => ?_, ?_, drainAtOn_eq s b⟩
  · rw [expires, enterOn_stays state free stays]
  · rw [expires, enterOn_granted state waits demand stays within bound]
    rfl
  · rw [expires, enterOn_unbound state waits demand stays within unbound]
  · rw [expires, enterOn_raises state waits demand stays above]
  · rw [expires, enterOn_drains state free drains]
  · rw [expires, enterOn_pending_drains state waits demand drains]
  · intro seq b0 b1 b2 b3 hold q stays free hears new bound figure
    have takes : TakesMessage b seq s := ⟨hears, new, bound⟩
    obtain rfl : hold = (demandOf (s.intentOf b).cap b0 b1 b2 b3).hold := figure
    refine fun commands order => ⟨fun idle within budget low => ?_, fun held unasked granted high budget => ?_⟩
    · obtain ⟨t, u, one, two, done, holds⟩ := both_orders_lower state timer stays free takes rfl idle within budget low
        commands order
      exact ⟨t, u, one, two, done, holds.state, holds.charge, holds.entries, holds.listed⟩
    · obtain ⟨t, u, one, two, done, waits⟩ := both_orders_raise state timer stays free takes rfl held unasked granted high
        budget commands order
      obtain ⟨e, entries, kind, amount⟩ := waits.entry
      exact ⟨t, u, e, one, two, done, waits.state, waits.charge, entries, kind, amount, waits.listed⟩

end Sys2Proof.Machine
